-- ==== Sys2Proof/Word.lean ====
section
/-! DEFINITION. The word types of the DFC-6 and their plainest arithmetic (00_scope, Units and number conventions). -/

namespace Sys2Proof

/-- One byte as it is sent on the Dostra link. -/
abbrev Byte := BitVec 8

/-- A signed 48-bit position, raw count, offset or Abbe value, in counts; sums wrap modulo 2^48
(00_scope, Position). -/
abbrev Position := BitVec 48

/-- A counter called saturating stops at its maximum (00_scope, Numbers). -/
def saturate (top n : Nat) : Nat := min top n

end Sys2Proof
end

