-- ==== Sys2Proof/Config.lean ====
section
/-! DEFINITION. The constants the spec fixes for the part. The spec leaves no result of a command open, so there is no
free value here. -/

namespace Sys2Proof.Config

/-- Records the graduation table holds at most (R51). -/
def tableCapacity : Nat := 2048

/-- Sightings the queue holds at most (R71). -/
def queueDepth : Nat := 6

/-- Mark numbers run from 0 to 4095 (Table 3-1). -/
def markLimit : Nat := 4096

/-- Mark numbers of one segment (R142). -/
def segmentSize : Nat := 128

/-- Ceiling of the qualification counter (R5). -/
def qualificationCeiling : Nat := 4096

/-- Ceiling of the 8-bit tallies of channels and records (R11, R43, R45, R46). -/
def tallyCeiling : Nat := 255

/-- Ceiling of the event unit's counters (R152). -/
def counterCeiling : Nat := 65535

/-- Largest maximum span of a line input, 2^24 (Table 2-1). -/
def spanCeiling : Nat := 16777216

/-- Link address of the part whose address straps read 0 (R160). -/
def baseAddress : BitVec 7 := 0x48

/-- Family code and revision in the IDENTIFY response (Table 12-3). -/
def familyCode : Nat := 0xDC06
def revision : Nat := 0x01

end Sys2Proof.Config
end

