-- ==== Sys2Proof/Syntax.lean ====
section
/-! DEFINITION. The commands of the DFC-6: one constructor of `Instr` per row of spec/opcode_table.json, with the row's
operands. A request carries its parameter bytes exactly as chapter 12 lays them out, so that a wrong length and a value
outside Table 12-2 are commands like any other (R163, R172). -/

namespace Sys2Proof

/-- One of the six fringe channels (R1). -/
abbrev ChannelIx := Fin 6

/-- A line input (chapter 2). -/
inductive LineId
  | l1
  | l2
deriving DecidableEq, Repr

/-- The level at the CAL strap: TIED to ground, or OPEN (R143). -/
inductive CalState
  | tied
  | untied
deriving DecidableEq, Repr

/-- The levels at the strap pins at the moment they are sampled (R143, R160). -/
structure Straps where
  address : BitVec 3
  cal : CalState
deriving DecidableEq, Repr

/-- What was wrong with a received request (R162). -/
inductive LinkFaultCause
  | parity
  | check
deriving DecidableEq, Repr

/-- In which order the happenings of one event are taken, where the spec allows each order: the formation of a sighting, and
the end crossing or abort cause that the same event brings the pass controller (R38, R60, R101); `passBetween` takes the cause
after the first and before the second of two formations. DESIGN CHOICE (log 9). -/
inductive MeetOrder
  | formationFirst
  | passFirst
  | passBetween
deriving DecidableEq, Repr

/-- How much of an answer the host takes (R164, R167): every byte acknowledged through the check byte; the byte at an index
declined; or the clock stopped after so many bytes, with the part still sending (log 7). -/
inductive ReadExtent
  | complete
  | declinedAt (n : Nat)
  | pausedAfter (n : Nat)
deriving DecidableEq, Repr

/-- The request codes of Table 12-3. -/
def requestCodes : List Byte :=
  [0x01, 0x02, 0x10, 0x11, 0x12, 0x13, 0x14, 0x15, 0x18, 0x19, 0x20, 0x21, 0x22, 0x23, 0x24, 0x25, 0x26,
   0x30, 0x31, 0x32, 0x38, 0x40, 0x41, 0x42, 0x48, 0x49, 0x4A]

/-- A request code that names no request (R163). -/
structure UnknownCode where
  code : Byte
  unlisted : requestCodes.contains code = false
deriving DecidableEq, Repr

/-- The commands: one constructor per row of spec/opcode_table.json, in the table's order. -/
inductive Instr
  /-- SAMPLE_EVENT (R1): increment in counts before sense, amplitude 0 to 255. -/
  | sampleEvent (channel : ChannelIx) (increment : Int) (amplitude : Fin 256) (first : MeetOrder)
  /-- REFERENCE_ABSENCE_TIMEOUT (R15). -/
  | referenceAbsenceTimeout (first : MeetOrder)
  /-- REFERENCE_EDGE (R16). -/
  | referenceEdge
  /-- LEADING_EDGE (R29): `phase` is φ of R21. -/
  | leadingEdge (input : LineId) (phase : Fin 256)
  /-- TRAILING_EDGE (R33): `phase` is φ of R21. -/
  | trailingEdge (input : LineId) (phase : Fin 256)
  /-- MATCH_COMPLETION (R75). -/
  | matchCompletion
  /-- DATUM_OFFSET_CLAIM (R86). -/
  | datumOffsetClaim
  /-- ARM_SWEEP_COMPLETION (R99). -/
  | armSweepCompletion
  /-- CLOSE_SWEEP_COMPLETION (R112). -/
  | closeSweepCompletion
  /-- ABORT_SWEEP_COMPLETION (R113). -/
  | abortSweepCompletion
  /-- TABLE_OPERATION_COMPLETION (R61). -/
  | tableOperationCompletion
  /-- PASS_TIMER_EXPIRY (R102). -/
  | passTimerExpiry
  /-- SET_AXIS (R17). -/
  | setAxis (params : List Byte) (first : MeetOrder)
  /-- TRACK_AXIS (R7). -/
  | trackAxis (params : List Byte)
  /-- RESTART_AXIS (R10). -/
  | restartAxis (params : List Byte)
  /-- ZERO_AXIS (R13). -/
  | zeroAxis (params : List Byte)
  /-- READ_AXES (R19). -/
  | readAxes (params : List Byte)
  /-- SET_MATCH (R22). -/
  | setMatch (params : List Byte)
  /-- SET_LINE (R27). -/
  | setLine (params : List Byte)
  /-- READ_LINES (R30). -/
  | readLines (params : List Byte)
  /-- ENROL (R118). -/
  | enrol (params : List Byte)
  /-- ENROL_RUN (R121). -/
  | enrolRun (params : List Byte)
  /-- AMEND (R124). -/
  | amend (params : List Byte)
  /-- RETIRE (R128). -/
  | retire (params : List Byte)
  /-- REOPEN (R130). -/
  | reopen (params : List Byte)
  /-- LOOKUP (R131). -/
  | lookup (params : List Byte)
  /-- READ_RANGE (R132). -/
  | readRange (params : List Byte)
  /-- BEGIN_PASS (R94). -/
  | beginPass (params : List Byte)
  /-- ABORT_PASS (R106). -/
  | abortPass (params : List Byte)
  /-- READ_PASS (R115). -/
  | readPass (params : List Byte)
  /-- READ_GROUPS (R141). -/
  | readGroups (params : List Byte)
  /-- PROTECT (R144). -/
  | protect (params : List Byte)
  /-- UNPROTECT (R145). -/
  | unprotect (params : List Byte)
  /-- READ_PROTECT (R148). -/
  | readProtect (params : List Byte)
  /-- READ_EVENTS (R156). -/
  | readEvents (params : List Byte)
  /-- CLEAR_EVENTS (R157). -/
  | clearEvents (params : List Byte)
  /-- SET_NOTICE (R158). -/
  | setNotice (params : List Byte)
  /-- IDENTIFY (R169). -/
  | identify (params : List Byte)
  /-- RESET (R170). -/
  | reset (params : List Byte)
  /-- UNKNOWN_REQUEST (R163). -/
  | unknownRequest (code : UnknownCode) (params : List Byte)
  /-- LINK_FAULT (R162). -/
  | linkFault (cause : LinkFaultCause)
  /-- LINK_START (R161): a START or repeated start, and the address byte after it where this command carries it; `none`
  leaves the address byte to the command that follows (log 5). -/
  | linkStart (address : Option Byte)
  /-- LINK_STOP (R161): `straps` are read only where an armed PART reset takes effect (R170, R143). -/
  | linkStop (straps : Straps)
  /-- RESPONSE_READ (R164). -/
  | responseRead (extent : ReadExtent)
  /-- POLL (R167). -/
  | poll (extent : ReadExtent)
  /-- NOTICE_START (R166, R168): `rival` is the lowest address byte that another party sends at the same moment. -/
  | noticeStart (rival : Option Byte)
  /-- NOTICE_WITHDRAW (R166). -/
  | noticeWithdraw
  /-- POWER_ON_RESET (R171). -/
  | powerOnReset
  /-- POWER_ON_HOLD_END (R171). -/
  | powerOnHoldEnd (straps : Straps)
  /-- PIN_RESET_ASSERT (R171). -/
  | pinResetAssert
  /-- PIN_RESET_RELEASE (R171). -/
  | pinResetRelease (straps : Straps)
  /-- SUPPLY_FAILURE (R171). -/
  | supplyFailure
deriving DecidableEq, Repr

end Sys2Proof
end

