-- ==== Sys2Proof/WellFormed.lean ====
section
/-! DEFINITION. Which commands can come to the part at all. An ill-formed command is none of the spec's; the meanings
compute on it all the same, and claims that need these bounds say so (log 28). -/

namespace Sys2Proof

/-- A phase increment lies between −511 and +511 (R1). -/
def incrementWellFormed (increment : Int) : Bool := decide (-511 ≤ increment ∧ increment ≤ 511)

/-- The length byte counts at most 255 parameter bytes (R162). -/
def paramsWellFormed (params : List Byte) : Bool := decide (params.length ≤ 255)

/-- The checks of a command's operands that their types do not already make. -/
def Instr.wellFormed : Instr → Bool
  | .sampleEvent _ increment _ _ => incrementWellFormed increment
  | .referenceAbsenceTimeout _ => true
  | .referenceEdge => true
  | .leadingEdge _ _ => true
  | .trailingEdge _ _ => true
  | .matchCompletion => true
  | .datumOffsetClaim => true
  | .armSweepCompletion => true
  | .closeSweepCompletion => true
  | .abortSweepCompletion => true
  | .tableOperationCompletion => true
  | .passTimerExpiry => true
  | .setAxis params _ => paramsWellFormed params
  | .trackAxis params => paramsWellFormed params
  | .restartAxis params => paramsWellFormed params
  | .zeroAxis params => paramsWellFormed params
  | .readAxes params => paramsWellFormed params
  | .setMatch params => paramsWellFormed params
  | .setLine params => paramsWellFormed params
  | .readLines params => paramsWellFormed params
  | .enrol params => paramsWellFormed params
  | .enrolRun params => paramsWellFormed params
  | .amend params => paramsWellFormed params
  | .retire params => paramsWellFormed params
  | .reopen params => paramsWellFormed params
  | .lookup params => paramsWellFormed params
  | .readRange params => paramsWellFormed params
  | .beginPass params => paramsWellFormed params
  | .abortPass params => paramsWellFormed params
  | .readPass params => paramsWellFormed params
  | .readGroups params => paramsWellFormed params
  | .protect params => paramsWellFormed params
  | .unprotect params => paramsWellFormed params
  | .readProtect params => paramsWellFormed params
  | .readEvents params => paramsWellFormed params
  | .clearEvents params => paramsWellFormed params
  | .setNotice params => paramsWellFormed params
  | .identify params => paramsWellFormed params
  | .reset params => paramsWellFormed params
  | .unknownRequest _ params => paramsWellFormed params
  | .linkFault _ => true
  | .linkStart _ => true
  | .linkStop _ => true
  | .responseRead _ => true
  | .poll _ => true
  | .noticeStart _ => true
  | .noticeWithdraw => true
  | .powerOnReset => true
  | .powerOnHoldEnd _ => true
  | .pinResetAssert => true
  | .pinResetRelease _ => true
  | .supplyFailure => true

end Sys2Proof
end

