-- ==== Sys2Proof/Decode.lean ====
section
/-! DEFINITION. `decodeTableWord` (no row of spec/opcode_table.json gives bits, so no word spells a command), and the link
interface's own decoding: the nine-bit bytes of a received request, their parity and check byte, and the command they are
(R162, R163, R165), with the sender's encoding beside it. -/

namespace Sys2Proof

/-- The command a word spells by the table's bits: the table gives no row any bits. -/
def decodeTableWord (_nbits _w : Nat) : Option Instr := none

/-- One bit into the CRC-8 register, generator x^8 + x^5 + x^4 + 1, most significant bit first (R165). -/
def crcBit (crc : Byte) (bit : Bool) : Byte :=
  if crc.msb != bit then (crc <<< 1) ^^^ 0x31#8 else crc <<< 1

/-- One byte into the CRC-8 register, most significant bit first (R165). -/
def crcByte (crc b : Byte) : Byte :=
  [7, 6, 5, 4, 3, 2, 1, 0].foldl (fun c i => crcBit c (b.getLsbD i)) crc

/-- The check value of bytes in the order sent, starting from 0xFF (R165). -/
def crc8 (bytes : List Byte) : Byte := bytes.foldl crcByte 0xFF#8

/-- A byte of a request with its ninth bit, the parity bit (R162). -/
structure ParityByte where
  data : Byte
  parity : Bool
deriving DecidableEq, Repr

/-- Whether a byte holds an odd number of ones. -/
def oddOnes (b : Byte) : Bool :=
  [0, 1, 2, 3, 4, 5, 6, 7].foldl (fun acc i => acc != b.getLsbD i) false

/-- The nine bits together hold an odd number of ones (R162). -/
def ParityByte.sound (w : ParityByte) : Bool := oddOnes w.data != w.parity

/-- A byte with the parity bit the host sends (R162). -/
def ParityByte.of (b : Byte) : ParityByte := ⟨b, !oddOnes b⟩

/-- What the bytes received after an address byte with W come to (R162). -/
inductive Received
  /-- A START or STOP may still cut the request short: its check byte has not come. -/
  | unfinished
  | parityError
  | checkError
  | request (code : Byte) (params : List Byte)
deriving DecidableEq, Repr

/-- The parameter bytes and the check byte, `len` parameters being announced: parity first, then the check value of address
byte, code, length byte and parameters (R162). -/
def receiveBody (address code len : Byte) (body : List ParityByte) : Received :=
  let due := body.take (len.toNat + 1)
  if due.any (fun w => !w.sound) then .parityError
  else
    let bytes := due.map ParityByte.data
    let params := bytes.take len.toNat
    match bytes.drop len.toNat with
    | [] => .unfinished
    | check :: _ => if crc8 (address :: code :: len :: params) = check then .request code params else .checkError

/-- The bytes received in RECEIVING, judged as R162 orders it: code, length byte, parameters, check byte. Bytes after the
check byte have no effect (R162, TAKEN). -/
def receiveFrame (address : Byte) : List ParityByte → Received
  | [] => .unfinished
  | code :: rest =>
    if !code.sound then .parityError
    else
      match rest with
      | [] => .unfinished
      | len :: body => if !len.sound then .parityError else receiveBody address code.data len.data body

/-- The bytes the host sends for a request: code, length byte, parameters, check byte, each with its parity bit
(R162, R165). -/
def sendFrame (address code : Byte) (params : List Byte) : List ParityByte :=
  let head := code :: BitVec.ofNat 8 params.length :: params
  (head ++ [crc8 (address :: head)]).map ParityByte.of

/-- The command a request code and its parameter bytes are (Table 12-3); a code the table does not list is UNKNOWN_REQUEST
(R163). `first` is the order SET AXIS leaves open (log 9). -/
def requestCommand (first : MeetOrder) (code : Byte) (params : List Byte) : Option Instr :=
  if unlisted : requestCodes.contains code = false then some (.unknownRequest ⟨code, unlisted⟩ params)
  else
    match code.toNat with
    | 0x01 => some (.identify params)
    | 0x02 => some (.reset params)
    | 0x10 => some (.setAxis params first)
    | 0x11 => some (.trackAxis params)
    | 0x12 => some (.restartAxis params)
    | 0x13 => some (.zeroAxis params)
    | 0x14 => some (.readAxes params)
    | 0x15 => some (.setMatch params)
    | 0x18 => some (.setLine params)
    | 0x19 => some (.readLines params)
    | 0x20 => some (.enrol params)
    | 0x21 => some (.enrolRun params)
    | 0x22 => some (.amend params)
    | 0x23 => some (.retire params)
    | 0x24 => some (.reopen params)
    | 0x25 => some (.lookup params)
    | 0x26 => some (.readRange params)
    | 0x30 => some (.beginPass params)
    | 0x31 => some (.abortPass params)
    | 0x32 => some (.readPass params)
    | 0x38 => some (.readGroups params)
    | 0x40 => some (.protect params)
    | 0x41 => some (.unprotect params)
    | 0x42 => some (.readProtect params)
    | 0x48 => some (.readEvents params)
    | 0x49 => some (.clearEvents params)
    | 0x4A => some (.setNotice params)
    | _ => none

/-- The command that the bytes received after `address` with W are, where they come to one (R162, R163). -/
def decodeFrame (first : MeetOrder) (address : Byte) (bytes : List ParityByte) : Option Instr :=
  match receiveFrame address bytes with
  | .unfinished => none
  | .parityError => some (.linkFault .parity)
  | .checkError => some (.linkFault .check)
  | .request code params => requestCommand first code params

/-- The request a command is, as the host frames it: its code and parameter bytes (Table 12-3); `none` for a command that is
no request. -/
def Instr.request? : Instr → Option (Byte × List Byte)
  | .sampleEvent _ _ _ _ => none
  | .referenceAbsenceTimeout _ => none
  | .referenceEdge => none
  | .leadingEdge _ _ => none
  | .trailingEdge _ _ => none
  | .matchCompletion => none
  | .datumOffsetClaim => none
  | .armSweepCompletion => none
  | .closeSweepCompletion => none
  | .abortSweepCompletion => none
  | .tableOperationCompletion => none
  | .passTimerExpiry => none
  | .setAxis params _ => some (0x10, params)
  | .trackAxis params => some (0x11, params)
  | .restartAxis params => some (0x12, params)
  | .zeroAxis params => some (0x13, params)
  | .readAxes params => some (0x14, params)
  | .setMatch params => some (0x15, params)
  | .setLine params => some (0x18, params)
  | .readLines params => some (0x19, params)
  | .enrol params => some (0x20, params)
  | .enrolRun params => some (0x21, params)
  | .amend params => some (0x22, params)
  | .retire params => some (0x23, params)
  | .reopen params => some (0x24, params)
  | .lookup params => some (0x25, params)
  | .readRange params => some (0x26, params)
  | .beginPass params => some (0x30, params)
  | .abortPass params => some (0x31, params)
  | .readPass params => some (0x32, params)
  | .readGroups params => some (0x38, params)
  | .protect params => some (0x40, params)
  | .unprotect params => some (0x41, params)
  | .readProtect params => some (0x42, params)
  | .readEvents params => some (0x48, params)
  | .clearEvents params => some (0x49, params)
  | .setNotice params => some (0x4A, params)
  | .identify params => some (0x01, params)
  | .reset params => some (0x02, params)
  | .unknownRequest code params => some (code.code, params)
  | .linkFault _ => none
  | .linkStart _ => none
  | .linkStop _ => none
  | .responseRead _ => none
  | .poll _ => none
  | .noticeStart _ => none
  | .noticeWithdraw => none
  | .powerOnReset => none
  | .powerOnHoldEnd _ => none
  | .pinResetAssert => none
  | .pinResetRelease _ => none
  | .supplyFailure => none

end Sys2Proof
end

