-- ==== Sys2Proof/Machine/State.lean ====
section
/-! DEFINITION. The state of the DFC-6 as plain data, its value after reset, and the empty type of faults. One home for
every piece of state of INVENTORY.md. -/

namespace Sys2Proof.Machine

/-! ### Fringe channels (chapter 1) -/

/-- Table 1-1. -/
inductive ChannelState
  | off
  | acquiring
  | tracking
  | lost
deriving DecidableEq, Repr

/-- R11. -/
inductive LossReason
  | none
  | fade
  | overspeed
  | noReference
deriving DecidableEq, Repr

/-- Table 1-3. -/
inductive ChannelMode
  | auto
  | manual
deriving DecidableEq, Repr

/-- R1. -/
inductive Sense
  | normal
  | inverted
deriving DecidableEq, Repr

/-- One fringe channel. The enable of Table 1-3 is `state ≠ off` (R4, log 26). -/
structure Channel where
  state : ChannelState := .off
  raw : Position := 0
  offset : Position := 0
  referenced : Bool := false
  qualCount : Nat := 0
  qualified : Bool := false
  lossReason : LossReason := .none
  lossTally : Nat := 0
  mode : ChannelMode := .auto
  sense : Sense := .normal
  acquireLevel : Nat := 96
  loseLevel : Nat := 48
  qualifyCount : Nat := 256
  rateLimit : Nat := 384
deriving DecidableEq, Repr

/-- The reference monitor (R15). -/
inductive Monitor
  | present
  | absent
deriving DecidableEq, Repr

/-- A reference period of which some channels have had their sample event and others are still to have it: the six channels as
they stood at the boundary before it, and the channels it has reached (R1, R19; the model's own, log 31). -/
structure ReferencePeriod where
  boundary : Vector Channel 6
  reached : Vector Bool 6
deriving DecidableEq, Repr

/-- The match configuration (R22). -/
structure MatchConfig where
  axis : ChannelIx := 0
  pair : Option (ChannelIx × ChannelIx) := none
  shift : Nat := 12
deriving DecidableEq, Repr

/-! ### Line inputs (chapter 2) -/

/-- Table 2-1. -/
inductive Polarity
  | high
  | low
deriving DecidableEq, Repr

/-- The level at a detector pin (R26). -/
inductive Level
  | low
  | high
deriving DecidableEq, Repr

/-- A position asked for at an edge: waiting for the channel's following sample event with its phase φ, or completed with the
position and the state the channel returned (R21). -/
inductive Snapshot
  | waiting (phase : Nat)
  | completed (position : Position) (state : ChannelState)
deriving DecidableEq, Repr

/-- The snapshots of one edge: the measuring axis, and the two channels of a latched pair (R29, R33). -/
structure EdgeSnapshots where
  axis : Snapshot
  pair : Option (Snapshot × Snapshot)
deriving DecidableEq, Repr

/-- A line and what it latched at its leading edge (R29). -/
structure OpenLine where
  polarity : Polarity
  offset : BitVec 32
  span : Nat
  axis : ChannelIx
  pair : Option (ChannelIx × ChannelIx)
  leading : EdgeSnapshots
deriving DecidableEq, Repr

/-- A line that has seen its trailing edge (R33). -/
structure ClosingLine where
  line : OpenLine
  trailing : EdgeSnapshots
deriving DecidableEq, Repr

/-- The state of an input with the line it holds open or discards (R26, Table 2-2). -/
inductive LinePhase
  | quiet
  | inLine (line : OpenLine)
  | discarding (line : OpenLine)
deriving DecidableEq, Repr

/-- One line input (Table 2-1, section 2.1). -/
structure LineInput where
  enable : Bool := false
  polarity : Polarity := .high
  offset : BitVec 32 := 0
  span : Nat := 65536
  phase : LinePhase := .quiet
  closing : Option ClosingLine := none
  level : Level := .low
deriving DecidableEq, Repr

/-- A tagged sighting (R39). -/
structure Sighting where
  input : LineId
  pass : Nat
  centre : Position
  width : Nat
  abbe : Option Position
deriving DecidableEq, Repr

/-! ### The graduation table (chapter 3) -/

/-- Table 3-1, accept. -/
inductive Accept
  | l1
  | l2
  | either
deriving DecidableEq, Repr

/-- R44. -/
inductive RecordState
  | enrolled
  | armed
  | settled
deriving DecidableEq, Repr

/-- The amendable fields that every record has (R41). -/
structure Amendable where
  half : Nat
  minWidth : Nat
  maxWidth : Nat
  accept : Accept
deriving DecidableEq, Repr

/-- The amendable fields of a LINE record alone (R41). -/
structure LinePlan where
  group : Fin 8
  passes : Nat
deriving DecidableEq, Repr

/-- A staged amendment: a complete set of the amendable fields of the record's kind (R48). -/
structure Amendment where
  fields : Amendable
  plan : Option LinePlan
deriving DecidableEq, Repr

/-- The sighting a LINE record holds in the open pass (R47). -/
structure CurrentPart where
  centre : Position
  width : Nat
  input : LineId
  abbe : Option Position
  duplicate : Bool
deriving DecidableEq, Repr

/-- The least and the greatest centre folded; they come and go together (R173). -/
structure CentreSpan where
  least : Position
  greatest : Position
deriving DecidableEq, Repr

/-- The kind-dependent part of a LINE record, with its current-pass part (Table 3-2, R47). -/
structure LinePart where
  plan : LinePlan
  forwardCount : Nat := 0
  reverseCount : Nat := 0
  forwardSum : BitVec 64 := 0
  reverseSum : BitVec 64 := 0
  centres : Option CentreSpan := none
  widthSum : BitVec 40 := 0
  abbeCount : Nat := 0
  abbeSum : BitVec 64 := 0
  missed : Nat := 0
  widthFaults : Nat := 0
  duplicates : Nat := 0
  current : Option CurrentPart := none
deriving DecidableEq, Repr

/-- R45. -/
structure DatumPart where
  takes : Nat := 0
  lastTake : Option Nat := none
  widthFaults : Nat := 0
deriving DecidableEq, Repr

/-- R46. -/
structure KeepoutPart where
  flaws : Nat := 0
  lastFlaw : Option Position := none
deriving DecidableEq, Repr

/-- The kind of a record and the part that depends on it (R41). -/
inductive KindPart
  | line (part : LinePart)
  | datum (part : DatumPart)
  | keepout (part : KeepoutPart)
deriving DecidableEq, Repr

/-- A mark record (Table 3-1). -/
structure MarkRecord where
  mark : Nat
  nominal : Position
  fields : Amendable
  kind : KindPart
  state : RecordState := .enrolled
  retiring : Bool := false
  staged : Option Amendment := none
deriving DecidableEq, Repr

/-! ### The table unit (chapters 3, 5 and 7) -/

/-- What the channel reported of the offset claim of a datum take (R86). -/
inductive ClaimReport
  | applied
  | refused
deriving DecidableEq, Repr

/-- The sighting under match, and in a DATUM pass the report of its offset claim once it is made (R75, R86). -/
structure MatchUnderWay where
  sighting : Sighting
  claim : Option ClaimReport := none
deriving DecidableEq, Repr

/-- The fields of an ENROL or ENROL RUN before they are judged, as numbers on the link (R118, R172). -/
structure EnrolFields where
  kind : Nat
  half : Nat
  minWidth : Nat
  maxWidth : Nat
  accept : Nat
  group : Nat
  passes : Nat
deriving DecidableEq, Repr

/-- An ENROL RUN whose count and pitch have passed their check (R121). -/
structure RunRequest where
  firstMark : Nat
  count : Nat
  start : Int
  pitch : Int
  fields : EnrolFields
deriving DecidableEq, Repr

/-- Table 12-1, the reject codes. -/
inductive RejectCode
  | busy
  | range
  | state
  | notTracking
  | unreferenced
  | noRecord
  | alreadyExists
  | full
  | overlap
  | isProtected
  | length
  | unknown
deriving DecidableEq, Repr

/-- A host table operation in progress, its checks made in the event that started it (R117). Its effects come at its
completion (R57, log 11). -/
inductive HostOp
  | refuse (code : RejectCode)
  | enrol (record : MarkRecord)
  | enrolRun (run : RunRequest)
  | amend (mark : Nat) (amendment : Amendment)
  | retire (mark : Nat)
  | reopen (mark : Nat)
  | lookup (mark : Nat)
  | readRange (position : Position)
  | readGroups
  | setMatch (config : MatchConfig)
deriving DecidableEq, Repr

/-- The operation in progress (Table 3-4). -/
inductive TableOp
  | sightingMatch (m : MatchUnderWay)
  | armSweep
  | closeSweep
  | abortSweep
  | host (op : HostOp)
deriving DecidableEq, Repr

/-- A sweep that waits for the table unit (R57, R59). -/
inductive SweepClaim
  | close
  | abort
deriving DecidableEq, Repr

/-! ### The pass controller (chapter 6) -/

/-- R92, with the datum mark of a DATUM pass. -/
inductive PassKind
  | measure
  | datum (mark : Nat)
deriving DecidableEq, Repr

/-- Table 6-1. -/
inductive Direction
  | forward
  | reverse
deriving DecidableEq, Repr

/-- Table 6-2. -/
inductive PassState
  | idle
  | arming
  | running
  | closing
  | aborting
deriving DecidableEq, Repr

/-- Table 6-3. -/
inductive AbortCause
  | host
  | axis
  | timeout
  | notFound
  | reset
deriving DecidableEq, Repr

/-- Table 6-1, outcome. -/
inductive PassOutcome
  | done
  | aborted (cause : AbortCause)
deriving DecidableEq, Repr

/-- What an accepted BEGIN PASS writes into the pass record (R96). -/
structure PassTerms where
  kind : PassKind
  direction : Direction
  startLimit : Position
  endLimit : Position
  timeLimit : Nat
deriving DecidableEq, Repr

/-- The pass record (Table 6-1). -/
structure PassRecord where
  number : Nat := 0
  terms : Option PassTerms := none
  state : PassState := .idle
  outcome : Option PassOutcome := none
  armed : Nat := 0
  taken : Nat := 0
  missed : Nat := 0
deriving DecidableEq, Repr

/-- The two counts of a tally group (R134). -/
structure GroupCounts where
  members : Nat := 0
  settled : Nat := 0
deriving DecidableEq, Repr

/-! ### Segment protection (chapter 9) -/

/-- The last protection fault (R147). -/
inductive ProtectionFault
  | none
  | request (mark : Nat)
  | unprotectRefused
deriving DecidableEq, Repr

/-- The protection block (R142, R143, R147). -/
structure Protection where
  map : BitVec 32 := 0
  cal : CalState := .untied
  fault : ProtectionFault := .none
deriving DecidableEq, Repr

/-! ### The event unit (chapter 10) -/

/-- Table 10-1. -/
inductive EventFlag
  | passEnd
  | groupDone
  | flaw
  | lockChange
  | linkFault
  | protectFault
  | queueOverrun
  | axisDown
  | tableFull
deriving DecidableEq, Repr

/-- Table 10-2. -/
inductive Counter
  | stray
  | unarmed
  | width
  | smear
  | unpassed
  | overrun
deriving DecidableEq, Repr

/-- The six counters (R152). -/
structure Counters where
  stray : Nat := 0
  unarmed : Nat := 0
  width : Nat := 0
  smear : Nat := 0
  unpassed : Nat := 0
  overrun : Nat := 0
deriving DecidableEq, Repr

/-- A notice or poll whose snapshot is taken and which has not ended: the snapshot, the later raise marker, and whether the
host has acknowledged every byte through the check byte (R155, R167). -/
structure NoticeInProgress where
  flags : BitVec 9
  groupMask : BitVec 8
  axisMask : BitVec 6
  laterRaise : Bool
  acknowledged : Bool
deriving DecidableEq, Repr

/-- The event unit. Flags and enables are words the host reads and writes whole (section 12.1). -/
structure EventUnit where
  flags : BitVec 9 := 0
  enables : BitVec 9 := 0
  groupMask : BitVec 8 := 0
  axisMask : BitVec 6 := 0
  counters : Counters := {}
  lastLinkFault : Option LinkFaultCause := none
  noticePending : Bool := false
  noticeOn : Bool := false
  notice : Option NoticeInProgress := none
deriving DecidableEq, Repr

/-! ### The link interface (chapter 11) -/

/-- Table 11-1, and `addressing`: a START has been seen and its address byte is not yet judged; `fresh` says that the START
followed a STOP (R167). DESIGN CHOICE (log 5). -/
inductive ExchangeState
  | idle
  | addressing (fresh : Bool)
  | elsewhere
  | receiving
  | taken
  | poisoned
  | sending
  | starting
deriving DecidableEq, Repr

/-- The status of a formed response (R164); NOT READY is the reading of a PENDING buffer. -/
inductive Status
  | done
  | rejected (code : RejectCode)
deriving DecidableEq, Repr

/-- The response buffer (R163). -/
inductive ResponseBuffer
  | empty
  | pending
  | ready (status : Status) (bytes : List Byte)
deriving DecidableEq, Repr

/-- A byte the part sends, with its continuation bit (R164). -/
structure SentByte where
  data : Byte
  more : Bool
deriving DecidableEq, Repr

/-- The reset cause record (R169). -/
structure ResetCauses where
  power : Bool := false
  pin : Bool := false
  part : Bool := false
deriving DecidableEq, Repr

/-- The link interface. `sent` is the model's window on the data line: the bytes of the part's last answer (log 25). -/
structure LinkInterface where
  exchange : ExchangeState := .idle
  response : ResponseBuffer := .empty
  idleTimer : Bool := true
  armedPart : Bool := false
  armedInterface : Bool := false
  strap : BitVec 3 := 0
  causes : ResetCauses := {}
  sent : List SentByte := []
deriving DecidableEq, Repr

/-- The supply (R171). -/
inductive Supply
  | failed
  | hold
  | on
deriving DecidableEq, Repr

/-! ### The machine -/

/-- The whole part, and the commands that wait for it. -/
structure State where
  pending : List Instr
  channels : Vector Channel 6
  period : Option ReferencePeriod
  monitor : Monitor
  config : MatchConfig
  line1 : LineInput
  line2 : LineInput
  earlierClosing : LineId
  table : List MarkRecord
  tableOp : Option TableOp
  sweepClaim : Option SweepClaim
  occupancy : Vector Nat 64
  queue : List Sighting
  pass : PassRecord
  passTimer : Bool
  groups : Vector GroupCounts 8
  protection : Protection
  events : EventUnit
  link : LinkInterface
  supply : Supply
  resetPinLow : Bool
deriving DecidableEq, Repr

/-- The spec names no stop of the part: no command of any row ends in a fault, so there is no constructor. Safe. -/
inductive Fault
deriving DecidableEq, Repr

/-- The reasons for which a command has no next state. -/
inductive Refusal
  /-- Raised by `exec` for a command whose meaning is not written yet. Safe: the model stops where the part goes on. -/
  | notModelled (mnemonic : String)
deriving DecidableEq, Repr

/-- The machine right after a power-on reset has ended (Tables 1-4, 2-3, 3-5, 4-1, 6-4, 8-2, 9-1, 10-3; R25, R169, R171): every
block at its reset value, POWER in the reset cause record, and the straps sampled as address 0 and CAL OPEN (DESIGN CHOICE,
log 17). No command waits. -/
def State.reset : State where
  pending := []
  channels := Vector.replicate 6 {}
  period := none
  monitor := .absent
  config := {}
  line1 := {}
  line2 := {}
  earlierClosing := .l1
  table := []
  tableOp := none
  sweepClaim := none
  occupancy := Vector.replicate 64 0
  queue := []
  pass := {}
  passTimer := false
  groups := Vector.replicate 8 {}
  protection := {}
  events := {}
  link := { causes := { power := true } }
  supply := .on
  resetPinLow := false

end Sys2Proof.Machine
end

