-- ==== Sys2Proof/Machine/Flags.lean ====
section
/-! DEFINITION. The event unit: raising flags, counting, clearing, the notice and its later raise marker (chapter 10). -/

namespace Sys2Proof.Machine

/-- The bit of a flag in the two-byte word (section 12.1). -/
def EventFlag.bit : EventFlag → Nat
  | .passEnd => 0
  | .groupDone => 1
  | .flaw => 2
  | .lockChange => 3
  | .linkFault => 4
  | .protectFault => 5
  | .queueOverrun => 6
  | .axisDown => 7
  | .tableFull => 8

/-- A flag as a word with its bit alone. -/
def EventFlag.word (f : EventFlag) : BitVec 9 := 1#9 <<< f.bit

def EventUnit.has (e : EventUnit) (f : EventFlag) : Bool := e.flags.getLsbD f.bit

def EventUnit.enabled (e : EventUnit) (f : EventFlag) : Bool := e.enables.getLsbD f.bit

/-- A report raises its flag; with its enable on it makes a notice pending, and marks a notice in progress as overtaken
(R149, R154, R155). -/
def EventUnit.raise (e : EventUnit) (f : EventFlag) : EventUnit :=
  { e with
    flags := e.flags ||| f.word
    noticePending := e.noticePending || e.enabled f
    notice := e.notice.map fun n => { n with laterRaise := n.laterRaise || e.enabled f } }

/-- A report raises its counter by the number it carries, up to the ceiling (R152). -/
def Counters.add (c : Counters) (k : Counter) (n : Nat) : Counters :=
  match k with
  | .stray => { c with stray := saturate Config.counterCeiling (c.stray + n) }
  | .unarmed => { c with unarmed := saturate Config.counterCeiling (c.unarmed + n) }
  | .width => { c with width := saturate Config.counterCeiling (c.width + n) }
  | .smear => { c with smear := saturate Config.counterCeiling (c.smear + n) }
  | .unpassed => { c with unpassed := saturate Config.counterCeiling (c.unpassed + n) }
  | .overrun => { c with overrun := saturate Config.counterCeiling (c.overrun + n) }

def EventUnit.count (e : EventUnit) (k : Counter) (n : Nat) : EventUnit :=
  { e with counters := e.counters.add k n }

/-- A channel's down condition begins: its mask bit and AXIS_DOWN (R150, R151). -/
def EventUnit.downOnset (e : EventUnit) (k : ChannelIx) : EventUnit :=
  { e with axisMask := e.axisMask ||| (1#6 <<< k.val) }.raise .axisDown

/-- A group completes: its mask bit and GROUP_DONE (R137). -/
def EventUnit.groupCompletes (e : EventUnit) (g : Fin 8) : EventUnit :=
  { e with groupMask := e.groupMask ||| (1#8 <<< g.val) }.raise .groupDone

/-- A link fault sets the reason and raises LINK_FAULT (R153). -/
def EventUnit.linkFaultReport (e : EventUnit) (cause : LinkFaultCause) : EventUnit :=
  { e with lastLinkFault := some cause }.raise .linkFault

/-- Raise AXIS_DOWN with the bits of the channels that are down, where the axis condition holds, and TABLE_FULL where the
table condition holds (R157 step 3, R159). -/
def EventUnit.raiseConditions (e : EventUnit) (down : BitVec 6) (full : Bool) : EventUnit :=
  let e := if down ≠ 0 then { e with axisMask := e.axisMask ||| down }.raise .axisDown else e
  if full then e.raise .tableFull else e

/-- CLEAR EVENTS of a set of flags, `down` and `full` being the two conditions as they hold (R157, steps 1 to 4). -/
def EventUnit.clear (e : EventUnit) (set : BitVec 9) (down : BitVec 6) (full : Bool) : EventUnit :=
  let cleared : EventUnit :=
    { e with
      flags := e.flags &&& ~~~set
      groupMask := if set.getLsbD EventFlag.groupDone.bit then 0 else e.groupMask
      axisMask := if set.getLsbD EventFlag.axisDown.bit then 0 else e.axisMask }
  let raised := cleared.raiseConditions
    (if set.getLsbD EventFlag.axisDown.bit then down else 0)
    (set.getLsbD EventFlag.tableFull.bit && full)
  if raised.flags &&& raised.enables = 0 then { raised with noticePending := false } else raised

/-- SET NOTICE: the setting and the enables; a set flag whose enable goes from off to on makes the notice pending (R158). -/
def EventUnit.setNotice (e : EventUnit) (on : Bool) (enables : BitVec 9) : EventUnit :=
  { e with
    noticeOn := on
    enables := enables
    noticePending := e.noticePending || decide (e.flags &&& enables &&& ~~~e.enables ≠ 0) }

/-- The snapshot of a notice, with the later raise marker clear (R155). -/
def EventUnit.takeSnapshot (e : EventUnit) (acknowledged : Bool) : EventUnit :=
  { e with notice := some ⟨e.flags, e.groupMask, e.axisMask, false, acknowledged⟩ }

/-- A notice ended without completion: the pending flag stays, the marker is dropped (R155). -/
def EventUnit.endNotice (e : EventUnit) : EventUnit := { e with notice := none }

/-- A STOP meets the notice in progress, if any: one acknowledged through the check byte is completed, and clears the pending
flag unless a later raise is marked; another ends without completion (R155, R167). -/
def EventUnit.stopNotice (e : EventUnit) : EventUnit :=
  match e.notice with
  | none => e
  | some n => { e with noticePending := e.noticePending && (!n.acknowledged || n.laterRaise), notice := none }

/-- An interface reset: flags, masks, counters, pending flag and marker are cleared, enables, setting and link fault reason
kept, and the conditions that hold raised again (R159). -/
def EventUnit.interfaceReset (e : EventUnit) (down : BitVec 6) (full : Bool) : EventUnit :=
  EventUnit.raiseConditions
    { enables := e.enables, noticeOn := e.noticeOn, lastLinkFault := e.lastLinkFault } down full

end Sys2Proof.Machine
end

