-- ==== Sys2Proof/Machine/Operands.lean ====
section
/-! DEFINITION. Every operand form of the requests: fields of parameter bytes, most significant byte first (R172), the
enumerated values of Table 12-2 in both directions, the status byte of Table 12-1, and the field lists of Table 12-3. -/

namespace Sys2Proof.Machine

/-! ### Bytes and numbers (R172) -/

/-- The number that bytes spell, most significant byte first. -/
def beNat (bytes : List Byte) : Nat := bytes.foldl (fun acc b => acc * 256 + b.toNat) 0

/-- A number in `n` bytes, most significant byte first. -/
def beBytes : Nat → Nat → List Byte
  | 0, _ => []
  | n + 1, v => BitVec.ofNat 8 (v / 256 ^ n) :: beBytes n v

/-- The field of `len` bytes at offset `at_` of the parameter bytes. -/
def field (params : List Byte) (at_ len : Nat) : Nat := beNat ((params.drop at_).take len)

/-- A 6-byte signed field. -/
def positionField (params : List Byte) (at_ : Nat) : Position := BitVec.ofNat 48 (field params at_ 6)

/-- Byte `k` of the parameters, as a number. -/
def byteField (params : List Byte) (at_ : Nat) : Nat := field params at_ 1

/-- A signed 48-bit value in 6 bytes. -/
def positionBytes (p : Position) : List Byte := beBytes 6 p.toNat

/-- A channel number in 0 to 5. -/
def channelOf (n : Nat) : Option ChannelIx := if h : n < 6 then some ⟨n, h⟩ else none

/-- One bit of a flags byte. -/
def flagByte (b : Bool) (weight : Nat) : Nat := if b then weight else 0

/-! ### Enumerated values (Table 12-2) -/

def Accept.code : Accept → Nat
  | .l1 => 1
  | .l2 => 2
  | .either => 3

def Accept.ofCode : Nat → Option Accept
  | 1 => some .l1
  | 2 => some .l2
  | 3 => some .either
  | _ => none

def lineCode : LineId → Nat
  | .l1 => 1
  | .l2 => 2

def lineOfCode : Nat → Option LineId
  | 1 => some .l1
  | 2 => some .l2
  | _ => none

def KindPart.code : KindPart → Nat
  | .line _ => 1
  | .datum _ => 2
  | .keepout _ => 3

def RecordState.code : RecordState → Nat
  | .enrolled => 1
  | .armed => 2
  | .settled => 3

def PassKind.code : PassKind → Nat
  | .measure => 1
  | .datum _ => 2

def Direction.code : Direction → Nat
  | .forward => 1
  | .reverse => 2

def Direction.ofCode : Nat → Option Direction
  | 1 => some .forward
  | 2 => some .reverse
  | _ => none

def PassState.code : PassState → Nat
  | .idle => 0
  | .arming => 1
  | .running => 2
  | .closing => 3
  | .aborting => 4

def PassOutcome.code : PassOutcome → Nat
  | .done => 1
  | .aborted .host => 2
  | .aborted .axis => 3
  | .aborted .timeout => 4
  | .aborted .notFound => 5
  | .aborted .reset => 6

def ChannelState.code : ChannelState → Nat
  | .off => 0
  | .acquiring => 1
  | .tracking => 2
  | .lost => 3

def LossReason.code : LossReason → Nat
  | .none => 0
  | .fade => 1
  | .overspeed => 2
  | .noReference => 3

def LinePhase.code : LinePhase → Nat
  | .quiet => 0
  | .inLine _ => 1
  | .discarding _ => 2

def ProtectionFault.code : ProtectionFault → Nat
  | .none => 0
  | .request _ => 1
  | .unprotectRefused => 2

def linkFaultCode : Option LinkFaultCause → Nat
  | none => 0
  | some .parity => 1
  | some .check => 2

/-! ### Status byte and reject codes (Table 12-1) -/

def RejectCode.code : RejectCode → Nat
  | .busy => 0x10
  | .range => 0x11
  | .state => 0x12
  | .notTracking => 0x13
  | .unreferenced => 0x14
  | .noRecord => 0x15
  | .alreadyExists => 0x16
  | .full => 0x17
  | .overlap => 0x18
  | .isProtected => 0x19
  | .length => 0x1A
  | .unknown => 0x1B

def Status.code : Status → Nat
  | .done => 0x00
  | .rejected code => code.code

/-- The status byte of a response still PENDING (R164). -/
def notReadyCode : Nat := 0x01

/-- Why an ENROL RUN stopped (R122, Table 12-2). -/
inductive StopReason
  | complete
  | segment
  | refused (code : RejectCode)
deriving DecidableEq, Repr

def StopReason.code : StopReason → Nat
  | .complete => 0x00
  | .segment => 0x01
  | .refused code => code.code

/-! ### The parameters of each request, in order (Table 12-3) -/

structure SetAxisFields where
  channel : Nat
  flags : Nat
  acquire : Nat
  lose : Nat
  qualify : Nat
  rate : Nat
deriving DecidableEq, Repr

def setAxisFields (p : List Byte) : SetAxisFields where
  channel := byteField p 0
  flags := byteField p 1
  acquire := byteField p 2
  lose := byteField p 3
  qualify := field p 4 2
  rate := field p 6 2

structure SetMatchFields where
  axis : Nat
  pairP : Nat
  pairQ : Nat
  shift : Nat
deriving DecidableEq, Repr

def setMatchFields (p : List Byte) : SetMatchFields where
  axis := byteField p 0
  pairP := byteField p 1
  pairQ := byteField p 2
  shift := byteField p 3

structure SetLineFields where
  input : Nat
  flags : Nat
  offset : BitVec 32
  span : Nat
deriving DecidableEq, Repr

def setLineFields (p : List Byte) : SetLineFields where
  input := byteField p 0
  flags := byteField p 1
  offset := BitVec.ofNat 32 (field p 2 4)
  span := field p 6 4

/-- The fields of an ENROL after its mark number (Table 12-3). -/
def enrolFields (p : List Byte) : EnrolFields where
  kind := byteField p 2
  half := field p 9 3
  minWidth := field p 12 2
  maxWidth := field p 14 2
  accept := byteField p 16
  group := byteField p 17
  passes := byteField p 18

/-- The common fields of an ENROL RUN (Table 12-3). -/
def enrolRunFields (p : List Byte) : EnrolFields where
  kind := byteField p 15
  half := field p 16 3
  minWidth := field p 19 2
  maxWidth := field p 21 2
  accept := byteField p 23
  group := byteField p 24
  passes := byteField p 25

def runRequest (p : List Byte) : RunRequest where
  firstMark := field p 0 2
  count := byteField p 2
  start := (positionField p 3).toInt
  pitch := (positionField p 9).toInt
  fields := enrolRunFields p

structure AmendFields where
  mark : Nat
  half : Nat
  minWidth : Nat
  maxWidth : Nat
  accept : Nat
  group : Nat
  passes : Nat
deriving DecidableEq, Repr

def amendFields (p : List Byte) : AmendFields where
  mark := field p 0 2
  half := field p 2 3
  minWidth := field p 5 2
  maxWidth := field p 7 2
  accept := byteField p 9
  group := byteField p 10
  passes := byteField p 11

structure BeginPassFields where
  kind : Nat
  direction : Nat
  startLimit : Position
  endLimit : Position
  timeLimit : Nat
  datumMark : Nat
deriving DecidableEq, Repr

def beginPassFields (p : List Byte) : BeginPassFields where
  kind := byteField p 0
  direction := byteField p 1
  startLimit := positionField p 2
  endLimit := positionField p 8
  timeLimit := field p 14 2
  datumMark := field p 16 2

/-- A two-byte word of event flags; a bit above bit 8 is not defined (section 12.1, R172). -/
def flagWord (n : Nat) : Option (BitVec 9) := if n < 512 then some (BitVec.ofNat 9 n) else none

end Sys2Proof.Machine
end

