-- ==== Sys2Proof/Machine/Ops.lean ====
section
/-! DEFINITION. The operations the meanings share: reading and changing channels, inputs and records, windows and buckets,
the sighting queue, the end of a pass, the arbiter of the table unit, the tally groups, and receiving and answering a
request. -/

namespace Sys2Proof.Machine

/-! ### Reports to the event unit -/

def State.raise (s : State) (f : EventFlag) : State := { s with events := s.events.raise f }

def State.count (s : State) (k : Counter) (n : Nat) : State := { s with events := s.events.count k n }

/-! ### Reading one of several -/

def State.channel (s : State) (k : ChannelIx) : Channel := s.channels[k]

def State.group (s : State) (g : Fin 8) : GroupCounts := s.groups[g]

/-- The occupancy count of a slot. -/
def State.slot (s : State) (k : Fin 64) : Nat := s.occupancy[k]

/-! ### Fringe channels -/

/-- Enabled and not TRACKING (section 1.2). -/
def ChannelState.down : ChannelState → Bool
  | .off => false
  | .acquiring => true
  | .tracking => false
  | .lost => true

/-- The sum of raw count and offset, modulo 2^48 (R3). -/
def Channel.position (c : Channel) : Position := c.raw + c.offset

/-- Entry to LOST (R11, R12, R5). -/
def Channel.enterLost (c : Channel) (reason : LossReason) : Channel :=
  { c with
    state := .lost
    referenced := false
    qualified := false
    lossReason := reason
    lossTally := saturate Config.tallyCeiling (c.lossTally + 1) }

/-- Entry to ACQUIRING (R4, R9, R10). -/
def Channel.enterAcquiring (c : Channel) : Channel :=
  { c with state := .acquiring, qualCount := 0, qualified := false }

/-- Entry to OFF (R4). -/
def Channel.enterOff (c : Channel) : Channel :=
  { c with state := .off, referenced := false, qualCount := 0, qualified := false }

/-- What a change of a channel's state reports to the event unit (Table 1-2). -/
def EventUnit.transition (e : EventUnit) (k : ChannelIx) (before after : ChannelState) : EventUnit :=
  let e := if decide (before = .tracking) != decide (after = .tracking) then e.raise .lockChange else e
  if !before.down && after.down then e.downOnset k else e

/-- The channel waits for the sample event of the reference period under way: it is enabled, and not reached yet (R1). -/
def State.awaits (s : State) (p : ReferencePeriod) (k : ChannelIx) : Bool :=
  decide ((s.channel k).state ≠ .off) && !p.reached[k]

/-- A reference period is over when it has reached every enabled channel (R1, log 31). -/
def State.settlePeriod (s : State) : State :=
  { s with period := s.period.filter fun p => (List.finRange 6).any (s.awaits p) }

/-- The period to which a sample event of channel `k` belongs, reached by it: the one under way, or, a channel having one sample
event per period, a new one whose boundary is now (R1, log 31). -/
def State.periodReaching (s : State) (k : ChannelIx) : ReferencePeriod :=
  match s.period.filter fun p => !p.reached[k] with
  | some p => { p with reached := p.reached.set k true }
  | none => ⟨s.channels, (Vector.replicate 6 false).set k true⟩

/-- A sample event of channel `k` comes in its reference period (R1, R19). -/
def State.enterPeriod (s : State) (k : ChannelIx) : State := { s with period := some (s.periodReaching k) }.settlePeriod

/-- The six channels as they stood together at the last boundary between two reference periods (R19, log 31). -/
def State.boundaryChannels (s : State) : Vector Channel 6 :=
  match s.period with
  | none => s.channels
  | some p => p.boundary

/-- Store a channel and report the change of its state (R14). -/
def State.putChannel (s : State) (k : ChannelIx) (c : Channel) : State :=
  { s with
    channels := s.channels.set k c
    events := s.events.transition k (s.channel k).state c.state }

/-- The measuring axis in force (R23). -/
def State.measuringAxis (s : State) : Channel := (s.channel (s.config.axis))

/-- The channels that are down, one bit each: the axis condition holds while it is not 0 (R150). -/
def State.downMask (s : State) : BitVec 6 :=
  (List.finRange 6).foldl (fun m k => if (s.channel k).state.down then m ||| (1#6 <<< k.val) else m) 0#6

/-- The table condition (R150). -/
def State.tableFull (s : State) : Bool := s.table.length == Config.tableCapacity

/-! ### Line inputs -/

def State.line (s : State) : LineId → LineInput
  | .l1 => s.line1
  | .l2 => s.line2

def State.setLine (s : State) (i : LineId) (l : LineInput) : State :=
  match i with
  | .l1 => { s with line1 := l }
  | .l2 => { s with line2 := l }

def otherLine : LineId → LineId
  | .l1 => .l2
  | .l2 => .l1

/-! ### Windows, buckets and slots (R54, R55, R64 to R66) -/

/-- Whether two closed intervals share a position (R55). -/
def meet (lo hi lo' hi' : Int) : Bool := decide (lo ≤ hi' ∧ lo' ≤ hi)

/-- A position lies in the record's window, both ends included (R54). -/
def MarkRecord.inWindow (r : MarkRecord) (p : Position) : Bool :=
  decide (r.nominal.toInt - r.fields.half ≤ p.toInt ∧ p.toInt ≤ r.nominal.toInt + r.fields.half)

/-- The half-width of the widened window (R55). -/
def MarkRecord.reach (r : MarkRecord) : Nat :=
  match r.staged with
  | none => r.fields.half
  | some a => max r.fields.half a.fields.half

/-- The window of half-width `half` about `nominal` shares a position with the record's widened window (R55). -/
def MarkRecord.overlaps (r : MarkRecord) (nominal : Int) (half : Nat) : Bool :=
  meet (nominal - half) (nominal + half) (r.nominal.toInt - r.reach) (r.nominal.toInt + r.reach)

/-- The bucket of a position: shifted arithmetically right by the bucket shift (R64). -/
def bucketOf (shift : Nat) (p : Position) : Position := p.sshiftRight shift

/-- The slot of a bucket: the exclusive OR of the six pieces of its low 36 bits (R65). -/
def slotOf (b : Position) : Fin 64 :=
  let v : BitVec 6 := b.extractLsb' 0 6 ^^^ b.extractLsb' 6 6 ^^^ b.extractLsb' 12 6 ^^^ b.extractLsb' 18 6
    ^^^ b.extractLsb' 24 6 ^^^ b.extractLsb' 30 6
  ⟨v.toNat, v.isLt⟩

/-- The slots of the distinct buckets that a window touches, one count each (R66). -/
def windowSlots (shift : Nat) (nominal : Position) (half : Nat) : List (Fin 64) :=
  let lo := bucketOf shift (nominal - BitVec.ofNat 48 half)
  let hi := bucketOf shift (nominal + BitVec.ofNat 48 half)
  if lo = hi then [slotOf lo] else [slotOf lo, slotOf hi]

def MarkRecord.slots (shift : Nat) (r : MarkRecord) : List (Fin 64) := windowSlots shift r.nominal r.fields.half

/-- Occupancy claims (R67). -/
def addClaims (occupancy : Vector Nat 64) (slots : List (Fin 64)) : Vector Nat 64 :=
  slots.foldl (fun (o : Vector Nat 64) (k : Fin 64) => o.set k (o[k] + 1)) occupancy

def removeClaims (occupancy : Vector Nat 64) (slots : List (Fin 64)) : Vector Nat 64 :=
  slots.foldl (fun (o : Vector Nat 64) (k : Fin 64) => o.set k (o[k] - 1)) occupancy

/-! ### Records -/

def findMark (table : List MarkRecord) (mark : Nat) : Option MarkRecord :=
  table.find? fun r => r.mark == mark

def updateMark (table : List MarkRecord) (mark : Nat) (f : MarkRecord → MarkRecord) : List MarkRecord :=
  table.map fun r => if r.mark = mark then f r else r

def removeMark (table : List MarkRecord) (mark : Nat) : List MarkRecord :=
  table.filter fun r => r.mark != mark

/-- Insertion at the place the nominal gives (R52). -/
def insertRecord (r : MarkRecord) : List MarkRecord → List MarkRecord
  | [] => [r]
  | x :: rest => if r.nominal.toInt < x.nominal.toInt then r :: x :: rest else x :: insertRecord r rest

/-- Measured as often as it asks in both directions (R44). -/
def LinePart.complete (l : LinePart) : Bool :=
  l.forwardCount == l.plan.passes && l.reverseCount == l.plan.passes

/-- The state that counts and passes needed give a LINE record (R44, R111, R125). -/
def LinePart.restState (l : LinePart) : RecordState := if l.complete then .settled else .enrolled

/-- The record counts among the settled of its group. -/
def MarkRecord.isSettled (r : MarkRecord) : Bool := decide (r.state = .settled)

/-- The record is a LINE record of the group (R134). -/
def MarkRecord.inGroup (r : MarkRecord) (g : Fin 8) : Bool :=
  match r.kind with
  | .line l => decide (l.plan.group = g)
  | .datum _ => false
  | .keepout _ => false

/-! ### Tally groups (chapter 8) -/

/-- Settled and member count equal, and members above 0 (R137). -/
def GroupCounts.complete (c : GroupCounts) : Bool := c.settled == c.members && decide (0 < c.members)

/-- Give a group new counts, and judge its completion from the counts before and after (R137). -/
def State.setGroup (s : State) (g : Fin 8) (counts : GroupCounts) : State :=
  { s with
    groups := s.groups.set g counts
    events := if !(s.group g).complete && counts.complete then s.events.groupCompletes g else s.events }

/-- One report to a group: the change of its member and settled counts (R135). -/
def State.groupReport (s : State) (g : Fin 8) (members settled : Int) : State :=
  let c := (s.group g)
  s.setGroup g ⟨(c.members + members).toNat, (c.settled + settled).toNat⟩

/-! ### The sighting queue and the end of a pass -/

/-- The two states in which sightings are tagged, the crossing is tested and abort causes are taken (section 6.1). -/
def PassState.live : PassState → Bool
  | .idle => false
  | .arming => true
  | .running => true
  | .closing => false
  | .aborting => false

/-- A sighting reaches the queue: appended, or lost to a full queue (R71, R72). -/
def State.enqueue (s : State) (x : Sighting) : State :=
  if s.queue.length < Config.queueDepth then { s with queue := s.queue ++ [x] }
  else (s.count .overrun 1).raise .queueOverrun

/-- The queue is emptied as a whole; `counted` reports one UNPASSED for each sighting removed (R73). -/
def State.emptyQueue (s : State) (counted : Bool) : State :=
  { s with
    queue := []
    events := if counted then s.events.count .unpassed s.queue.length else s.events }

/-- An abort cause reaches the pass controller (R103); while the pass is not live it has no effect (R104, R107). -/
def State.abortLivePass (s : State) (cause : AbortCause) : State :=
  if s.pass.state.live then
    { s.emptyQueue (decide (cause ≠ .reset)) with
      pass := { s.pass with state := .aborting, outcome := some (.aborted cause) }
      passTimer := false
      sweepClaim := some .abort }
  else s

/-- The pass becomes CLOSING with outcome DONE and the timer stops; the close sweep is claimed at once from RUNNING, and at
the completion of the arm sweep from ARMING (R101). While the pass is not live there is no effect (R107). -/
def State.closeLivePass (s : State) : State :=
  if s.pass.state.live then
    { s with
      pass := { s.pass with state := .closing, outcome := some .done }
      passTimer := false
      sweepClaim := if s.pass.state = .running then some .close else s.sweepClaim }
  else s

/-! ### The table unit's arbiter -/

/-- Free, and no claim waits (R58). -/
def State.tableFree (s : State) : Bool := s.tableOp.isNone && s.sweepClaim.isNone && s.queue.isEmpty

/-- A free table unit picks the next claim: a pending ABORT sweep, the oldest sighting, a pending CLOSE sweep (R59). It is
run at the end of every event that frees the unit or brings a claim (R57, R60, log 10). -/
def State.arbitrate (s : State) : State :=
  match s.tableOp with
  | some _ => s
  | none =>
    match s.sweepClaim, s.queue with
    | some .abort, _ => { s with tableOp := some .abortSweep, sweepClaim := none }
    | _, x :: rest => { s with tableOp := some (.sightingMatch { sighting := x }), queue := rest }
    | some .close, [] => { s with tableOp := some .closeSweep, sweepClaim := none }
    | none, [] => s

/-! ### The link interface -/

/-- Powered and not held in reset (R171). -/
def State.operating (s : State) : Bool := decide (s.supply = .on) && !s.resetPinLow

/-- A meaning that only an operating part carries out; one held in reset does nothing (R171, log 21). -/
def State.whileOperating (f : State → State) (s : State) : State := if s.operating then f s else s

/-- A response is formed (R163). -/
def State.answer (s : State) (status : Status) (bytes : List Byte) : State :=
  { s with link := { s.link with response := .ready status bytes } }

def State.reject (s : State) (code : RejectCode) : State := s.answer (.rejected code) []

/-- A table operation hands over its response, which is discarded unless the buffer still waits for it (R61, R163). -/
def State.handOver (s : State) (status : Status) (bytes : List Byte) : State :=
  if s.link.response = .pending then s.answer status bytes else s

/-- A START or repeated start takes the part out of IDLE and stops the idle timer; it ends a notice in progress without
completion (R161, R167). `exchange` is where the address byte then takes the part. -/
def State.startExchange (s : State) (exchange : ExchangeState) : State :=
  { s with
    link := { s.link with exchange := exchange, idleTimer := false }
    events := s.events.endNotice }

/-- The part acknowledges its address with W: the response buffer becomes EMPTY (R161, R163). -/
def State.addressedForWrite (s : State) (exchange : ExchangeState) : State :=
  let s := s.startExchange exchange
  { s with link := { s.link with response := .empty } }

/-- A request whose check byte is accepted reaches the link interface: a part in reset or POISONED takes no notice (R162,
R171); a wrong length byte is REJECTED LENGTH; otherwise its owner executes it, and the part is in TAKEN (R163, log 4). -/
def State.request (s : State) (len : Nat) (params : List Byte) (owner : State → State) : State :=
  if !s.operating || decide (s.link.exchange = .poisoned) then s
  else
    let s := s.addressedForWrite .taken
    if params.length ≠ len then s.reject .length else owner s

/-- A request that has passed the arbiter starts its table operation, and its response is awaited (R58, R61). -/
def State.startHostOp (s : State) (op : HostOp) : State :=
  { s with tableOp := some (.host op), link := { s.link with response := .pending } }

end Sys2Proof.Machine
end

