-- ==== Sys2Proof/Machine/LineOps.lean ====
section
/-! DEFINITION. From an edge to a sighting: snapshots, the guard of the open line, the forming, tagging and handing on of a
sighting, and how the pass controller sees a sample event (R21, R29 to R39, R69, R100). -/

namespace Sys2Proof.Machine

/-! ### Snapshots (R21) -/

def Snapshot.complete (position : Nat → Position) (state : ChannelState) : Snapshot → Snapshot
  | .waiting phase => .completed (position phase) state
  | .completed p st => .completed p st

/-- What a completed snapshot returned. -/
def Snapshot.value : Snapshot → Option (Position × ChannelState)
  | .waiting _ => none
  | .completed p st => some (p, st)

/-- Complete the snapshots of channel `k` among those of one edge, `axis` and `pair` naming their channels. -/
def EdgeSnapshots.complete (e : EdgeSnapshots) (axis : ChannelIx) (pair : Option (ChannelIx × ChannelIx))
    (k : ChannelIx) (position : Nat → Position) (state : ChannelState) : EdgeSnapshots where
  axis := if axis = k then e.axis.complete position state else e.axis
  pair :=
    match pair, e.pair with
    | some (p, q), some (x, y) =>
      some (if p = k then x.complete position state else x, if q = k then y.complete position state else y)
    | _, none => none
    | none, some xy => some xy

def OpenLine.completeLeading (o : OpenLine) (k : ChannelIx) (position : Nat → Position) (state : ChannelState) :
    OpenLine :=
  { o with leading := o.leading.complete o.axis o.pair k position state }

def ClosingLine.complete (c : ClosingLine) (k : ChannelIx) (position : Nat → Position) (state : ChannelState) :
    ClosingLine where
  line := c.line.completeLeading k position state
  trailing := c.trailing.complete c.line.axis c.line.pair k position state

/-- Complete every snapshot of channel `k` that the input waits for; a discarding input takes no notice (R34). -/
def LineInput.completeSnapshots (l : LineInput) (k : ChannelIx) (position : Nat → Position) (state : ChannelState) :
    LineInput :=
  { l with
    phase :=
      match l.phase with
      | .quiet => .quiet
      | .inLine o => .inLine (o.completeLeading k position state)
      | .discarding o => .discarding o
    closing := l.closing.map fun c => c.complete k position state }

/-- An input asks channel `k` for its position at an edge: completed at once for a channel in OFF or with the reference
ABSENT, waiting for the following sample event otherwise (R21). -/
def State.askSnapshot (s : State) (phase : Nat) (k : ChannelIx) : Snapshot :=
  if (s.channel k).state = .off ∨ s.monitor = .absent then .completed (s.channel k).position (s.channel k).state
  else .waiting phase

def State.askEdge (s : State) (phase : Nat) (axis : ChannelIx) (pair : Option (ChannelIx × ChannelIx)) :
    EdgeSnapshots where
  axis := s.askSnapshot phase axis
  pair := pair.map fun (p, q) => (s.askSnapshot phase p, s.askSnapshot phase q)

/-! ### The open line (R29, R32) -/

/-- The open line is lost: its measuring axis left TRACKING, or its leading snapshot came back in another state, or a sample
event of the axis, whose position is `sampled`, passed the span (R29, R32). An axis that was ACQUIRING at the leading edge and
tracks after the completing sample event keeps its line: the returned state decides (DESIGN CHOICE, log 33). -/
def OpenLine.spoiled (o : OpenLine) (left : Bool) (sampled : Option Position) : Bool :=
  left ||
    match o.leading.axis with
    | .waiting _ => false
    | .completed p st =>
      decide (st ≠ .tracking) ||
        match sampled with
        | none => false
        | some q => decide (o.span < (q - p).toInt.natAbs)

/-- The input after an event of channel `k`, and whether it counts SMEAR: a spoiled open line is discarded (R32). -/
def LineInput.guardOpen (l : LineInput) (k : ChannelIx) (left : Bool) (sampled : Option Position) : LineInput × Bool :=
  match l.phase with
  | .inLine o =>
    if decide (o.axis = k) && o.spoiled left sampled then ({ l with phase := .discarding o }, true) else (l, false)
  | .quiet => (l, false)
  | .discarding _ => (l, false)

/-- Store an input after the guard of its open line, counting SMEAR where it discards the line. -/
def State.putGuarded (s : State) (i : LineId) (guarded : LineInput × Bool) : State :=
  let s := s.setLine i guarded.1
  if guarded.2 then s.count .smear 1 else s

/-- One input sees an event of channel `k`: its snapshots of the channel complete, and its open line is guarded. -/
def State.lineSees (s : State) (i : LineId) (k : ChannelIx) (position : Nat → Position) (after : ChannelState)
    (left : Bool) (sampled : Option Position) : State :=
  s.putGuarded i (((s.line i).completeSnapshots k position after).guardOpen k left sampled)

/-- Both inputs see an event of channel `k` (R14, R21). -/
def State.linesSee (s : State) (k : ChannelIx) (position : Nat → Position) (after : ChannelState)
    (left : Bool) (sampled : Option Position) : State :=
  (s.lineSees .l1 k position after left sampled).lineSees .l2 k position after left sampled

/-! ### Forming a sighting (R35 to R37) -/

/-- What becomes of a closing line. -/
inductive Formation
  | waiting
  | refused
  | formed (centre : Position) (width : Nat) (abbe : Option Position)
deriving DecidableEq, Repr

/-- The Abbe value: present when a pair was latched and all four pair snapshots came back TRACKING (R37). -/
def ClosingLine.abbe (c : ClosingLine) : Option Position :=
  match c.line.leading.pair, c.trailing.pair with
  | some (p, q), some (p', q') =>
    match p.value, q.value, p'.value, q'.value with
    | some (pa, .tracking), some (qa, .tracking), some (pb, .tracking), some (qb, .tracking) =>
      some (BitVec.ofInt 48 (((pa - qa).toInt + (pb - qb).toInt) / 2))
    | _, _, _, _ => none
  | _, _ => none

/-- The trailing snapshots of a latched pair have completed (R35). -/
def ClosingLine.pairReady (c : ClosingLine) : Bool :=
  match c.trailing.pair with
  | none => true
  | some (p, q) => p.value.isSome && q.value.isSome

/-- A line from leading position `a` to trailing position `b`: its centre, by the difference taken modulo 2^48 (R36). -/
def centreOf (a b : Position) (offset : BitVec 32) : Position :=
  a + BitVec.ofInt 48 ((b - a).toInt / 2) + offset.signExtend 48

/-- The width of a line (R36). -/
def widthOf (a b : Position) : Nat := (b - a).toInt.natAbs

/-- A closing line is judged when its last trailing snapshot has completed (R35). -/
def ClosingLine.form (c : ClosingLine) : Formation :=
  match c.line.leading.axis.value, c.trailing.axis.value, c.pairReady with
  | some (a, _), some (b, st), true =>
    if st ≠ .tracking ∨ c.line.span < widthOf a b then .refused
    else .formed (centreOf a b c.line.offset) (widthOf a b) c.abbe
  | _, _, _ => .waiting

/-- The prefilter: a slot at 0 drops the sighting as STRAY, another lets it through to the queue (R69). -/
def State.prefilter (s : State) (x : Sighting) : State :=
  if (s.slot (slotOf (bucketOf s.config.shift x.centre))) = 0 then s.count .stray 1 else s.enqueue x

/-- Tagging: in a live pass the sighting takes its number and goes to the prefilter of a MEASURE pass or the queue of a DATUM
pass; otherwise it is UNPASSED (R38, R39). -/
def State.tagSighting (s : State) (i : LineId) (centre : Position) (width : Nat) (abbe : Option Position) : State :=
  if s.pass.state.live then
    let x : Sighting := ⟨i, s.pass.number, centre, width, abbe⟩
    match s.pass.terms.map PassTerms.kind with
    | some .measure => s.prefilter x
    | some (.datum _) => s.enqueue x
    | none => s.count .unpassed 1
  else s.count .unpassed 1

/-- The closing line of one input, formed or refused if it is complete (R35). -/
def State.formLine (s : State) (i : LineId) : State :=
  match (s.line i).closing with
  | none => s
  | some c =>
    match c.form with
    | .waiting => s
    | .refused => (s.setLine i { s.line i with closing := none }).count .smear 1
    | .formed centre width abbe => (s.setLine i { s.line i with closing := none }).tagSighting i centre width abbe

/-- Both inputs' closing lines, in the order of their trailing edges (R39). -/
def State.formSightings (s : State) : State :=
  (s.formLine s.earlierClosing).formLine (otherLine s.earlierClosing)

/-! ### The pass controller at an event of a channel -/

/-- The comparison of the end crossing, without wrap (R100). -/
def PassTerms.crossed (t : PassTerms) (p : Position) : Bool :=
  match t.direction with
  | .forward => decide (t.endLimit.toInt ≤ p.toInt)
  | .reverse => decide (p.toInt ≤ t.endLimit.toInt)

/-- The end crossing closes a MEASURE pass and aborts a DATUM pass (R100, R101, R104). -/
def State.testCrossing (s : State) (p : Position) : State :=
  match s.pass.terms with
  | none => s
  | some t =>
    if s.pass.state.live && t.crossed p then
      match t.kind with
      | .measure => s.closeLivePass
      | .datum _ => s.abortLivePass .notFound
    else s

/-- A sample event of channel `k` as the pass controller sees it: the loss of the measuring axis, or the crossing test with
its position (R100, R105). -/
def State.passSees (s : State) (k : ChannelIx) (left : Bool) (p : Position) : State :=
  if k = s.config.axis then if left then s.abortLivePass .axis else s.testCrossing p else s

/-- The end of an event: sightings are formed and the pass controller acts, in the order the command carries, and then the
arbiter picks (R38, R60, log 9, log 10). Where both inputs form a sighting, the pass controller may act between the two. -/
def State.settleEvent (s : State) (first : MeetOrder) (passActs : State → State) : State :=
  match first with
  | .formationFirst => (passActs s.formSightings).arbitrate
  | .passFirst => (passActs s).formSightings.arbitrate
  | .passBetween => ((passActs (s.formLine s.earlierClosing)).formLine (otherLine s.earlierClosing)).arbitrate

end Sys2Proof.Machine
end

