-- ==== Sys2Proof/Machine/Reports.lean ====
section
/-! DEFINITION. The byte layouts of what the part answers: record image, axis report, line report, pass record image, event
report, notice payload, and the framing of an answer with continuation bits and check byte (chapter 12, R164, R165). -/

namespace Sys2Proof.Machine

/-- Bytes of a block, filled up with zeros to its length (R173). -/
def padTo (n : Nat) (bytes : List Byte) : List Byte := bytes ++ List.replicate (n - bytes.length) 0

/-- One byte. -/
def oneByte (n : Nat) : List Byte := beBytes 1 n

/-! ### Record image (Table 12-4) -/

/-- A LINE record's current-pass part (R47). -/
def MarkRecord.currentPart (r : MarkRecord) : Option CurrentPart :=
  match r.kind with
  | .line l => l.current
  | .datum _ => none
  | .keepout _ => none

/-- The presence byte (R173). -/
def MarkRecord.presence (r : MarkRecord) : Nat :=
  let kindBits :=
    match r.kind with
    | .line l => flagByte l.centres.isSome 8
    | .datum d => flagByte d.lastTake.isSome 16
    | .keepout k => flagByte k.lastFlaw.isSome 32
  flagByte r.retiring 1 + flagByte r.currentPart.isSome 2 + flagByte r.staged.isSome 4 + kindBits
    + flagByte (match r.currentPart with | some c => c.abbe.isSome | none => false) 64

/-- The common block, 19 bytes. -/
def MarkRecord.commonBlock (r : MarkRecord) : List Byte :=
  beBytes 2 r.mark ++ oneByte r.kind.code ++ positionBytes r.nominal ++ beBytes 3 r.fields.half
    ++ beBytes 2 r.fields.minWidth ++ beBytes 2 r.fields.maxWidth ++ oneByte r.fields.accept.code
    ++ oneByte r.state.code ++ oneByte r.presence

/-- A position that may be absent, sent as zeros where it is. -/
def optionalPosition : Option Position → List Byte
  | none => positionBytes 0
  | some p => positionBytes p

/-- The kind block, 49 bytes. -/
def MarkRecord.kindBlock (r : MarkRecord) : List Byte :=
  match r.kind with
  | .line l =>
    oneByte l.plan.group.val ++ oneByte l.plan.passes ++ oneByte l.forwardCount ++ oneByte l.reverseCount
      ++ beBytes 8 l.forwardSum.toNat ++ beBytes 8 l.reverseSum.toNat
      ++ optionalPosition (l.centres.map CentreSpan.least) ++ optionalPosition (l.centres.map CentreSpan.greatest)
      ++ beBytes 5 l.widthSum.toNat ++ oneByte l.abbeCount ++ beBytes 8 l.abbeSum.toNat
      ++ oneByte l.missed ++ oneByte l.widthFaults ++ oneByte l.duplicates
  | .datum d => padTo 49 (oneByte d.takes ++ oneByte 0 ++ beBytes 2 (d.lastTake.getD 0) ++ oneByte d.widthFaults)
  | .keepout k => padTo 49 (oneByte k.flaws ++ oneByte 0 ++ oneByte 0 ++ oneByte 0 ++ optionalPosition k.lastFlaw)

/-- The current-pass block, 16 bytes. -/
def MarkRecord.currentBlock (r : MarkRecord) : List Byte :=
  match r.currentPart with
  | none => padTo 16 []
  | some c =>
    positionBytes c.centre ++ beBytes 2 c.width ++ oneByte (lineCode c.input) ++ optionalPosition c.abbe
      ++ oneByte (flagByte c.duplicate 1)

/-- The staged block, 10 bytes. -/
def MarkRecord.stagedBlock (r : MarkRecord) : List Byte :=
  match r.staged with
  | none => padTo 10 []
  | some a =>
    beBytes 3 a.fields.half ++ beBytes 2 a.fields.minWidth ++ beBytes 2 a.fields.maxWidth
      ++ oneByte a.fields.accept.code
      ++ (match a.plan with
          | some plan => oneByte plan.group.val ++ oneByte plan.passes
          | none => oneByte 0 ++ oneByte 0)

/-- The 94-byte record image (R53, R173). -/
def MarkRecord.image (r : MarkRecord) : List Byte :=
  r.commonBlock ++ r.kindBlock ++ r.currentBlock ++ r.stagedBlock

/-! ### Axis report and line report (Table 12-5) -/

/-- A pair in two bytes, 0xFF for none. -/
def pairBytes : Option (ChannelIx × ChannelIx) → List Byte
  | none => oneByte 0xFF ++ oneByte 0xFF
  | some (p, q) => oneByte p.val ++ oneByte q.val

def Channel.report (c : Channel) : List Byte :=
  oneByte c.state.code ++ oneByte (flagByte c.referenced 1 + flagByte c.qualified 2) ++ oneByte c.lossReason.code
    ++ oneByte c.lossTally ++ positionBytes c.position

/-- The axis report, 65 bytes: the six entries taken together between two reference periods (R19, log 31). -/
def State.axisReport (s : State) : List Byte :=
  s.boundaryChannels.toList.flatMap Channel.report
    ++ oneByte (match s.monitor with | .present => 1 | .absent => 0)
    ++ oneByte s.config.axis.val ++ pairBytes s.config.pair ++ oneByte s.config.shift

/-- One input's 20 bytes of the line report (R30, Table 12-5). That bit 0 of the line flags, leading snapshot complete, is 0 in
DISCARDING is the model's choice (log 35). -/
def LineInput.report (l : LineInput) : List Byte :=
  let head := oneByte (flagByte l.enable 1 + (match l.polarity with | .high => 0 | .low => 2))
    ++ beBytes 4 l.offset.toNat ++ beBytes 4 l.span ++ oneByte l.phase.code
  let held := flagByte l.closing.isSome 2
  match l.phase with
  | .inLine o =>
    let latched := oneByte o.axis.val ++ pairBytes o.pair
    match o.leading.axis with
    | .waiting _ => head ++ oneByte held ++ latched ++ positionBytes 0
    | .completed p _ => head ++ oneByte (1 + held) ++ latched ++ positionBytes p
  | .quiet => padTo 20 (head ++ oneByte held)
  | .discarding _ => padTo 20 (head ++ oneByte held)

/-- The line report, 40 bytes (R30). -/
def State.lineReport (s : State) : List Byte := s.line1.report ++ s.line2.report

/-! ### Pass record image (Table 12-6) -/

/-- The pass record image, 28 bytes (R115). -/
def PassRecord.image (p : PassRecord) : List Byte :=
  let terms :=
    match p.terms with
    | none => oneByte 0 ++ oneByte 0 ++ positionBytes 0 ++ positionBytes 0 ++ beBytes 2 0 ++ beBytes 2 0xFFFF
    | some t =>
      oneByte t.kind.code ++ oneByte t.direction.code ++ positionBytes t.startLimit ++ positionBytes t.endLimit
        ++ beBytes 2 t.timeLimit
        ++ beBytes 2 (match t.kind with | .measure => 0xFFFF | .datum mark => mark)
  beBytes 2 p.number ++ terms ++ oneByte p.state.code
    ++ oneByte (match p.outcome with | none => 0 | some o => o.code)
    ++ beBytes 2 p.armed ++ beBytes 2 p.taken ++ beBytes 2 p.missed

/-! ### Groups, protection and events -/

/-- The response of READ GROUPS (Table 12-3). -/
def State.groupReportBytes (s : State) : List Byte :=
  (List.finRange 8).flatMap fun g => beBytes 2 (s.group g).members ++ beBytes 2 (s.group g).settled

/-- The map in four bytes (section 12.1). -/
def Protection.mapBytes (p : Protection) : List Byte := beBytes 4 p.map.toNat

/-- The response of READ PROTECT (Table 12-3); an absent mark number is 0xFFFF (R172). -/
def Protection.report (p : Protection) : List Byte :=
  p.mapBytes ++ oneByte (match p.cal with | .tied => 1 | .untied => 0) ++ oneByte p.fault.code
    ++ beBytes 2 (match p.fault with | .request mark => mark | .none => 0xFFFF | .unprotectRefused => 0xFFFF)

/-- The event report, 20 bytes (Table 12-7). -/
def EventUnit.report (e : EventUnit) : List Byte :=
  beBytes 2 e.flags.toNat ++ beBytes 2 e.enables.toNat ++ oneByte e.groupMask.toNat ++ oneByte e.axisMask.toNat
    ++ beBytes 2 e.counters.stray ++ beBytes 2 e.counters.unarmed ++ beBytes 2 e.counters.width
    ++ beBytes 2 e.counters.smear ++ beBytes 2 e.counters.unpassed ++ beBytes 2 e.counters.overrun
    ++ oneByte (flagByte e.noticePending 1 + flagByte e.noticeOn 2) ++ oneByte (linkFaultCode e.lastLinkFault)

/-- The notice payload, 4 bytes, as a snapshot taken now would send it (Table 12-7, R155). -/
def EventUnit.payload (e : EventUnit) : List Byte :=
  beBytes 2 e.flags.toNat ++ oneByte e.groupMask.toNat ++ oneByte e.axisMask.toNat

/-- The response of IDENTIFY (Table 12-3, R169). -/
def State.identityBytes (s : State) : List Byte :=
  beBytes 2 Config.familyCode ++ oneByte Config.revision
    ++ oneByte (s.link.strap.toNat + (match s.protection.cal with | .tied => 128 | .untied => 0))
    ++ oneByte (flagByte s.link.causes.power 1 + flagByte s.link.causes.pin 2 + flagByte s.link.causes.part 4)

/-! ### The bytes on the link (R160, R164, R165) -/

/-- The part's 7-bit link address (R160). -/
def State.address (s : State) : BitVec 7 := Config.baseAddress + s.link.strap.zeroExtend 7

/-- The address byte with R, 1, or W, 0, in its last bit (R160). -/
def State.addressByte (s : State) (read : Bool) : Byte := s.address ++ BitVec.ofBool read

/-- An answer as it is sent: its bytes with continuation bit 1, and the check byte over the address byte with R and the bytes,
with continuation bit 0 (R164, R165). -/
def State.framed (s : State) (bytes : List Byte) : List SentByte :=
  bytes.map (fun b => ⟨b, true⟩) ++ [⟨crc8 (s.addressByte true :: bytes), false⟩]

/-- The bytes of a response: the status byte, and after DONE the response bytes (R164). -/
def responseBytes (status : Status) (bytes : List Byte) : List Byte :=
  match status with
  | .done => BitVec.ofNat 8 status.code :: bytes
  | .rejected _ => [BitVec.ofNat 8 status.code]

end Sys2Proof.Machine
end

