-- ==== Sys2Proof/Machine/Axes.lean ====
section
/-! DEFINITION. The requests of the fringe channels: SET AXIS, TRACK AXIS, RESTART AXIS, ZERO AXIS, READ AXES and SET MATCH
(R4, R7, R10, R13, R17, R19, R22). -/

namespace Sys2Proof.Machine

/-! ### SET AXIS -/

def SetAxisFields.enable (f : SetAxisFields) : Bool := f.flags.testBit 0

def SetAxisFields.mode (f : SetAxisFields) : ChannelMode := if f.flags.testBit 1 then .manual else .auto

def SetAxisFields.sense (f : SetAxisFields) : Sense := if f.flags.testBit 2 then .inverted else .normal

/-- Every field within Table 1-3, and no undefined bit of the flags byte (R17, R172). -/
def SetAxisFields.inRange (f : SetAxisFields) : Bool :=
  decide (f.flags < 8 ∧ 1 ≤ f.acquire ∧ f.acquire ≤ 255 ∧ f.lose ≤ 254 ∧ f.lose < f.acquire
    ∧ 16 ≤ f.qualify ∧ f.qualify ≤ 4096 ∧ 1 ≤ f.rate ∧ f.rate ≤ 511)

/-- Store the configuration (R17). -/
def Channel.configure (c : Channel) (f : SetAxisFields) : Channel :=
  { c with
    mode := f.mode
    sense := f.sense
    acquireLevel := f.acquire
    loseLevel := f.lose
    qualifyCount := f.qualify
    rateLimit := f.rate }

/-- Apply the enable (R4). -/
def Channel.applyEnable (c : Channel) (enable : Bool) : Channel :=
  if enable then if c.state = .off then c.enterAcquiring else c
  else c.enterOff

/-- An accepted SET AXIS: the configuration and the enable, the reports of R14, and on entry to OFF the waiting snapshots,
completed with no increment and state OFF (R21); a channel in OFF is awaited by no reference period (R1). -/
def State.configureAxis (s : State) (k : ChannelIx) (f : SetAxisFields) (first : MeetOrder) : State :=
  let c := (s.channel k)
  let c' := (c.configure f).applyEnable f.enable
  let left := decide (c.state = .tracking ∧ c'.state ≠ .tracking)
  let s' := s.putChannel k c'
  if f.enable then s'
  else
    (s'.settlePeriod.linesSee k (fun _ => c'.position) .off left none).settleEvent first fun t =>
      if k = s.config.axis ∧ left then t.abortLivePass .axis else t

def State.setAxisRequest (s : State) (f : SetAxisFields) (first : MeetOrder) : State :=
  match channelOf f.channel with
  | none => s.reject .range
  | some k =>
    if !f.inRange then s.reject .range
    else if f.sense ≠ (s.channel k).sense ∧ (s.channel k).state ≠ .off then s.reject .state
    else (s.configureAxis k f first).answer .done []

/-- SET_AXIS (R17). -/
def execSetAxis (params : List Byte) (first : MeetOrder) (s : State) : Host.Outcome State Fault Refusal :=
  .next (s.request 8 params fun s => s.setAxisRequest (setAxisFields params) first)

/-! ### TRACK AXIS, RESTART AXIS, ZERO AXIS -/

/-- TRACK AXIS moves a qualified MANUAL channel to TRACKING and clears flag and counter (R7). -/
def Channel.enterTracking (c : Channel) : Channel :=
  { c with state := .tracking, qualified := false, qualCount := 0 }

def State.trackRequest (s : State) (channel : Nat) : State :=
  match channelOf channel with
  | none => s.reject .range
  | some k =>
    let c := (s.channel k)
    if c.mode ≠ .manual then s.reject .state
    else if c.state ≠ .acquiring ∨ c.qualified = false then s.reject .state
    else (s.putChannel k c.enterTracking).answer .done []

/-- TRACK_AXIS (R7). -/
def execTrackAxis (params : List Byte) (s : State) : Host.Outcome State Fault Refusal :=
  .next (s.request 1 params fun s => s.trackRequest (byteField params 0))

def State.restartRequest (s : State) (channel : Nat) : State :=
  match channelOf channel with
  | none => s.reject .range
  | some k =>
    let c := (s.channel k)
    if c.state ≠ .lost then s.reject .state
    else (s.putChannel k c.enterAcquiring).answer .done []

/-- RESTART_AXIS (R10). -/
def execRestartAxis (params : List Byte) (s : State) : Host.Outcome State Fault Refusal :=
  .next (s.request 1 params fun s => s.restartRequest (byteField params 0))

/-- The offset that makes the position equal the value, and the referenced flag (R13). -/
def Channel.zeroAt (c : Channel) (value : Position) : Channel :=
  { c with offset := value - c.raw, referenced := true }

def State.zeroRequest (s : State) (channel : Nat) (value : Position) : State :=
  match channelOf channel with
  | none => s.reject .range
  | some k =>
    let c := (s.channel k)
    if k = s.config.axis ∧ s.pass.state ≠ .idle then s.reject .state
    else if c.state ≠ .tracking then s.reject .notTracking
    else (s.putChannel k (c.zeroAt value)).answer .done []

/-- ZERO_AXIS (R13). -/
def execZeroAxis (params : List Byte) (s : State) : Host.Outcome State Fault Refusal :=
  .next (s.request 7 params fun s => s.zeroRequest (byteField params 0) (positionField params 1))

/-- READ_AXES (R19). -/
def execReadAxes (params : List Byte) (s : State) : Host.Outcome State Fault Refusal :=
  .next (s.request 0 params fun s => s.answer .done s.axisReport)

/-! ### SET MATCH -/

/-- The Abbe pair of two channel bytes: 0xFF in both means none; a channel named twice, or exactly one 0xFF, is out of range
(R22, R172). The outer option is `none` for a pair out of range. -/
def pairOf (p q : Nat) : Option (Option (ChannelIx × ChannelIx)) :=
  if p = 0xFF ∧ q = 0xFF then some none
  else
    match channelOf p, channelOf q with
    | some p, some q => if p = q then none else some (some (p, q))
    | _, _ => none

/-- The match configuration that the fields name, if all lie in range (R22, check 1). -/
def SetMatchFields.config (f : SetMatchFields) : Option MatchConfig :=
  match channelOf f.axis, pairOf f.pairP f.pairQ with
  | some axis, some pair => if 6 ≤ f.shift ∧ f.shift ≤ 20 then some ⟨axis, pair, f.shift⟩ else none
  | _, _ => none

/-- SET MATCH: its checks in order; past the arbiter a change of the bucket shift is a table operation, which the last check
may make one that refuses (R22, R58, log 14). Without such a change the fields are stored at once, even where the operation of an
earlier SET MATCH is still to store its own (DESIGN CHOICE, log 32). -/
def State.setMatchRequest (s : State) (f : SetMatchFields) : State :=
  match f.config with
  | none => s.reject .range
  | some m =>
    if (m.axis ≠ s.config.axis ∨ m.pair ≠ s.config.pair) ∧ s.pass.state ≠ .idle then s.reject .state
    else if m.shift = s.config.shift then { s with config := m }.answer .done []
    else if !s.tableFree then s.reject .busy
    else if s.table ≠ [] then s.startHostOp (.refuse .state)
    else s.startHostOp (.setMatch m)

/-- SET_MATCH (R22). -/
def execSetMatch (params : List Byte) (s : State) : Host.Outcome State Fault Refusal :=
  .next (s.request 4 params fun s => s.setMatchRequest (setMatchFields params))

end Sys2Proof.Machine
end

