-- ==== Sys2Proof/Machine/Events.lean ====
section
/-! DEFINITION. The requests of the event unit: READ EVENTS, CLEAR EVENTS and SET NOTICE (R156 to R158). -/

namespace Sys2Proof.Machine

/-- READ EVENTS: the report as it stands, and then the counters cleared where the option asks for it (R156). -/
def State.readEventsRequest (s : State) (option : Nat) : State :=
  match option with
  | 0 => s.answer .done s.events.report
  | 1 => ({ s with events := { s.events with counters := {} } } : State).answer .done s.events.report
  | _ => s.reject .range

/-- READ_EVENTS (R156). -/
def execReadEvents (params : List Byte) (s : State) : Host.Outcome State Fault Refusal :=
  .next (s.request 1 params fun s => s.readEventsRequest (byteField params 0))

/-- CLEAR EVENTS, answered with the flags after it (R157). -/
def State.clearEventsRequest (s : State) (word : Nat) : State :=
  match flagWord word with
  | none => s.reject .range
  | some set =>
    let events := s.events.clear set s.downMask s.tableFull
    ({ s with events := events } : State).answer .done (beBytes 2 events.flags.toNat)

/-- CLEAR_EVENTS (R157). -/
def execClearEvents (params : List Byte) (s : State) : Host.Outcome State Fault Refusal :=
  .next (s.request 2 params fun s => s.clearEventsRequest (field params 0 2))

/-- The notice setting (Table 12-3). -/
def noticeSetting : Nat → Option Bool
  | 0 => some false
  | 1 => some true
  | _ => none

/-- SET NOTICE (R158). -/
def State.setNoticeRequest (s : State) (setting word : Nat) : State :=
  match noticeSetting setting, flagWord word with
  | some on, some enables => ({ s with events := s.events.setNotice on enables } : State).answer .done []
  | _, _ => s.reject .range

/-- SET_NOTICE (R158). -/
def execSetNotice (params : List Byte) (s : State) : Host.Outcome State Fault Refusal :=
  .next (s.request 3 params fun s => s.setNoticeRequest (byteField params 0) (field params 1 2))

end Sys2Proof.Machine
end

