-- ==== Sys2Proof/Machine/Lines.lean ====
section
/-! DEFINITION. The requests of the line inputs: SET LINE and READ LINES (R27, R28, R30). -/

namespace Sys2Proof.Machine

/-- Polarity and maximum span within their values, and no undefined bit of the flags byte (R27, R172). -/
def SetLineFields.inRange (f : SetLineFields) : Bool :=
  decide (f.flags < 4 ∧ 1 ≤ f.span ∧ f.span ≤ Config.spanCeiling)

/-- The four stored fields replaced together (R27). -/
def LineInput.configure (l : LineInput) (f : SetLineFields) : LineInput :=
  { l with
    enable := f.flags.testBit 0
    polarity := if f.flags.testBit 1 then .low else .high
    offset := f.offset
    span := f.span }

/-- With enable off the lines are dropped without a count and the input is QUIET (R28). -/
def LineInput.dropLines (l : LineInput) : LineInput := { l with phase := .quiet, closing := none }

/-- An accepted SET LINE (R27, R28). -/
def LineInput.accept (l : LineInput) (f : SetLineFields) : LineInput :=
  if f.flags.testBit 0 then l.configure f else (l.configure f).dropLines

def State.setLineRequest (s : State) (f : SetLineFields) : State :=
  match lineOfCode f.input with
  | none => s.reject .range
  | some i =>
    if !f.inRange then s.reject .range
    else (s.setLine i ((s.line i).accept f)).answer .done []

/-- SET_LINE (R27). -/
def execSetLine (params : List Byte) (s : State) : Host.Outcome State Fault Refusal :=
  .next (s.request 10 params fun s => s.setLineRequest (setLineFields params))

/-- READ_LINES (R30). -/
def execReadLines (params : List Byte) (s : State) : Host.Outcome State Fault Refusal :=
  .next (s.request 0 params fun s => s.answer .done s.lineReport)

end Sys2Proof.Machine
end

