-- ==== Sys2Proof/Machine/Resets.lean ====
section
/-! DEFINITION. The five kinds of reset and their commands: what every block takes at a power-on, pin and part reset, and what
an interface reset leaves (R24, R25, R40, R62, R63, R74, R91, R116, R140, R143, R159, R169 to R171). -/

namespace Sys2Proof.Machine

/-! ### Power-on, pin and part reset -/

/-- A line input in its reset state; the level at its detector pin is the pin's own (R40, log 18). -/
def LineInput.afterReset (l : LineInput) : LineInput := { level := l.level }

/-- Every block in its reset state. The protection map and the CAL state are kept (R143), as are the sampled address, the reset
cause record, the levels at the pins, the supply and the waiting commands. -/
def State.blockReset (s : State) : State :=
  { State.reset with
    pending := s.pending
    line1 := s.line1.afterReset
    line2 := s.line2.afterReset
    protection := { map := s.protection.map, cal := s.protection.cal }
    link := { strap := s.link.strap, causes := s.link.causes }
    supply := s.supply
    resetPinLow := s.resetPinLow }

/-- The blocks are held in their reset state: no idle timer runs (R171). -/
def State.heldReset (s : State) : State :=
  let s := s.blockReset
  { s with link := { s.link with idleTimer := false } }

/-- The straps are sampled (R143, R160). -/
def State.sampleStraps (s : State) (straps : Straps) : State :=
  { s with
    link := { s.link with strap := straps.address }
    protection := { s.protection with cal := straps.cal } }

def State.setCauses (s : State) (causes : ResetCauses) : State := { s with link := { s.link with causes := causes } }

/-- The idle timer starts at the end of a reset, where no other reset still holds the part (R171, log 20). -/
def State.startIdleTimer (s : State) : State := { s with link := { s.link with idleTimer := s.operating } }

/-- A part reset, which begins and ends in the event of the STOP (R170, R171). -/
def State.partReset (s : State) (straps : Straps) : State :=
  let s := s.blockReset
  (s.sampleStraps straps).setCauses { s.link.causes with part := true }

/-- POWER_ON_RESET (R171): the power-on hold begins, and the protection map is cleared (R143). -/
def execPowerOnReset (s : State) : Host.Outcome State Fault Refusal :=
  .next ({ s with supply := .hold, protection := { s.protection with map := 0 } } : State).heldReset

/-- POWER_ON_HOLD_END (R171): straps, cause record and idle timer; outside the hold it cannot come (log 3). -/
def execPowerOnHoldEnd (straps : Straps) (s : State) : Host.Outcome State Fault Refusal :=
  .next (if s.supply = .hold then
      ((({ s with supply := .on } : State).sampleStraps straps).setCauses { power := true }).startIdleTimer
    else s)

/-- PIN_RESET_ASSERT (R171). Without a supply only the level at the pin changes (log 19). -/
def execPinResetAssert (s : State) : Host.Outcome State Fault Refusal :=
  .next (if s.supply = .failed then { s with resetPinLow := true }
    else ({ s with resetPinLow := true } : State).heldReset)

/-- PIN_RESET_RELEASE (R171): straps, cause record and idle timer; with RSTn high it cannot come (log 3, log 20). -/
def execPinResetRelease (straps : Straps) (s : State) : Host.Outcome State Fault Refusal :=
  .next (if !s.resetPinLow then s
    else if s.supply = .failed then { s with resetPinLow := false }
    else
      ((({ s with resetPinLow := false } : State).sampleStraps straps).setCauses
        { s.link.causes with pin := true }).startIdleTimer)

/-- SUPPLY_FAILURE (R171): exchange, notice and read are cut off; the rest of the state stands until the power-on reset
(log 19). -/
def execSupplyFailure (s : State) : Host.Outcome State Fault Refusal :=
  .next { s with
    supply := .failed
    events := s.events.endNotice
    link := { s.link with
      exchange := .idle
      response := .empty
      idleTimer := false
      armedPart := false
      armedInterface := false } }

/-! ### Interface reset -/

/-- An interface reset at the STOP of its exchange: the RESET abort cause, the queue emptied without a count, lines dropped
without a count, and the event unit (R63, R74, R40, R159, R116, log 16). -/
def State.interfaceReset (s : State) : State :=
  let s := s.abortLivePass .reset
  ({ s with
      queue := []
      line1 := s.line1.dropLines
      line2 := s.line2.dropLines
      events := s.events.interfaceReset s.downMask s.tableFull } : State).arbitrate

end Sys2Proof.Machine
end

