-- ==== Sys2Proof/Machine/Link.lean ====
section
/-! DEFINITION. The link interface: its own requests, faulty requests, START and STOP, reading and polling, and the part's own
notices (chapter 11). -/

namespace Sys2Proof.Machine

/-! ### Requests of the link interface (R163, R169, R170) -/

/-- IDENTIFY: the answer, and the reset cause record cleared (R169). -/
def State.identifyRequest (s : State) : State := (s.answer .done s.identityBytes).setCauses {}

/-- IDENTIFY (R169). -/
def execIdentify (params : List Byte) (s : State) : Host.Outcome State Fault Refusal :=
  .next (s.request 0 params fun s => s.identifyRequest)

/-- RESET: its scope is armed for the STOP (R170). -/
def State.resetRequest (s : State) (scope : Nat) : State :=
  match scope with
  | 1 => ({ s with link := { s.link with armedPart := true } } : State).answer .done []
  | 2 => ({ s with link := { s.link with armedInterface := true } } : State).answer .done []
  | _ => s.reject .range

/-- RESET (R170). -/
def execReset (params : List Byte) (s : State) : Host.Outcome State Fault Refusal :=
  .next (s.request 1 params fun s => s.resetRequest (byteField params 0))

/-- UNKNOWN_REQUEST (R163): the code is checked before the length byte, so every length is refused alike. -/
def execUnknownRequest (_code : UnknownCode) (params : List Byte) (s : State) : Host.Outcome State Fault Refusal :=
  .next (s.request params.length params fun s => s.reject .unknown)

/-- LINK_FAULT (R162): the request is discarded and the part is POISONED; a part in reset or already POISONED takes no
notice (log 30). -/
def execLinkFault (cause : LinkFaultCause) (s : State) : Host.Outcome State Fault Refusal :=
  .next (if !s.operating || decide (s.link.exchange = .poisoned) then s
    else
      let s := s.addressedForWrite .poisoned
      { s with events := s.events.linkFaultReport cause })

/-! ### START and STOP (R161, R168) -/

/-- A START follows a STOP (R167, log 5). -/
def ExchangeState.fresh : ExchangeState → Bool
  | .idle => true
  | .addressing fresh => fresh
  | .elsewhere => false
  | .receiving => false
  | .taken => false
  | .poisoned => false
  | .sending => false
  | .starting => true

/-- The part judges an address byte that is no read of its own: its own address with W is acknowledged, another is not for it
(R160, R161). -/
def State.judgeAddress (s : State) (address : Byte) : State :=
  if address = s.addressByte false then s.addressedForWrite .receiving else s.startExchange .elsewhere

/-- Arbitration of the part's own address byte against another: the lower byte wins (R168, log 29). -/
def State.meetRival (s : State) (rival : Byte) : State :=
  if rival.toNat < (s.addressByte true).toNat then s.judgeAddress rival else s

/-- A START or repeated start by another party, with the address byte after it where the command carries it (R161, log 5). -/
def State.linkStart (s : State) (address : Option Byte) : State :=
  match s.link.exchange, address with
  | .poisoned, _ => s
  | .starting, none => s
  | .starting, some b => s.meetRival b
  | x, none => s.startExchange (.addressing (decide (x = .idle)))
  | x, some b =>
    if b = s.addressByte true then s.startExchange (.addressing (decide (x = .idle))) else s.judgeAddress b

/-- LINK_START (R161). -/
def execLinkStart (address : Option Byte) (s : State) : Host.Outcome State Fault Refusal :=
  .next (s.whileOperating fun s => s.linkStart address)

/-- A STOP for the link interface and the event unit: the notice in progress ends, IDLE, an EMPTY buffer, the idle timer
restarted, and nothing armed any more (R161, R163, R167, R170). -/
def State.stopExchange (s : State) : State :=
  { s with
    events := s.events.stopNotice
    link := { s.link with
      exchange := .idle
      response := .empty
      idleTimer := true
      armedPart := false
      armedInterface := false } }

/-- A STOP, and the armed reset it brings about: a part reset over an interface reset (R170). -/
def State.linkStop (s : State) (straps : Straps) : State :=
  if s.link.armedPart then s.stopExchange.partReset straps
  else if s.link.armedInterface then s.stopExchange.interfaceReset
  else s.stopExchange

/-- LINK_STOP (R161). -/
def execLinkStop (straps : Straps) (s : State) : Host.Outcome State Fault Refusal :=
  .next (s.whileOperating fun s => s.linkStop straps)

/-! ### Reading and polling (R164, R167) -/

/-- How many bytes of an answer of `len` bytes the part sends (log 7). -/
def bytesTaken (x : ReadExtent) (len : Nat) : Nat :=
  match x with
  | .complete => len
  | .declinedAt n => min (n + 1) len
  | .pausedAfter n => min n len

/-- The host has acknowledged every byte through the check byte. -/
def acknowledgesAll (x : ReadExtent) (len : Nat) : Bool :=
  match x with
  | .complete => true
  | .declinedAt n => decide (len ≤ n)
  | .pausedAfter n => decide (len ≤ n)

/-- Where the exchange stands afterwards: ELSEWHERE once the sending has ended (R164, log 7). -/
def exchangeAfter (x : ReadExtent) (len : Nat) : ExchangeState :=
  match x with
  | .complete => .elsewhere
  | .declinedAt _ => .elsewhere
  | .pausedAfter n => if len ≤ n then .elsewhere else .sending

/-- An answer's bytes go out as far as the host takes them. -/
def State.send (s : State) (bytes : List Byte) (extent : ReadExtent) : State :=
  let frame := s.framed bytes
  let s := s.startExchange (exchangeAfter extent frame.length)
  { s with link := { s.link with sent := frame.take (bytesTaken extent frame.length) } }

/-- A declined read: the part sends nothing (R164). -/
def State.declineRead (s : State) : State :=
  let s := s.startExchange .elsewhere
  { s with link := { s.link with sent := [] } }

/-- A response read (R164). -/
def State.readResponse (s : State) (extent : ReadExtent) : State :=
  match s.link.response with
  | .empty => s.declineRead
  | .pending => s.send [BitVec.ofNat 8 notReadyCode] extent
  | .ready status bytes => s.send (responseBytes status bytes) extent

/-- The notice of a payload of which the part has sent at least one byte: its snapshot, ended at once where the host declined a
byte (R155, R167). -/
def EventUnit.notify (e : EventUnit) (len : Nat) (extent : ReadExtent) : EventUnit :=
  if bytesTaken extent len = 0 then e
  else if acknowledgesAll extent len then e.takeSnapshot true
  else
    match extent with
    | .complete => e
    | .declinedAt _ => e.endNotice
    | .pausedAfter _ => e.takeSnapshot false

/-- A poll, or the part's own notice after its address has won (R167). -/
def State.sendPayload (s : State) (extent : ReadExtent) : State :=
  let s' := s.send s.events.payload extent
  { s' with events := s'.events.notify (s.framed s.events.payload).length extent }

/-- An address byte with R naming this part: after a fresh START a poll, otherwise a response read; a POISONED part declines it
(R162, R164, R167, log 6). -/
def State.addressedForRead (s : State) (extent : ReadExtent) : State :=
  if s.link.exchange = .poisoned then { s with link := { s.link with sent := [] } }
  else if s.link.exchange.fresh then s.sendPayload extent
  else s.readResponse extent

/-- RESPONSE_READ (R164). -/
def execResponseRead (extent : ReadExtent) (s : State) : Host.Outcome State Fault Refusal :=
  .next (s.whileOperating fun s => s.addressedForRead extent)

/-- POLL (R167). -/
def execPoll (extent : ReadExtent) (s : State) : Host.Outcome State Fault Refusal :=
  .next (s.whileOperating fun s => s.addressedForRead extent)

/-! ### The part's own notices (R166, R168) -/

/-- What a notice start needs, beside the 25 µs of idle link that the command stands for (R166). -/
def State.mayStartNotice (s : State) : Bool :=
  decide (s.link.exchange = .idle) && s.link.idleTimer && s.events.noticeOn && s.events.noticePending

/-- The part makes its own START and sends its address under arbitration (R166, R168). -/
def State.startNotice (s : State) (rival : Option Byte) : State :=
  let s := s.startExchange .starting
  match rival with
  | none => s
  | some b => s.meetRival b

/-- NOTICE_START (R166); where its conditions do not hold it cannot come (log 3). -/
def execNoticeStart (rival : Option Byte) (s : State) : Host.Outcome State Fault Refusal :=
  .next (s.whileOperating fun s => if s.mayStartNotice then s.startNotice rival else s)

/-- NOTICE_WITHDRAW (R166): the release is a STOP; outside STARTING it cannot come (log 3). -/
def execNoticeWithdraw (s : State) : Host.Outcome State Fault Refusal :=
  .next (s.whileOperating fun s => if s.link.exchange = .starting then s.stopExchange else s)

end Sys2Proof.Machine
end

