-- ==== Sys2Proof/Machine/Matching.lean ====
section
/-! DEFINITION. The MATCH: how a sighting is judged in a MEASURE pass and in a DATUM pass, and the offset claim of a datum
take (chapter 5). -/

namespace Sys2Proof.Machine

/-! ### The tests (R76 to R79) -/

/-- The accept field includes a line input (R78). -/
def Accept.includes : Accept → LineId → Bool
  | .l1, .l1 => true
  | .l1, .l2 => false
  | .l2, .l1 => false
  | .l2, .l2 => true
  | .either, .l1 => true
  | .either, .l2 => true

/-- The width lies between the limits, both included (R79). -/
def Amendable.widthFits (f : Amendable) (width : Nat) : Bool := decide (f.minWidth ≤ width ∧ width ≤ f.maxWidth)

/-- A MEASURE pass never arms a DATUM record (R45, R78). -/
def MarkRecord.measurable (r : MarkRecord) : Bool :=
  match r.kind with
  | .line _ => true
  | .datum _ => false
  | .keepout _ => true

/-- The record whose window holds the centre: every record is searched (R76). -/
def State.findWindow (s : State) (centre : Position) : Option MarkRecord := s.table.find? fun r => r.inWindow centre

/-- Table 5-1. -/
inductive MatchOutcome
  | stray
  | unarmed
  | width
  | flaw
  | duplicate
  | take
deriving DecidableEq, Repr

/-- What the found record makes of a sighting (R77 to R82). -/
def MarkRecord.outcome (r : MarkRecord) (x : Sighting) : MatchOutcome :=
  if !(decide (r.state = .armed) && r.measurable && r.fields.accept.includes x.input) then .unarmed
  else if !r.fields.widthFits x.width then .width
  else
    match r.kind with
    | .keepout _ => .flaw
    | .line l => if l.current.isSome then .duplicate else .take
    | .datum _ => .unarmed

/-! ### The effects of a MEASURE-pass MATCH (Table 5-1) -/

/-- A width fault: counted on a LINE and on a DATUM record, not on a KEEPOUT record (R79, R85). -/
def KindPart.widthFault : KindPart → KindPart
  | .line l => .line { l with widthFaults := saturate Config.tallyCeiling (l.widthFaults + 1) }
  | .datum d => .datum { d with widthFaults := saturate Config.tallyCeiling (d.widthFaults + 1) }
  | .keepout k => .keepout k

/-- A flaw (R80). -/
def KindPart.flaw (centre : Position) : KindPart → KindPart
  | .keepout k => .keepout { flaws := saturate Config.tallyCeiling (k.flaws + 1), lastFlaw := some centre }
  | .line l => .line l
  | .datum d => .datum d

/-- The duplicate flag of the current-pass part (R81). -/
def KindPart.duplicate : KindPart → KindPart
  | .line l => .line { l with current := l.current.map fun c => { c with duplicate := true } }
  | .datum d => .datum d
  | .keepout k => .keepout k

/-- A take creates the current-pass part (R82). -/
def KindPart.take (x : Sighting) : KindPart → KindPart
  | .line l =>
    .line { l with
      current := some { centre := x.centre, width := x.width, input := x.input, abbe := x.abbe, duplicate := false } }
  | .datum d => .datum d
  | .keepout k => .keepout k

/-- What an outcome changes in the found record. -/
def KindPart.after (kind : KindPart) (x : Sighting) : MatchOutcome → KindPart
  | .stray => kind
  | .unarmed => kind
  | .width => kind.widthFault
  | .flaw => kind.flaw x.centre
  | .duplicate => kind.duplicate
  | .take => kind.take x

/-- What an outcome reports to the event unit and the pass record (R83). -/
def State.reportOutcome (s : State) : MatchOutcome → State
  | .stray => s.count .stray 1
  | .unarmed => s.count .unarmed 1
  | .width => s.count .width 1
  | .flaw => s.raise .flaw
  | .duplicate => s
  | .take => { s with pass := { s.pass with taken := s.pass.taken + 1 } }

/-- Change the kind-dependent part of one record. -/
def State.updateKind (s : State) (mark : Nat) (f : KindPart → KindPart) : State :=
  { s with table := updateMark s.table mark fun r => { r with kind := f r.kind } }

/-- A MEASURE-pass MATCH of a sighting (R76, R77). -/
def State.matchMeasure (s : State) (x : Sighting) : State :=
  match s.findWindow x.centre with
  | none => s.reportOutcome .stray
  | some r => (s.updateKind r.mark fun kind => kind.after x (r.outcome x)).reportOutcome (r.outcome x)

/-! ### A DATUM-pass MATCH (R85 to R88) -/

/-- The two tests of a DATUM-pass MATCH (R85): UNARMED, WIDTH, or a datum take. -/
def MarkRecord.datumOutcome (r : MarkRecord) (x : Sighting) : MatchOutcome :=
  if !r.fields.accept.includes x.input then .unarmed
  else if !r.fields.widthFits x.width then .width
  else .take

/-- The take on the DATUM record (R87). -/
def KindPart.datumTake (pass : Nat) : KindPart → KindPart
  | .datum d => .datum { d with takes := saturate Config.tallyCeiling (d.takes + 1), lastTake := some pass }
  | .line l => .line l
  | .keepout k => .keepout k

/-- An offset claim at the channel: applied in TRACKING (R20, R86). A channel that was lost and tracks again when the claim reaches
it takes the claim (DESIGN CHOICE, log 34). -/
def Channel.claim (c : Channel) (shift : Position) : Channel × ClaimReport :=
  if c.state = .tracking then ({ c with offset := c.offset + shift, referenced := true }, .applied) else (c, .refused)

/-- The claim of a datum take reaches the measuring axis, and an applied one makes the take on the record (R86, R87,
log 15). -/
def State.makeClaim (s : State) (m : MatchUnderWay) (r : MarkRecord) : State :=
  let result := s.measuringAxis.claim (r.nominal - m.sighting.centre)
  let s : State :=
    { s with
      channels := s.channels.set s.config.axis result.1
      tableOp := some (.sightingMatch { m with claim := some result.2 }) }
  match result.2 with
  | .applied => s.updateKind r.mark (KindPart.datumTake s.pass.number)
  | .refused => s

/-- The CLOSING claim of a datum take: a RUNNING pass becomes CLOSING (R87, R107). -/
def State.claimClosing (s : State) : State := if s.pass.state = .running then s.closeLivePass else s

/-- The completion of a datum take, by the channel's report: the taken tally, the queue emptied and the CLOSING claim, or one
UNPASSED for the sighting itself (R87, R88). -/
def State.finishClaim (s : State) : ClaimReport → State
  | .applied => (({ s with pass := { s.pass with taken := s.pass.taken + 1 } } : State).emptyQueue true).claimClosing
  | .refused => s.count .unpassed 1

/-- What the channel will report of a claim that reaches it now (R20). -/
def State.claimReport (s : State) : ClaimReport := (s.measuringAxis.claim 0).2

/-- A DATUM-pass MATCH completes: a claim already reported, or the tests and, where the sighting passes them, the claim made
here (R85 to R88, log 15). -/
def State.matchDatum (s : State) (mark : Nat) (m : MatchUnderWay) : State :=
  match m.claim, findMark s.table mark with
  | some report, _ => s.finishClaim report
  | none, none => s
  | none, some r =>
    match r.datumOutcome m.sighting with
    | .unarmed => s.count .unarmed 1
    | .width => (s.updateKind mark KindPart.widthFault).count .width 1
    | .take => (s.makeClaim m r).finishClaim s.claimReport
    | .stray => s
    | .flaw => s
    | .duplicate => s

/-! ### The commands -/

/-- The MATCH judges its sighting by the kind of the open pass (R75). -/
def State.matchSighting (s : State) (m : MatchUnderWay) : State :=
  match s.pass.terms.map PassTerms.kind with
  | some .measure => s.matchMeasure m.sighting
  | some (.datum mark) => s.matchDatum mark m
  | none => s

/-- MATCH_COMPLETION (R75); with no MATCH in progress it cannot come (log 3). -/
def execMatchCompletion (s : State) : Host.Outcome State Fault Refusal :=
  .next (s.whileOperating fun s =>
    match s.tableOp with
    | some (.sightingMatch m) => ({ s.matchSighting m with tableOp := none } : State).arbitrate
    | some .armSweep => s
    | some .closeSweep => s
    | some .abortSweep => s
    | some (.host _) => s
    | none => s)

/-- A datum take is due, and its claim has not reached the channel yet: the named record (R85, R86). -/
def State.claimDue (s : State) (m : MatchUnderWay) : Option MarkRecord :=
  match m.claim, s.pass.terms.map PassTerms.kind with
  | none, some (.datum mark) => (findMark s.table mark).filter fun r => decide (r.datumOutcome m.sighting = .take)
  | none, some .measure => none
  | none, none => none
  | some _, _ => none

/-- DATUM_OFFSET_CLAIM (R86); where no datum take is due it cannot come (log 3). -/
def execDatumOffsetClaim (s : State) : Host.Outcome State Fault Refusal :=
  .next (s.whileOperating fun s =>
    match s.tableOp with
    | some (.sightingMatch m) =>
      match s.claimDue m with
      | some r => s.makeClaim m r
      | none => s
    | some .armSweep => s
    | some .closeSweep => s
    | some .abortSweep => s
    | some (.host _) => s
    | none => s)

end Sys2Proof.Machine
end

