-- ==== Sys2Proof/Machine/Table.lean ====
section
/-! DEFINITION. The host's table requests: their checks, made in the event that starts the operation, and their effects, made
at its completion (chapter 7, R58, R61, R117, log 11). -/

namespace Sys2Proof.Machine

/-! ### Protection (R142, R146, R147) -/

/-- A mark number's segment is protected (R142). -/
def Protection.covers (p : Protection) (mark : Nat) : Bool := p.map.getLsbD (mark / Config.segmentSize)

/-- A protection refusal of a table request: the last fault and PROTECT_FAULT (R146, R147). -/
def State.protectionFault (s : State) (mark : Nat) : State :=
  { s with protection := { s.protection with fault := .request mark } }.raise .protectFault

/-! ### Fields within their values (R118, R124) -/

/-- The amendable fields that numbers on the link name, for a record of this nominal under this bucket shift; `none` where one
is out of range (R42, R118). -/
def judgeAmendable (shift : Nat) (nominal : Int) (half minWidth maxWidth accept : Nat) : Option Amendable :=
  match Accept.ofCode accept with
  | none => none
  | some a =>
    if 1 ≤ half ∧ half ≤ 2 ^ (shift - 1) - 1 ∧ minWidth ≤ maxWidth ∧ 1 ≤ maxWidth ∧ maxWidth ≤ 65535
        ∧ -(2 ^ 47) ≤ nominal - half ∧ nominal + half ≤ 2 ^ 47 - 1 then
      some ⟨half, minWidth, maxWidth, a⟩
    else none

/-- Group and passes needed of a LINE record (Table 3-2). -/
def judgePlan (group passes : Nat) : Option LinePlan :=
  if h : group < 8 then if 1 ≤ passes ∧ passes ≤ 15 then some ⟨⟨group, h⟩, passes⟩ else none
  else none

/-- The kind and the kind-dependent part a new record starts with (R119); group and passes needed are ignored for a DATUM or
KEEPOUT record (R172). -/
def EnrolFields.kindPart (f : EnrolFields) : Option KindPart :=
  match f.kind with
  | 1 => (judgePlan f.group f.passes).map fun plan => .line { plan := plan }
  | 2 => some (.datum {})
  | 3 => some (.keepout {})
  | _ => none

/-- The new record, if every field lies within its values (R118, check 4). -/
def EnrolFields.record (f : EnrolFields) (shift : Nat) (mark : Nat) (nominal : Int) : Option MarkRecord :=
  match judgeAmendable shift nominal f.half f.minWidth f.maxWidth f.accept, f.kindPart with
  | some fields, some kind => some { mark := mark, nominal := BitVec.ofInt 48 nominal, fields := fields, kind := kind }
  | _, _ => none

/-! ### The checks of each request -/

/-- A judged request: the operation to carry out, or a protection refusal, whose operation completes at once (R146,
log 12). -/
inductive Verdict
  | start (op : HostOp)
  | shielded (mark : Nat)
deriving DecidableEq, Repr

/-- The checks of an ENROL after its protection check: EXISTS, FULL, RANGE, OVERLAP (R118). -/
def State.judgeRecord (s : State) (f : EnrolFields) (mark : Nat) (nominal : Int) : RejectCode ⊕ MarkRecord :=
  if (findMark s.table mark).isSome then .inl .alreadyExists
  else if s.tableFull then .inl .full
  else
    match f.record s.config.shift mark nominal with
    | none => .inl .range
    | some r => if s.table.any (fun x => x.overlaps nominal r.fields.half) then .inl .overlap else .inr r

/-- ENROL: mark number RANGE; PROTECTED; EXISTS; FULL; RANGE; OVERLAP (Table 7-1). -/
def State.judgeEnrol (s : State) (mark : Nat) (nominal : Int) (f : EnrolFields) : Verdict :=
  if Config.markLimit ≤ mark then .start (.refuse .range)
  else if s.protection.covers mark then .shielded mark
  else
    match s.judgeRecord f mark nominal with
    | .inl code => .start (.refuse code)
    | .inr r => .start (.enrol r)

/-- ENROL RUN: count or pitch RANGE, and the protection of the first mark number; the rest is judged record by record
(R121, R122). -/
def State.judgeRun (s : State) (run : RunRequest) : Verdict :=
  if run.count < 1 ∨ 16 < run.count ∨ run.pitch = 0 then .start (.refuse .range)
  else if decide (run.firstMark < Config.markLimit) && s.protection.covers run.firstMark then .shielded run.firstMark
  else .start (.enrolRun run)

/-- An amendment of record `r`, if its fields lie within their values: of a LINE record passes needed may not lie below a
count (R124, check 3). -/
def AmendFields.amendment (f : AmendFields) (shift : Nat) (r : MarkRecord) : Option Amendment :=
  match judgeAmendable shift r.nominal.toInt f.half f.minWidth f.maxWidth f.accept, r.kind with
  | none, _ => none
  | some fields, .line l =>
    match judgePlan f.group f.passes with
    | none => none
    | some plan => if l.forwardCount ≤ plan.passes ∧ l.reverseCount ≤ plan.passes then some ⟨fields, some plan⟩ else none
  | some fields, .datum _ => some ⟨fields, none⟩
  | some fields, .keepout _ => some ⟨fields, none⟩

/-- AMEND: mark number RANGE; PROTECTED; NO_RECORD; RANGE; OVERLAP; STATE (R124). -/
def State.judgeAmend (s : State) (f : AmendFields) : Verdict :=
  if Config.markLimit ≤ f.mark then .start (.refuse .range)
  else if s.protection.covers f.mark then .shielded f.mark
  else
    match findMark s.table f.mark with
    | none => .start (.refuse .noRecord)
    | some r =>
      match f.amendment s.config.shift r with
      | none => .start (.refuse .range)
      | some a =>
        if s.table.any (fun x => x.mark != f.mark && x.overlaps r.nominal.toInt f.half) then .start (.refuse .overlap)
        else if r.retiring then .start (.refuse .state)
        else .start (.amend f.mark a)

/-- RETIRE: mark number RANGE; PROTECTED; NO_RECORD; STATE (R128). -/
def State.judgeRetire (s : State) (mark : Nat) : Verdict :=
  if Config.markLimit ≤ mark then .start (.refuse .range)
  else if s.protection.covers mark then .shielded mark
  else
    match findMark s.table mark with
    | none => .start (.refuse .noRecord)
    | some r => if r.retiring then .start (.refuse .state) else .start (.retire mark)

/-- REOPEN: STATE; mark number RANGE; NO_RECORD; RANGE (R130). -/
def State.judgeReopen (s : State) (mark : Nat) : HostOp :=
  if s.pass.state ≠ .idle then .refuse .state
  else if Config.markLimit ≤ mark then .refuse .range
  else
    match findMark s.table mark with
    | none => .refuse .noRecord
    | some r =>
      match r.kind with
      | .line _ => .reopen mark
      | .datum _ => .refuse .range
      | .keepout _ => .refuse .range

/-- LOOKUP: mark number RANGE; NO_RECORD (R131). -/
def State.judgeLookup (s : State) (mark : Nat) : HostOp :=
  if Config.markLimit ≤ mark then .refuse .range
  else if (findMark s.table mark).isNone then .refuse .noRecord
  else .lookup mark

/-! ### The requests -/

/-- The arbiter's test, and then the request's own checks in the event that starts its operation (R58, R117). -/
def State.hostTable (s : State) (judge : State → HostOp) : State :=
  if s.tableFree then s.startHostOp (judge s) else s.reject .busy

/-- The same for a request with a protection check: a refusal is recorded and answered in the event (R146). -/
def State.hostTableGuarded (s : State) (judge : State → Verdict) (shielded : State → State) : State :=
  if s.tableFree then
    match judge s with
    | .start op => s.startHostOp op
    | .shielded mark => shielded (s.protectionFault mark)
  else s.reject .busy

/-- ENROL (R118). -/
def execEnrol (params : List Byte) (s : State) : Host.Outcome State Fault Refusal :=
  .next (s.request 19 params fun s => s.hostTableGuarded
    (fun s => s.judgeEnrol (field params 0 2) (positionField params 3).toInt (enrolFields params))
    (fun s => s.reject .isProtected))

/-- ENROL_RUN (R121): a protected first mark number is answered DONE with 0 records and the stop reason PROTECTED (R122). -/
def execEnrolRun (params : List Byte) (s : State) : Host.Outcome State Fault Refusal :=
  .next (s.request 26 params fun s => s.hostTableGuarded
    (fun s => s.judgeRun (runRequest params))
    (fun s => s.answer .done (oneByte 0 ++ oneByte (StopReason.refused .isProtected).code)))

/-- AMEND (R124). -/
def execAmend (params : List Byte) (s : State) : Host.Outcome State Fault Refusal :=
  .next (s.request 12 params fun s => s.hostTableGuarded
    (fun s => s.judgeAmend (amendFields params)) (fun s => s.reject .isProtected))

/-- RETIRE (R128). -/
def execRetire (params : List Byte) (s : State) : Host.Outcome State Fault Refusal :=
  .next (s.request 2 params fun s => s.hostTableGuarded
    (fun s => s.judgeRetire (field params 0 2)) (fun s => s.reject .isProtected))

/-- REOPEN (R130). -/
def execReopen (params : List Byte) (s : State) : Host.Outcome State Fault Refusal :=
  .next (s.request 2 params fun s => s.hostTable fun s => s.judgeReopen (field params 0 2))

/-- LOOKUP (R131). -/
def execLookup (params : List Byte) (s : State) : Host.Outcome State Fault Refusal :=
  .next (s.request 2 params fun s => s.hostTable fun s => s.judgeLookup (field params 0 2))

/-- READ_RANGE (R132). -/
def execReadRange (params : List Byte) (s : State) : Host.Outcome State Fault Refusal :=
  .next (s.request 6 params fun s => s.hostTable fun _ => .readRange (positionField params 0))

/-- READ_GROUPS (R141). -/
def execReadGroups (params : List Byte) (s : State) : Host.Outcome State Fault Refusal :=
  .next (s.request 0 params fun s => s.hostTable fun _ => .readGroups)

/-! ### The effects, at the completion -/

/-- Insertion of a record: its place, its occupancy claims, its membership, and TABLE_FULL (R119, R135). -/
def State.insertNew (s : State) (r : MarkRecord) : State :=
  let s : State :=
    { s with
      table := insertRecord r s.table
      occupancy := addClaims s.occupancy (r.slots s.config.shift) }
  let s := match r.kind with
    | .line l => s.groupReport l.plan.group 1 0
    | .datum _ => s
    | .keepout _ => s
  if s.tableFull then s.raise .tableFull else s

/-- Record `i` of a run: its mark number and its exact nominal (R121). -/
def RunRequest.mark (run : RunRequest) (i : Nat) : Nat := run.firstMark + i

def RunRequest.nominal (run : RunRequest) (i : Nat) : Int := run.start + i * run.pitch

/-- The checks of record `i` when the run reaches it (R121, R122). -/
def State.judgeRunRecord (s : State) (run : RunRequest) (i : Nat) : RejectCode ⊕ MarkRecord :=
  if Config.markLimit ≤ run.mark i then .inl .range else s.judgeRecord run.fields (run.mark i) (run.nominal i)

/-- A run from record `i` on, `left` records of its count remaining: the machine, the number enrolled, and why it stopped
(R121, R122). -/
def State.runFrom (run : RunRequest) : (left i : Nat) → State → State × Nat × StopReason
  | 0, i, s => (s, i, .complete)
  | left + 1, i, s =>
    if i ≠ 0 ∧ run.mark i % Config.segmentSize = 0 then (s, i, .segment)
    else
      match s.judgeRunRecord run i with
      | .inl code => (s, i, .refused code)
      | .inr r => State.runFrom run left (i + 1) (s.insertNew r)

/-- An amendment of the current fields of a record (R125, R48). -/
def MarkRecord.replaceFields (r : MarkRecord) (a : Amendment) : MarkRecord :=
  { r with
    fields := a.fields
    kind :=
      match r.kind, a.plan with
      | .line l, some plan => .line { l with plan := plan }
      | kind, _ => kind }

/-- A LINE record's state decided afresh (R125). -/
def MarkRecord.restLine (r : MarkRecord) : MarkRecord :=
  match r.kind with
  | .line l => { r with state := l.restState }
  | .datum _ => r
  | .keepout _ => r

/-- The claims that move a record's contributions when its half-width changes (R68). -/
def moveClaims (shift : Nat) (occupancy : Vector Nat 64) (before after : MarkRecord) : Vector Nat 64 :=
  if before.fields.half = after.fields.half then occupancy
  else addClaims (removeClaims occupancy (before.slots shift)) (after.slots shift)

/-- 1 for a settled record. -/
def MarkRecord.settledCount (r : MarkRecord) : Int := if r.isSettled then 1 else 0

/-- The reports of an applied amendment to the groups (Table 8-1). -/
def State.reportAmended (s : State) (before after : MarkRecord) : State :=
  match before.kind, after.kind with
  | .line l, .line l' =>
    if l.plan.group = l'.plan.group then s.groupReport l.plan.group 0 (after.settledCount - before.settledCount)
    else (s.groupReport l.plan.group (-1) (-before.settledCount)).groupReport l'.plan.group 1 after.settledCount
  | _, _ => s

/-- AMEND with the pass IDLE: applied at once (R125). -/
def State.applyAmend (s : State) (r : MarkRecord) (a : Amendment) : State :=
  let r' := (r.replaceFields a).restLine
  ({ s with
      table := updateMark s.table r.mark fun _ => r'
      occupancy := moveClaims s.config.shift s.occupancy r r' } : State).reportAmended r r'

/-- AMEND with a pass open: staged (R126). -/
def State.stageAmend (s : State) (mark : Nat) (a : Amendment) : State :=
  { s with table := updateMark s.table mark fun r => { r with staged := some a } }

/-- RETIRE with the pass IDLE: the record leaves the table, the prefilter and its group (R128). -/
def State.removeRecord (s : State) (r : MarkRecord) : State :=
  let s : State :=
    { s with
      table := removeMark s.table r.mark
      occupancy := removeClaims s.occupancy (r.slots s.config.shift) }
  match r.kind with
  | .line l => s.groupReport l.plan.group (-1) (-r.settledCount)
  | .datum _ => s
  | .keepout _ => s

/-- RETIRE with a pass open: the record is marked (R129). -/
def State.markRetiring (s : State) (mark : Nat) : State :=
  { s with table := updateMark s.table mark fun r => { r with retiring := true } }

/-- The settled accumulators and counts of a LINE record cleared (R130). -/
def LinePart.reopened (l : LinePart) : LinePart := { plan := l.plan, current := l.current }

/-- REOPEN of a LINE record (R130). -/
def State.reopenRecord (s : State) (r : MarkRecord) (l : LinePart) : State :=
  ({ s with
      table := updateMark s.table r.mark fun r => { r with kind := .line l.reopened, state := .enrolled } } :
    State).groupReport l.plan.group 0 (-r.settledCount)

/-- The records READ RANGE walks: nominal at or above `p`, in order (R132). -/
def State.recordsFrom (s : State) (p : Position) : List MarkRecord :=
  s.table.filter fun r => decide (p.toInt ≤ r.nominal.toInt)

/-- The response of READ RANGE: count and END, and up to four images (R132, R173). -/
def State.rangeBytes (s : State) (p : Position) : List Byte :=
  let found := s.recordsFrom p
  let sent := found.take 4
  oneByte (sent.length + flagByte (decide (found.length ≤ 4)) 128) ++ sent.flatMap MarkRecord.image

/-- The machine after a host operation's effects, and its response (R117). A SET MATCH that changes the bucket shift stores all its
fields here, over those that a later SET MATCH without such a change has stored meanwhile (R22; DESIGN CHOICE, log 32). -/
def State.completeHostOp (s : State) : HostOp → State × Status × List Byte
  | .refuse code => (s, .rejected code, [])
  | .enrol r =>
    let s := s.insertNew r
    (s, .done, beBytes 2 s.table.length)
  | .enrolRun run =>
    let result := State.runFrom run run.count 0 s
    (result.1, .done, oneByte result.2.1 ++ oneByte result.2.2.code)
  | .amend mark a =>
    match findMark s.table mark with
    | none => (s, .rejected .noRecord, [])
    | some r => if s.pass.state = .idle then (s.applyAmend r a, .done, oneByte 1) else (s.stageAmend mark a, .done, oneByte 2)
  | .retire mark =>
    match findMark s.table mark with
    | none => (s, .rejected .noRecord, [])
    | some r => if s.pass.state = .idle then (s.removeRecord r, .done, oneByte 1) else (s.markRetiring mark, .done, oneByte 2)
  | .reopen mark =>
    match findMark s.table mark with
    | none => (s, .rejected .noRecord, [])
    | some r =>
      match r.kind with
      | .line l => (s.reopenRecord r l, .done, [])
      | .datum _ => (s, .rejected .range, [])
      | .keepout _ => (s, .rejected .range, [])
  | .lookup mark =>
    match findMark s.table mark with
    | none => (s, .rejected .noRecord, [])
    | some r => (s, .done, r.image)
  | .readRange p => (s, .done, s.rangeBytes p)
  | .readGroups => (s, .done, s.groupReportBytes)
  | .setMatch m => ({ s with config := m }, .done, [])

/-- The completion of a host operation: its effects, its response handed over, and the arbiter's pick (R59, R61). -/
def State.finishHostOp (s : State) (op : HostOp) : State :=
  let result := s.completeHostOp op
  ({ result.1.handOver result.2.1 result.2.2 with tableOp := none } : State).arbitrate

/-- TABLE_OPERATION_COMPLETION (R61); with no host operation in progress it cannot come (log 3). -/
def execTableOperationCompletion (s : State) : Host.Outcome State Fault Refusal :=
  .next (s.whileOperating fun s =>
    match s.tableOp with
    | some (.host op) => s.finishHostOp op
    | some (.sightingMatch _) => s
    | some .armSweep => s
    | some .closeSweep => s
    | some .abortSweep => s
    | none => s)

end Sys2Proof.Machine
end

