-- ==== Sys2Proof/Machine/Passes.lean ====
section
/-! DEFINITION. The pass controller: opening, timing, aborting and reading a pass, and the completions of its three sweeps
(chapter 6). -/

namespace Sys2Proof.Machine

/-! ### BEGIN PASS (R94 to R96) -/

/-- The limits are ordered for the direction (R95). -/
def limitsOrdered (d : Direction) (start finish : Position) : Bool :=
  match d with
  | .forward => decide (start.toInt < finish.toInt)
  | .reverse => decide (finish.toInt < start.toInt)

/-- The kind of a pass with its datum mark; `none` for a value outside Table 12-2 or a datum mark outside 0 to 4095 (R95). -/
def BeginPassFields.passKind (f : BeginPassFields) : Option PassKind :=
  match f.kind with
  | 1 => some .measure
  | 2 => if f.datumMark < Config.markLimit then some (.datum f.datumMark) else none
  | _ => none

/-- The terms of the pass, if kind, direction, datum mark and limits pass the first check (R95). -/
def BeginPassFields.terms (f : BeginPassFields) : Option PassTerms :=
  match f.passKind, Direction.ofCode f.direction with
  | some kind, some direction =>
    if limitsOrdered direction f.startLimit f.endLimit then
      some ⟨kind, direction, f.startLimit, f.endLimit, f.timeLimit⟩
    else none
  | _, _ => none

/-- Why a pass of these terms cannot open now, if it cannot (R95, checks 2 to 4). -/
def State.passObstacle (s : State) (t : PassTerms) : Option RejectCode :=
  if s.measuringAxis.state ≠ .tracking then some .notTracking
  else
    match t.kind with
    | .measure => if s.measuringAxis.referenced then none else some .unreferenced
    | .datum mark =>
      match findMark s.table mark with
      | none => some .noRecord
      | some r =>
        match r.kind with
        | .datum _ => none
        | .line _ => some .range
        | .keepout _ => some .range

/-- The number of the next pass (R93). -/
def nextPassNumber (n : Nat) : Nat := if n = 65535 then 1 else n + 1

/-- An accepted BEGIN PASS: the rewritten pass record, the timer, and the arm sweep, whose completion answers (R96, R102). -/
def State.openPass (s : State) (t : PassTerms) : State :=
  { s with
    pass := { number := nextPassNumber s.pass.number, terms := some t, state := .arming }
    passTimer := decide (t.timeLimit ≠ 0)
    tableOp := some .armSweep
    link := { s.link with response := .pending } }

/-- BEGIN PASS: STATE, BUSY, and then the checks of the operation, which completes at once when one fails (R94, R95,
log 13). -/
def State.beginPassRequest (s : State) (f : BeginPassFields) : State :=
  if s.pass.state ≠ .idle then s.reject .state
  else if !s.tableFree then s.reject .busy
  else
    match f.terms with
    | none => s.reject .range
    | some t =>
      match s.passObstacle t with
      | some code => s.reject code
      | none => s.openPass t

/-- BEGIN_PASS (R94). -/
def execBeginPass (params : List Byte) (s : State) : Host.Outcome State Fault Refusal :=
  .next (s.request 18 params fun s => s.beginPassRequest (beginPassFields params))

/-! ### ABORT PASS, READ PASS and the pass timer (R102, R106, R115) -/

def State.abortPassRequest (s : State) (number : Nat) : State :=
  if !s.pass.state.live then s.reject .state
  else if number ≠ 0 ∧ number ≠ s.pass.number then s.reject .state
  else ((s.abortLivePass .host).arbitrate).answer .done (beBytes 2 s.pass.number)

/-- ABORT_PASS (R106). -/
def execAbortPass (params : List Byte) (s : State) : Host.Outcome State Fault Refusal :=
  .next (s.request 2 params fun s => s.abortPassRequest (field params 0 2))

/-- READ_PASS (R115). -/
def execReadPass (params : List Byte) (s : State) : Host.Outcome State Fault Refusal :=
  .next (s.request 0 params fun s => s.answer .done s.pass.image)

/-- PASS_TIMER_EXPIRY (R102). A stopped timer does not expire (log 3). -/
def execPassTimerExpiry (s : State) : Host.Outcome State Fault Refusal :=
  .next (s.whileOperating fun s =>
    if s.passTimer then (({ s with passTimer := false } : State).abortLivePass .timeout).arbitrate else s)

/-! ### The arm sweep (R97 to R99) -/

/-- A nominal lies between the limits, both included (R97). -/
def PassTerms.spans (t : PassTerms) (p : Position) : Bool :=
  decide (min t.startLimit.toInt t.endLimit.toInt ≤ p.toInt ∧ p.toInt ≤ max t.startLimit.toInt t.endLimit.toInt)

/-- The count of a direction. -/
def LinePart.count (l : LinePart) : Direction → Nat
  | .forward => l.forwardCount
  | .reverse => l.reverseCount

/-- The arm sweep of this pass makes the record ARMED (R97, R98). -/
def PassTerms.arms (t : PassTerms) (r : MarkRecord) : Bool :=
  match t.kind with
  | .datum mark =>
    match r.kind with
    | .datum _ => decide (r.mark = mark)
    | .line _ => false
    | .keepout _ => false
  | .measure =>
    t.spans r.nominal &&
      match r.kind with
      | .line l => decide (l.count t.direction < l.plan.passes)
      | .keepout _ => true
      | .datum _ => false

/-- The armed tally (R97, R98). -/
def PassTerms.armedTally (t : PassTerms) (table : List MarkRecord) : Nat :=
  match t.kind with
  | .measure => table.countP t.arms
  | .datum _ => 1

/-- The effects of the arm sweep on the records and the armed tally. -/
def State.armRecords (s : State) : State :=
  match s.pass.terms with
  | none => s
  | some t =>
    { s with
      table := s.table.map fun r => if t.arms r then { r with state := .armed } else r
      pass := { s.pass with armed := t.armedTally s.table } }

/-- The pass at the completion of its arm sweep: RUNNING, or, the end crossing having come first, the claim of the close sweep
(R99, R101). -/
def State.afterArming (s : State) : State :=
  match s.pass.state with
  | .arming => { s with pass := { s.pass with state := .running } }
  | .closing => { s with sweepClaim := some .close }
  | .aborting => s
  | .running => s
  | .idle => s

def State.finishArmSweep (s : State) : State :=
  let s := s.armRecords
  let s := s.handOver .done (beBytes 2 s.pass.number ++ beBytes 2 s.pass.armed)
  ({ s.afterArming with tableOp := none } : State).arbitrate

/-- ARM_SWEEP_COMPLETION (R99); with no arm sweep in progress it cannot come (log 3). -/
def execArmSweepCompletion (s : State) : Host.Outcome State Fault Refusal :=
  .next (s.whileOperating fun s => if s.tableOp = some .armSweep then s.finishArmSweep else s)

/-! ### Steps of the close and abort sweeps on one record (R108 to R111, R113) -/

/-- The extremes with one more centre (R43). -/
def widenCentres (centres : Option CentreSpan) (c : Position) : CentreSpan :=
  match centres with
  | none => ⟨c, c⟩
  | some e => ⟨if c.toInt < e.least.toInt then c else e.least, if e.greatest.toInt < c.toInt then c else e.greatest⟩

/-- The count and the sum of the pass direction (R43, R108). -/
def LinePart.addCentre (l : LinePart) (centre : Position) : Direction → LinePart
  | .forward => { l with forwardCount := l.forwardCount + 1, forwardSum := l.forwardSum + centre.signExtend 64 }
  | .reverse => { l with reverseCount := l.reverseCount + 1, reverseSum := l.reverseSum + centre.signExtend 64 }

/-- The Abbe value of a folded part, where it has one (R43). -/
def LinePart.addAbbe (l : LinePart) : Option Position → LinePart
  | none => l
  | some a => { l with abbeCount := l.abbeCount + 1, abbeSum := l.abbeSum + a.signExtend 64 }

/-- The fold of a current-pass part (R108). -/
def LinePart.fold (l : LinePart) (d : Direction) (c : CurrentPart) : LinePart :=
  { (l.addCentre c.centre d).addAbbe c.abbe with
    centres := some (widenCentres l.centres c.centre)
    widthSum := l.widthSum + BitVec.ofNat 40 c.width
    duplicates := if c.duplicate then saturate Config.tallyCeiling (l.duplicates + 1) else l.duplicates
    current := none }

/-- A missed line (R108). -/
def LinePart.miss (l : LinePart) : LinePart := { l with missed := saturate Config.tallyCeiling (l.missed + 1) }

/-- The close sweep's first step on an ARMED record (R108); the state of a LINE record is set in the last step. -/
def MarkRecord.resolveClose (d : Direction) (r : MarkRecord) : MarkRecord :=
  if r.state ≠ .armed then r
  else
    match r.kind with
    | .line l =>
      match l.current with
      | some c => { r with kind := .line (l.fold d c) }
      | none => { r with kind := .line l.miss }
    | .datum _ => { r with state := .enrolled }
    | .keepout _ => { r with state := .enrolled }

/-- The abort sweep's first step on an ARMED record: no fold and no missed count (R113). -/
def MarkRecord.resolveAbort (r : MarkRecord) : MarkRecord :=
  if r.state ≠ .armed then r
  else
    match r.kind with
    | .line l => { r with kind := .line { l with current := none } }
    | .datum _ => { r with state := .enrolled }
    | .keepout _ => { r with state := .enrolled }

/-- The staged passes needed, raised to the counts reached (R109). -/
def LinePlan.raisedTo (plan : LinePlan) (l : LinePart) : LinePlan :=
  { plan with passes := max plan.passes (max l.forwardCount l.reverseCount) }

/-- A staged amendment is applied and removed (R109). -/
def MarkRecord.applyStaged (r : MarkRecord) : MarkRecord :=
  match r.staged with
  | none => r
  | some a =>
    { r with
      fields := a.fields
      staged := none
      kind :=
        match r.kind, a.plan with
        | .line l, some plan => .line { l with plan := plan.raisedTo l }
        | kind, _ => kind }

/-- A record after the sweep's first two steps. -/
def MarkRecord.amended (resolve : MarkRecord → MarkRecord) (r : MarkRecord) : MarkRecord := (resolve r).applyStaged

/-! ### A sweep over the whole table -/

/-- The table after a sweep whose first step is `resolve`: resolved, amended, without the retiring records, and with every LINE
record's state decided (R108 to R111). -/
def sweepTable (resolve : MarkRecord → MarkRecord) (table : List MarkRecord) : List MarkRecord :=
  ((table.map (MarkRecord.amended resolve)).filter fun r => !r.retiring).map MarkRecord.restLine

/-- The prefilter claims of a sweep: windows moved, and the windows of the removed records taken out as they then stand (R109,
R110). -/
def sweepOccupancy (shift : Nat) (resolve : MarkRecord → MarkRecord) (table : List MarkRecord)
    (occupancy : Vector Nat 64) : Vector Nat 64 :=
  table.foldl (fun o r =>
    let r' := r.amended resolve
    let o := moveClaims shift o r r'
    if r'.retiring then removeClaims o (r'.slots shift) else o) occupancy

/-- The members of a group, and the settled among them, in a table (R134). -/
def groupCounts (table : List MarkRecord) (g : Fin 8) : GroupCounts where
  members := table.countP fun r => r.inGroup g
  settled := table.countP fun r => r.inGroup g && r.isSettled

/-- The one report of a sweep to each group: the net change between two tables (R136). -/
def State.reportSweep (s : State) (before after : List MarkRecord) : State :=
  (List.finRange 8).foldl (fun (t : State) (g : Fin 8) =>
    t.groupReport g
      (((groupCounts after g).members : Int) - (groupCounts before g).members)
      (((groupCounts after g).settled : Int) - (groupCounts before g).settled)) s

/-- The effects of a sweep on the table, the prefilter and the groups. -/
def State.sweepRecords (s : State) (resolve : MarkRecord → MarkRecord) : State :=
  ({ s with
      table := sweepTable resolve s.table
      occupancy := sweepOccupancy s.config.shift resolve s.table s.occupancy } : State).reportSweep
    s.table (sweepTable resolve s.table)

/-- The completion of a sweep that ends the pass: its missed tally, IDLE, PASS_END, and the arbiter (R112, R113). -/
def State.endPass (s : State) (missed : Nat) : State :=
  (({ s with
      pass := { s.pass with state := .idle, missed := missed }
      tableOp := none } : State).raise .passEnd).arbitrate

/-- ARMED LINE records without a current-pass part (R92, R108). -/
def MarkRecord.isMissed (r : MarkRecord) : Bool :=
  match r.kind with
  | .line l => decide (r.state = .armed) && l.current.isNone
  | .datum _ => false
  | .keepout _ => false

/-- The direction of the open pass. -/
def PassRecord.direction (p : PassRecord) : Direction :=
  match p.terms with
  | some t => t.direction
  | none => .forward

def State.finishCloseSweep (s : State) : State :=
  (s.sweepRecords (MarkRecord.resolveClose s.pass.direction)).endPass (s.table.countP MarkRecord.isMissed)

def State.finishAbortSweep (s : State) : State := (s.sweepRecords MarkRecord.resolveAbort).endPass s.pass.missed

/-- CLOSE_SWEEP_COMPLETION (R112); with no close sweep in progress it cannot come (log 3). -/
def execCloseSweepCompletion (s : State) : Host.Outcome State Fault Refusal :=
  .next (s.whileOperating fun s => if s.tableOp = some .closeSweep then s.finishCloseSweep else s)

/-- ABORT_SWEEP_COMPLETION (R113); with no abort sweep in progress it cannot come (log 3). -/
def execAbortSweepCompletion (s : State) : Host.Outcome State Fault Refusal :=
  .next (s.whileOperating fun s => if s.tableOp = some .abortSweep then s.finishAbortSweep else s)

end Sys2Proof.Machine
end

