-- ==== Sys2Proof/Machine/Protect.lean ====
section
/-! DEFINITION. The requests of segment protection: PROTECT, UNPROTECT and READ PROTECT (R144, R145, R148). -/

namespace Sys2Proof.Machine

/-- A set of segments, one bit each (section 12.1). -/
def segmentSet (params : List Byte) : BitVec 32 := BitVec.ofNat 32 (field params 0 4)

/-- Bits of the map set, and bits of it cleared; each answers with the map after it (R144, R145). -/
def State.setMap (s : State) (map : BitVec 32) : State :=
  let s : State := { s with protection := { s.protection with map := map } }
  s.answer .done s.protection.mapBytes

/-- PROTECT (R144). -/
def execProtect (params : List Byte) (s : State) : Host.Outcome State Fault Refusal :=
  .next (s.request 4 params fun s => s.setMap (s.protection.map ||| segmentSet params))

/-- A refused UNPROTECT: the last fault, PROTECT_FAULT, and the answer (R145, R147). -/
def State.refuseUnprotect (s : State) : State :=
  (({ s with protection := { s.protection with fault := .unprotectRefused } } : State).raise .protectFault).reject
    .isProtected

/-- UNPROTECT, judged by the CAL state alone (R145). -/
def State.unprotectRequest (s : State) (set : BitVec 32) : State :=
  match s.protection.cal with
  | .tied => s.setMap (s.protection.map &&& ~~~set)
  | .untied => s.refuseUnprotect

/-- UNPROTECT (R145). -/
def execUnprotect (params : List Byte) (s : State) : Host.Outcome State Fault Refusal :=
  .next (s.request 4 params fun s => s.unprotectRequest (segmentSet params))

/-- READ_PROTECT (R148). -/
def execReadProtect (params : List Byte) (s : State) : Host.Outcome State Fault Refusal :=
  .next (s.request 0 params fun s => s.answer .done s.protection.report)

end Sys2Proof.Machine
end

