-- ==== Sys2Proof/Machine/Signals.lean ====
section
/-! DEFINITION. The commands of the signal side: sample events, the reference monitor, and the edges at the line inputs
(R1 to R16, R26 to R34). -/

namespace Sys2Proof.Machine

/-! ### SAMPLE_EVENT -/

/-- The increment after sense (R1). -/
def Channel.sensed (c : Channel) (increment : Int) : Int :=
  match c.sense with
  | .normal => increment
  | .inverted => -increment

/-- Integration into the raw count, modulo 2^48 (R2). -/
def Channel.integrate (c : Channel) (d : Int) : Channel := { c with raw := c.raw + BitVec.ofInt 48 d }

/-- A good sample event (R5). -/
def Channel.good (c : Channel) (d : Int) (amplitude : Nat) : Bool :=
  decide (c.acquireLevel ≤ amplitude ∧ d.natAbs ≤ c.rateLimit)

/-- A sample event in ACQUIRING, `d` being the increment after sense (R5, R6). -/
def Channel.qualify (c : Channel) (d : Int) (amplitude : Nat) : Channel :=
  let c := c.integrate d
  if c.good d amplitude then
    let n := saturate Config.qualificationCeiling (c.qualCount + 1)
    let qualified := c.qualified || decide (c.qualifyCount ≤ n)
    if qualified && decide (c.mode = .auto) then { c with state := .tracking, qualCount := n, qualified := false }
    else { c with qualCount := n, qualified := qualified }
  else { c with qualCount := 0, qualified := false }

/-- A channel at a sample event, and the increment as integrated, 0 where it is discarded (R2, R5, R8, R9). -/
def Channel.sample (c : Channel) (increment : Int) (amplitude : Nat) : Channel × Int :=
  let d := c.sensed increment
  match c.state with
  | .off => (c, 0)
  | .acquiring => (c.qualify d amplitude, d)
  | .tracking =>
    if amplitude < c.loseLevel then (c.enterLost .fade, 0)
    else if c.rateLimit < d.natAbs then (c.enterLost .overspeed, 0)
    else (c.integrate d, d)
  | .lost =>
    if amplitude < c.loseLevel then (c, 0)
    else if c.mode = .auto ∧ c.acquireLevel ≤ amplitude then ((c.integrate d).enterAcquiring, d)
    else (c.integrate d, d)

/-- The position of an edge at phase φ, between `before` and the following sample event's increment `d` (R21). -/
def interpolate (before : Position) (d : Int) (phase : Nat) : Position := before + BitVec.ofInt 48 (d * phase / 256)

/-- A sample event reaches a channel that receives it (R1): its reference period, the channel, its reports, the line inputs, and then the forming
of sightings and the pass controller (figure 1-1). -/
def State.sampleChannel (s : State) (k : ChannelIx) (increment : Int) (amplitude : Nat) (first : MeetOrder) : State :=
  let c := (s.channel k)
  let c' := (c.sample increment amplitude).1
  let d := (c.sample increment amplitude).2
  let left := decide (c.state = .tracking ∧ c'.state ≠ .tracking)
  let seen := ((s.enterPeriod k).putChannel k c').linesSee k (interpolate c.position d) c'.state left (some c'.position)
  seen.settleEvent first fun t => t.passSees k left c'.position

/-- SAMPLE_EVENT. A channel in OFF receives none, and none comes while the reference is absent (R1, log 3). -/
def execSampleEvent (channel : ChannelIx) (increment : Int) (amplitude : Fin 256) (first : MeetOrder) (s : State) :
    Host.Outcome State Fault Refusal :=
  .next (s.whileOperating fun s =>
    if s.monitor = .absent ∨ (s.channel channel).state = .off then s
    else s.sampleChannel channel increment amplitude.val first)

/-! ### The reference monitor -/

/-- One channel at the loss of the reference (R15). -/
def State.loseReference (s : State) (k : ChannelIx) : State :=
  match (s.channel k).state with
  | .off => s
  | .lost => s
  | .acquiring => s.putChannel k ((s.channel k).enterLost .noReference)
  | .tracking => s.putChannel k ((s.channel k).enterLost .noReference)

/-- The inputs at the loss of the reference: every waiting snapshot completes with no increment, after the entries to LOST
(R21); `tracked` is the machine before them. -/
def State.linesLoseReference (s tracked : State) : State :=
  (List.finRange 6).foldl (fun t (k : ChannelIx) =>
    t.linesSee k (fun _ => (s.channel k).position) (s.channel k).state
      (decide ((tracked.channel k).state = .tracking)) none) s

/-- The monitor enters ABSENT (R15). No sample event comes any more, so no reference period is under way (R1, log 31). -/
def State.referenceLost (s : State) (first : MeetOrder) : State :=
  let lost := (List.finRange 6).foldl State.loseReference { s with monitor := .absent, period := none }
  (lost.linesLoseReference s).settleEvent first fun t =>
    if s.measuringAxis.state = .tracking then t.abortLivePass .axis else t

/-- REFERENCE_ABSENCE_TIMEOUT (R15). In ABSENT no interval is timed (log 3). -/
def execReferenceAbsenceTimeout (first : MeetOrder) (s : State) : Host.Outcome State Fault Refusal :=
  .next (s.whileOperating fun s => if s.monitor = .present then s.referenceLost first else s)

/-- REFERENCE_EDGE (R16). -/
def execReferenceEdge (s : State) : Host.Outcome State Fault Refusal :=
  .next (s.whileOperating fun s => { s with monitor := .present })

/-! ### Edges at the line inputs -/

/-- The level that is the line, under a polarity (Table 2-1). -/
def Polarity.lineLevel : Polarity → Level
  | .high => .high
  | .low => .low

def Polarity.bareLevel : Polarity → Level
  | .high => .low
  | .low => .high

/-- The polarity that judges the next change of level: stored while QUIET, latched otherwise (R26). -/
def LineInput.judging (l : LineInput) : Polarity :=
  match l.phase with
  | .quiet => l.polarity
  | .inLine o => o.polarity
  | .discarding o => o.polarity

/-- The line a leading edge opens: what it latches, and its leading snapshots (R29). -/
def State.openedLine (s : State) (l : LineInput) (phase : Nat) : OpenLine where
  polarity := l.polarity
  offset := l.offset
  span := l.span
  axis := s.config.axis
  pair := s.config.pair
  leading := s.askEdge phase s.config.axis s.config.pair

/-- A leading edge at an input (R26, R29, Table 2-2): a disabled input takes no notice; IN_LINE and DISCARDING cannot meet
one (log 3). A snapshot that completes at once may discard the line at once (R29). -/
def State.leadingEdge (s : State) (i : LineId) (phase : Nat) : State :=
  let l := s.line i
  match l.phase with
  | .inLine _ => s
  | .discarding _ => s
  | .quiet =>
    let l := { l with level := l.polarity.lineLevel }
    if l.enable then s.putGuarded i ({ l with phase := .inLine (s.openedLine l phase) }.guardOpen s.config.axis false none)
    else s.setLine i l

/-- LEADING_EDGE (R29). -/
def execLeadingEdge (input : LineId) (phase : Fin 256) (s : State) : Host.Outcome State Fault Refusal :=
  .next (s.whileOperating fun s => s.leadingEdge input phase.val)

/-- The line cannot be placed: its leading snapshot waits, or the input still holds a closing line (R31, log 23). -/
def LineInput.tooNarrow (l : LineInput) (o : OpenLine) : Bool :=
  o.leading.axis.value.isNone || l.closing.isSome

/-- The input whose closing line has the earlier trailing edge once `i` has closed a line (R39, log 24). -/
def State.closingOrder (s : State) (i : LineId) : LineId :=
  if (s.line (otherLine i)).closing.isSome then otherLine i else i

/-- A trailing edge closes the placed line, which may be judged at once where its snapshots complete at once (R33, R35). -/
def State.closeLine (s : State) (i : LineId) (l : LineInput) (o : OpenLine) (phase : Nat) : State :=
  let closing : ClosingLine := ⟨o, s.askEdge phase o.axis o.pair⟩
  ({ s with earlierClosing := s.closingOrder i }.setLine i
    { l with phase := .quiet, closing := some closing }).formSightings.arbitrate

/-- A trailing edge at an input (Table 2-2): no effect in QUIET (R26), the end of a discarded line (R34), too narrow (R31), or
the close of the line (R33). -/
def State.trailingEdge (s : State) (i : LineId) (phase : Nat) : State :=
  let l := { s.line i with level := (s.line i).judging.bareLevel }
  match l.phase with
  | .quiet => s.setLine i l
  | .discarding _ => s.setLine i { l with phase := .quiet }
  | .inLine o =>
    if l.tooNarrow o then (s.setLine i { l with phase := .quiet }).count .smear 1
    else s.closeLine i l o phase

/-- TRAILING_EDGE (R33). -/
def execTrailingEdge (input : LineId) (phase : Fin 256) (s : State) : Host.Outcome State Fault Refusal :=
  .next (s.whileOperating fun s => s.trailingEdge input phase.val)

end Sys2Proof.Machine
end

