-- ==== Sys2Proof/Machine/Dispatch.lean ====
section
/-! DEFINITION. The meaning of every command, arm by arm in the order of spec/opcode_table.json. -/

namespace Sys2Proof.Machine

def exec (i : Instr) (s : State) : Host.Outcome State Fault Refusal :=
  match i with
  | .sampleEvent channel increment amplitude first => Sys2Proof.Machine.execSampleEvent channel increment amplitude first s
  | .referenceAbsenceTimeout first => Sys2Proof.Machine.execReferenceAbsenceTimeout first s
  | .referenceEdge => Sys2Proof.Machine.execReferenceEdge s
  | .leadingEdge input phase => Sys2Proof.Machine.execLeadingEdge input phase s
  | .trailingEdge input phase => Sys2Proof.Machine.execTrailingEdge input phase s
  | .matchCompletion => Sys2Proof.Machine.execMatchCompletion s
  | .datumOffsetClaim => Sys2Proof.Machine.execDatumOffsetClaim s
  | .armSweepCompletion => Sys2Proof.Machine.execArmSweepCompletion s
  | .closeSweepCompletion => Sys2Proof.Machine.execCloseSweepCompletion s
  | .abortSweepCompletion => Sys2Proof.Machine.execAbortSweepCompletion s
  | .tableOperationCompletion => Sys2Proof.Machine.execTableOperationCompletion s
  | .passTimerExpiry => Sys2Proof.Machine.execPassTimerExpiry s
  | .setAxis params first => Sys2Proof.Machine.execSetAxis params first s
  | .trackAxis params => Sys2Proof.Machine.execTrackAxis params s
  | .restartAxis params => Sys2Proof.Machine.execRestartAxis params s
  | .zeroAxis params => Sys2Proof.Machine.execZeroAxis params s
  | .readAxes params => Sys2Proof.Machine.execReadAxes params s
  | .setMatch params => Sys2Proof.Machine.execSetMatch params s
  | .setLine params => Sys2Proof.Machine.execSetLine params s
  | .readLines params => Sys2Proof.Machine.execReadLines params s
  | .enrol params => Sys2Proof.Machine.execEnrol params s
  | .enrolRun params => Sys2Proof.Machine.execEnrolRun params s
  | .amend params => Sys2Proof.Machine.execAmend params s
  | .retire params => Sys2Proof.Machine.execRetire params s
  | .reopen params => Sys2Proof.Machine.execReopen params s
  | .lookup params => Sys2Proof.Machine.execLookup params s
  | .readRange params => Sys2Proof.Machine.execReadRange params s
  | .beginPass params => Sys2Proof.Machine.execBeginPass params s
  | .abortPass params => Sys2Proof.Machine.execAbortPass params s
  | .readPass params => Sys2Proof.Machine.execReadPass params s
  | .readGroups params => Sys2Proof.Machine.execReadGroups params s
  | .protect params => Sys2Proof.Machine.execProtect params s
  | .unprotect params => Sys2Proof.Machine.execUnprotect params s
  | .readProtect params => Sys2Proof.Machine.execReadProtect params s
  | .readEvents params => Sys2Proof.Machine.execReadEvents params s
  | .clearEvents params => Sys2Proof.Machine.execClearEvents params s
  | .setNotice params => Sys2Proof.Machine.execSetNotice params s
  | .identify params => Sys2Proof.Machine.execIdentify params s
  | .reset params => Sys2Proof.Machine.execReset params s
  | .unknownRequest code params => Sys2Proof.Machine.execUnknownRequest code params s
  | .linkFault cause => Sys2Proof.Machine.execLinkFault cause s
  | .linkStart address => Sys2Proof.Machine.execLinkStart address s
  | .linkStop straps => Sys2Proof.Machine.execLinkStop straps s
  | .responseRead extent => Sys2Proof.Machine.execResponseRead extent s
  | .poll extent => Sys2Proof.Machine.execPoll extent s
  | .noticeStart rival => Sys2Proof.Machine.execNoticeStart rival s
  | .noticeWithdraw => Sys2Proof.Machine.execNoticeWithdraw s
  | .powerOnReset => Sys2Proof.Machine.execPowerOnReset s
  | .powerOnHoldEnd straps => Sys2Proof.Machine.execPowerOnHoldEnd straps s
  | .pinResetAssert => Sys2Proof.Machine.execPinResetAssert s
  | .pinResetRelease straps => Sys2Proof.Machine.execPinResetRelease straps s
  | .supplyFailure => Sys2Proof.Machine.execSupplyFailure s

end Sys2Proof.Machine
end

