-- ==== Sys2Proof/Safety.lean ====
section
/-! DEFINITION. The words the statements use: when the part receives a request, the state a request leaves once it is answered,
the bytes of a request's fields, and the laws of the spec that hold between two commands. -/

namespace Sys2Proof.Machine

/-! ### Requests and answers -/

/-- The part takes part in exchanges: powered, not held in reset, and not POISONED (R162, R171). -/
def State.receives (s : State) : Prop := s.operating = true ∧ s.link.exchange ≠ .poisoned

/-- The state after a request that changed nothing but the link: TAKEN, with the idle timer stopped and this response, and any
notice in progress ended (R161, R163, R167; that a request command brings its START with it is log 4). -/
def State.responding (s : State) (response : ResponseBuffer) : State :=
  { s with
    link := { s.link with exchange := .taken, idleTimer := false, response := response }
    events := { s.events with notice := none } }

/-- The state after a request answered DONE with these bytes. -/
def State.answered (s : State) (bytes : List Byte) : State := s.responding (.ready .done bytes)

/-- The state after a request that was refused and changed nothing. -/
def State.refused (s : State) (code : RejectCode) : State := s.responding (.ready (.rejected code) [])

/-- The two bytes of a number, most significant first. -/
def twoBytes (w : BitVec 16) : List Byte := [w.extractLsb' 8 8, w.extractLsb' 0 8]

/-- The four bytes of a word, most significant first. -/
def fourBytes (w : BitVec 32) : List Byte :=
  [w.extractLsb' 24 8, w.extractLsb' 16 8, w.extractLsb' 8 8, w.extractLsb' 0 8]

/-- The six bytes of a position, most significant first. -/
def sixBytes (p : Position) : List Byte :=
  [p.extractLsb' 40 8, p.extractLsb' 32 8, p.extractLsb' 24 8, p.extractLsb' 16 8, p.extractLsb' 8 8, p.extractLsb' 0 8]

/-- Raising flags: what an event may do to the flags is set some, never clear one. -/
def EventUnit.raised (before after : EventUnit) (f : EventFlag) : Prop :=
  after.flags = before.flags ||| f.word ∧ after.enables = before.enables
    ∧ after.noticePending = (before.noticePending || before.enables.getLsbD f.bit)

/-- The number of parameter bytes of each listed request code (Table 12-3). -/
def requestLength (code : Byte) : Option Nat :=
  match code.toNat with
  | 0x01 => some 0
  | 0x02 => some 1
  | 0x10 => some 8
  | 0x11 => some 1
  | 0x12 => some 1
  | 0x13 => some 7
  | 0x14 => some 0
  | 0x15 => some 4
  | 0x18 => some 10
  | 0x19 => some 0
  | 0x20 => some 19
  | 0x21 => some 26
  | 0x22 => some 12
  | 0x23 => some 2
  | 0x24 => some 2
  | 0x25 => some 2
  | 0x26 => some 6
  | 0x30 => some 18
  | 0x31 => some 2
  | 0x32 => some 0
  | 0x38 => some 0
  | 0x40 => some 4
  | 0x41 => some 4
  | 0x42 => some 0
  | 0x48 => some 1
  | 0x49 => some 2
  | 0x4A => some 3
  | _ => none

/-! ### The checks of a new record, in the words of R118 -/

/-- The fields lie within the values of Tables 3-1 and 3-2 for a record of this nominal under this bucket shift (R118, check 4;
R42). -/
def EnrolFields.inRange (f : EnrolFields) (shift : Nat) (nominal : Int) : Prop :=
  (f.kind = 1 ∧ f.group < 8 ∧ 1 ≤ f.passes ∧ f.passes ≤ 15 ∨ f.kind = 2 ∨ f.kind = 3)
    ∧ 1 ≤ f.half ∧ f.half ≤ 2 ^ (shift - 1) - 1 ∧ f.minWidth ≤ f.maxWidth ∧ 1 ≤ f.maxWidth ∧ f.maxWidth ≤ 65535
    ∧ 1 ≤ f.accept ∧ f.accept ≤ 3 ∧ -(2 ^ 47) ≤ nominal - f.half ∧ nominal + f.half ≤ 2 ^ 47 - 1

/-- The window of half-width `half` about `nominal` shares a position with the widened window of a record (R118, check 5; R55). -/
def State.overlapped (s : State) (nominal : Int) (half : Nat) : Prop :=
  ∃ x ∈ s.table, nominal - half ≤ x.nominal.toInt + x.reach ∧ x.nominal.toInt - x.reach ≤ nominal + half

/-- The check that a new record fails first, its protection check apart: mark number RANGE, EXISTS, FULL, RANGE, OVERLAP
(R117, R118). -/
def State.failsFirst (s : State) (f : EnrolFields) (mark : Nat) (nominal : Int) (code : RejectCode) : Prop :=
  let fresh := mark < 4096 ∧ ∀ x ∈ s.table, x.mark ≠ mark
  (code = .range ∧ 4096 ≤ mark)
    ∨ (code = .alreadyExists ∧ mark < 4096 ∧ ∃ x ∈ s.table, x.mark = mark)
    ∨ (code = .full ∧ fresh ∧ s.table.length = 2048)
    ∨ (code = .range ∧ fresh ∧ s.table.length ≠ 2048 ∧ ¬f.inRange s.config.shift nominal)
    ∨ (code = .overlap ∧ fresh ∧ s.table.length ≠ 2048 ∧ f.inRange s.config.shift nominal ∧ s.overlapped nominal f.half)

/-- The record that fields within their values make: ENROLLED, not retiring, without an optional part, and with nothing measured
(R41, R119). -/
structure EnrolFields.Makes (f : EnrolFields) (mark : Nat) (nominal : Position) (r : MarkRecord) : Prop where
  mark : r.mark = mark
  nominal : r.nominal = nominal
  state : r.state = .enrolled
  retiring : r.retiring = false
  staged : r.staged = none
  half : r.fields.half = f.half
  minWidth : r.fields.minWidth = f.minWidth
  maxWidth : r.fields.maxWidth = f.maxWidth
  accept : r.fields.accept.code = f.accept
  line : f.kind = 1 → ∃ plan : LinePlan, plan.group.val = f.group ∧ plan.passes = f.passes ∧ r.kind = .line { plan := plan }
  datum : f.kind = 2 → r.kind = .datum ⟨0, none, 0⟩
  keepout : f.kind = 3 → r.kind = .keepout ⟨0, none⟩

/-- The link after a table operation has handed over its response: a response still awaited is formed, and another is left as it
is (R61, R163). -/
def State.handed (s : State) (status : Status) (bytes : List Byte) : LinkInterface :=
  { s.link with response := if s.link.response = .pending then .ready status bytes else s.link.response }

/-- 1 where a record of the group is in the table, as its member (R134). -/
def MarkRecord.memberOf (r : MarkRecord) (g : Fin 8) : Nat := if r.inGroup g then 1 else 0

/-- 1 where the record counts among the settled of the group (R134). -/
def MarkRecord.settledOf (r : MarkRecord) (g : Fin 8) : Nat := if r.inGroup g ∧ r.state = .settled then 1 else 0

/-! ### What an event of a channel brings to the line inputs, in the words of R14 and R21 -/

/-- The increment of a sample event as integrated: after sense, and 0 where the sample event is discarded (R1, R2, R8, R9). -/
def Channel.integrated (c : Channel) (increment : Int) (amplitude : Nat) : Int :=
  let sensed := if c.sense = .inverted then -increment else increment
  match c.state with
  | .off => 0
  | .acquiring => sensed
  | .tracking => if c.loseLevel ≤ amplitude ∧ increment.natAbs ≤ c.rateLimit then sensed else 0
  | .lost => if c.loseLevel ≤ amplitude then sensed else 0

/-- What an event of one channel brings: the position at an edge that was waiting for it, by the edge's phase; the channel's state
after it; whether the channel left TRACKING in it; and, from a sample event, the channel's position after it (R14, R21, R32). -/
structure ChannelNews where
  edge : Nat → Position
  state : ChannelState
  left : Bool
  sampled : Option Position

/-- A sample event that takes channel `c` to `c'` (R21). -/
def ChannelNews.ofSample (c c' : Channel) (increment : Int) (amplitude : Nat) : ChannelNews where
  edge phase := c.raw + c.offset + BitVec.ofInt 48 (c.integrated increment amplitude * phase / 256)
  state := c'.state
  left := decide (c.state = .tracking ∧ c'.state ≠ .tracking)
  sampled := some (c'.raw + c'.offset)

/-- The entry of channel `c` to OFF, or the loss of the reference, which takes it to `c'`: no increment (R21). -/
def ChannelNews.ofStop (c c' : Channel) : ChannelNews where
  edge _ := c'.raw + c'.offset
  state := c'.state
  left := decide (c.state = .tracking ∧ c'.state ≠ .tracking)
  sampled := none

/-- What each channel brings in one event, if anything. -/
abbrev LineNews := ChannelIx → Option ChannelNews

/-- News of one channel alone. -/
def LineNews.only (k : ChannelIx) (e : ChannelNews) : LineNews := fun j => if j = k then some e else none

/-- A snapshot after the news of the channel it was asked of: a waiting one comes back (R21). -/
def Snapshot.after (news : Option ChannelNews) (x : Snapshot) : Snapshot :=
  match x, news with
  | .waiting phase, some e => .completed (e.edge phase) e.state
  | .waiting phase, none => .waiting phase
  | .completed p st, _ => .completed p st

/-- The snapshots of one edge after an event, each by the channel it was asked of (R21, R29, R33). -/
def EdgeSnapshots.after (news : LineNews) (axis : ChannelIx) (pair : Option (ChannelIx × ChannelIx)) (e : EdgeSnapshots) :
    EdgeSnapshots where
  axis := e.axis.after (news axis)
  pair :=
    match pair with
    | none => e.pair
    | some (p, q) => e.pair.map fun (x, y) => (x.after (news p), y.after (news q))

/-- The event discards the open line: its axis left TRACKING, or its leading snapshot has come back in another state, or a sample
event of the axis finds the line longer than its span (R29, R32; by the returned state alone, log 33). -/
def OpenLine.discardedBy (news : LineNews) (o : OpenLine) : Prop :=
  ∃ e, news o.axis = some e ∧
    (e.left = true
      ∨ ∃ p st, o.leading.axis.after (some e) = .completed p st
          ∧ (st ≠ .tracking ∨ ∃ q, e.sampled = some q ∧ o.span < (q - p).toInt.natAbs))

/-- One input before and after an event, the forming of its closing line apart: an open line is discarded or goes on with the
snapshots that came back, a closing line gets those that came back, and a discarding input takes no notice (R29, R32, R34). -/
structure LineInput.Hears (news : LineNews) (l l' : LineInput) : Prop where
  rest : l' = { l with phase := l'.phase, closing := l'.closing }
  kept : ∀ o, l.phase = .inLine o → ¬o.discardedBy news →
    l'.phase = .inLine { o with leading := o.leading.after news o.axis o.pair }
  discarded : ∀ o, l.phase = .inLine o → o.discardedBy news → ∃ leading, l'.phase = .discarding { o with leading := leading }
  others : (∀ o, l.phase ≠ .inLine o) → l'.phase = l.phase
  closing : l'.closing = l.closing.map fun c =>
    ⟨{ c.line with leading := c.line.leading.after news c.line.axis c.line.pair }, c.trailing.after news c.line.axis c.line.pair⟩

/-- 1 where the input moves from IN_LINE to DISCARDING, which counts one SMEAR (R29, R32). -/
def LineInput.smears (l l' : LineInput) : Nat :=
  match l.phase, l'.phase with
  | .inLine _, .discarding _ => 1
  | _, _ => 0

/-- The machine once an event has reached its channels and the line inputs, with no sighting formed and the pass controller still to
act: of what else it holds, only the event unit differs, whose counters count the discarded lines, where they stand within their
ceilings before, as they always do (WithinCeilings; R14, R29, R32, R152). -/
structure State.TellsLines (s : State) (news : LineNews) (u : State) : Prop where
  lines : ∀ i, (s.line i).Hears news (u.line i)
  counters : s.events.counters.smear ≤ 65535 → u.events.counters =
    { s.events.counters with
      smear := min 65535 (s.events.counters.smear + s.line1.smears u.line1 + s.line2.smears u.line2) }
  rest : u = { s with
    channels := u.channels, monitor := u.monitor, period := u.period, line1 := u.line1, line2 := u.line2, events := u.events }

/-- An abort cause other than RESET reaches the pass controller: what R103 lists while the pass is live, and else nothing (R104,
R107). -/
def State.takesAbort (s : State) (cause : AbortCause) : State :=
  if s.pass.state = .arming ∨ s.pass.state = .running then
    { s with
      pass := { s.pass with state := .aborting, outcome := some (.aborted cause) }
      passTimer := false
      queue := []
      sweepClaim := some .abort
      events := s.events.count .unpassed s.queue.length }
  else s

/-- The end of an event in which sightings may form and the pass controller does `ends`: the closing lines are formed in the order
of their trailing edges, `ends` comes before them, after them or between them, and then the arbiter picks (R38, R39, R59; the order
is the command's, log 9). -/
def State.concludes (s : State) (first : MeetOrder) (ends : State → State) : State :=
  let earlier := s.earlierClosing
  let later : LineId := match earlier with
    | .l1 => .l2
    | .l2 => .l1
  match first with
  | .formationFirst => (ends ((s.formLine earlier).formLine later)).arbitrate
  | .passFirst => (((ends s).formLine earlier).formLine later).arbitrate
  | .passBetween => ((ends (s.formLine earlier)).formLine later).arbitrate

/-! ### Laws -/

/-- A reference period under way still awaits an enabled channel; a channel it has not reached has the raw count it had at the
boundary; and none is under way while the reference is absent (R1, R19). -/
structure State.PeriodLaw (s : State) : Prop where
  awaited : ∀ p, s.period = some p → ∃ k : ChannelIx, (s.channel k).state ≠ .off ∧ p.reached[k] = false
  unreached : ∀ p, s.period = some p → ∀ k : ChannelIx, p.reached[k] = false → (s.channel k).raw = p.boundary[k].raw
  absent : s.monitor = .absent → s.period = none

/-- A fringe channel that is referenced is in TRACKING (R12). -/
def State.ReferencedTracks (s : State) : Prop :=
  ∀ k : ChannelIx, (s.channel k).referenced = true → (s.channel k).state = .tracking

/-- Counters and tallies stay within their ceilings (R5, R11, R152). -/
structure State.WithinCeilings (s : State) : Prop where
  qualification : ∀ k : ChannelIx, (s.channel k).qualCount ≤ 4096
  losses : ∀ k : ChannelIx, (s.channel k).lossTally ≤ 255
  stray : s.events.counters.stray ≤ 65535
  unarmed : s.events.counters.unarmed ≤ 65535
  width : s.events.counters.width ≤ 65535
  smear : s.events.counters.smear ≤ 65535
  unpassed : s.events.counters.unpassed ≤ 65535
  overrun : s.events.counters.overrun ≤ 65535

/-- The idle timer runs exactly while an operating part is in IDLE; a part held in reset is in IDLE; and in IDLE the response
buffer is EMPTY (R161, R163, R171). -/
structure State.LinkLaw (s : State) : Prop where
  held : s.operating = false → s.link.exchange = .idle
  timer : s.link.idleTimer = (s.operating && decide (s.link.exchange = .idle))
  empty : s.link.exchange = .idle → s.link.response = .empty

/-- Pass numbers run from 1 to 65,535, and 0 stands for no pass yet (R93). -/
structure State.PassNumberLaw (s : State) : Prop where
  none : s.pass.number = 0 ↔ s.pass.terms = Option.none
  bound : s.pass.number ≤ 65535

/-- While the pass is live, the measuring axis is in TRACKING, and in a MEASURE pass it is referenced (R105); the last field says
why no SET MATCH in progress can break it. -/
structure State.LivePassLaw (s : State) : Prop where
  tracking : s.pass.state.live = true → s.measuringAxis.state = .tracking
  referenced : s.pass.state.live = true → s.pass.terms.map PassTerms.kind = some .measure →
    s.measuringAxis.referenced = true
  settingMatch : ∀ m, s.tableOp = some (.host (.setMatch m)) → m.axis = s.config.axis ∨ s.pass.state = .idle

/-- The queue holds at most 6 sightings, all of the open pass, and none while the pass is IDLE or ABORTING; the sweeps and
their claims belong to the pass state; the timer runs only in a live pass (R71, R73, R102, R59). -/
structure State.QueueLaw (s : State) : Prop where
  depth : s.queue.length ≤ 6
  number : ∀ x ∈ s.queue, x.pass = s.pass.number
  idle : s.pass.state = .idle → s.queue = []
  aborting : s.pass.state = .aborting → s.queue = []
  closeSweep : s.tableOp = some .closeSweep → s.pass.state = .closing ∧ s.queue = [] ∧ s.sweepClaim = none
  abortSweep : s.tableOp = some .abortSweep → s.pass.state = .aborting ∧ s.sweepClaim = none
  closeClaim : s.sweepClaim = some .close → s.pass.state = .closing
  abortClaim : s.sweepClaim = some .abort → s.pass.state = .aborting
  timer : s.passTimer = true → s.pass.state.live = true

/-- The table holds at most 2048 records, each mark number once, in strictly ascending order of nominal (R51); the last field
says the same of a record whose ENROL is in progress. -/
structure State.TableLaw (s : State) : Prop where
  capacity : s.table.length ≤ 2048
  marks : (s.table.map MarkRecord.mark).Nodup
  numbers : ∀ r ∈ s.table, r.mark < 4096
  order : s.table.Pairwise fun a b => a.nominal.toInt < b.nominal.toInt
  enrolling : ∀ r, s.tableOp = some (.host (.enrol r)) →
    s.table.length < 2048 ∧ r.mark < 4096 ∧ ∀ x ∈ s.table, x.mark ≠ r.mark ∧ x.nominal ≠ r.nominal

/-- The widened windows of two records share no position (R55, R56); the other fields say the same of the record or half-width
of an ENROL or AMEND in progress. -/
structure State.WindowLaw (s : State) : Prop where
  disjoint : ∀ a ∈ s.table, ∀ b ∈ s.table, a.mark ≠ b.mark → a.overlaps b.nominal.toInt b.reach = false
  enrolling : ∀ r, s.tableOp = some (.host (.enrol r)) →
    r.staged = none ∧ ∀ x ∈ s.table, x.overlaps r.nominal.toInt r.fields.half = false
  amending : ∀ mark a, s.tableOp = some (.host (.amend mark a)) → ∀ r ∈ s.table, r.mark = mark →
    ∀ x ∈ s.table, x.mark ≠ mark → x.overlaps r.nominal.toInt a.fields.half = false

/-- Fields within the values of R42: half-width, width limits, and the window about the nominal. -/
structure Amendable.InRange (f : Amendable) (shift : Nat) (nominal : Position) : Prop where
  least : 1 ≤ f.half
  ceiling : f.half ≤ 2 ^ (shift - 1) - 1
  widths : f.minWidth ≤ f.maxWidth
  widest : f.maxWidth ≤ 65535
  low : -(2 ^ 47) ≤ nominal.toInt - f.half
  high : nominal.toInt + f.half ≤ 2 ^ 47 - 1

/-- The bucket shift lies between 6 and 20, and the fields of every record, current and staged, lie within the values of R42 under
it; the other fields say the same of the record, the amendment or the configuration of an operation in progress. -/
structure State.RangeLaw (s : State) : Prop where
  shift : 6 ≤ s.config.shift ∧ s.config.shift ≤ 20
  records : ∀ r ∈ s.table, r.fields.InRange s.config.shift r.nominal
  staged : ∀ r ∈ s.table, ∀ a, r.staged = some a → a.fields.InRange s.config.shift r.nominal
  enrolling : ∀ r, s.tableOp = some (.host (.enrol r)) → r.fields.InRange s.config.shift r.nominal ∧ r.staged = none
  amending : ∀ mark a, s.tableOp = some (.host (.amend mark a)) → ∀ r ∈ s.table, r.mark = mark →
    a.fields.InRange s.config.shift r.nominal
  settingMatch : ∀ m, s.tableOp = some (.host (.setMatch m)) → 6 ≤ m.shift ∧ m.shift ≤ 20 ∧ s.table = []

/-- The occupancy of each slot is the number of buckets hashing to it that the records' windows touch (R66); the last field says
that a SET MATCH in progress finds the table empty. -/
structure State.OccupancyLaw (s : State) : Prop where
  counts : ∀ k : Fin 64, (s.slot k) = (s.table.flatMap (MarkRecord.slots s.config.shift)).count k
  settingMatch : ∀ m, s.tableOp = some (.host (.setMatch m)) → s.table = []

/-- The counts of each group agree with the table (R134), a SETTLED LINE record is complete (R44), and a record whose ENROL is in
progress is not SETTLED. -/
structure State.GroupLaw (s : State) : Prop where
  counts : ∀ g : Fin 8, (s.group g) = groupCounts s.table g
  settled : ∀ r ∈ s.table, ∀ l, r.kind = .line l → r.state = .settled → l.complete = true
  enrolling : ∀ r, s.tableOp = some (.host (.enrol r)) → r.state = .enrolled

/-- A record as it stands between passes (R50). -/
def MarkRecord.restful (r : MarkRecord) : Prop :=
  r.retiring = false ∧ r.staged = none ∧ r.currentPart = none ∧ r.state ≠ .armed

/-- Between passes no record is ARMED, retiring, or holds a current-pass part or a staged amendment, and only an ARMED record
holds a current-pass part (R47, R50); the other fields say which operations belong to an open pass. -/
structure State.OptionalPartLaw (s : State) : Prop where
  idle : s.pass.state = .idle → ∀ r ∈ s.table, r.restful
  parts : ∀ r ∈ s.table, r.currentPart ≠ none → r.state = .armed
  matching : ∀ m, s.tableOp = some (.sightingMatch m) → s.pass.state ≠ .idle
  arming : s.tableOp = some .armSweep → s.pass.state ≠ .idle
  reopening : ∀ mark, s.tableOp = some (.host (.reopen mark)) → s.pass.state = .idle
  enrolling : ∀ r, s.tableOp = some (.host (.enrol r)) → r.restful

end Sys2Proof.Machine
end

