-- ==== Sys2Proof/Certificates/Slice0/Obligations.lean ====
section
/-! DEFINITION. The statements of this row, for the provers. -/

open Sys2Proof Sys2Proof.Machine

/-! ### The machine as a whole -/

/-- Step carries out the command at the front of the queue, on the state with the queue's rest, and idles on an empty queue
(the queue and the idling are the model's own, log 1). -/
def Obligations.StepRunsFrontCommand : Prop :=
  (∀ (c : Instr) (rest : List Instr) (s : State), s.pending = c :: rest → step s = exec c { s with pending := rest })
    ∧ ∀ s : State, s.pending = [] → step s = .next s

/-- Every command has a next state in every state, and leaves the waiting commands alone (log 1, log 3, log 28); a part held in
reset, or without its supply, takes notice of the supply and of RSTn alone (R171; log 19, log 21). -/
def Obligations.EveryCommandHasNextState : Prop :=
  (∀ (c : Instr) (s : State), ∃ t, exec c s = .next t ∧ t.pending = s.pending)
    ∧ (∀ (c : Instr) (s : State), s.operating = false →
      c ≠ .powerOnReset → (∀ straps, c ≠ .powerOnHoldEnd straps) → c ≠ .pinResetAssert →
      (∀ straps, c ≠ .pinResetRelease straps) → c ≠ .supplyFailure → exec c s = .next s)

/-! ### Requests on the link -/

/-- A request, framed as R162 and R165 give with parity and check byte, is received as its own code and parameters and decodes
to the command it is; with every parity right and another check byte it is a check error. The nine bits of a byte hold an odd number
of ones, and the check value starts from 0xFF and takes each byte, most significant bit first, through the generator
x^8 + x^5 + x^4 + 1 (R162, R163, R165). -/
def Obligations.FramedRequestDecodes : Prop :=
  (∀ (c : Instr) (code : Byte) (params : List Byte) (address : Byte), c.request? = some (code, params) →
      c.wellFormed = true →
      receiveFrame address (sendFrame address code params) = .request code params
        ∧ ∃ first, decodeFrame first address (sendFrame address code params) = some c)
    ∧ (∀ (address code check : Byte) (params : List Byte), params.length ≤ 255 →
      let head := code :: BitVec.ofNat 8 params.length :: params
      let framed (check : Byte) : List ParityByte := (head ++ [check]).map ParityByte.of
      sendFrame address code params = framed (crc8 (address :: head))
        ∧ (check ≠ crc8 (address :: head) →
            receiveFrame address (framed check) = .checkError
              ∧ ∀ first, decodeFrame first address (framed check) = some (.linkFault .check)))
    ∧ (∀ b : Byte, (ParityByte.of b).data = b
      ∧ ((List.range 8).countP (fun n => b.getLsbD n) + (ParityByte.of b).parity.toNat) % 2 = 1)
    ∧ crc8 [] = 0xFF#8
    ∧ ∀ (bytes : List Byte) (b : Byte),
      let shifted (x : Byte) : Byte := if x.msb then (x <<< 1) ^^^ 0b00110001#8 else x <<< 1
      crc8 (bytes ++ [b]) = Nat.iterate shifted 8 (crc8 bytes ^^^ b)

/-- One wrong bit in one byte of a framed request is a parity error, whichever bit it is, the parity bit included (R162). -/
def Obligations.SingleBitErrorIsParityError : Prop :=
  ∀ (address code : Byte) (params : List Byte) (n : Nat) (w : ParityByte) (bit : Fin 9), params.length ≤ 255 →
    (sendFrame address code params)[n]? = some w →
    receiveFrame address ((sendFrame address code params).set n
      (if bit.val < 8 then { w with data := w.data ^^^ (1#8 <<< bit.val) } else { w with parity := !w.parity }))
      = .parityError

/-- A request of a listed code whose parameters are not as many as Table 12-3 gives is REJECTED LENGTH, and an unlisted code is
REJECTED UNKNOWN whatever its length; neither reaches the event unit (R163). -/
def Obligations.LinkChecksCodeThenLength : Prop :=
  (∀ (c : Instr) (code : Byte) (params : List Byte) (s : State) (len : Nat), s.receives →
      c.request? = some (code, params) → requestLength code = some len → params.length ≠ len →
      exec c s = .next (s.refused .length))
    ∧ ∀ (code : UnknownCode) (params : List Byte) (s : State), s.receives →
      exec (.unknownRequest code params) s = .next (s.refused .unknown)

/-- A sample event in TRACKING that passes both tests is integrated after sense, on its channel alone, and clears or raises no
flag but QUEUE_OVERRUN (R2, R8). -/
def Obligations.TrackingSampleIntegrates : Prop :=
  ∀ (s : State) (k : ChannelIx) (increment : Int) (amplitude : Fin 256) (first : MeetOrder), s.operating = true →
    s.monitor = .present → (s.channel k).state = .tracking → (s.channel k).loseLevel ≤ amplitude.val →
    increment.natAbs ≤ (s.channel k).rateLimit →
    ∃ t, exec (.sampleEvent k increment amplitude first) s = .next t
      ∧ t.channels = s.channels.set k
          { (s.channel k) with
            raw := (s.channel k).raw + BitVec.ofInt 48 (if (s.channel k).sense = .inverted then -increment else increment) }
      ∧ t.monitor = s.monitor ∧ t.config = s.config ∧ t.table = s.table ∧ t.occupancy = s.occupancy
      ∧ t.groups = s.groups ∧ t.protection = s.protection ∧ t.link = s.link
      ∧ (∀ f, f ≠ .queueOverrun → t.events.has f = s.events.has f)
      ∧ t.events.enables = s.events.enables ∧ t.events.groupMask = s.events.groupMask
      ∧ t.events.axisMask = s.events.axisMask

/-- A parity or check error discards the request, records its cause, raises LINK_FAULT and poisons the exchange, and nothing but the
link and the event unit changes; a POISONED part executes no request, declines every read, and stays POISONED across STARTs, until
the STOP returns it to IDLE (R162, R153). -/
def Obligations.PoisonedUntilStop : Prop :=
  (∀ (cause : LinkFaultCause) (s : State), s.receives → ∃ t, exec (.linkFault cause) s = .next t
      ∧ t = { s with link := t.link, events := t.events }
      ∧ t.link = { s.link with exchange := .poisoned, idleTimer := false, response := .empty }
      ∧ s.events.raised t.events .linkFault ∧ t.events.lastLinkFault = some cause
      ∧ t.events.counters = s.events.counters ∧ t.events.groupMask = s.events.groupMask
      ∧ t.events.axisMask = s.events.axisMask)
    ∧ (∀ s : State, s.operating = true → s.link.exchange = .poisoned →
      (∀ c : Instr, c.request? ≠ none → exec c s = .next s)
        ∧ (∀ address, exec (.linkStart address) s = .next s)
        ∧ (∀ cause, exec (.linkFault cause) s = .next s)
        ∧ (∀ extent, exec (.responseRead extent) s = .next { s with link := { s.link with sent := [] } })
        ∧ (∀ extent, exec (.poll extent) s = .next { s with link := { s.link with sent := [] } })
        ∧ ∀ straps, ∃ t, exec (.linkStop straps) s = .next t ∧ t.link.exchange = .idle)

/-! ### Fringe channels -/

/-- A sample event in TRACKING below the lose level, or else above the rate limit, is not integrated: the channel enters LOST with
FADE or OVERSPEED, counts the loss, loses its referenced flag, and reports the lock change and that it is down; and if it is the
measuring axis of a live pass, the pass is aborted with cause AXIS (R8, R11, R12, R14, R103, R105; that its qualification counter is
kept is log 22). -/
def Obligations.TrackingSampleLosesLock : Prop :=
  (∀ (s : State) (k : ChannelIx) (increment : Int) (amplitude : Fin 256) (first : MeetOrder), s.operating = true →
      s.monitor = .present → (s.channel k).state = .tracking →
      (amplitude.val < (s.channel k).loseLevel ∨ (s.channel k).rateLimit < increment.natAbs) →
      ∃ t, exec (.sampleEvent k increment amplitude first) s = .next t
        ∧ t.channels = s.channels.set k
            { (s.channel k) with
              state := .lost
              referenced := false
              qualified := false
              lossReason := if amplitude.val < (s.channel k).loseLevel then .fade else .overspeed
              lossTally := min 255 ((s.channel k).lossTally + 1) }
        ∧ t.events.has .lockChange = true ∧ t.events.has .axisDown = true ∧ t.events.axisMask.getLsbD k.val = true
        ∧ t.table = s.table ∧ t.config = s.config ∧ t.link = s.link)
    ∧ (∀ (s : State) (increment : Int) (amplitude : Fin 256) (first : MeetOrder), s.operating = true →
      s.monitor = .present → s.measuringAxis.state = .tracking → s.pass.state.live = true →
      (amplitude.val < s.measuringAxis.loseLevel ∨ s.measuringAxis.rateLimit < increment.natAbs) →
      ∃ t, exec (.sampleEvent s.config.axis increment amplitude first) s = .next t
        ∧ t.pass = { s.pass with state := .aborting, outcome := some (.aborted .axis) }
        ∧ t.passTimer = false ∧ t.queue = []
        ∧ (s.tableOp = none → t.tableOp = some .abortSweep ∧ t.sweepClaim = none)
        ∧ (s.tableOp ≠ none → t.tableOp = s.tableOp ∧ t.sweepClaim = some .abort))

/-- The end crossing, tested with the position after a sample event of the measuring axis: it closes a MEASURE pass, aborts a
DATUM pass with NOT_FOUND, and short of it the pass goes on unchanged. From RUNNING the closed pass claims its close sweep, which
waits for an operation in progress and for the queued sightings and else starts at once; from ARMING nothing is claimed yet; the
aborted pass empties the queue and claims its abort sweep (R59, R73, R100, R101, R103, R104). -/
def Obligations.EndCrossingEndsPass : Prop :=
  ∀ (s : State) (increment : Int) (amplitude : Fin 256) (first : MeetOrder) (terms : PassTerms), s.operating = true →
    s.monitor = .present → s.measuringAxis.state = .tracking → s.measuringAxis.loseLevel ≤ amplitude.val →
    increment.natAbs ≤ s.measuringAxis.rateLimit → s.pass.state.live = true → s.pass.terms = some terms →
    ∃ t, exec (.sampleEvent s.config.axis increment amplitude first) s = .next t
      ∧ let p := t.measuringAxis.position.toInt
        let crossed := match terms.direction with
          | .forward => terms.endLimit.toInt ≤ p
          | .reverse => p ≤ terms.endLimit.toInt
        let noneClosing := s.line1.closing = none ∧ s.line2.closing = none
        (¬crossed → t.pass = s.pass ∧ t.passTimer = s.passTimer)
        ∧ (crossed → t.passTimer = false
            ∧ t.pass =
              match terms.kind with
              | .measure => { s.pass with state := .closing, outcome := some .done }
              | .datum _ => { s.pass with state := .aborting, outcome := some (.aborted .notFound) })
        ∧ (crossed → terms.kind = .measure → s.pass.state = .running →
            (s.tableOp ≠ none → t.tableOp = s.tableOp ∧ t.sweepClaim = some .close)
            ∧ (s.tableOp = none → (t.tableOp = some .closeSweep ∧ t.sweepClaim = none ∧ t.queue = [])
                ∨ ∃ x, t.tableOp = some (.sightingMatch ⟨x, none⟩) ∧ t.sweepClaim = some .close)
            ∧ (s.tableOp = none → noneClosing → s.queue = [] → t.tableOp = some .closeSweep)
            ∧ ∀ x rest, s.tableOp = none → noneClosing → s.queue = x :: rest →
                t.tableOp = some (.sightingMatch ⟨x, none⟩) ∧ t.queue = rest)
        ∧ (crossed → terms.kind = .measure → s.pass.state = .arming → s.tableOp ≠ none →
            t.tableOp = s.tableOp ∧ t.sweepClaim = s.sweepClaim)
        ∧ ((∃ mark, crossed ∧ terms.kind = .datum mark) → t.queue = []
            ∧ (s.tableOp = none → t.tableOp = some .abortSweep ∧ t.sweepClaim = none)
            ∧ (s.tableOp ≠ none → t.tableOp = s.tableOp ∧ t.sweepClaim = some .abort))

/-- Qualification: a good sample event raises the counter up to 4096 and qualifies the channel at its qualify count, and in AUTO
mode moves it to TRACKING; a failing one clears counter and flag; either way the increment is integrated (R5, R6; that the counter
is kept on the entry to TRACKING is log 22). In LOST a sample event is discarded below the lose level, integrated at or above it,
and in AUTO mode at or above the acquire level followed by the entry to ACQUIRING (R9, R11). -/
def Obligations.UntrackedSampleRequalifies : Prop :=
  (∀ (s : State) (k : ChannelIx) (increment : Int) (amplitude : Fin 256) (first : MeetOrder), s.operating = true →
      s.monitor = .present → (s.channel k).state = .acquiring →
      ∃ t, exec (.sampleEvent k increment amplitude first) s = .next t
        ∧ let c := (s.channel k)
          let raw := c.raw + BitVec.ofInt 48 (if c.sense = .inverted then -increment else increment)
          let n := min 4096 (c.qualCount + 1)
          let good := c.acquireLevel ≤ amplitude.val ∧ increment.natAbs ≤ c.rateLimit
          let qualifies := c.qualified = true ∨ c.qualifyCount ≤ n
          (¬good → t.channels = s.channels.set k { c with raw := raw, qualCount := 0, qualified := false })
          ∧ (good → ¬qualifies → t.channels = s.channels.set k { c with raw := raw, qualCount := n, qualified := false })
          ∧ (good → qualifies → c.mode = .manual →
              t.channels = s.channels.set k { c with raw := raw, qualCount := n, qualified := true })
          ∧ (good → qualifies → c.mode = .auto →
              t.channels = s.channels.set k
                { c with raw := raw, qualCount := n, qualified := false, state := .tracking }
              ∧ t.events.has .lockChange = true)
          ∧ t.table = s.table ∧ t.config = s.config ∧ t.link = s.link ∧ t.pass.number = s.pass.number)
    ∧ (∀ (s : State) (k : ChannelIx) (increment : Int) (amplitude : Fin 256) (first : MeetOrder), s.operating = true →
      s.monitor = .present → (s.channel k).state = .lost →
      ∃ t, exec (.sampleEvent k increment amplitude first) s = .next t
        ∧ let c := (s.channel k)
          let raw := c.raw + BitVec.ofInt 48 (if c.sense = .inverted then -increment else increment)
          (amplitude.val < c.loseLevel → t.channels = s.channels)
          ∧ (c.loseLevel ≤ amplitude.val → c.mode = .auto → c.acquireLevel ≤ amplitude.val →
              t.channels = s.channels.set k { c with raw := raw, state := .acquiring, qualCount := 0, qualified := false })
          ∧ (c.loseLevel ≤ amplitude.val → (c.mode = .manual ∨ amplitude.val < c.acquireLevel) →
              t.channels = s.channels.set k { c with raw := raw })
          ∧ t.table = s.table ∧ t.config = s.config ∧ t.link = s.link)

/-- SET AXIS in range, with a sense it may have, replaces the configuration of its channel, moves an OFF channel that it enables
to ACQUIRING with AXIS_DOWN and its mask bit, leaves an enabled one where it is, and moves a channel that it disables to OFF,
unreferenced: with a lock change if it was TRACKING, with its news to the line inputs, and, on the measuring axis of a live pass, with
the abort cause AXIS. It is refused RANGE for a channel, flag bit or field outside its values, and STATE for a change of sense on an
enabled channel, and refused it changes nothing (R4, R14, R17, R21, R32, R35, R38, R39, R59, R103, R151, R172; that the command
carries where that cause comes among the sightings of its event, between two of them included, is the model's choice, log 9; the
reference period is log 31). -/
def Obligations.SetAxisConfiguresChannel : Prop :=
  (∀ (s : State) (k : ChannelIx) (flags acquire lose : Byte) (qualify rate : BitVec 16) (first : MeetOrder), s.receives →
      flags.toNat < 8 → lose.toNat < acquire.toNat → 16 ≤ qualify.toNat → qualify.toNat ≤ 4096 → 1 ≤ rate.toNat →
      rate.toNat ≤ 511 →
      let sense : Sense := if flags.getLsbD 2 then .inverted else .normal
      (s.channel k).sense = sense ∨ (s.channel k).state = .off →
      ∃ t, exec (.setAxis ([BitVec.ofNat 8 k.val, flags, acquire, lose] ++ twoBytes qualify ++ twoBytes rate) first) s = .next t
        ∧ t.link.response = .ready .done []
        ∧ t.channels = s.channels.set k
            (let c : Channel :=
              { (s.channel k) with
                mode := if flags.getLsbD 1 then .manual else .auto
                sense := sense
                acquireLevel := acquire.toNat
                loseLevel := lose.toNat
                qualifyCount := qualify.toNat
                rateLimit := rate.toNat }
            if flags.getLsbD 0 = false then { c with state := .off, referenced := false, qualCount := 0, qualified := false }
            else if c.state = .off then { c with state := .acquiring, qualCount := 0, qualified := false }
            else c)
        ∧ t.table = s.table ∧ t.config = s.config ∧ t.protection = s.protection ∧ t.monitor = s.monitor
        ∧ (flags.getLsbD 0 = true → t.period = s.period ∧ t.pass = s.pass ∧ t.line1 = s.line1 ∧ t.line2 = s.line2
            ∧ t.queue = s.queue ∧ t.tableOp = s.tableOp ∧ t.sweepClaim = s.sweepClaim ∧ t.events.counters = s.events.counters)
        ∧ (flags.getLsbD 0 = true → (s.channel k).state = .off →
            t.events.has .axisDown = true ∧ t.events.axisMask = s.events.axisMask ||| (1#6 <<< k.val)
              ∧ t.events.noticePending = (s.events.noticePending || s.events.enabled .axisDown)
              ∧ ∀ f, f ≠ .axisDown → t.events.has f = s.events.has f)
        ∧ (flags.getLsbD 0 = true → (s.channel k).state ≠ .off → t.events = { s.events with notice := none })
        ∧ (flags.getLsbD 0 = false → t.events.axisMask = s.events.axisMask
            ∧ ((s.channel k).state = .tracking → t.events.has .lockChange = true)
            ∧ ((s.channel k).state ≠ .tracking → t.events.has .lockChange = s.events.has .lockChange)
            ∧ ∀ f, f ≠ .lockChange → f ≠ .queueOverrun → t.events.has f = s.events.has f)
        ∧ (flags.getLsbD 0 = false → k = s.config.axis → (s.channel k).state = .tracking → s.pass.state.live = true →
            t.pass = { s.pass with state := .aborting, outcome := some (.aborted .axis) }
              ∧ t.passTimer = false ∧ t.queue = []
              ∧ (s.tableOp = none → t.tableOp = some .abortSweep ∧ t.sweepClaim = none)
              ∧ (s.tableOp ≠ none → t.tableOp = s.tableOp ∧ t.sweepClaim = some .abort))
        ∧ (flags.getLsbD 0 = false → ∃ u v : State,
            (s.responding .empty).TellsLines (LineNews.only k (ChannelNews.ofStop (s.channel k) (t.channel k))) u
              ∧ u.channels = t.channels ∧ u.monitor = s.monitor
              ∧ (s.period = none → u.period = none)
              ∧ (∀ p, s.period = some p → u.period =
                  if ∃ j : ChannelIx, (t.channel j).state ≠ .off ∧ p.reached[j] = false then some p else none)
              ∧ v = u.concludes first (fun w =>
                  if k = s.config.axis ∧ (s.channel k).state = .tracking then w.takesAbort .axis else w)
              ∧ t = { v with link := { v.link with response := .ready .done [] } }))
    ∧ (∀ (s : State) (channel flags acquire lose : Byte) (qualify rate : BitVec 16) (first : MeetOrder), s.receives →
      let c := Instr.setAxis ([channel, flags, acquire, lose] ++ twoBytes qualify ++ twoBytes rate) first
      let inRange := channel.toNat < 6 ∧ flags.toNat < 8 ∧ lose.toNat < acquire.toNat ∧ 16 ≤ qualify.toNat
        ∧ qualify.toNat ≤ 4096 ∧ 1 ≤ rate.toNat ∧ rate.toNat ≤ 511
      (¬inRange → exec c s = .next (s.refused .range))
        ∧ ∀ k : ChannelIx, channel.toNat = k.val → inRange →
          (s.channel k).sense ≠ (if flags.getLsbD 2 then .inverted else .normal) → (s.channel k).state ≠ .off →
          exec c s = .next (s.refused .state))

/-- The reference absence makes the monitor ABSENT and sends every channel in ACQUIRING or TRACKING, and no other, to LOST with
NO_REFERENCE; each that was TRACKING reports a lock change and that it is down, with its mask bit; every waiting snapshot comes back
with no increment and every open line is guarded; and a live pass whose axis tracked is aborted with cause AXIS, its queue emptied
and its abort sweep claimed. No sample event reaches a channel then, or one in OFF; a reference edge makes the monitor PRESENT and
restores no channel (R1, R14, R15, R16, R21, R32, R35, R38, R39, R59, R103; log 3; that the command carries where that cause comes
among the sightings of its event, between two of them included, is the model's choice, log 9; that the entry to LOST keeps the
qualification counter is log 22; the reference period is log 31). -/
def Obligations.ReferenceGatesSamples : Prop :=
  (∀ (s : State) (first : MeetOrder), s.operating = true → s.monitor = .present →
      ∃ t, exec (.referenceAbsenceTimeout first) s = .next t ∧ t.monitor = .absent
        ∧ (∀ k : ChannelIx, (t.channel k) =
            if (s.channel k).state = .acquiring ∨ (s.channel k).state = .tracking then
              { (s.channel k) with
                state := .lost
                referenced := false
                qualified := false
                lossReason := .noReference
                lossTally := min 255 ((s.channel k).lossTally + 1) }
            else (s.channel k))
        ∧ (s.measuringAxis.state = .tracking → s.pass.state.live = true →
            t.pass = { s.pass with state := .aborting, outcome := some (.aborted .axis) }
              ∧ t.passTimer = false ∧ t.queue = []
              ∧ (s.tableOp = none → t.tableOp = some .abortSweep ∧ t.sweepClaim = none)
              ∧ (s.tableOp ≠ none → t.tableOp = s.tableOp ∧ t.sweepClaim = some .abort))
        ∧ (let tracked := ∃ k : ChannelIx, (s.channel k).state = .tracking
          (tracked → t.events.has .lockChange = true ∧ t.events.has .axisDown = true)
            ∧ (¬tracked → t.events.has .lockChange = s.events.has .lockChange
                ∧ t.events.has .axisDown = s.events.has .axisDown)
            ∧ (tracked → (s.events.enabled .lockChange = true ∨ s.events.enabled .axisDown = true) →
                t.events.noticePending = true))
        ∧ (∀ k : ChannelIx, t.events.axisMask.getLsbD k.val
            = (s.events.axisMask.getLsbD k.val || decide ((s.channel k).state = .tracking)))
        ∧ (∃ u : State,
            s.TellsLines (fun k => some (ChannelNews.ofStop (s.channel k) (t.channel k))) u
              ∧ u.channels = t.channels ∧ u.monitor = .absent ∧ u.period = none
              ∧ t = u.concludes first (fun w =>
                  if s.measuringAxis.state = .tracking then w.takesAbort .axis else w))
        ∧ t.table = s.table ∧ t.config = s.config ∧ t.link = s.link)
    ∧ (∀ (s : State) (k : ChannelIx) (increment : Int) (amplitude : Fin 256) (first : MeetOrder),
      s.monitor = .absent ∨ (s.channel k).state = .off →
      exec (.sampleEvent k increment amplitude first) s = .next s)
    ∧ (∀ s : State, s.operating = true → exec .referenceEdge s = .next { s with monitor := .present })

/-! ### Requests of the fringe channels -/

/-- TRACK AXIS moves a qualified MANUAL channel from ACQUIRING to TRACKING with a lock change, RESTART AXIS moves a LOST channel
to ACQUIRING in either mode and keeps its loss reason and tally; each is refused RANGE or STATE otherwise (R7, R10). -/
def Obligations.TrackAndRestartMoveChannel : Prop :=
  (∀ (s : State) (channel : Byte), s.receives →
      (6 ≤ channel.toNat → exec (.trackAxis [channel]) s = .next (s.refused .range))
        ∧ ∀ k : ChannelIx, channel.toNat = k.val →
          let c := (s.channel k)
          (¬(c.mode = .manual ∧ c.state = .acquiring ∧ c.qualified = true) →
              exec (.trackAxis [channel]) s = .next (s.refused .state))
            ∧ (c.mode = .manual ∧ c.state = .acquiring ∧ c.qualified = true →
              exec (.trackAxis [channel]) s = .next
                ({ s with
                    channels := s.channels.set k { c with state := .tracking, qualified := false, qualCount := 0 }
                    events := { s.events with notice := none }.raise .lockChange }.answered [])))
    ∧ (∀ (s : State) (channel : Byte), s.receives →
      (6 ≤ channel.toNat → exec (.restartAxis [channel]) s = .next (s.refused .range))
        ∧ ∀ k : ChannelIx, channel.toNat = k.val →
          ((s.channel k).state ≠ .lost → exec (.restartAxis [channel]) s = .next (s.refused .state))
            ∧ ((s.channel k).state = .lost →
              exec (.restartAxis [channel]) s = .next
                ({ s with
                    channels := s.channels.set k
                      { (s.channel k) with state := .acquiring, qualCount := 0, qualified := false } }.answered [])))

/-- ZERO AXIS, its checks in order, makes the position of a TRACKING channel equal the value by its offset and references it
(R13, R3). -/
def Obligations.ZeroAxisReferences : Prop :=
  ∀ (s : State) (channel : Byte) (value : Position), s.receives →
    (6 ≤ channel.toNat → exec (.zeroAxis (channel :: sixBytes value)) s = .next (s.refused .range))
      ∧ ∀ k : ChannelIx, channel.toNat = k.val →
        (k = s.config.axis ∧ s.pass.state ≠ .idle →
            exec (.zeroAxis (channel :: sixBytes value)) s = .next (s.refused .state))
          ∧ (¬(k = s.config.axis ∧ s.pass.state ≠ .idle) → (s.channel k).state ≠ .tracking →
            exec (.zeroAxis (channel :: sixBytes value)) s = .next (s.refused .notTracking))
          ∧ (¬(k = s.config.axis ∧ s.pass.state ≠ .idle) → (s.channel k).state = .tracking →
            ∃ c : Channel, c = { (s.channel k) with offset := c.offset, referenced := true } ∧ c.raw + c.offset = value
              ∧ exec (.zeroAxis (channel :: sixBytes value)) s = .next ({ s with channels := s.channels.set k c }.answered []))

/-- READ AXES, READ LINES, READ PASS and READ EVENTS are answered DONE in every pass state and whatever the table unit does, with
the bytes of Tables 12-5 to 12-7, and change nothing but the link; READ EVENTS with the clear-counters option answers the values
before it and leaves every counter at 0, and another option is refused RANGE (R19, R30, R115, R156, R172). The six entries of
READ AXES are those of one boundary between two reference periods: the first sample event of a period keeps the channels as they
stood before it, until the period has reached every enabled channel (R1, R19; that the boundary is the one before the period under
way is log 31; that READ LINES answers the line flags of an input in DISCARDING with bit 0 clear, whether or not its leading snapshot
had completed, is the model's choice, log 35). -/
def Obligations.ReportsChangeNothing : Prop :=
  (∀ s : State, s.receives →
      let pair (pair : Option (ChannelIx × ChannelIx)) : List Byte :=
        match pair with
        | none => [0xFF, 0xFF]
        | some (p, q) => [BitVec.ofNat 8 p.val, BitVec.ofNat 8 q.val]
      let entry (c : Channel) : List Byte :=
        ([match c.state with
          | .off => 0
          | .acquiring => 1
          | .tracking => 2
          | .lost => 3,
          (if c.referenced then 1 else 0) + (if c.qualified then 2 else 0),
          match c.lossReason with
          | .none => 0
          | .fade => 1
          | .overspeed => 2
          | .noReference => 3,
          BitVec.ofNat 8 c.lossTally] : List Byte) ++ sixBytes (c.raw + c.offset)
      let axes : List Byte :=
        (match s.period with
          | none => s.channels
          | some p => p.boundary).toList.flatMap entry
          ++ [if s.monitor = .present then 1 else 0, BitVec.ofNat 8 s.config.axis.val] ++ pair s.config.pair
          ++ [BitVec.ofNat 8 s.config.shift]
      let input (l : LineInput) : List Byte :=
        let placed : Byte := match l.phase with
          | .inLine ⟨_, _, _, _, _, ⟨.completed _ _, _⟩⟩ => 1
          | _ => 0
        ([(if l.enable then 1 else 0) + (if l.polarity = .low then 2 else 0)] : List Byte) ++ fourBytes l.offset
          ++ fourBytes (BitVec.ofNat 32 l.span)
          ++ ([match l.phase with
            | .quiet => 0
            | .inLine _ => 1
            | .discarding _ => 2,
            placed + (if l.closing = none then 0 else 2)] : List Byte)
          ++ match l.phase with
            | .inLine o => [BitVec.ofNat 8 o.axis.val] ++ pair o.pair ++ sixBytes (match o.leading.axis with
                | .completed p _ => p
                | .waiting _ => 0)
            | .quiet => [0, 0, 0, 0, 0, 0, 0, 0, 0]
            | .discarding _ => [0, 0, 0, 0, 0, 0, 0, 0, 0]
      let terms : List Byte := match s.pass.terms with
        | none => [0, 0] ++ sixBytes 0 ++ sixBytes 0 ++ [0, 0, 0xFF, 0xFF]
        | some t =>
          ([match t.kind with
            | .measure => 1
            | .datum _ => 2,
            match t.direction with
            | .forward => 1
            | .reverse => 2] : List Byte) ++ sixBytes t.startLimit ++ sixBytes t.endLimit
            ++ twoBytes (BitVec.ofNat 16 t.timeLimit)
            ++ match t.kind with
              | .measure => [0xFF, 0xFF]
              | .datum mark => twoBytes (BitVec.ofNat 16 mark)
      let pass : List Byte :=
        twoBytes (BitVec.ofNat 16 s.pass.number) ++ terms
          ++ ([match s.pass.state with
            | .idle => 0
            | .arming => 1
            | .running => 2
            | .closing => 3
            | .aborting => 4,
            match s.pass.outcome with
            | none => 0
            | some .done => 1
            | some (.aborted .host) => 2
            | some (.aborted .axis) => 3
            | some (.aborted .timeout) => 4
            | some (.aborted .notFound) => 5
            | some (.aborted .reset) => 6] : List Byte)
          ++ twoBytes (BitVec.ofNat 16 s.pass.armed) ++ twoBytes (BitVec.ofNat 16 s.pass.taken)
          ++ twoBytes (BitVec.ofNat 16 s.pass.missed)
      let counter (n : Nat) : List Byte := twoBytes (BitVec.ofNat 16 n)
      let events : List Byte :=
        twoBytes (s.events.flags.zeroExtend 16) ++ twoBytes (s.events.enables.zeroExtend 16)
          ++ [s.events.groupMask, s.events.axisMask.zeroExtend 8]
          ++ counter s.events.counters.stray ++ counter s.events.counters.unarmed ++ counter s.events.counters.width
          ++ counter s.events.counters.smear ++ counter s.events.counters.unpassed ++ counter s.events.counters.overrun
          ++ ([(if s.events.noticePending then 1 else 0) + (if s.events.noticeOn then 2 else 0),
            match s.events.lastLinkFault with
            | none => 0
            | some .parity => 1
            | some .check => 2] : List Byte)
      exec (.readAxes []) s = .next (s.answered axes)
        ∧ exec (.readLines []) s = .next (s.answered (input s.line1 ++ input s.line2))
        ∧ exec (.readPass []) s = .next (s.answered pass)
        ∧ exec (.readEvents [0]) s = .next (s.answered events)
        ∧ exec (.readEvents [1]) s = .next
          ({ s with events := { s.events with counters := ⟨0, 0, 0, 0, 0, 0⟩ } }.answered events)
        ∧ ∀ option : Byte, 2 ≤ option.toNat → exec (.readEvents [option]) s = .next (s.refused .range))
    ∧ ∀ (s : State) (k : ChannelIx) (increment : Int) (amplitude : Fin 256) (first : MeetOrder), s.operating = true →
      s.monitor = .present → (s.channel k).state ≠ .off →
      ∃ t, exec (.sampleEvent k increment amplitude first) s = .next t
        ∧ (∀ p, s.period = some p → p.reached[k] = false →
            t.period = if ∃ j : ChannelIx, j ≠ k ∧ (s.channel j).state ≠ .off ∧ p.reached[j] = false then
              some ⟨p.boundary, p.reached.set k true⟩ else none)
        ∧ ((∀ p, s.period = some p → p.reached[k] = true) →
            t.period = if ∃ j : ChannelIx, j ≠ k ∧ (s.channel j).state ≠ .off then
              some ⟨s.channels, (Vector.replicate 6 false).set k true⟩ else none)

/-- SET MATCH: a field out of range, a pair of which exactly one is 0xFF, and a pair that names one channel twice are refused RANGE
first; with its fields in range, a change of axis or pair outside IDLE is refused STATE; with the bucket shift unchanged the
configuration is stored at once; a change of shift meets the arbiter, and past it starts the operation, which is one that refuses
STATE where the table holds a record (R22, R58, R172; that a configuration may be stored at once while an earlier one is still to
be stored is log 32). -/
def Obligations.SetMatchStoresOrStarts : Prop :=
  (∀ (s : State) (axis p q shift : Byte), s.receives →
      ¬(axis.toNat < 6 ∧ 6 ≤ shift.toNat ∧ shift.toNat ≤ 20
        ∧ (p = 0xFF ∧ q = 0xFF ∨ p.toNat < 6 ∧ q.toNat < 6 ∧ p ≠ q)) →
      exec (.setMatch [axis, p, q, shift]) s = .next (s.refused .range))
    ∧ ∀ (s : State) (axis : ChannelIx) (p q shift : Byte) (pair : Option (ChannelIx × ChannelIx)), s.receives →
      6 ≤ shift.toNat → shift.toNat ≤ 20 →
      (match pair with
        | none => p = 0xFF ∧ q = 0xFF
        | some (x, y) => p.toNat = x.val ∧ q.toNat = y.val ∧ x ≠ y) →
      let m : MatchConfig := ⟨axis, pair, shift.toNat⟩
      let c := Instr.setMatch [BitVec.ofNat 8 axis.val, p, q, shift]
      let moves := (axis ≠ s.config.axis ∨ pair ≠ s.config.pair) ∧ s.pass.state ≠ .idle
      let free := s.tableOp = none ∧ s.sweepClaim = none ∧ s.queue = []
      let starts (op : HostOp) : Prop := exec c s = .next ({ s with tableOp := some (.host op) }.responding .pending)
      (moves → exec c s = .next (s.refused .state))
        ∧ (¬moves → m.shift = s.config.shift → exec c s = .next ({ s with config := m }.answered []))
        ∧ (¬moves → m.shift ≠ s.config.shift → ¬free → exec c s = .next (s.refused .busy))
        ∧ (¬moves → m.shift ≠ s.config.shift → free → s.table ≠ [] → starts (.refuse .state))
        ∧ (¬moves → m.shift ≠ s.config.shift → free → s.table = [] → starts (.setMatch m))

/-! ### Line inputs -/

/-- A leading edge at an enabled QUIET input opens a line that latches polarity, offset, span, measuring axis and pair; its
leading snapshot waits, or, for a channel in OFF or with the reference ABSENT, comes back at once and discards a line that cannot
be placed, with one SMEAR; a disabled input takes no notice but for the level at its pin (R26, R29, R21; the level is log 18). A
sample event of the latched axis completes the leading snapshot at the position before it plus the part of the increment that the
phase gives, 0 where the increment is not integrated; the line is placed there if the axis then tracks and its position is within the
span, and is discarded otherwise; a placed line is discarded when the axis leaves TRACKING or passes the span; the sample events of
other channels leave it open (R21, R29, R32; by the returned state alone, log 33; the SMEAR of each is counted in
SightingIsFormedFromEdges). -/
def Obligations.LeadingEdgeOpensLine : Prop :=
  (∀ (s : State) (i : LineId) (phase : Fin 256), s.operating = true → (s.line i).enable = true →
      (s.line i).phase = .quiet →
      let l := s.line i
      let ask (k : ChannelIx) : Snapshot :=
        if (s.channel k).state = .off ∨ s.monitor = .absent then
          .completed ((s.channel k).raw + (s.channel k).offset) (s.channel k).state
        else .waiting phase.val
      let o : OpenLine := ⟨l.polarity, l.offset, l.span, s.config.axis, s.config.pair,
        ⟨ask s.config.axis, s.config.pair.map fun (p, q) => (ask p, ask q)⟩⟩
      let level : Level := match l.polarity with
        | .high => .high
        | .low => .low
      (s.monitor = .present → s.measuringAxis.state ≠ .off →
          o.leading.axis = .waiting phase.val
            ∧ exec (.leadingEdge i phase) s = .next (s.setLine i { l with level := level, phase := .inLine o }))
        ∧ (s.monitor = .absent ∨ s.measuringAxis.state = .off → s.measuringAxis.state ≠ .tracking →
            exec (.leadingEdge i phase) s
              = .next ((s.setLine i { l with level := level, phase := .discarding o }).count .smear 1)))
    ∧ (∀ (s : State) (i : LineId) (phase : Fin 256), s.operating = true → (s.line i).enable = false →
      (s.line i).phase = .quiet →
      ∃ level, exec (.leadingEdge i phase) s = .next (s.setLine i { s.line i with level := level }))
    ∧ (∀ (s : State) (k : ChannelIx) (increment : Int) (amplitude : Fin 256) (first : MeetOrder) (i : LineId) (o : OpenLine),
      s.operating = true → s.monitor = .present → (s.channel k).state ≠ .off → (s.line i).phase = .inLine o →
      ∃ t, exec (.sampleEvent k increment amplitude first) s = .next t
        ∧ let c := s.channel k
          let c' := t.channel k
          let edge (phase : Nat) : Position :=
            c.raw + c.offset + BitVec.ofInt 48 (c.integrated increment amplitude * phase / 256)
          let passes (p : Position) : Prop := o.span < ((c'.raw + c'.offset) - p).toInt.natAbs
          let goesOn (axis : Snapshot) : Prop := ∃ leading : EdgeSnapshots, leading.axis = axis
            ∧ (t.line i).phase = .inLine { o with leading := leading }
          let discarded : Prop := ∃ leading, (t.line i).phase = .discarding { o with leading := leading }
          (o.axis = k → ∀ n, o.leading.axis = .waiting n →
              (c'.state ≠ .tracking ∨ passes (edge n) → discarded)
                ∧ (c'.state = .tracking → ¬passes (edge n) → goesOn (.completed (edge n) .tracking)))
            ∧ (o.axis = k → ∀ p, o.leading.axis = .completed p .tracking →
              (c.state = .tracking ∧ c'.state ≠ .tracking ∨ passes p → discarded)
                ∧ (¬(c.state = .tracking ∧ c'.state ≠ .tracking) → ¬passes p → goesOn (.completed p .tracking)))
            ∧ (o.axis ≠ k → goesOn o.leading.axis))

/-- A trailing edge: without effect in QUIET, the end of a discarded line without a count, too narrow while the leading snapshot
waits or while the input still holds a closing line, and otherwise the close of the line, whose trailing snapshots are asked for while
the input is QUIET again. The two inputs' closing lines are then formed as far as they have all their snapshots, the earlier trailing
edge first: that of the other input where it still holds a closing line (R21, R26, R31, R33 to R35, R39, R59; the level at the pin is
log 18, a second closing line log 23, the field that holds the order log 24, the arbiter at the end of the event log 10). -/
def Obligations.TrailingEdgeByState : Prop :=
  ∀ (s : State) (i : LineId) (phase : Fin 256), s.operating = true →
    let runs (t : State) : Prop := exec (.trailingEdge i phase) s = .next t
    let bare : Polarity → Level
      | .high => .low
      | .low => .high
    let passed (polarity : Polarity) : LineInput := { s.line i with level := bare polarity, phase := .quiet }
    ((s.line i).phase = .quiet → runs (s.setLine i (passed (s.line i).polarity)))
      ∧ (∀ o, (s.line i).phase = .discarding o → runs (s.setLine i (passed o.polarity)))
      ∧ (∀ o, (s.line i).phase = .inLine o → (∃ n, o.leading.axis = .waiting n) ∨ (s.line i).closing ≠ none →
          runs ((s.setLine i (passed o.polarity)).count .smear 1))
      ∧ ∀ o p st, (s.line i).phase = .inLine o → o.leading.axis = .completed p st → (s.line i).closing = none →
          let ask (k : ChannelIx) : Snapshot :=
            if (s.channel k).state = .off ∨ s.monitor = .absent then
              .completed ((s.channel k).raw + (s.channel k).offset) (s.channel k).state
            else .waiting phase.val
          let l : LineInput :=
            { passed o.polarity with closing := some ⟨o, ⟨ask o.axis, o.pair.map fun (p, q) => (ask p, ask q)⟩⟩ }
          let other : LineId := match i with
            | .l1 => .l2
            | .l2 => .l1
          let order : LineId × LineId := if (s.line other).closing = none then (i, other) else (other, i)
          let closed : State := { s with earlierClosing := order.1 }.setLine i l
          let t := ((closed.formLine order.1).formLine order.2).arbitrate
          runs t ∧ t.earlierClosing = order.1
            ∧ (s.monitor = .present → (s.channel o.axis).state ≠ .off →
                t.line i = l ∧ t.channels = s.channels ∧ t.table = s.table ∧ t.link = s.link)

/-- A sighting formed while the pass is live is tagged and goes to the queue of a DATUM pass, or through the prefilter of a
MEASURE pass, which drops it as STRAY at a slot of 0; otherwise it is UNPASSED. The bucket of a position is the position divided by
2^s, rounded toward minus infinity, and the slot of a bucket the exclusive OR of the six 6-bit pieces of its low 36 bits (R38, R39,
R64, R65, R69, R71). -/
def Obligations.SightingIsTaggedOrUnpassed : Prop :=
  (∀ (shift : Nat) (p : Position), (bucketOf shift p).toInt = p.toInt / 2 ^ shift)
  ∧ (∀ b : Position,
    let piece (n : Nat) : Nat := b.toNat / 2 ^ (6 * n) % 64
    (slotOf b).val = piece 0 ^^^ piece 1 ^^^ piece 2 ^^^ piece 3 ^^^ piece 4 ^^^ piece 5)
  ∧ ∀ (s : State) (i : LineId) (centre : Position) (width : Nat) (abbe : Option Position) (terms : PassTerms),
    s.pass.terms = some terms →
    let x : Sighting := ⟨i, s.pass.number, centre, width, abbe⟩
    let slot := slotOf (bucketOf s.config.shift centre)
    (s.pass.state.live = false → s.tagSighting i centre width abbe = s.count .unpassed 1)
      ∧ (s.pass.state.live = true → terms.kind = .measure → (s.slot slot) = 0 →
          s.tagSighting i centre width abbe = s.count .stray 1)
      ∧ (s.pass.state.live = true → (terms.kind = .measure → (s.slot slot) ≠ 0) → s.queue.length < 6 →
          s.tagSighting i centre width abbe = { s with queue := s.queue ++ [x] })
      ∧ (s.pass.state.live = true → (terms.kind = .measure → (s.slot slot) ≠ 0) → 6 ≤ s.queue.length →
          s.tagSighting i centre width abbe = (s.count .overrun 1).raise .queueOverrun)

/-- A closing line waits while one of its snapshots does. Once they have all come back it is refused where the axis was not TRACKING
or the width exceeds the latched span, and otherwise formed with its centre and width, and with its Abbe value where a pair was
latched and all four pair snapshots came back TRACKING, without one otherwise; a refused line counts one SMEAR, a formed one is
tagged. Away from the wrap the centre is the midpoint of the edges, rounded down, plus the sighting offset, and the width their
distance. A sample event brings its channel's news to both inputs, where snapshots come back and each discarded line counts one SMEAR,
and then forms the closing lines whose last snapshot came back, with the loss or the end crossing of the measuring axis before, after
or between them (R14, R21, R29, R32, R35 to R39, R100, R101, R103; log 9, log 33). -/
def Obligations.SightingIsFormedFromEdges : Prop :=
  (∀ (c : ClosingLine) (n : Nat), (c.trailing.axis = .waiting n ∨ (∃ y, c.trailing.pair = some (.waiting n, y))
        ∨ ∃ x, c.trailing.pair = some (x, .waiting n)) → c.form = .waiting)
    ∧ (∀ (c : ClosingLine) (a b : Position) (sa sb : ChannelState), c.line.leading.axis = .completed a sa →
      c.trailing.axis = .completed b sb →
      let refused := sb ≠ .tracking ∨ c.line.span < widthOf a b
      let formed (abbe : Option Position) : Prop := c.form = .formed (centreOf a b c.line.offset) (widthOf a b) abbe
      (c.trailing.pair = none → (refused → c.form = .refused) ∧ (¬refused → formed none))
        ∧ ∀ pb qb sp sq, c.trailing.pair = some (.completed pb sp, .completed qb sq) →
          (refused → c.form = .refused)
          ∧ ∀ pa qa rp rq, ¬refused → c.line.leading.pair = some (.completed pa rp, .completed qa rq) →
            (rp = .tracking ∧ rq = .tracking ∧ sp = .tracking ∧ sq = .tracking →
                formed (some (BitVec.ofInt 48 (((pa - qa).toInt + (pb - qb).toInt) / 2))))
            ∧ (¬(rp = .tracking ∧ rq = .tracking ∧ sp = .tracking ∧ sq = .tracking) → formed none))
    ∧ (∀ (s : State) (i : LineId) (c : ClosingLine), (s.line i).closing = some c →
      (c.form = .waiting → s.formLine i = s)
        ∧ (c.form = .refused → s.formLine i = (s.setLine i { s.line i with closing := none }).count .smear 1)
        ∧ ∀ centre width abbe, c.form = .formed centre width abbe →
          s.formLine i = (s.setLine i { s.line i with closing := none }).tagSighting i centre width abbe)
    ∧ (∀ (a b : Position) (offset : BitVec 32),
      -(2 ^ 47) ≤ b.toInt - a.toInt → b.toInt - a.toInt < 2 ^ 47 →
      -(2 ^ 47) ≤ (a.toInt + b.toInt) / 2 + offset.toInt → (a.toInt + b.toInt) / 2 + offset.toInt < 2 ^ 47 →
      (centreOf a b offset).toInt = (a.toInt + b.toInt) / 2 + offset.toInt
        ∧ widthOf a b = (b.toInt - a.toInt).natAbs)
    ∧ (∀ (s : State) (k : ChannelIx) (increment : Int) (amplitude : Fin 256) (first : MeetOrder), s.operating = true →
      s.monitor = .present → (s.channel k).state ≠ .off →
      let c := s.channel k
      ∃ (u : State) (c' : Channel), s.TellsLines (LineNews.only k (ChannelNews.ofSample c c' increment amplitude)) u
        ∧ u.channels = s.channels.set k c' ∧ u.monitor = s.monitor
        ∧ exec (.sampleEvent k increment amplitude first) s = .next (u.concludes first fun v =>
          if k ≠ v.config.axis then v
          else if c.state = .tracking ∧ c'.state ≠ .tracking then v.takesAbort .axis
          else match v.pass.terms with
            | none => v
            | some terms =>
              let p := (c'.raw + c'.offset).toInt
              let crossed : Bool := match terms.direction with
                | .forward => decide (terms.endLimit.toInt ≤ p)
                | .reverse => decide (p ≤ terms.endLimit.toInt)
              if crossed = true ∧ (v.pass.state = .arming ∨ v.pass.state = .running) then
                match terms.kind with
                | .measure =>
                  { v with
                    pass := { v.pass with state := .closing, outcome := some .done }
                    passTimer := false
                    sweepClaim := if v.pass.state = .running then some .close else v.sweepClaim }
                | .datum _ => v.takesAbort .notFound
              else v))

/-- SET LINE in range replaces the four stored fields together; with enable off it drops the lines without a count and leaves the
input QUIET; out of range it is refused RANGE and changes nothing (R27, R28). -/
def Obligations.SetLineStoresFields : Prop :=
  ∀ (s : State) (input flags : Byte) (offset span : BitVec 32), s.receives →
    let c := Instr.setLine ([input, flags] ++ fourBytes offset ++ fourBytes span)
    let inRange := flags.toNat < 4 ∧ 1 ≤ span.toNat ∧ span.toNat ≤ 16777216
    (¬(inRange ∧ (input = 1 ∨ input = 2)) → exec c s = .next (s.refused .range))
      ∧ ∀ i : LineId, inRange → input = (match i with | .l1 => 1 | .l2 => 2) →
        let stored : LineInput :=
          { s.line i with
            enable := flags.getLsbD 0
            polarity := if flags.getLsbD 1 then .low else .high
            offset := offset
            span := span.toNat }
        (flags.getLsbD 0 = true → exec c s = .next ((s.setLine i stored).answered []))
          ∧ (flags.getLsbD 0 = false →
            exec c s = .next ((s.setLine i { stored with phase := .quiet, closing := none }).answered []))

/-! ### Segment protection and events -/

/-- A protection bit, once set, becomes clear only by a power-on reset or by an UNPROTECT with the CAL state TIED (R142). -/
def Obligations.ProtectionBitsPersist : Prop :=
  ∀ (c : Instr) (s t : State) (k : Fin 32), exec c s = .next t → s.protection.map.getLsbD k.val = true →
    t.protection.map.getLsbD k.val = false →
    c = .powerOnReset ∨ (∃ params, c = .unprotect params) ∧ s.protection.cal = .tied

/-- PROTECT sets the bits of the segments it names in whatever state the pass and the table unit are, answers the map after it,
raises no event, and changes nothing else (R144). UNPROTECT clears the bits it names with the CAL state TIED, and with it OPEN
clears nothing, is REJECTED PROTECTED, records the fault and raises PROTECT_FAULT (R145). READ PROTECT answers the map, the CAL
state and the last protection fault, as Table 12-3 lays them out, and changes no state (R148). -/
def Obligations.ProtectionRequestsJudgedByCal : Prop :=
  (∀ (s : State) (set : BitVec 32), s.receives →
      exec (.protect (fourBytes set)) s = .next
        ({ s with protection := { s.protection with map := s.protection.map ||| set } }.answered
          (fourBytes (s.protection.map ||| set))))
    ∧ (∀ (s : State) (set : BitVec 32), s.receives →
      (s.protection.cal = .tied →
          exec (.unprotect (fourBytes set)) s = .next
            ({ s with protection := { s.protection with map := s.protection.map &&& ~~~set } }.answered
              (fourBytes (s.protection.map &&& ~~~set))))
        ∧ (s.protection.cal = .untied →
          exec (.unprotect (fourBytes set)) s = .next
            ({ s with
                protection := { s.protection with fault := .unprotectRefused }
                events := { s.events with notice := none }.raise .protectFault }.refused .isProtected)))
    ∧ (∀ s : State, s.receives → exec (.readProtect []) s = .next (s.answered
      (fourBytes s.protection.map ++ [if s.protection.cal = .tied then 1 else 0]
        ++ match s.protection.fault with
          | .none => [0, 0xFF, 0xFF]
          | .request mark => 1 :: twoBytes (BitVec.ofNat 16 mark)
          | .unprotectRefused => [2, 0xFF, 0xFF])))

/-- ENROL, AMEND and RETIRE of a mark number whose segment is protected, sent to a free table unit, are REJECTED PROTECTED, record
the number and raise PROTECT_FAULT; ENROL RUN answers DONE with 0 records and PROTECTED; nothing else changes (R146, R147; that
the refusal answers at once is log 12). -/
def Obligations.ProtectedSegmentRefusesChanges : Prop :=
  ∀ (s : State) (params : List Byte), s.receives → s.tableFree = true →
    let mark := field params 0 2
    let shielded : State :=
      { s with
        protection := { s.protection with fault := .request mark }
        events := { s.events with notice := none }.raise .protectFault }
    mark < 4096 → s.protection.map.getLsbD (mark / 128) = true →
    (params.length = 19 → exec (.enrol params) s = .next (shielded.refused .isProtected))
      ∧ (params.length = 12 → exec (.amend params) s = .next (shielded.refused .isProtected))
      ∧ (params.length = 2 → exec (.retire params) s = .next (shielded.refused .isProtected))
      ∧ (params.length = 26 → 1 ≤ (runRequest params).count → (runRequest params).count ≤ 16 →
          (runRequest params).pitch ≠ 0 → exec (.enrolRun params) s = .next (shielded.answered [0x00, 0x19]))

/-- CLEAR EVENTS in its four steps: the named flags, the masks that go with them, the condition flags raised again while their
conditions hold, and the notice pending flag (R157). -/
def Obligations.ClearEventsInFourSteps : Prop :=
  ∀ (s : State) (set : BitVec 16), s.receives →
    (512 ≤ set.toNat → exec (.clearEvents (twoBytes set)) s = .next (s.refused .range))
      ∧ (set.toNat < 512 → ∃ t, exec (.clearEvents (twoBytes set)) s = .next t
        ∧ t = ({ s with events := t.events }.answered (twoBytes (t.events.flags.zeroExtend 16)))
        ∧ let axis := set.getLsbD 7 = true
            ∧ ∃ k : ChannelIx, (s.channel k).state = .acquiring ∨ (s.channel k).state = .lost
          let full := set.getLsbD 8 = true ∧ s.table.length = 2048
          (∀ f : EventFlag, t.events.has f = true ↔
              (s.events.has f = true ∧ set.getLsbD f.bit = false) ∨ (f = .axisDown ∧ axis) ∨ (f = .tableFull ∧ full))
          ∧ (t.events.groupMask = if set.getLsbD 1 then 0 else s.events.groupMask)
          ∧ (∀ k : ChannelIx, t.events.axisMask.getLsbD k.val =
              if set.getLsbD 7 then decide ((s.channel k).state = .acquiring ∨ (s.channel k).state = .lost)
              else s.events.axisMask.getLsbD k.val)
          ∧ (t.events.noticePending = true ↔
              (t.events.flags &&& t.events.enables ≠ 0
                ∧ (s.events.noticePending = true
                  ∨ (axis ∧ s.events.enabled .axisDown = true) ∨ (full ∧ s.events.enabled .tableFull = true))))
          ∧ t.events.enables = s.events.enables ∧ t.events.noticeOn = s.events.noticeOn
          ∧ t.events.counters = s.events.counters ∧ t.events.lastLinkFault = s.events.lastLinkFault)

/-- SET NOTICE stores the setting and all nine enables together, and a set flag whose enable goes from off to on makes the notice
pending. A report of an occurrence sets its flag, and makes a notice pending where its enable is on; a report to a counter raises it by
the number it carries, up to 65,535, and does nothing else (R149, R152, R154, R158). -/
def Obligations.SetNoticeStoresEnables : Prop :=
  (∀ (s : State) (f : EventFlag), ∃ flags notice,
      s.raise f = { s with
          events := { s.events with
            flags := flags, noticePending := s.events.noticePending || s.events.enabled f, notice := notice } }
        ∧ ∀ g, (s.raise f).events.has g = (decide (g = f) || s.events.has g))
  ∧ (∀ (s : State) (k : Counter) (n : Nat),
      let c := s.events.counters
      s.count k n = { s with
        events := { s.events with
          counters := match k with
            | .stray => { c with stray := min 65535 (c.stray + n) }
            | .unarmed => { c with unarmed := min 65535 (c.unarmed + n) }
            | .width => { c with width := min 65535 (c.width + n) }
            | .smear => { c with smear := min 65535 (c.smear + n) }
            | .unpassed => { c with unpassed := min 65535 (c.unpassed + n) }
            | .overrun => { c with overrun := min 65535 (c.overrun + n) } } })
  ∧ ∀ (s : State) (setting : Byte) (enables : BitVec 16), s.receives →
    (1 < setting.toNat ∨ 512 ≤ enables.toNat →
        exec (.setNotice (setting :: twoBytes enables)) s = .next (s.refused .range))
      ∧ (setting.toNat ≤ 1 → enables.toNat < 512 →
        exec (.setNotice (setting :: twoBytes enables)) s = .next
          ({ s with
              events := { s.events with
                noticeOn := setting == 1
                enables := enables.setWidth 9
                noticePending := s.events.noticePending
                  || decide (∃ i : Fin 9, s.events.flags.getLsbD i.val = true ∧ s.events.enables.getLsbD i.val = false
                    ∧ enables.getLsbD i.val = true) } }.answered []))

/-! ### Requests of the link interface -/

/-- IDENTIFY answers family code, revision, straps and reset causes, and clears the cause record in the same event; RESET arms its
scope and is answered DONE with nothing reset yet, and another scope is refused RANGE (R169, R170, Table 12-3). -/
def Obligations.IdentifyAndResetRequests : Prop :=
  (∀ s : State, s.receives →
      let causes := (if s.link.causes.power then 1#8 else 0) ||| (if s.link.causes.pin then 2#8 else 0)
        ||| (if s.link.causes.part then 4#8 else 0)
      let straps := s.link.strap.zeroExtend 8 ||| (if s.protection.cal = .tied then 0x80#8 else 0)
      exec (.identify []) s = .next
        ({ s with link := { s.link with causes := ⟨false, false, false⟩ } }.answered [0xDC, 0x06, 0x01, straps, causes]))
    ∧ (∀ (s : State) (scope : Byte), s.receives →
      (scope = 1 → exec (.reset [scope]) s = .next ({ s with link := { s.link with armedPart := true } }.answered []))
        ∧ (scope = 2 →
          exec (.reset [scope]) s = .next ({ s with link := { s.link with armedInterface := true } }.answered []))
        ∧ (scope ≠ 1 → scope ≠ 2 → exec (.reset [scope]) s = .next (s.refused .range)))

/-! ### Passes -/

/-- BEGIN PASS, its checks passed, opens the next pass number with the request's terms, tallies of 0 and outcome none, starts the
timer for a limit other than 0, and holds the table unit for the arm sweep, whose response is awaited; it is refused STATE for an
open pass, then BUSY, then RANGE, NOT_TRACKING, and UNREFERENCED or NO_RECORD or RANGE by its kind, and refused it changes nothing
(R93 to R96; that a check of R95 answers at once is log 13). -/
def Obligations.BeginPassOpensOrRefuses : Prop :=
  (∀ (s : State) (kind direction : Byte) (start finish : Position) (limit mark : BitVec 16) (k : PassKind) (d : Direction),
      s.receives → s.pass.state = .idle → s.tableFree = true →
      ((kind = 1 ∧ k = .measure ∧ s.measuringAxis.referenced = true)
        ∨ (kind = 2 ∧ k = .datum mark.toNat ∧ mark.toNat < 4096
          ∧ ∃ r datum, findMark s.table mark.toNat = some r ∧ r.kind = .datum datum)) →
      ((direction = 1 ∧ d = .forward ∧ start.toInt < finish.toInt)
        ∨ (direction = 2 ∧ d = .reverse ∧ finish.toInt < start.toInt)) →
      s.measuringAxis.state = .tracking →
      exec (.beginPass ([kind, direction] ++ sixBytes start ++ sixBytes finish ++ twoBytes limit ++ twoBytes mark)) s = .next
        ({ s with
            pass :=
              { number := if s.pass.number = 65535 then 1 else s.pass.number + 1
                terms := some ⟨k, d, start, finish, limit.toNat⟩
                state := .arming
                outcome := none
                armed := 0
                taken := 0
                missed := 0 }
            passTimer := limit.toNat != 0
            tableOp := some .armSweep }.responding .pending))
    ∧ (∀ (s : State) (kind direction : Byte) (start finish : Position) (limit mark : BitVec 16), s.receives →
      let c := Instr.beginPass ([kind, direction] ++ sixBytes start ++ sixBytes finish ++ twoBytes limit ++ twoBytes mark)
      let inRange := (kind = 1 ∨ kind = 2 ∧ mark.toNat < 4096)
        ∧ (direction = 1 ∧ start.toInt < finish.toInt ∨ direction = 2 ∧ finish.toInt < start.toInt)
      (s.pass.state ≠ .idle → exec c s = .next (s.refused .state))
        ∧ (s.pass.state = .idle → s.tableFree = false → exec c s = .next (s.refused .busy))
        ∧ (s.pass.state = .idle → s.tableFree = true →
          (¬inRange → exec c s = .next (s.refused .range))
          ∧ (inRange → s.measuringAxis.state ≠ .tracking → exec c s = .next (s.refused .notTracking))
          ∧ (inRange → s.measuringAxis.state = .tracking → kind = 1 → s.measuringAxis.referenced = false →
              exec c s = .next (s.refused .unreferenced))
          ∧ (inRange → s.measuringAxis.state = .tracking → kind = 2 → findMark s.table mark.toNat = none →
              exec c s = .next (s.refused .noRecord))
          ∧ (inRange → s.measuringAxis.state = .tracking → kind = 2 →
              ∀ r, findMark s.table mark.toNat = some r → (∀ datum, r.kind ≠ .datum datum) →
              exec c s = .next (s.refused .range))))

/-- ABORT PASS is refused STATE outside a live pass or for the number of another pass, and otherwise aborts the live pass with
outcome HOST, empties the queue with one UNPASSED each, brings the abort sweep, and answers the pass number; the expiry of a running
pass timer does the same with outcome TIMEOUT (R102, R103, R106); the expiry of a stopped timer, which cannot come, does nothing (the
model's choice, log 3). -/
def Obligations.AbortAndTimeoutEndLivePass : Prop :=
  (∀ (s : State) (number : BitVec 16), s.receives →
      let c := Instr.abortPass (twoBytes number)
      (¬(s.pass.state.live = true ∧ (number.toNat = 0 ∨ number.toNat = s.pass.number)) →
          exec c s = .next (s.refused .state))
        ∧ (s.pass.state.live = true → (number.toNat = 0 ∨ number.toNat = s.pass.number) →
          exec c s = .next
            ({ s with
                pass := { s.pass with state := .aborting, outcome := some (.aborted .host) }
                passTimer := false
                queue := []
                events := s.events.count .unpassed s.queue.length
                tableOp := if s.tableOp = none then some .abortSweep else s.tableOp
                sweepClaim := if s.tableOp = none then none else some .abort }.answered
              (twoBytes (BitVec.ofNat 16 s.pass.number)))))
    ∧ (∀ s : State, s.operating = true →
      (s.passTimer = false → exec .passTimerExpiry s = .next s)
        ∧ (s.passTimer = true → s.pass.state.live = true →
          exec .passTimerExpiry s = .next
            { s with
              pass := { s.pass with state := .aborting, outcome := some (.aborted .timeout) }
              passTimer := false
              queue := []
              events := s.events.count .unpassed s.queue.length
              tableOp := if s.tableOp = none then some .abortSweep else s.tableOp
              sweepClaim := if s.tableOp = none then none else some .abort }))

/-! ### The table unit -/

/-- The arbiter leaves an operation in progress alone, and else picks a pending ABORT sweep, then the oldest sighting, then a
pending CLOSE sweep (R57, R59; that it runs at the end of each event is log 10). -/
def Obligations.ArbiterPicksByPreference : Prop :=
  ∀ s : State,
    (s.tableOp ≠ none → s.arbitrate = s)
      ∧ (s.tableOp = none → s.sweepClaim = some .abort →
          s.arbitrate = { s with tableOp := some .abortSweep, sweepClaim := none })
      ∧ (∀ x rest, s.tableOp = none → s.sweepClaim ≠ some .abort → s.queue = x :: rest →
          s.arbitrate = { s with tableOp := some (.sightingMatch ⟨x, none⟩), queue := rest })
      ∧ (s.tableOp = none → s.sweepClaim = some .close → s.queue = [] →
          s.arbitrate = { s with tableOp := some .closeSweep, sweepClaim := none })
      ∧ (s.tableOp = none → s.sweepClaim = none → s.queue = [] → s.arbitrate = s)

/-- A table request that meets a table unit in use, or a claim that waits, is REJECTED BUSY and changes nothing; LOOKUP, READ
RANGE, READ GROUPS, REOPEN and RETIRE sent to a free one start their operation, or one that refuses by the first failing check,
and the response is awaited (R58, R61, R128, R130 to R132, R141). -/
def Obligations.TableRequestsMeetArbiter : Prop :=
  ∀ (s : State) (params : List Byte), s.receives →
    let starts (c : Instr) (op : HostOp) : Prop :=
      exec c s = .next ({ s with tableOp := some (.host op) }.responding .pending)
    let mark := field params 0 2
    (s.tableFree = false → ∀ c : Instr,
        (c = .lookup params ∨ c = .retire params ∨ c = .reopen params) ∧ params.length = 2
          ∨ c = .readRange params ∧ params.length = 6 ∨ c = .readGroups params ∧ params.length = 0
          ∨ c = .enrol params ∧ params.length = 19 ∨ c = .enrolRun params ∧ params.length = 26
          ∨ c = .amend params ∧ params.length = 12 →
        exec c s = .next (s.refused .busy))
      ∧ (s.tableFree = true → params.length = 6 → starts (.readRange params) (.readRange (positionField params 0)))
      ∧ (s.tableFree = true → params.length = 0 → starts (.readGroups params) .readGroups)
      ∧ (s.tableFree = true → params.length = 2 →
        (4096 ≤ mark → starts (.lookup params) (.refuse .range) ∧ starts (.retire params) (.refuse .range))
        ∧ (s.pass.state ≠ .idle → starts (.reopen params) (.refuse .state))
        ∧ (s.pass.state = .idle → 4096 ≤ mark → starts (.reopen params) (.refuse .range))
        ∧ (mark < 4096 → findMark s.table mark = none →
            starts (.lookup params) (.refuse .noRecord)
              ∧ (s.protection.map.getLsbD (mark / 128) = false → starts (.retire params) (.refuse .noRecord))
              ∧ (s.pass.state = .idle → starts (.reopen params) (.refuse .noRecord)))
        ∧ ∀ r, mark < 4096 → findMark s.table mark = some r →
            starts (.lookup params) (.lookup mark)
              ∧ (s.protection.map.getLsbD (mark / 128) = false →
                  starts (.retire params) (if r.retiring then .refuse .state else .retire mark))
              ∧ (s.pass.state = .idle →
                  starts (.reopen params) (match r.kind with
                    | .line _ => .reopen mark
                    | .datum _ => .refuse .range
                    | .keepout _ => .refuse .range)))

/-- ENROL sent to a free table unit for an unprotected mark number: EXISTS, FULL, RANGE and OVERLAP in this order, and otherwise
the operation that inserts a record of the request's fields, ENROLLED and with every count at 0 (R118, R119). -/
def Obligations.EnrolJudgesItsRecord : Prop :=
  ∀ (s : State) (params : List Byte), s.receives → s.tableFree = true → params.length = 19 →
    let starts (op : HostOp) : Prop :=
      exec (.enrol params) s = .next ({ s with tableOp := some (.host op) }.responding .pending)
    let mark := field params 0 2
    let f := enrolFields params
    let nominal := positionField params 3
    let inRange := f.inRange s.config.shift nominal.toInt
    let overlapped := s.overlapped nominal.toInt f.half
    (4096 ≤ mark → starts (.refuse .range))
      ∧ (mark < 4096 → s.protection.map.getLsbD (mark / 128) = false →
        ((∃ x ∈ s.table, x.mark = mark) → starts (.refuse .alreadyExists))
        ∧ ((∀ x ∈ s.table, x.mark ≠ mark) → s.table.length = 2048 → starts (.refuse .full))
        ∧ ((∀ x ∈ s.table, x.mark ≠ mark) → s.table.length ≠ 2048 → ¬inRange → starts (.refuse .range))
        ∧ ((∀ x ∈ s.table, x.mark ≠ mark) → s.table.length ≠ 2048 → inRange → overlapped → starts (.refuse .overlap))
        ∧ ((∀ x ∈ s.table, x.mark ≠ mark) → s.table.length ≠ 2048 → inRange → ¬overlapped →
          ∃ r : MarkRecord, starts (.enrol r) ∧ f.Makes mark nominal r))

/-- ENROL RUN and AMEND sent to a free table unit for an unprotected mark number start their operation: a run with a count of 1
to 16 and a pitch other than 0; an amendment of an existing record that does not retire, its fields in range, passes needed not
below a count, and its window clear of every other widened window, carries all the amendable fields of the record's kind, group and
passes needed for a LINE record alone (R41, R121, R124, R126). -/
def Obligations.RunAndAmendmentStart : Prop :=
  ∀ (s : State) (params : List Byte), s.receives → s.tableFree = true →
    let starts (c : Instr) (op : HostOp) : Prop :=
      exec c s = .next ({ s with tableOp := some (.host op) }.responding .pending)
    let mark := field params 0 2
    s.protection.map.getLsbD (mark / 128) = false →
    (params.length = 26 →
        let run := runRequest params
        (1 ≤ run.count ∧ run.count ≤ 16 ∧ run.pitch ≠ 0 → starts (.enrolRun params) (.enrolRun run))
          ∧ (¬(1 ≤ run.count ∧ run.count ≤ 16 ∧ run.pitch ≠ 0) → starts (.enrolRun params) (.refuse .range)))
      ∧ (params.length = 12 →
        let f := amendFields params
        (4096 ≤ mark → starts (.amend params) (.refuse .range))
        ∧ (mark < 4096 → findMark s.table mark = none → starts (.amend params) (.refuse .noRecord))
        ∧ ∀ r, mark < 4096 → findMark s.table mark = some r →
          let counted := match r.kind with
            | .line l =>
              f.group < 8 ∧ 1 ≤ f.passes ∧ f.passes ≤ 15 ∧ l.forwardCount ≤ f.passes ∧ l.reverseCount ≤ f.passes
            | .datum _ => True
            | .keepout _ => True
          let inRange := counted ∧ 1 ≤ f.half ∧ f.half ≤ 2 ^ (s.config.shift - 1) - 1 ∧ f.minWidth ≤ f.maxWidth
            ∧ 1 ≤ f.maxWidth ∧ f.maxWidth ≤ 65535 ∧ 1 ≤ f.accept ∧ f.accept ≤ 3
            ∧ -(2 ^ 47) ≤ r.nominal.toInt - f.half ∧ r.nominal.toInt + f.half ≤ 2 ^ 47 - 1
          let overlapped := ∃ x ∈ s.table, x.mark ≠ mark ∧ r.nominal.toInt - f.half ≤ x.nominal.toInt + x.reach
            ∧ x.nominal.toInt - x.reach ≤ r.nominal.toInt + f.half
          (¬inRange → starts (.amend params) (.refuse .range))
            ∧ (inRange → overlapped → starts (.amend params) (.refuse .overlap))
            ∧ (inRange → ¬overlapped → r.retiring = true → starts (.amend params) (.refuse .state))
            ∧ (inRange → ¬overlapped → r.retiring = false → ∃ a : Amendment, starts (.amend params) (.amend mark a)
                ∧ a.fields.half = f.half ∧ a.fields.minWidth = f.minWidth ∧ a.fields.maxWidth = f.maxWidth
                ∧ a.fields.accept.code = f.accept
                ∧ (∀ l, r.kind = .line l → ∃ plan : LinePlan, a.plan = some plan ∧ plan.group.val = f.group
                    ∧ plan.passes = f.passes)
                ∧ ((∀ l, r.kind ≠ .line l) → a.plan = none)))

/-- The completion of ENROL puts the record at its place in the order, claims its buckets, makes a LINE record a member of its
group, raises TABLE_FULL on reaching 2048 records, and answers the record count if its response is still awaited (R119, R61; that
the effects come at the completion is log 11). -/
def Obligations.EnrolCompletionInserts : Prop :=
  ∀ (s : State) (r : MarkRecord), s.operating = true → s.tableOp = some (.host (.enrol r)) →
    (s.table.Pairwise fun a b => a.nominal.toInt < b.nominal.toInt) →
    ∃ t, exec .tableOperationCompletion s = .next t
      ∧ (∃ low high, s.table = low ++ high ∧ t.table = low ++ r :: high
          ∧ (∀ x ∈ low, x.nominal.toInt ≤ r.nominal.toInt) ∧ ∀ x ∈ high, r.nominal.toInt < x.nominal.toInt)
      ∧ (∀ k : Fin 64, (t.slot k) = (s.slot k) + (r.slots s.config.shift).count k)
      ∧ (∀ g : Fin 8, (t.group g).settled = (s.group g).settled
          ∧ (t.group g).members = (s.group g).members + if r.inGroup g then 1 else 0)
      ∧ (s.table.length + 1 = 2048 → t.events.has .tableFull = true)
      ∧ t.link = { s.link with
          response := if s.link.response = .pending then .ready .done (twoBytes (BitVec.ofNat 16 (s.table.length + 1)))
            else s.link.response }
      ∧ t.channels = s.channels ∧ t.pass = s.pass ∧ t.config = s.config ∧ t.protection = s.protection

/-- The completions of AMEND and RETIRE, whose indication is handed over where it is still awaited. With the pass IDLE: the record's
amendable fields are replaced, a LINE record's state is decided afresh from its counts, or the record is removed, at once; the
occupancy follows its window, the groups follow its membership and its settledness, and a group completed by it sets its mask bit;
answered 0x01. With a pass open: the amendment is staged, or the record marked retiring, and answered 0x02 (R61, R68, R125, R126,
R128, R129, R135, R137; log 11). -/
def Obligations.AmendRetireByPassState : Prop :=
  ∀ (s : State) (r : MarkRecord), s.operating = true → findMark s.table r.mark = some r →
    (∀ x ∈ s.table, x.mark = r.mark → x = r) →
    let completes (t : State) (indication : Byte) : Prop :=
      exec .tableOperationCompletion s = .next t ∧ t.link = s.handed .done [indication]
    let complete (c : GroupCounts) : Prop := c.settled = c.members ∧ 0 < c.members
    let completing (t : State) : Prop :=
      (∀ g : Fin 8, t.events.groupMask.getLsbD g.val = true ↔
          s.events.groupMask.getLsbD g.val = true ∨ (¬complete (s.group g) ∧ complete (t.group g)))
        ∧ ∀ g : Fin 8, ¬complete (s.group g) → complete (t.group g) → t.events.has .groupDone = true
    (∀ a, s.tableOp = some (.host (.amend r.mark a)) → s.pass.state = .idle → ∃ t r', completes t 0x01
        ∧ (t.table = s.table.map fun x => if x.mark = r.mark then r' else x)
        ∧ r' = { r with fields := a.fields, kind := r'.kind, state := r'.state }
        ∧ (∀ l, r.kind = .line l → r'.kind = .line { l with plan := a.plan.getD l.plan }
            ∧ r'.state = if l.forwardCount = (a.plan.getD l.plan).passes ∧ l.reverseCount = (a.plan.getD l.plan).passes
                then .settled else .enrolled)
        ∧ ((∀ l, r.kind ≠ .line l) → r'.kind = r.kind ∧ r'.state = r.state)
        ∧ (∀ k : Fin 64, t.slot k = if a.fields.half = r.fields.half then s.slot k
            else s.slot k - (r.slots s.config.shift).count k + (r'.slots s.config.shift).count k)
        ∧ (∀ g : Fin 8, t.group g = ⟨(s.group g).members + r'.memberOf g - r.memberOf g,
            (s.group g).settled + r'.settledOf g - r.settledOf g⟩)
        ∧ completing t)
      ∧ (∀ a, s.tableOp = some (.host (.amend r.mark a)) → s.pass.state ≠ .idle → ∃ t, completes t 0x02
          ∧ (t.table = s.table.map fun x => if x.mark = r.mark then { r with staged := some a } else x)
          ∧ t.occupancy = s.occupancy ∧ t.groups = s.groups ∧ t.events = s.events)
      ∧ (s.tableOp = some (.host (.retire r.mark)) → s.pass.state = .idle → ∃ t, completes t 0x01
          ∧ (t.table = s.table.filter fun x => x.mark ≠ r.mark)
          ∧ (∀ k : Fin 64, t.slot k = s.slot k - (r.slots s.config.shift).count k)
          ∧ (∀ g : Fin 8, t.group g = ⟨(s.group g).members - r.memberOf g, (s.group g).settled - r.settledOf g⟩)
          ∧ completing t)
      ∧ (s.tableOp = some (.host (.retire r.mark)) → s.pass.state ≠ .idle → ∃ t, completes t 0x02
          ∧ (t.table = s.table.map fun x => if x.mark = r.mark then { r with retiring := true } else x)
          ∧ t.occupancy = s.occupancy ∧ t.groups = s.groups ∧ t.events = s.events)

/-- The completions of the operations that read, of a refusal, of REOPEN and of SET MATCH: their answers, handed over where they are
still awaited, and what they change; LOOKUP answers the image of Table 12-4, REOPEN of a SETTLED record reports one settled record
less to its group, and SET MATCH stores all its fields at its completion (log 14), over those that a later SET MATCH without a change
of shift stored meanwhile (the model's choice, log 32) (R22, R53, R58, R61, R130 to R132, R135, R141, R173; log 11). -/
def Obligations.HostOperationsAnswer : Prop :=
  ∀ (s : State) (op : HostOp), s.operating = true → s.tableOp = some (.host op) →
    let ends (u : State) (status : Status) (bytes : List Byte) : Prop :=
      exec .tableOperationCompletion s = .next { u with link := s.handed status bytes, tableOp := none }.arbitrate
    let count (n : Nat) : Byte := BitVec.ofNat 8 n
    let marked (b : Bool) (weight : Byte) : Byte := if b then weight else 0
    let position (p : Option Position) : List Byte := sixBytes (p.getD 0)
    let acceptCode (a : Accept) : Byte := match a with
      | .l1 => 1
      | .l2 => 2
      | .either => 3
    let threeBytes (n : Nat) : List Byte := (fourBytes (BitVec.ofNat 32 n)).drop 1
    let eightBytes (w : BitVec 64) : List Byte := fourBytes (w.extractLsb' 32 32) ++ fourBytes (w.extractLsb' 0 32)
    let part (r : MarkRecord) : Option CurrentPart := match r.kind with
      | .line l => l.current
      | .datum _ => none
      | .keepout _ => none
    let image (r : MarkRecord) : List Byte :=
      twoBytes (BitVec.ofNat 16 r.mark)
        ++ ([match r.kind with
          | .line _ => 1
          | .datum _ => 2
          | .keepout _ => 3] : List Byte)
        ++ sixBytes r.nominal ++ threeBytes r.fields.half ++ twoBytes (BitVec.ofNat 16 r.fields.minWidth)
        ++ twoBytes (BitVec.ofNat 16 r.fields.maxWidth)
        ++ [acceptCode r.fields.accept,
          match r.state with
          | .enrolled => 1
          | .armed => 2
          | .settled => 3,
          marked r.retiring 1 + marked (part r).isSome 2 + marked r.staged.isSome 4
            + (match r.kind with
              | .line l => marked l.centres.isSome 8
              | .datum d => marked d.lastTake.isSome 16
              | .keepout k => marked k.lastFlaw.isSome 32)
            + marked ((part r).bind CurrentPart.abbe).isSome 64]
        ++ (match r.kind with
          | .line l =>
            [count l.plan.group.val, count l.plan.passes, count l.forwardCount, count l.reverseCount]
              ++ eightBytes l.forwardSum ++ eightBytes l.reverseSum ++ position (l.centres.map CentreSpan.least)
              ++ position (l.centres.map CentreSpan.greatest) ++ [l.widthSum.extractLsb' 32 8]
              ++ fourBytes (l.widthSum.extractLsb' 0 32) ++ [count l.abbeCount] ++ eightBytes l.abbeSum
              ++ [count l.missed, count l.widthFaults, count l.duplicates]
          | .datum d =>
            [count d.takes, 0] ++ twoBytes (BitVec.ofNat 16 (d.lastTake.getD 0)) ++ [count d.widthFaults]
              ++ List.replicate 44 0
          | .keepout k => [count k.flaws, 0, 0, 0] ++ position k.lastFlaw ++ List.replicate 39 0)
        ++ (match part r with
          | none => List.replicate 16 0
          | some c =>
            sixBytes c.centre ++ twoBytes (BitVec.ofNat 16 c.width)
              ++ [match c.input with
                | .l1 => 1
                | .l2 => 2] ++ position c.abbe ++ [marked c.duplicate 1])
        ++ match r.staged with
          | none => List.replicate 10 0
          | some a =>
            threeBytes a.fields.half ++ twoBytes (BitVec.ofNat 16 a.fields.minWidth)
              ++ twoBytes (BitVec.ofNat 16 a.fields.maxWidth) ++ [acceptCode a.fields.accept]
              ++ match a.plan with
                | some plan => [count plan.group.val, count plan.passes]
                | none => [0, 0]
    (∀ code, op = .refuse code → ends s (.rejected code) [])
      ∧ (∀ mark r, op = .lookup mark → findMark s.table mark = some r → ends s .done (image r))
      ∧ (∀ p, op = .readRange p →
          let found := s.table.filter fun x => decide (p.toInt ≤ x.nominal.toInt)
          ends s .done ((count (min 4 found.length) ||| marked (decide (found.length ≤ 4)) 0x80)
            :: (found.take 4).flatMap image))
      ∧ (op = .readGroups → ends s .done ((List.finRange 8).flatMap fun g =>
          twoBytes (BitVec.ofNat 16 (s.group g).members) ++ twoBytes (BitVec.ofNat 16 (s.group g).settled)))
      ∧ (∀ m, op = .setMatch m → ends { s with config := m } .done [])
      ∧ (∀ mark r l, op = .reopen mark → findMark s.table mark = some r → r.mark = mark → r.kind = .line l →
          (∀ x ∈ s.table, x.mark = mark → x = r) →
          ∃ t, exec .tableOperationCompletion s = .next t ∧ t.link = s.handed .done []
            ∧ (t.table = s.table.map fun x => if x.mark = mark then
                { r with state := .enrolled, kind := .line { plan := l.plan, current := l.current } } else x)
            ∧ t.occupancy = s.occupancy
            ∧ ∀ g : Fin 8, t.group g = ⟨(s.group g).members, (s.group g).settled - r.settledOf g⟩)

/-- The completion of ENROL RUN: it enrols from the first mark number upward, each record judged against the table that holds those
before it, until its count is reached, the next mark number begins a segment, or a record fails a check; every record it enrols
passed every check, all lie within the first mark number's segment, and it answers how many and why, handed over where it is still
awaited: 0x00, 0x01, or the code of the check that the record after the last one fails first (R61, R119, R121, R122; log 11). -/
def Obligations.EnrolRunStopsAtFirstObstacle : Prop :=
  ∀ (s : State) (run : RunRequest), s.operating = true → s.tableOp = some (.host (.enrolRun run)) →
    ∃ (records : List MarkRecord) (reason : Nat),
      let n := records.length
      let after (i : Nat) : State := (records.take i).foldl State.insertNew s
      let fails (i : Nat) (code : RejectCode) : Prop :=
        (after i).failsFirst run.fields (run.firstMark + i) (run.start + i * run.pitch) code
      let segmentEnds := 0 < n ∧ (run.firstMark + n) % 128 = 0
      exec .tableOperationCompletion s = .next
          { after n with
            link := s.handed .done [BitVec.ofNat 8 n, BitVec.ofNat 8 reason]
            tableOp := none }.arbitrate
        ∧ n ≤ run.count
        ∧ (∀ i r, records[i]? = some r → (run.firstMark + i) / 128 = run.firstMark / 128 ∧ (∀ code, ¬fails i code)
            ∧ run.fields.Makes (run.firstMark + i) (BitVec.ofInt 48 (run.start + i * run.pitch)) r)
        ∧ (n = run.count → reason = 0x00)
        ∧ (n < run.count → segmentEnds → reason = 0x01)
        ∧ (n < run.count → ¬segmentEnds → ∃ code, fails n code ∧ reason = code.code)

/-! ### Matching -/

/-- A MEASURE-pass MATCH searches for the record whose window, nominal − h to nominal + h with its current half-width and both ends,
holds the centre, and completes with one of the six outcomes of Table 5-1 and its effects on the record found, the pass record and the
event unit, after which the arbiter picks (R54, R76 to R83). -/
def Obligations.MeasureMatchOutcomes : Prop :=
  ∀ (s : State) (x : Sighting) (claim : Option ClaimReport), s.operating = true →
    s.tableOp = some (.sightingMatch ⟨x, claim⟩) → s.pass.terms.map PassTerms.kind = some .measure →
    let ends (u : State) : Prop := exec .matchCompletion s = .next { u with tableOp := none }.arbitrate
    let holds (r : MarkRecord) : Prop :=
      r.nominal.toInt - r.fields.half ≤ x.centre.toInt ∧ x.centre.toInt ≤ r.nominal.toInt + r.fields.half
    ((∀ r ∈ s.table, ¬holds r) → ends (s.count .stray 1))
      ∧ ∀ r ∈ s.table, holds r →
        (∀ y ∈ s.table, holds y ∨ y.mark = r.mark → y = r) →
        let withKind (kind : KindPart) : State :=
          { s with table := s.table.map fun y => if y.mark = r.mark then { r with kind := kind } else y }
        let accepted := r.state = .armed ∧ (∀ datum, r.kind ≠ .datum datum)
          ∧ (r.fields.accept = .either ∨ (r.fields.accept = .l1 ∧ x.input = .l1) ∨ (r.fields.accept = .l2 ∧ x.input = .l2))
        let fits := r.fields.minWidth ≤ x.width ∧ x.width ≤ r.fields.maxWidth
        (¬accepted → ends (s.count .unarmed 1))
          ∧ (∀ l, accepted → ¬fits → r.kind = .line l →
              ends ((withKind (.line { l with widthFaults := min 255 (l.widthFaults + 1) })).count .width 1))
          ∧ (∀ k, accepted → ¬fits → r.kind = .keepout k → ends (s.count .width 1))
          ∧ (∀ k, accepted → fits → r.kind = .keepout k →
              ends ((withKind (.keepout ⟨min 255 (k.flaws + 1), some x.centre⟩)).raise .flaw))
          ∧ (∀ l part, accepted → fits → r.kind = .line l → l.current = some part →
              ends (withKind (.line { l with current := some { part with duplicate := true } })))
          ∧ (∀ l, accepted → fits → r.kind = .line l → l.current = none →
              ends { withKind (.line { l with current := some ⟨x.centre, x.width, x.input, x.abbe, false⟩ }) with
                pass := { s.pass with taken := s.pass.taken + 1 } })

/-- The offset claim of a datum take: a TRACKING measuring axis takes the shift, so that the sighting's centre reads as the
nominal, and is referenced, and the DATUM record takes; an axis not in TRACKING refuses it and nothing else changes. A DATUM-pass
MATCH completes: an applied claim raises the taken tally, empties the queue into UNPASSED and closes a RUNNING pass; a refused one
counts its own sighting UNPASSED; a sighting that fails a test counts UNARMED, or WIDTH with a width fault (R20, R85 to R88; that
the record takes at the claim, and that a completion which comes before the claim makes it, is log 15; that an axis which was lost
and tracks again when the claim reaches it takes the claim is the model's choice, log 34). -/
def Obligations.DatumTakeSetsOrigin : Prop :=
  (∀ (s : State) (x : Sighting) (mark : Nat) (r : MarkRecord) (d : DatumPart), s.operating = true →
      s.tableOp = some (.sightingMatch ⟨x, none⟩) → s.pass.terms.map PassTerms.kind = some (.datum mark) →
      findMark s.table mark = some r → r.kind = .datum d → (∀ y ∈ s.table, y.mark = mark → y = r) →
      (r.fields.accept = .either ∨ (r.fields.accept = .l1 ∧ x.input = .l1) ∨ (r.fields.accept = .l2 ∧ x.input = .l2)) →
      r.fields.minWidth ≤ x.width → x.width ≤ r.fields.maxWidth →
      (s.measuringAxis.state = .tracking → ∃ c : Channel,
          c = { s.measuringAxis with offset := c.offset, referenced := true }
            ∧ x.centre + (c.offset - s.measuringAxis.offset) = r.nominal
            ∧ exec .datumOffsetClaim s = .next
              { s with
                channels := s.channels.set s.config.axis c
                tableOp := some (.sightingMatch ⟨x, some .applied⟩)
                table := s.table.map fun y => if y.mark = mark then
                  { r with kind := .datum { d with takes := min 255 (d.takes + 1), lastTake := some s.pass.number } } else y })
        ∧ (s.measuringAxis.state ≠ .tracking →
          exec .datumOffsetClaim s = .next { s with tableOp := some (.sightingMatch ⟨x, some .refused⟩) }))
    ∧ (∀ (s : State) (x : Sighting) (mark : Nat) (claim : Option ClaimReport), s.operating = true →
      s.tableOp = some (.sightingMatch ⟨x, claim⟩) → s.pass.terms.map PassTerms.kind = some (.datum mark) →
      let ends (u : State) : Prop := exec .matchCompletion s = .next { u with tableOp := none }.arbitrate
      (claim = some .applied → s.pass.state = .running →
          ends { s with
            pass := { s.pass with state := .closing, outcome := some .done, taken := s.pass.taken + 1 }
            passTimer := false
            sweepClaim := some .close
            queue := []
            events := s.events.count .unpassed s.queue.length })
        ∧ (claim = some .applied → s.pass.state = .aborting →
          ends { s with
            pass := { s.pass with taken := s.pass.taken + 1 }
            queue := []
            events := s.events.count .unpassed s.queue.length })
        ∧ (claim = some .refused → ends (s.count .unpassed 1))
        ∧ ∀ r d, claim = none → findMark s.table mark = some r → r.kind = .datum d →
          (∀ y ∈ s.table, y.mark = mark → y = r) →
          let accepted := r.fields.accept = .either ∨ (r.fields.accept = .l1 ∧ x.input = .l1)
            ∨ (r.fields.accept = .l2 ∧ x.input = .l2)
          (¬accepted → ends (s.count .unarmed 1))
            ∧ (accepted → ¬(r.fields.minWidth ≤ x.width ∧ x.width ≤ r.fields.maxWidth) →
              ends (({ s with table := s.table.map fun y => if y.mark = mark then
                { r with kind := .datum { d with widthFaults := min 255 (d.widthFaults + 1) } } else y } : State).count .width 1))
            ∧ (accepted → r.fields.minWidth ≤ x.width → x.width ≤ r.fields.maxWidth →
              (s.measuringAxis.state ≠ .tracking → ends (s.count .unpassed 1))
                ∧ (s.measuringAxis.state = .tracking → ∃ c : Channel,
                  c = { s.measuringAxis with offset := c.offset, referenced := true }
                    ∧ x.centre + (c.offset - s.measuringAxis.offset) = r.nominal
                    ∧ let taken : State :=
                        { s with
                          channels := s.channels.set s.config.axis c
                          table := s.table.map fun y => if y.mark = mark then
                            { r with kind := .datum { d with takes := min 255 (d.takes + 1), lastTake := some s.pass.number } }
                            else y
                          queue := []
                          events := s.events.count .unpassed s.queue.length }
                      (s.pass.state = .running → ends
                        { taken with
                          pass := { s.pass with state := .closing, outcome := some .done, taken := s.pass.taken + 1 }
                          passTimer := false
                          sweepClaim := some .close })
                        ∧ (s.pass.state = .aborting → ends
                          { taken with pass := { s.pass with taken := s.pass.taken + 1 } }))))

/-! ### Sweeps -/

/-- The arm sweep arms, in a MEASURE pass, the LINE records between the limits that the direction still needs and the KEEPOUT
records between the limits, and in a DATUM pass the named DATUM record alone; it sets the armed tally, hands over the awaited
response, and makes a pass still ARMING RUNNING; a pass that an end crossing closed meanwhile claims its close sweep, which waits
behind the queued sightings (R97 to R99, R101). -/
def Obligations.ArmSweepArmsAndRuns : Prop :=
  (∀ (s : State) (terms : PassTerms), s.operating = true → s.tableOp = some .armSweep → s.pass.terms = some terms →
      ∃ t, exec .armSweepCompletion s = .next t
        ∧ let lower := min terms.startLimit.toInt terms.endLimit.toInt
          let upper := max terms.startLimit.toInt terms.endLimit.toInt
          let arms (r : MarkRecord) : Prop :=
            match terms.kind, r.kind with
            | .datum mark, .datum _ => r.mark = mark
            | .datum _, .line _ => False
            | .datum _, .keepout _ => False
            | .measure, .line l => lower ≤ r.nominal.toInt ∧ r.nominal.toInt ≤ upper
                ∧ (match terms.direction with | .forward => l.forwardCount | .reverse => l.reverseCount) < l.plan.passes
            | .measure, .keepout _ => lower ≤ r.nominal.toInt ∧ r.nominal.toInt ≤ upper
            | .measure, .datum _ => False
          (∀ r, terms.arms r = true ↔ arms r)
          ∧ (t.table = s.table.map fun r => if terms.arms r then { r with state := .armed } else r)
          ∧ (terms.kind = .measure → t.pass.armed = (s.table.filter terms.arms).length)
          ∧ ((∃ mark, terms.kind = .datum mark) → t.pass.armed = 1)
          ∧ t.pass = { s.pass with
              armed := t.pass.armed
              state := if s.pass.state = .arming then .running else s.pass.state }
          ∧ t.link = { s.link with
              response := if s.link.response = .pending then
                .ready .done (twoBytes (BitVec.ofNat 16 s.pass.number) ++ twoBytes (BitVec.ofNat 16 t.pass.armed))
                else s.link.response }
          ∧ t.occupancy = s.occupancy ∧ t.groups = s.groups ∧ t.channels = s.channels ∧ t.events = s.events)
    ∧ (∀ (s : State) (terms : PassTerms), s.operating = true → s.tableOp = some .armSweep → s.pass.terms = some terms →
      s.pass.state = .closing → s.sweepClaim = none →
      ∃ t, exec .armSweepCompletion s = .next t
        ∧ (s.queue = [] → t.tableOp = some .closeSweep ∧ t.sweepClaim = none)
        ∧ ∀ x rest, s.queue = x :: rest → t.tableOp = some (.sightingMatch ⟨x, none⟩) ∧ t.queue = rest
            ∧ t.sweepClaim = some .close)

/-- The close sweep ends the pass: IDLE, the missed tally, PASS_END, the table unit free, and a table that holds the records that
were not retiring, each resolved, amended and settled; the abort sweep ends it with its outcome and tallies as they stand, parts
discarded without a fold or a missed count. Either reports to each group once, the net change from the table before it to the table
after it, and a group not complete before and complete after sets its mask bit and raises GROUP_DONE (R110 to R113, R136, R137). -/
def Obligations.SweepsEndPass : Prop :=
  let count (table : List MarkRecord) (f : MarkRecord → Nat) : Nat := (table.map f).sum
  let complete (c : GroupCounts) : Prop := c.settled = c.members ∧ 0 < c.members
  let groupsFollow (s t : State) : Prop :=
    (∀ g : Fin 8, t.group g =
        ⟨(s.group g).members + count t.table (MarkRecord.memberOf · g) - count s.table (MarkRecord.memberOf · g),
          (s.group g).settled + count t.table (MarkRecord.settledOf · g) - count s.table (MarkRecord.settledOf · g)⟩)
      ∧ (∀ g : Fin 8, t.events.groupMask.getLsbD g.val = true ↔
          s.events.groupMask.getLsbD g.val = true ∨ (¬complete (s.group g) ∧ complete (t.group g)))
      ∧ (t.events.has .groupDone = true ↔
          s.events.has .groupDone = true ∨ ∃ g : Fin 8, ¬complete (s.group g) ∧ complete (t.group g))
      ∧ (∀ f, f ≠ .groupDone → f ≠ .passEnd → t.events.has f = s.events.has f)
  (∀ (s : State) (terms : PassTerms), s.operating = true → s.tableOp = some .closeSweep → s.pass.terms = some terms →
      s.sweepClaim = none → s.queue = [] →
      ∃ t, exec .closeSweepCompletion s = .next t
        ∧ t.tableOp = none
        ∧ t.pass = { s.pass with
            state := .idle
            missed := (s.table.filter fun r => match r.kind with
              | .line l => decide (r.state = .armed ∧ l.current = none)
              | .datum _ => false
              | .keepout _ => false).length }
        ∧ t.events.has .passEnd = true
        ∧ (s.events.enabled .passEnd = true → t.events.noticePending = true)
        ∧ (∀ r', r' ∈ t.table ↔ ∃ r ∈ s.table, r.retiring = false
            ∧ r' = (r.amended (MarkRecord.resolveClose terms.direction)).restLine)
        ∧ groupsFollow s t
        ∧ t.channels = s.channels ∧ t.link = s.link ∧ t.config = s.config ∧ t.protection = s.protection)
    ∧ (∀ s : State, s.operating = true → s.tableOp = some .abortSweep → s.sweepClaim = none → s.queue = [] →
      ∃ t, exec .abortSweepCompletion s = .next t
        ∧ t.tableOp = none ∧ t.pass = { s.pass with state := .idle } ∧ t.events.has .passEnd = true
        ∧ (∀ r', r' ∈ t.table ↔ ∃ r ∈ s.table, r.retiring = false ∧ r' = (r.amended MarkRecord.resolveAbort).restLine)
        ∧ groupsFollow s t
        ∧ (∀ (r : MarkRecord) l, r.kind = .line l → r.state = .armed →
            ∃ l', (r.amended MarkRecord.resolveAbort).restLine.kind = .line l'
              ∧ l' = { l with current := none, plan := l'.plan } ∧ (r.staged = none → l'.plan = l.plan))
        ∧ t.channels = s.channels ∧ t.link = s.link ∧ t.config = s.config ∧ t.protection = s.protection)

/-- What the close sweep makes of an ARMED LINE record: the fold of its current-pass part, or a missed count; then its staged
amendment with passes needed raised to its counts; then its state. What either sweep makes of any other record: an ARMED DATUM or
KEEPOUT record is ENROLLED again; a LINE record that was not ARMED, or that the abort sweep resolves, keeps its results, loses its
current-pass part if it was ARMED, and has its state decided afresh; a staged amendment is applied and removed (R43, R44, R108,
R109, R111, R113). -/
def Obligations.CloseSweepFoldsLine : Prop :=
  (∀ (r : MarkRecord) (l : LinePart) (d : Direction), r.kind = .line l → r.state = .armed →
      ∃ l', (r.amended (MarkRecord.resolveClose d)).restLine =
          { r with
            fields := match r.staged with | some a => a.fields | none => r.fields
            staged := none
            kind := .line l'
            state := if l'.forwardCount = l'.plan.passes ∧ l'.reverseCount = l'.plan.passes then .settled else .enrolled }
        ∧ l'.current = none
        ∧ (l'.plan = match r.staged.bind Amendment.plan with
            | some plan => { plan with passes := max plan.passes (max l'.forwardCount l'.reverseCount) }
            | none => l.plan)
        ∧ (l.current = none → l' = { l with plan := l'.plan, missed := min 255 (l.missed + 1) })
        ∧ ∀ c, l.current = some c →
          (d = .forward → l'.forwardCount = l.forwardCount + 1 ∧ l'.forwardSum = l.forwardSum + c.centre.signExtend 64
            ∧ l'.reverseCount = l.reverseCount ∧ l'.reverseSum = l.reverseSum)
          ∧ (d = .reverse → l'.reverseCount = l.reverseCount + 1 ∧ l'.reverseSum = l.reverseSum + c.centre.signExtend 64
            ∧ l'.forwardCount = l.forwardCount ∧ l'.forwardSum = l.forwardSum)
          ∧ l'.widthSum = l.widthSum + BitVec.ofNat 40 c.width
          ∧ (l.centres = none → l'.centres = some ⟨c.centre, c.centre⟩)
          ∧ (∀ e, l.centres = some e → ∃ e', l'.centres = some e'
              ∧ e'.least.toInt = min e.least.toInt c.centre.toInt ∧ e'.greatest.toInt = max e.greatest.toInt c.centre.toInt)
          ∧ (c.abbe = none → l'.abbeCount = l.abbeCount ∧ l'.abbeSum = l.abbeSum)
          ∧ (∀ a, c.abbe = some a → l'.abbeCount = l.abbeCount + 1 ∧ l'.abbeSum = l.abbeSum + a.signExtend 64)
          ∧ l'.duplicates = (if c.duplicate then min 255 (l.duplicates + 1) else l.duplicates)
          ∧ l'.missed = l.missed ∧ l'.widthFaults = l.widthFaults)
    ∧ ∀ (r : MarkRecord) (d : Direction) (resolve : MarkRecord → MarkRecord),
      resolve ∈ [MarkRecord.resolveClose d, MarkRecord.resolveAbort] →
      let r' := (r.amended resolve).restLine
      let fields := match r.staged with
        | some a => a.fields
        | none => r.fields
      ((∀ l, r.kind ≠ .line l) →
          r' = { r with
            fields := fields
            staged := none
            state := if r.state = .armed then .enrolled else r.state })
        ∧ ∀ l, r.kind = .line l → (r.state ≠ .armed ∨ resolve = MarkRecord.resolveAbort) →
          ∃ l', r' = { r with
              fields := fields
              staged := none
              kind := .line l'
              state := if l'.forwardCount = l'.plan.passes ∧ l'.reverseCount = l'.plan.passes then .settled else .enrolled }
            ∧ l' = { l with
              current := if r.state = .armed then none else l.current
              plan := match r.staged.bind Amendment.plan with
                | some plan => { plan with passes := max plan.passes (max l.forwardCount l.reverseCount) }
                | none => l.plan }

/-- A report to a group moves its two counts; the group completes, setting its mask bit and raising GROUP_DONE, exactly when it
was not complete before and is after (R135, R137). -/
def Obligations.GroupCompletesOnce : Prop :=
  ∀ (s : State) (g : Fin 8) (members settled : Int),
    let t := s.groupReport g members settled
    let before := (s.group g)
    let after : GroupCounts := ⟨(before.members + members).toNat, (before.settled + settled).toNat⟩
    let complete (c : GroupCounts) : Prop := c.settled = c.members ∧ 0 < c.members
    t.groups = s.groups.set g after
      ∧ (¬complete before → complete after →
          t.events.groupMask = s.events.groupMask ||| (1#8 <<< g.val) ∧ t.events.has .groupDone = true)
      ∧ (complete before ∨ ¬complete after → t.events = s.events)

/-! ### The link -/

/-- A START, with or without its address byte, takes the part out of IDLE and stops the idle timer; its own address with W makes
it RECEIVING with an EMPTY buffer, another's makes it ELSEWHERE, and nothing but the link and the notice in progress changes. In
STARTING it comes from a rival: the part goes on unless the rival's address byte is lower than its own with R, and else receives where
it is its own with W, and is in ELSEWHERE where it is another's, its notice still pending (R160, R161, R168; the state between START
and address byte, and the START that meets the part's own, are log 5; the numeric comparison is log 29). -/
def Obligations.StartIsJudgedByAddress : Prop :=
  (∀ (s : State), s.receives → s.link.exchange = .starting →
    let own : BitVec 7 := 0x48#7 + s.link.strap.zeroExtend 7
    let runs (b : Byte) (t : State) : Prop := exec (.linkStart (some b)) s = .next t
    let yielding (link : LinkInterface) : State := { s with link := link, events := { s.events with notice := none } }
    exec (.linkStart none) s = .next s
      ∧ (∀ b : Byte, (own ++ 1#1 : Byte).toNat ≤ b.toNat → runs b s)
      ∧ runs (own ++ 0#1) (yielding { s.link with exchange := .receiving, idleTimer := false, response := .empty })
      ∧ ∀ b : Byte, b.toNat < (own ++ 0#1 : Byte).toNat →
          runs b (yielding { s.link with exchange := .elsewhere, idleTimer := false }))
  ∧ ∀ (s : State) (address : Option Byte), s.receives → s.link.exchange ≠ .starting →
    let own : BitVec 7 := 0x48#7 + s.link.strap.zeroExtend 7
    ∃ t, exec (.linkStart address) s = .next t
      ∧ t = { s with
          link := { s.link with exchange := t.link.exchange, idleTimer := false, response := t.link.response }
          events := { s.events with notice := none } }
      ∧ (address = none → t.link.exchange = .addressing (decide (s.link.exchange = .idle))
          ∧ t.link.response = s.link.response)
      ∧ ∀ b, address = some b →
        (b = own ++ 1#1 → t.link.exchange = .addressing (decide (s.link.exchange = .idle))
          ∧ t.link.response = s.link.response)
        ∧ (b = own ++ 0#1 → t.link.exchange = .receiving ∧ t.link.response = .empty)
        ∧ (b.extractLsb' 1 7 ≠ own → t.link.exchange = .elsewhere ∧ t.link.response = s.link.response)

/-- A STOP returns the part to IDLE with an EMPTY buffer and a running idle timer, completes a notice of which every byte was
acknowledged, and brings about an armed reset: the part reset over the interface reset, which aborts a live pass with cause RESET,
stops its timer, and claims its abort sweep, and raises the two conditions again where they hold, the notice pending where one of
them is enabled (R40, R63, R103, R116, R150, R155, R159, R161, R163, R170; that an interface reset empties the queue of a CLOSING pass
too is log 16; that a part reset keeps the level at a detector pin is log 18). -/
def Obligations.StopEndsExchange : Prop :=
  ∀ (s : State) (straps : Straps), s.operating = true → ∃ t, exec (.linkStop straps) s = .next t
    ∧ t.link.exchange = .idle ∧ t.link.response = .empty ∧ t.link.idleTimer = true
    ∧ t.link.armedPart = false ∧ t.link.armedInterface = false ∧ t.events.notice = none
    ∧ (s.link.armedPart = false → s.link.armedInterface = false →
        t = { s with link := t.link, events := t.events }
          ∧ t.events = { s.events with
              notice := none
              noticePending := match s.events.notice with
                | some n => s.events.noticePending && (!n.acknowledged || n.laterRaise)
                | none => s.events.noticePending })
    ∧ (s.link.armedPart = true →
        t.table = [] ∧ t.queue = [] ∧ t.tableOp = none ∧ t.sweepClaim = none ∧ t.pass = {} ∧ t.passTimer = false
          ∧ t.config = {} ∧ t.monitor = .absent ∧ (∀ k : ChannelIx, (t.channel k) = {})
          ∧ (∀ k : Fin 64, (t.slot k) = 0) ∧ (∀ g : Fin 8, (t.group g) = {}) ∧ t.events = {}
          ∧ (∀ i : LineId, t.line i =
              { enable := false, polarity := .high, offset := 0, span := 65536, phase := .quiet, closing := none
                level := (s.line i).level })
          ∧ t.protection = ⟨s.protection.map, straps.cal, .none⟩ ∧ t.link.strap = straps.address
          ∧ t.link.causes = { s.link.causes with part := true })
    ∧ (s.link.armedPart = false → s.link.armedInterface = true →
        t.table = s.table ∧ t.channels = s.channels ∧ t.config = s.config ∧ t.monitor = s.monitor
          ∧ t.occupancy = s.occupancy ∧ t.groups = s.groups ∧ t.protection = s.protection ∧ t.queue = []
          ∧ t.link.causes = s.link.causes ∧ t.link.strap = s.link.strap
          ∧ t.pass = (if s.pass.state.live then { s.pass with state := .aborting, outcome := some (.aborted .reset) }
              else s.pass)
          ∧ t.passTimer = (if s.pass.state.live then false else s.passTimer)
          ∧ (s.tableOp ≠ none → t.tableOp = s.tableOp
              ∧ t.sweepClaim = if s.pass.state.live then some .abort else s.sweepClaim)
          ∧ (s.tableOp = none → t.sweepClaim = none ∧ t.tableOp =
              if s.pass.state.live then some .abortSweep
              else match s.sweepClaim with
                | none => none
                | some .abort => some .abortSweep
                | some .close => some .closeSweep)
          ∧ (∀ i : LineId, t.line i = { s.line i with phase := .quiet, closing := none })
          ∧ t.events.counters = {} ∧ t.events.groupMask = 0 ∧ t.events.enables = s.events.enables
          ∧ t.events.noticeOn = s.events.noticeOn ∧ t.events.lastLinkFault = s.events.lastLinkFault
          ∧ (∀ f : EventFlag, t.events.has f = true ↔
              (f = .axisDown ∧ ∃ k : ChannelIx, (s.channel k).state = .acquiring ∨ (s.channel k).state = .lost)
                ∨ (f = .tableFull ∧ s.table.length = 2048))
          ∧ (∀ k : ChannelIx, t.events.axisMask.getLsbD k.val
              = decide ((s.channel k).state = .acquiring ∨ (s.channel k).state = .lost))
          ∧ (t.events.noticePending = true ↔
              (s.events.enabled .axisDown = true
                  ∧ ∃ k : ChannelIx, (s.channel k).state = .acquiring ∨ (s.channel k).state = .lost)
                ∨ (s.events.enabled .tableFull = true ∧ s.table.length = 2048)))

/-- A response read after a repeated start: declined with the buffer EMPTY, NOT READY while it is PENDING, and otherwise the
status byte, the response bytes after DONE, and the check byte, each byte but the last with continuation bit 1; the buffer stays,
and once the host has taken or declined a byte the part is ELSEWHERE (R164, R165; log 7). -/
def Obligations.ResponseReadAnswers : Prop :=
  ∀ (s : State) (extent : ReadExtent), s.receives → s.link.exchange.fresh = false →
    ∃ t, exec (.responseRead extent) s = .next t
      ∧ t = { s with
          link := { s.link with exchange := t.link.exchange, idleTimer := false, sent := t.link.sent }
          events := { s.events with notice := none } }
      ∧ ((∀ n, extent ≠ .pausedAfter n) → t.link.exchange = .elsewhere)
      ∧ (s.link.response = .empty → t.link.sent = [] ∧ t.link.exchange = .elsewhere)
      ∧ ∀ bytes, ((s.link.response = .pending ∧ bytes = [0x01#8])
            ∨ (∃ body, s.link.response = .ready .done body ∧ bytes = 0x00#8 :: body)
            ∨ ∃ code body, s.link.response = .ready (.rejected code) body ∧ bytes = [BitVec.ofNat 8 code.code]) →
          let check := crc8 (((0x48#7 + s.link.strap.zeroExtend 7) ++ 1#1 : Byte) :: bytes)
          let frame := bytes.map (fun b => (⟨b, true⟩ : SentByte)) ++ [⟨check, false⟩]
          (extent = .complete → t.link.sent = frame)
            ∧ (∀ n, extent = .declinedAt n → t.link.sent = frame.take (n + 1))
            ∧ ∀ n, extent = .pausedAfter n → t.link.sent = frame.take n
                ∧ (n < frame.length → t.link.exchange = .sending)

/-- A poll after a fresh START sends flags, group-done mask and axis-down mask with their check byte, whether or not a notice is
pending; the snapshot is taken once a payload byte is sent, and it outlives the bytes only where none was declined. A raise of an
enabled flag taken after the snapshot sets its later raise marker and changes nothing else of it: so does PASS_END at the completion
of a sweep, set before or not, and a lock change at the sample event that loses a channel (R149, R155, R167). -/
def Obligations.PollSendsNoticePayload : Prop :=
  (∀ (e : EventUnit) (f : EventFlag) (n : NoticeInProgress), e.notice = some n →
      (e.raise f).notice = some { n with laterRaise := n.laterRaise || e.enabled f })
    ∧ (∀ (s : State) (n : NoticeInProgress), s.operating = true → s.events.notice = some n →
      s.events.enabled .passEnd = true →
      let marks (c : Instr) : Prop := ∃ t, exec c s = .next t ∧ t.events.notice = some { n with laterRaise := true }
      (s.tableOp = some .closeSweep → marks .closeSweepCompletion)
        ∧ (s.tableOp = some .abortSweep → marks .abortSweepCompletion))
    ∧ (∀ (s : State) (k : ChannelIx) (increment : Int) (amplitude : Fin 256) (first : MeetOrder) (n : NoticeInProgress),
      s.operating = true → s.monitor = .present → (s.channel k).state = .tracking →
      amplitude.val < (s.channel k).loseLevel → s.events.notice = some n → s.events.enabled .lockChange = true →
      ∃ t, exec (.sampleEvent k increment amplitude first) s = .next t
        ∧ t.events.notice = some { n with laterRaise := true })
    ∧ ∀ (s : State) (extent : ReadExtent), s.receives → s.link.exchange.fresh = true →
    let payload := twoBytes (s.events.flags.zeroExtend 16) ++ [s.events.groupMask, s.events.axisMask.zeroExtend 8]
    let check := crc8 (((0x48#7 + s.link.strap.zeroExtend 7) ++ 1#1 : Byte) :: payload)
    let frame := payload.map (fun b => (⟨b, true⟩ : SentByte)) ++ [⟨check, false⟩]
    let snapshot (acknowledged : Bool) : NoticeInProgress :=
      ⟨s.events.flags, s.events.groupMask, s.events.axisMask, false, acknowledged⟩
    ∃ t, exec (.poll extent) s = .next t
      ∧ t = { s with
          link := { s.link with exchange := t.link.exchange, idleTimer := false, sent := t.link.sent }
          events := { s.events with notice := t.events.notice } }
      ∧ (extent = .complete → t.link.sent = frame ∧ t.link.exchange = .elsewhere ∧ t.events.notice = some (snapshot true))
      ∧ (∀ n, n < 5 → extent = .declinedAt n →
          t.link.sent = frame.take (n + 1) ∧ t.link.exchange = .elsewhere ∧ t.events.notice = none)
      ∧ (∀ n, n < 5 → extent = .pausedAfter n →
          t.link.sent = frame.take n ∧ t.link.exchange = .sending
            ∧ t.events.notice = if n = 0 then none else some (snapshot false))

/-- The part starts a notice only from IDLE with notices on and one pending; a rival's lower address byte wins, and if it is the
part's own address with W the part receives; a START that meets no clock is withdrawn to IDLE with the notice still pending
(R166, R168; that a NOTICE_START outside these conditions, which cannot come, changes nothing is log 3; numeric comparison of the
address bytes is log 29). -/
def Obligations.NoticeStartsUnderArbitration : Prop :=
  ∀ (s : State) (rival : Option Byte), s.operating = true →
    let own : BitVec 7 := 0x48#7 + s.link.strap.zeroExtend 7
    let may := s.link.exchange = .idle ∧ s.link.idleTimer = true ∧ s.events.noticeOn = true
      ∧ s.events.noticePending = true
    (¬may → exec (.noticeStart rival) s = .next s)
      ∧ (may → ∃ t, exec (.noticeStart rival) s = .next t
        ∧ t = { s with
            link := { s.link with exchange := t.link.exchange, idleTimer := false, response := t.link.response }
            events := { s.events with notice := none } }
        ∧ (rival = none → t.link.exchange = .starting)
        ∧ (∀ b, rival = some b → (own ++ 1#1 : Byte).toNat ≤ b.toNat → t.link.exchange = .starting)
        ∧ (rival = some (own ++ 0#1) → t.link.exchange = .receiving ∧ t.link.response = .empty)
        ∧ (∀ b, rival = some b → b.toNat < (own ++ 0#1 : Byte).toNat → t.link.exchange = .elsewhere))
      ∧ (s.link.exchange = .starting → ∃ t, exec .noticeWithdraw s = .next t ∧ t.link.exchange = .idle
        ∧ t.link.idleTimer = true ∧ (s.events.notice = none → t.events = s.events) ∧ t.pass = s.pass ∧ t.table = s.table)

/-! ### Resets -/

/-- Power-on reset, pin reset and supply failure: what the beginning of each clears and keeps, and what its end samples and
records (R171, R169, R143, R160, R62, R116; that a reset keeps the level at a detector pin is log 18, the part without supply is
log 19, overlaps of the two resets are log 20). -/
def Obligations.ResetsBeginAndEnd : Prop :=
  ∀ (s : State) (straps : Straps),
    let cleared (t : State) : Prop :=
      t.table = [] ∧ t.queue = [] ∧ t.tableOp = none ∧ t.sweepClaim = none ∧ t.pass = {} ∧ t.passTimer = false
        ∧ t.config = {} ∧ t.monitor = .absent ∧ (∀ k : ChannelIx, (t.channel k) = {})
        ∧ (∀ k : Fin 64, (t.slot k) = 0) ∧ (∀ g : Fin 8, (t.group g) = {}) ∧ t.events = {}
        ∧ (∀ i : LineId, t.line i = { level := (s.line i).level })
        ∧ t.link.exchange = .idle ∧ t.link.response = .empty ∧ t.link.idleTimer = false
        ∧ t.link.armedPart = false ∧ t.link.armedInterface = false ∧ t.operating = false
    let sampled (t : State) : Prop := t.link.strap = straps.address ∧ t.protection.cal = straps.cal
    (∃ t, exec .powerOnReset s = .next t ∧ cleared t ∧ t.protection.map = 0 ∧ t.protection.fault = .none)
      ∧ (s.supply ≠ .failed → ∃ t, exec .pinResetAssert s = .next t ∧ cleared t
          ∧ t.protection.map = s.protection.map ∧ t.protection.fault = .none ∧ t.protection.cal = s.protection.cal)
      ∧ (s.supply = .hold → ∃ t, exec (.powerOnHoldEnd straps) s = .next t ∧ sampled t
          ∧ t.link.causes = ⟨true, false, false⟩ ∧ t.supply = .on ∧ t.link.idleTimer = !s.resetPinLow
          ∧ t.protection.map = s.protection.map ∧ t.table = s.table ∧ t.pass = s.pass)
      ∧ (s.resetPinLow = true → s.supply = .on → ∃ t, exec (.pinResetRelease straps) s = .next t ∧ sampled t
          ∧ t.link.causes = { s.link.causes with pin := true } ∧ t.operating = true ∧ t.link.idleTimer = true
          ∧ t.protection.map = s.protection.map ∧ t.table = s.table ∧ t.pass = s.pass)
      ∧ ∃ t, exec .supplyFailure s = .next t ∧ t.operating = false ∧ t.events.notice = none
          ∧ t.link.exchange = .idle ∧ t.link.response = .empty ∧ t.link.idleTimer = false

/-! ### Laws that every step keeps -/

/-- A referenced channel is in TRACKING, and counters, tallies and qualification counters stay within their ceilings, after every
step from a state in which it is so (R5, R11, R12, R152); and so does the law of the reference period: what READ AXES reports is of
one boundary, the channels that the period has not reached having had no sample event since (R1, R19; log 31). -/
def Obligations.ReferenceAndCeilingsAreKept : Prop :=
  (∀ s t : State, s.ReferencedTracks → step s = .next t → t.ReferencedTracks)
    ∧ (∀ s t : State, s.WithinCeilings → step s = .next t → t.WithinCeilings)
    ∧ (∀ s t : State, s.PeriodLaw → step s = .next t → t.PeriodLaw)

/-- The link law and the law of the pass number are kept by every step (R161, R163, R93). -/
def Obligations.LinkLawIsKept : Prop :=
  ∀ s t : State, s.LinkLaw → s.PassNumberLaw → step s = .next t → t.LinkLaw ∧ t.PassNumberLaw

/-- While a pass is live its measuring axis tracks, and in a MEASURE pass is referenced, after every step (R105). -/
def Obligations.LivePassLawIsKept : Prop :=
  ∀ s t : State, s.LivePassLaw → step s = .next t → t.LivePassLaw

/-- The queue law is kept by every step: at most 6 sightings, all of the open pass, none while IDLE or ABORTING (R71). -/
def Obligations.QueueLawIsKept : Prop :=
  ∀ s t : State, s.QueueLaw → step s = .next t → t.QueueLaw

/-- The table keeps its order, its capacity and its unique mark numbers (R51). -/
def Obligations.TableLawIsKept : Prop :=
  ∀ s t : State, s.TableLaw → step s = .next t → t.TableLaw

/-- Widened windows stay disjoint, through enrolments, amendments staged and applied, retirements and sweeps, so that no position
lies in the windows of two records (R54 to R56); and half-widths, width limits, windows and the bucket shift keep their ranges, those
of a record or an amendment in progress included (R22, R42). -/
def Obligations.WindowLawIsKept : Prop :=
  (∀ s t : State, s.TableLaw → s.WindowLaw → step s = .next t → t.WindowLaw)
    ∧ (∀ (s : State) (p : Position) (a b : MarkRecord), s.TableLaw → s.WindowLaw → a ∈ s.table → b ∈ s.table →
      (a.nominal.toInt - a.fields.half ≤ p.toInt ∧ p.toInt ≤ a.nominal.toInt + a.fields.half) →
      (b.nominal.toInt - b.fields.half ≤ p.toInt ∧ p.toInt ≤ b.nominal.toInt + b.fields.half) → a = b)
    ∧ (∀ s t : State, s.TableLaw → s.RangeLaw → step s = .next t → t.RangeLaw)

/-- The prefilter's occupancy counts agree with the windows of the table after every step (R66 to R68). -/
def Obligations.OccupancyLawIsKept : Prop :=
  ∀ s t : State, s.TableLaw → s.OccupancyLaw → step s = .next t → t.OccupancyLaw

/-- The tally groups agree with the table after every step (R134). -/
def Obligations.GroupLawIsKept : Prop :=
  ∀ s t : State, s.TableLaw → s.GroupLaw → step s = .next t → t.GroupLaw

/-- Between passes no record is ARMED, retiring or staged, and none holds a current-pass part, after every step (R47, R50). -/
def Obligations.OptionalPartLawIsKept : Prop :=
  ∀ s t : State, s.TableLaw → s.QueueLaw → s.OptionalPartLaw → step s = .next t → t.OptionalPartLaw

/-- Reset satisfies every law (R24, R62, R74, R116, R140, R171). -/
def Obligations.ResetSatisfiesLaws : Prop :=
  State.reset.ReferencedTracks ∧ State.reset.WithinCeilings ∧ State.reset.LinkLaw ∧ State.reset.PassNumberLaw
    ∧ State.reset.LivePassLaw ∧ State.reset.QueueLaw ∧ State.reset.TableLaw ∧ State.reset.WindowLaw
    ∧ State.reset.OccupancyLaw ∧ State.reset.GroupLaw ∧ State.reset.OptionalPartLaw ∧ State.reset.PeriodLaw
    ∧ State.reset.RangeLaw

/-- The prefilter never drops a sighting whose centre lies in the window of a record, while the occupancy agrees with the table
and half-widths, windows and the bucket shift keep their ranges, as every step keeps them (OccupancyLawIsKept, WindowLawIsKept). A
record claims the slots of the buckets of its window's two ends, one alone where both ends share their bucket (R42, R54, R64, R66,
R69). -/
def Obligations.PrefilterPassesEveryWindow : Prop :=
  (∀ (s : State) (x : Sighting) (r : MarkRecord), s.OccupancyLaw → s.RangeLaw → r ∈ s.table →
      r.nominal.toInt - r.fields.half ≤ x.centre.toInt → x.centre.toInt ≤ r.nominal.toInt + r.fields.half →
      s.prefilter x = s.enqueue x)
    ∧ ∀ (s : State) (r : MarkRecord) (lo hi : Position), s.RangeLaw → r ∈ s.table →
      lo.toInt = r.nominal.toInt - r.fields.half → hi.toInt = r.nominal.toInt + r.fields.half →
      let bucket := bucketOf s.config.shift
      r.slots s.config.shift = if bucket lo = bucket hi then [slotOf (bucket lo)] else [slotOf (bucket lo), slotOf (bucket hi)]
end

