-- ==== Sys2Proof/Laws/State.lean ====
section
/-! SUPPORT. What each shared operation that is one record update leaves in each field of State. -/

namespace Sys2Proof.Machine.State

variable (s : State)

/-! ### raise -/

@[simp] theorem raise_pending (f : EventFlag) : (s.raise f).pending = s.pending := rfl
@[simp] theorem raise_channels (f : EventFlag) : (s.raise f).channels = s.channels := rfl
@[simp] theorem raise_period (f : EventFlag) : (s.raise f).period = s.period := rfl
@[simp] theorem raise_monitor (f : EventFlag) : (s.raise f).monitor = s.monitor := rfl
@[simp] theorem raise_config (f : EventFlag) : (s.raise f).config = s.config := rfl
@[simp] theorem raise_line1 (f : EventFlag) : (s.raise f).line1 = s.line1 := rfl
@[simp] theorem raise_line2 (f : EventFlag) : (s.raise f).line2 = s.line2 := rfl
@[simp] theorem raise_earlierClosing (f : EventFlag) : (s.raise f).earlierClosing = s.earlierClosing := rfl
@[simp] theorem raise_table (f : EventFlag) : (s.raise f).table = s.table := rfl
@[simp] theorem raise_tableOp (f : EventFlag) : (s.raise f).tableOp = s.tableOp := rfl
@[simp] theorem raise_sweepClaim (f : EventFlag) : (s.raise f).sweepClaim = s.sweepClaim := rfl
@[simp] theorem raise_occupancy (f : EventFlag) : (s.raise f).occupancy = s.occupancy := rfl
@[simp] theorem raise_queue (f : EventFlag) : (s.raise f).queue = s.queue := rfl
@[simp] theorem raise_pass (f : EventFlag) : (s.raise f).pass = s.pass := rfl
@[simp] theorem raise_passTimer (f : EventFlag) : (s.raise f).passTimer = s.passTimer := rfl
@[simp] theorem raise_groups (f : EventFlag) : (s.raise f).groups = s.groups := rfl
@[simp] theorem raise_protection (f : EventFlag) : (s.raise f).protection = s.protection := rfl
@[simp] theorem raise_events (f : EventFlag) : (s.raise f).events = s.events.raise f := rfl
@[simp] theorem raise_link (f : EventFlag) : (s.raise f).link = s.link := rfl
@[simp] theorem raise_supply (f : EventFlag) : (s.raise f).supply = s.supply := rfl
@[simp] theorem raise_resetPinLow (f : EventFlag) : (s.raise f).resetPinLow = s.resetPinLow := rfl

/-! ### count -/

@[simp] theorem count_pending (k : Counter) (n : Nat) : (s.count k n).pending = s.pending := rfl
@[simp] theorem count_channels (k : Counter) (n : Nat) : (s.count k n).channels = s.channels := rfl
@[simp] theorem count_period (k : Counter) (n : Nat) : (s.count k n).period = s.period := rfl
@[simp] theorem count_monitor (k : Counter) (n : Nat) : (s.count k n).monitor = s.monitor := rfl
@[simp] theorem count_config (k : Counter) (n : Nat) : (s.count k n).config = s.config := rfl
@[simp] theorem count_line1 (k : Counter) (n : Nat) : (s.count k n).line1 = s.line1 := rfl
@[simp] theorem count_line2 (k : Counter) (n : Nat) : (s.count k n).line2 = s.line2 := rfl
@[simp] theorem count_earlierClosing (k : Counter) (n : Nat) : (s.count k n).earlierClosing = s.earlierClosing := rfl
@[simp] theorem count_table (k : Counter) (n : Nat) : (s.count k n).table = s.table := rfl
@[simp] theorem count_tableOp (k : Counter) (n : Nat) : (s.count k n).tableOp = s.tableOp := rfl
@[simp] theorem count_sweepClaim (k : Counter) (n : Nat) : (s.count k n).sweepClaim = s.sweepClaim := rfl
@[simp] theorem count_occupancy (k : Counter) (n : Nat) : (s.count k n).occupancy = s.occupancy := rfl
@[simp] theorem count_queue (k : Counter) (n : Nat) : (s.count k n).queue = s.queue := rfl
@[simp] theorem count_pass (k : Counter) (n : Nat) : (s.count k n).pass = s.pass := rfl
@[simp] theorem count_passTimer (k : Counter) (n : Nat) : (s.count k n).passTimer = s.passTimer := rfl
@[simp] theorem count_groups (k : Counter) (n : Nat) : (s.count k n).groups = s.groups := rfl
@[simp] theorem count_protection (k : Counter) (n : Nat) : (s.count k n).protection = s.protection := rfl
@[simp] theorem count_events (k : Counter) (n : Nat) : (s.count k n).events = s.events.count k n := rfl
@[simp] theorem count_link (k : Counter) (n : Nat) : (s.count k n).link = s.link := rfl
@[simp] theorem count_supply (k : Counter) (n : Nat) : (s.count k n).supply = s.supply := rfl
@[simp] theorem count_resetPinLow (k : Counter) (n : Nat) : (s.count k n).resetPinLow = s.resetPinLow := rfl

/-! ### putChannel -/

@[simp] theorem putChannel_pending (k : ChannelIx) (c : Channel) : (s.putChannel k c).pending = s.pending := rfl
@[simp] theorem putChannel_channels (k : ChannelIx) (c : Channel) : (s.putChannel k c).channels = s.channels.set k c := rfl
@[simp] theorem putChannel_period (k : ChannelIx) (c : Channel) : (s.putChannel k c).period = s.period := rfl
@[simp] theorem putChannel_monitor (k : ChannelIx) (c : Channel) : (s.putChannel k c).monitor = s.monitor := rfl
@[simp] theorem putChannel_config (k : ChannelIx) (c : Channel) : (s.putChannel k c).config = s.config := rfl
@[simp] theorem putChannel_line1 (k : ChannelIx) (c : Channel) : (s.putChannel k c).line1 = s.line1 := rfl
@[simp] theorem putChannel_line2 (k : ChannelIx) (c : Channel) : (s.putChannel k c).line2 = s.line2 := rfl
@[simp] theorem putChannel_earlierClosing (k : ChannelIx) (c : Channel) : (s.putChannel k c).earlierClosing = s.earlierClosing := rfl
@[simp] theorem putChannel_table (k : ChannelIx) (c : Channel) : (s.putChannel k c).table = s.table := rfl
@[simp] theorem putChannel_tableOp (k : ChannelIx) (c : Channel) : (s.putChannel k c).tableOp = s.tableOp := rfl
@[simp] theorem putChannel_sweepClaim (k : ChannelIx) (c : Channel) : (s.putChannel k c).sweepClaim = s.sweepClaim := rfl
@[simp] theorem putChannel_occupancy (k : ChannelIx) (c : Channel) : (s.putChannel k c).occupancy = s.occupancy := rfl
@[simp] theorem putChannel_queue (k : ChannelIx) (c : Channel) : (s.putChannel k c).queue = s.queue := rfl
@[simp] theorem putChannel_pass (k : ChannelIx) (c : Channel) : (s.putChannel k c).pass = s.pass := rfl
@[simp] theorem putChannel_passTimer (k : ChannelIx) (c : Channel) : (s.putChannel k c).passTimer = s.passTimer := rfl
@[simp] theorem putChannel_groups (k : ChannelIx) (c : Channel) : (s.putChannel k c).groups = s.groups := rfl
@[simp] theorem putChannel_protection (k : ChannelIx) (c : Channel) : (s.putChannel k c).protection = s.protection := rfl
@[simp] theorem putChannel_events (k : ChannelIx) (c : Channel) : (s.putChannel k c).events = s.events.transition k (s.channel k).state c.state := rfl
@[simp] theorem putChannel_link (k : ChannelIx) (c : Channel) : (s.putChannel k c).link = s.link := rfl
@[simp] theorem putChannel_supply (k : ChannelIx) (c : Channel) : (s.putChannel k c).supply = s.supply := rfl
@[simp] theorem putChannel_resetPinLow (k : ChannelIx) (c : Channel) : (s.putChannel k c).resetPinLow = s.resetPinLow := rfl

/-! ### settlePeriod -/

@[simp] theorem settlePeriod_pending : s.settlePeriod.pending = s.pending := rfl
@[simp] theorem settlePeriod_channels : s.settlePeriod.channels = s.channels := rfl
@[simp] theorem settlePeriod_period : s.settlePeriod.period = s.period.filter fun p => (List.finRange 6).any (s.awaits p) := rfl
@[simp] theorem settlePeriod_monitor : s.settlePeriod.monitor = s.monitor := rfl
@[simp] theorem settlePeriod_config : s.settlePeriod.config = s.config := rfl
@[simp] theorem settlePeriod_line1 : s.settlePeriod.line1 = s.line1 := rfl
@[simp] theorem settlePeriod_line2 : s.settlePeriod.line2 = s.line2 := rfl
@[simp] theorem settlePeriod_earlierClosing : s.settlePeriod.earlierClosing = s.earlierClosing := rfl
@[simp] theorem settlePeriod_table : s.settlePeriod.table = s.table := rfl
@[simp] theorem settlePeriod_tableOp : s.settlePeriod.tableOp = s.tableOp := rfl
@[simp] theorem settlePeriod_sweepClaim : s.settlePeriod.sweepClaim = s.sweepClaim := rfl
@[simp] theorem settlePeriod_occupancy : s.settlePeriod.occupancy = s.occupancy := rfl
@[simp] theorem settlePeriod_queue : s.settlePeriod.queue = s.queue := rfl
@[simp] theorem settlePeriod_pass : s.settlePeriod.pass = s.pass := rfl
@[simp] theorem settlePeriod_passTimer : s.settlePeriod.passTimer = s.passTimer := rfl
@[simp] theorem settlePeriod_groups : s.settlePeriod.groups = s.groups := rfl
@[simp] theorem settlePeriod_protection : s.settlePeriod.protection = s.protection := rfl
@[simp] theorem settlePeriod_events : s.settlePeriod.events = s.events := rfl
@[simp] theorem settlePeriod_link : s.settlePeriod.link = s.link := rfl
@[simp] theorem settlePeriod_supply : s.settlePeriod.supply = s.supply := rfl
@[simp] theorem settlePeriod_resetPinLow : s.settlePeriod.resetPinLow = s.resetPinLow := rfl

/-! ### enterPeriod -/

@[simp] theorem enterPeriod_pending (k : ChannelIx) : (s.enterPeriod k).pending = s.pending := rfl
@[simp] theorem enterPeriod_channels (k : ChannelIx) : (s.enterPeriod k).channels = s.channels := rfl
@[simp] theorem enterPeriod_monitor (k : ChannelIx) : (s.enterPeriod k).monitor = s.monitor := rfl
@[simp] theorem enterPeriod_config (k : ChannelIx) : (s.enterPeriod k).config = s.config := rfl
@[simp] theorem enterPeriod_line1 (k : ChannelIx) : (s.enterPeriod k).line1 = s.line1 := rfl
@[simp] theorem enterPeriod_line2 (k : ChannelIx) : (s.enterPeriod k).line2 = s.line2 := rfl
@[simp] theorem enterPeriod_earlierClosing (k : ChannelIx) : (s.enterPeriod k).earlierClosing = s.earlierClosing := rfl
@[simp] theorem enterPeriod_table (k : ChannelIx) : (s.enterPeriod k).table = s.table := rfl
@[simp] theorem enterPeriod_tableOp (k : ChannelIx) : (s.enterPeriod k).tableOp = s.tableOp := rfl
@[simp] theorem enterPeriod_sweepClaim (k : ChannelIx) : (s.enterPeriod k).sweepClaim = s.sweepClaim := rfl
@[simp] theorem enterPeriod_occupancy (k : ChannelIx) : (s.enterPeriod k).occupancy = s.occupancy := rfl
@[simp] theorem enterPeriod_queue (k : ChannelIx) : (s.enterPeriod k).queue = s.queue := rfl
@[simp] theorem enterPeriod_pass (k : ChannelIx) : (s.enterPeriod k).pass = s.pass := rfl
@[simp] theorem enterPeriod_passTimer (k : ChannelIx) : (s.enterPeriod k).passTimer = s.passTimer := rfl
@[simp] theorem enterPeriod_groups (k : ChannelIx) : (s.enterPeriod k).groups = s.groups := rfl
@[simp] theorem enterPeriod_protection (k : ChannelIx) : (s.enterPeriod k).protection = s.protection := rfl
@[simp] theorem enterPeriod_events (k : ChannelIx) : (s.enterPeriod k).events = s.events := rfl
@[simp] theorem enterPeriod_link (k : ChannelIx) : (s.enterPeriod k).link = s.link := rfl
@[simp] theorem enterPeriod_supply (k : ChannelIx) : (s.enterPeriod k).supply = s.supply := rfl
@[simp] theorem enterPeriod_resetPinLow (k : ChannelIx) : (s.enterPeriod k).resetPinLow = s.resetPinLow := rfl

/-! ### setGroup -/

@[simp] theorem setGroup_pending (g : Fin 8) (c : GroupCounts) : (s.setGroup g c).pending = s.pending := rfl
@[simp] theorem setGroup_channels (g : Fin 8) (c : GroupCounts) : (s.setGroup g c).channels = s.channels := rfl
@[simp] theorem setGroup_period (g : Fin 8) (c : GroupCounts) : (s.setGroup g c).period = s.period := rfl
@[simp] theorem setGroup_monitor (g : Fin 8) (c : GroupCounts) : (s.setGroup g c).monitor = s.monitor := rfl
@[simp] theorem setGroup_config (g : Fin 8) (c : GroupCounts) : (s.setGroup g c).config = s.config := rfl
@[simp] theorem setGroup_line1 (g : Fin 8) (c : GroupCounts) : (s.setGroup g c).line1 = s.line1 := rfl
@[simp] theorem setGroup_line2 (g : Fin 8) (c : GroupCounts) : (s.setGroup g c).line2 = s.line2 := rfl
@[simp] theorem setGroup_earlierClosing (g : Fin 8) (c : GroupCounts) : (s.setGroup g c).earlierClosing = s.earlierClosing := rfl
@[simp] theorem setGroup_table (g : Fin 8) (c : GroupCounts) : (s.setGroup g c).table = s.table := rfl
@[simp] theorem setGroup_tableOp (g : Fin 8) (c : GroupCounts) : (s.setGroup g c).tableOp = s.tableOp := rfl
@[simp] theorem setGroup_sweepClaim (g : Fin 8) (c : GroupCounts) : (s.setGroup g c).sweepClaim = s.sweepClaim := rfl
@[simp] theorem setGroup_occupancy (g : Fin 8) (c : GroupCounts) : (s.setGroup g c).occupancy = s.occupancy := rfl
@[simp] theorem setGroup_queue (g : Fin 8) (c : GroupCounts) : (s.setGroup g c).queue = s.queue := rfl
@[simp] theorem setGroup_pass (g : Fin 8) (c : GroupCounts) : (s.setGroup g c).pass = s.pass := rfl
@[simp] theorem setGroup_passTimer (g : Fin 8) (c : GroupCounts) : (s.setGroup g c).passTimer = s.passTimer := rfl
@[simp] theorem setGroup_groups (g : Fin 8) (c : GroupCounts) : (s.setGroup g c).groups = s.groups.set g c := rfl
@[simp] theorem setGroup_protection (g : Fin 8) (c : GroupCounts) : (s.setGroup g c).protection = s.protection := rfl
@[simp] theorem setGroup_events (g : Fin 8) (c : GroupCounts) : (s.setGroup g c).events = if !(s.group g).complete && c.complete then s.events.groupCompletes g else s.events := rfl
@[simp] theorem setGroup_link (g : Fin 8) (c : GroupCounts) : (s.setGroup g c).link = s.link := rfl
@[simp] theorem setGroup_supply (g : Fin 8) (c : GroupCounts) : (s.setGroup g c).supply = s.supply := rfl
@[simp] theorem setGroup_resetPinLow (g : Fin 8) (c : GroupCounts) : (s.setGroup g c).resetPinLow = s.resetPinLow := rfl

/-! ### groupReport -/

@[simp] theorem groupReport_pending (g : Fin 8) (m n : Int) : (s.groupReport g m n).pending = s.pending := rfl
@[simp] theorem groupReport_channels (g : Fin 8) (m n : Int) : (s.groupReport g m n).channels = s.channels := rfl
@[simp] theorem groupReport_period (g : Fin 8) (m n : Int) : (s.groupReport g m n).period = s.period := rfl
@[simp] theorem groupReport_monitor (g : Fin 8) (m n : Int) : (s.groupReport g m n).monitor = s.monitor := rfl
@[simp] theorem groupReport_config (g : Fin 8) (m n : Int) : (s.groupReport g m n).config = s.config := rfl
@[simp] theorem groupReport_line1 (g : Fin 8) (m n : Int) : (s.groupReport g m n).line1 = s.line1 := rfl
@[simp] theorem groupReport_line2 (g : Fin 8) (m n : Int) : (s.groupReport g m n).line2 = s.line2 := rfl
@[simp] theorem groupReport_earlierClosing (g : Fin 8) (m n : Int) : (s.groupReport g m n).earlierClosing = s.earlierClosing := rfl
@[simp] theorem groupReport_table (g : Fin 8) (m n : Int) : (s.groupReport g m n).table = s.table := rfl
@[simp] theorem groupReport_tableOp (g : Fin 8) (m n : Int) : (s.groupReport g m n).tableOp = s.tableOp := rfl
@[simp] theorem groupReport_sweepClaim (g : Fin 8) (m n : Int) : (s.groupReport g m n).sweepClaim = s.sweepClaim := rfl
@[simp] theorem groupReport_occupancy (g : Fin 8) (m n : Int) : (s.groupReport g m n).occupancy = s.occupancy := rfl
@[simp] theorem groupReport_queue (g : Fin 8) (m n : Int) : (s.groupReport g m n).queue = s.queue := rfl
@[simp] theorem groupReport_pass (g : Fin 8) (m n : Int) : (s.groupReport g m n).pass = s.pass := rfl
@[simp] theorem groupReport_passTimer (g : Fin 8) (m n : Int) : (s.groupReport g m n).passTimer = s.passTimer := rfl
@[simp] theorem groupReport_protection (g : Fin 8) (m n : Int) : (s.groupReport g m n).protection = s.protection := rfl
@[simp] theorem groupReport_link (g : Fin 8) (m n : Int) : (s.groupReport g m n).link = s.link := rfl
@[simp] theorem groupReport_supply (g : Fin 8) (m n : Int) : (s.groupReport g m n).supply = s.supply := rfl
@[simp] theorem groupReport_resetPinLow (g : Fin 8) (m n : Int) : (s.groupReport g m n).resetPinLow = s.resetPinLow := rfl

/-! ### emptyQueue -/

@[simp] theorem emptyQueue_pending (counted : Bool) : (s.emptyQueue counted).pending = s.pending := rfl
@[simp] theorem emptyQueue_channels (counted : Bool) : (s.emptyQueue counted).channels = s.channels := rfl
@[simp] theorem emptyQueue_period (counted : Bool) : (s.emptyQueue counted).period = s.period := rfl
@[simp] theorem emptyQueue_monitor (counted : Bool) : (s.emptyQueue counted).monitor = s.monitor := rfl
@[simp] theorem emptyQueue_config (counted : Bool) : (s.emptyQueue counted).config = s.config := rfl
@[simp] theorem emptyQueue_line1 (counted : Bool) : (s.emptyQueue counted).line1 = s.line1 := rfl
@[simp] theorem emptyQueue_line2 (counted : Bool) : (s.emptyQueue counted).line2 = s.line2 := rfl
@[simp] theorem emptyQueue_earlierClosing (counted : Bool) : (s.emptyQueue counted).earlierClosing = s.earlierClosing := rfl
@[simp] theorem emptyQueue_table (counted : Bool) : (s.emptyQueue counted).table = s.table := rfl
@[simp] theorem emptyQueue_tableOp (counted : Bool) : (s.emptyQueue counted).tableOp = s.tableOp := rfl
@[simp] theorem emptyQueue_sweepClaim (counted : Bool) : (s.emptyQueue counted).sweepClaim = s.sweepClaim := rfl
@[simp] theorem emptyQueue_occupancy (counted : Bool) : (s.emptyQueue counted).occupancy = s.occupancy := rfl
@[simp] theorem emptyQueue_queue (counted : Bool) : (s.emptyQueue counted).queue = [] := rfl
@[simp] theorem emptyQueue_pass (counted : Bool) : (s.emptyQueue counted).pass = s.pass := rfl
@[simp] theorem emptyQueue_passTimer (counted : Bool) : (s.emptyQueue counted).passTimer = s.passTimer := rfl
@[simp] theorem emptyQueue_groups (counted : Bool) : (s.emptyQueue counted).groups = s.groups := rfl
@[simp] theorem emptyQueue_protection (counted : Bool) : (s.emptyQueue counted).protection = s.protection := rfl
@[simp] theorem emptyQueue_events (counted : Bool) : (s.emptyQueue counted).events = if counted then s.events.count .unpassed s.queue.length else s.events := rfl
@[simp] theorem emptyQueue_link (counted : Bool) : (s.emptyQueue counted).link = s.link := rfl
@[simp] theorem emptyQueue_supply (counted : Bool) : (s.emptyQueue counted).supply = s.supply := rfl
@[simp] theorem emptyQueue_resetPinLow (counted : Bool) : (s.emptyQueue counted).resetPinLow = s.resetPinLow := rfl

/-! ### updateKind -/

@[simp] theorem updateKind_pending (mark : Nat) (f : KindPart → KindPart) : (s.updateKind mark f).pending = s.pending := rfl
@[simp] theorem updateKind_channels (mark : Nat) (f : KindPart → KindPart) : (s.updateKind mark f).channels = s.channels := rfl
@[simp] theorem updateKind_period (mark : Nat) (f : KindPart → KindPart) : (s.updateKind mark f).period = s.period := rfl
@[simp] theorem updateKind_monitor (mark : Nat) (f : KindPart → KindPart) : (s.updateKind mark f).monitor = s.monitor := rfl
@[simp] theorem updateKind_config (mark : Nat) (f : KindPart → KindPart) : (s.updateKind mark f).config = s.config := rfl
@[simp] theorem updateKind_line1 (mark : Nat) (f : KindPart → KindPart) : (s.updateKind mark f).line1 = s.line1 := rfl
@[simp] theorem updateKind_line2 (mark : Nat) (f : KindPart → KindPart) : (s.updateKind mark f).line2 = s.line2 := rfl
@[simp] theorem updateKind_earlierClosing (mark : Nat) (f : KindPart → KindPart) : (s.updateKind mark f).earlierClosing = s.earlierClosing := rfl
@[simp] theorem updateKind_table (mark : Nat) (f : KindPart → KindPart) : (s.updateKind mark f).table = updateMark s.table mark fun r => { r with kind := f r.kind } := rfl
@[simp] theorem updateKind_tableOp (mark : Nat) (f : KindPart → KindPart) : (s.updateKind mark f).tableOp = s.tableOp := rfl
@[simp] theorem updateKind_sweepClaim (mark : Nat) (f : KindPart → KindPart) : (s.updateKind mark f).sweepClaim = s.sweepClaim := rfl
@[simp] theorem updateKind_occupancy (mark : Nat) (f : KindPart → KindPart) : (s.updateKind mark f).occupancy = s.occupancy := rfl
@[simp] theorem updateKind_queue (mark : Nat) (f : KindPart → KindPart) : (s.updateKind mark f).queue = s.queue := rfl
@[simp] theorem updateKind_pass (mark : Nat) (f : KindPart → KindPart) : (s.updateKind mark f).pass = s.pass := rfl
@[simp] theorem updateKind_passTimer (mark : Nat) (f : KindPart → KindPart) : (s.updateKind mark f).passTimer = s.passTimer := rfl
@[simp] theorem updateKind_groups (mark : Nat) (f : KindPart → KindPart) : (s.updateKind mark f).groups = s.groups := rfl
@[simp] theorem updateKind_protection (mark : Nat) (f : KindPart → KindPart) : (s.updateKind mark f).protection = s.protection := rfl
@[simp] theorem updateKind_events (mark : Nat) (f : KindPart → KindPart) : (s.updateKind mark f).events = s.events := rfl
@[simp] theorem updateKind_link (mark : Nat) (f : KindPart → KindPart) : (s.updateKind mark f).link = s.link := rfl
@[simp] theorem updateKind_supply (mark : Nat) (f : KindPart → KindPart) : (s.updateKind mark f).supply = s.supply := rfl
@[simp] theorem updateKind_resetPinLow (mark : Nat) (f : KindPart → KindPart) : (s.updateKind mark f).resetPinLow = s.resetPinLow := rfl

/-! ### answer -/

@[simp] theorem answer_pending (status : Status) (bytes : List Byte) : (s.answer status bytes).pending = s.pending := rfl
@[simp] theorem answer_channels (status : Status) (bytes : List Byte) : (s.answer status bytes).channels = s.channels := rfl
@[simp] theorem answer_period (status : Status) (bytes : List Byte) : (s.answer status bytes).period = s.period := rfl
@[simp] theorem answer_monitor (status : Status) (bytes : List Byte) : (s.answer status bytes).monitor = s.monitor := rfl
@[simp] theorem answer_config (status : Status) (bytes : List Byte) : (s.answer status bytes).config = s.config := rfl
@[simp] theorem answer_line1 (status : Status) (bytes : List Byte) : (s.answer status bytes).line1 = s.line1 := rfl
@[simp] theorem answer_line2 (status : Status) (bytes : List Byte) : (s.answer status bytes).line2 = s.line2 := rfl
@[simp] theorem answer_earlierClosing (status : Status) (bytes : List Byte) : (s.answer status bytes).earlierClosing = s.earlierClosing := rfl
@[simp] theorem answer_table (status : Status) (bytes : List Byte) : (s.answer status bytes).table = s.table := rfl
@[simp] theorem answer_tableOp (status : Status) (bytes : List Byte) : (s.answer status bytes).tableOp = s.tableOp := rfl
@[simp] theorem answer_sweepClaim (status : Status) (bytes : List Byte) : (s.answer status bytes).sweepClaim = s.sweepClaim := rfl
@[simp] theorem answer_occupancy (status : Status) (bytes : List Byte) : (s.answer status bytes).occupancy = s.occupancy := rfl
@[simp] theorem answer_queue (status : Status) (bytes : List Byte) : (s.answer status bytes).queue = s.queue := rfl
@[simp] theorem answer_pass (status : Status) (bytes : List Byte) : (s.answer status bytes).pass = s.pass := rfl
@[simp] theorem answer_passTimer (status : Status) (bytes : List Byte) : (s.answer status bytes).passTimer = s.passTimer := rfl
@[simp] theorem answer_groups (status : Status) (bytes : List Byte) : (s.answer status bytes).groups = s.groups := rfl
@[simp] theorem answer_protection (status : Status) (bytes : List Byte) : (s.answer status bytes).protection = s.protection := rfl
@[simp] theorem answer_events (status : Status) (bytes : List Byte) : (s.answer status bytes).events = s.events := rfl
@[simp] theorem answer_link (status : Status) (bytes : List Byte) : (s.answer status bytes).link = { s.link with response := .ready status bytes } := rfl
@[simp] theorem answer_supply (status : Status) (bytes : List Byte) : (s.answer status bytes).supply = s.supply := rfl
@[simp] theorem answer_resetPinLow (status : Status) (bytes : List Byte) : (s.answer status bytes).resetPinLow = s.resetPinLow := rfl

/-! ### reject -/

@[simp] theorem reject_pending (code : RejectCode) : (s.reject code).pending = s.pending := rfl
@[simp] theorem reject_channels (code : RejectCode) : (s.reject code).channels = s.channels := rfl
@[simp] theorem reject_period (code : RejectCode) : (s.reject code).period = s.period := rfl
@[simp] theorem reject_monitor (code : RejectCode) : (s.reject code).monitor = s.monitor := rfl
@[simp] theorem reject_config (code : RejectCode) : (s.reject code).config = s.config := rfl
@[simp] theorem reject_line1 (code : RejectCode) : (s.reject code).line1 = s.line1 := rfl
@[simp] theorem reject_line2 (code : RejectCode) : (s.reject code).line2 = s.line2 := rfl
@[simp] theorem reject_earlierClosing (code : RejectCode) : (s.reject code).earlierClosing = s.earlierClosing := rfl
@[simp] theorem reject_table (code : RejectCode) : (s.reject code).table = s.table := rfl
@[simp] theorem reject_tableOp (code : RejectCode) : (s.reject code).tableOp = s.tableOp := rfl
@[simp] theorem reject_sweepClaim (code : RejectCode) : (s.reject code).sweepClaim = s.sweepClaim := rfl
@[simp] theorem reject_occupancy (code : RejectCode) : (s.reject code).occupancy = s.occupancy := rfl
@[simp] theorem reject_queue (code : RejectCode) : (s.reject code).queue = s.queue := rfl
@[simp] theorem reject_pass (code : RejectCode) : (s.reject code).pass = s.pass := rfl
@[simp] theorem reject_passTimer (code : RejectCode) : (s.reject code).passTimer = s.passTimer := rfl
@[simp] theorem reject_groups (code : RejectCode) : (s.reject code).groups = s.groups := rfl
@[simp] theorem reject_protection (code : RejectCode) : (s.reject code).protection = s.protection := rfl
@[simp] theorem reject_events (code : RejectCode) : (s.reject code).events = s.events := rfl
@[simp] theorem reject_link (code : RejectCode) : (s.reject code).link = { s.link with response := .ready (.rejected code) [] } := rfl
@[simp] theorem reject_supply (code : RejectCode) : (s.reject code).supply = s.supply := rfl
@[simp] theorem reject_resetPinLow (code : RejectCode) : (s.reject code).resetPinLow = s.resetPinLow := rfl

/-! ### startExchange -/

@[simp] theorem startExchange_pending (x : ExchangeState) : (s.startExchange x).pending = s.pending := rfl
@[simp] theorem startExchange_channels (x : ExchangeState) : (s.startExchange x).channels = s.channels := rfl
@[simp] theorem startExchange_period (x : ExchangeState) : (s.startExchange x).period = s.period := rfl
@[simp] theorem startExchange_monitor (x : ExchangeState) : (s.startExchange x).monitor = s.monitor := rfl
@[simp] theorem startExchange_config (x : ExchangeState) : (s.startExchange x).config = s.config := rfl
@[simp] theorem startExchange_line1 (x : ExchangeState) : (s.startExchange x).line1 = s.line1 := rfl
@[simp] theorem startExchange_line2 (x : ExchangeState) : (s.startExchange x).line2 = s.line2 := rfl
@[simp] theorem startExchange_earlierClosing (x : ExchangeState) : (s.startExchange x).earlierClosing = s.earlierClosing := rfl
@[simp] theorem startExchange_table (x : ExchangeState) : (s.startExchange x).table = s.table := rfl
@[simp] theorem startExchange_tableOp (x : ExchangeState) : (s.startExchange x).tableOp = s.tableOp := rfl
@[simp] theorem startExchange_sweepClaim (x : ExchangeState) : (s.startExchange x).sweepClaim = s.sweepClaim := rfl
@[simp] theorem startExchange_occupancy (x : ExchangeState) : (s.startExchange x).occupancy = s.occupancy := rfl
@[simp] theorem startExchange_queue (x : ExchangeState) : (s.startExchange x).queue = s.queue := rfl
@[simp] theorem startExchange_pass (x : ExchangeState) : (s.startExchange x).pass = s.pass := rfl
@[simp] theorem startExchange_passTimer (x : ExchangeState) : (s.startExchange x).passTimer = s.passTimer := rfl
@[simp] theorem startExchange_groups (x : ExchangeState) : (s.startExchange x).groups = s.groups := rfl
@[simp] theorem startExchange_protection (x : ExchangeState) : (s.startExchange x).protection = s.protection := rfl
@[simp] theorem startExchange_events (x : ExchangeState) : (s.startExchange x).events = s.events.endNotice := rfl
@[simp] theorem startExchange_link (x : ExchangeState) : (s.startExchange x).link = { s.link with exchange := x, idleTimer := false } := rfl
@[simp] theorem startExchange_supply (x : ExchangeState) : (s.startExchange x).supply = s.supply := rfl
@[simp] theorem startExchange_resetPinLow (x : ExchangeState) : (s.startExchange x).resetPinLow = s.resetPinLow := rfl

/-! ### addressedForWrite -/

@[simp] theorem addressedForWrite_pending (x : ExchangeState) : (s.addressedForWrite x).pending = s.pending := rfl
@[simp] theorem addressedForWrite_channels (x : ExchangeState) : (s.addressedForWrite x).channels = s.channels := rfl
@[simp] theorem addressedForWrite_period (x : ExchangeState) : (s.addressedForWrite x).period = s.period := rfl
@[simp] theorem addressedForWrite_monitor (x : ExchangeState) : (s.addressedForWrite x).monitor = s.monitor := rfl
@[simp] theorem addressedForWrite_config (x : ExchangeState) : (s.addressedForWrite x).config = s.config := rfl
@[simp] theorem addressedForWrite_line1 (x : ExchangeState) : (s.addressedForWrite x).line1 = s.line1 := rfl
@[simp] theorem addressedForWrite_line2 (x : ExchangeState) : (s.addressedForWrite x).line2 = s.line2 := rfl
@[simp] theorem addressedForWrite_earlierClosing (x : ExchangeState) : (s.addressedForWrite x).earlierClosing = s.earlierClosing := rfl
@[simp] theorem addressedForWrite_table (x : ExchangeState) : (s.addressedForWrite x).table = s.table := rfl
@[simp] theorem addressedForWrite_tableOp (x : ExchangeState) : (s.addressedForWrite x).tableOp = s.tableOp := rfl
@[simp] theorem addressedForWrite_sweepClaim (x : ExchangeState) : (s.addressedForWrite x).sweepClaim = s.sweepClaim := rfl
@[simp] theorem addressedForWrite_occupancy (x : ExchangeState) : (s.addressedForWrite x).occupancy = s.occupancy := rfl
@[simp] theorem addressedForWrite_queue (x : ExchangeState) : (s.addressedForWrite x).queue = s.queue := rfl
@[simp] theorem addressedForWrite_pass (x : ExchangeState) : (s.addressedForWrite x).pass = s.pass := rfl
@[simp] theorem addressedForWrite_passTimer (x : ExchangeState) : (s.addressedForWrite x).passTimer = s.passTimer := rfl
@[simp] theorem addressedForWrite_groups (x : ExchangeState) : (s.addressedForWrite x).groups = s.groups := rfl
@[simp] theorem addressedForWrite_protection (x : ExchangeState) : (s.addressedForWrite x).protection = s.protection := rfl
@[simp] theorem addressedForWrite_events (x : ExchangeState) : (s.addressedForWrite x).events = s.events.endNotice := rfl
@[simp] theorem addressedForWrite_link (x : ExchangeState) : (s.addressedForWrite x).link = { s.link with exchange := x, idleTimer := false, response := .empty } := rfl
@[simp] theorem addressedForWrite_supply (x : ExchangeState) : (s.addressedForWrite x).supply = s.supply := rfl
@[simp] theorem addressedForWrite_resetPinLow (x : ExchangeState) : (s.addressedForWrite x).resetPinLow = s.resetPinLow := rfl

/-! ### startHostOp -/

@[simp] theorem startHostOp_pending (op : HostOp) : (s.startHostOp op).pending = s.pending := rfl
@[simp] theorem startHostOp_channels (op : HostOp) : (s.startHostOp op).channels = s.channels := rfl
@[simp] theorem startHostOp_period (op : HostOp) : (s.startHostOp op).period = s.period := rfl
@[simp] theorem startHostOp_monitor (op : HostOp) : (s.startHostOp op).monitor = s.monitor := rfl
@[simp] theorem startHostOp_config (op : HostOp) : (s.startHostOp op).config = s.config := rfl
@[simp] theorem startHostOp_line1 (op : HostOp) : (s.startHostOp op).line1 = s.line1 := rfl
@[simp] theorem startHostOp_line2 (op : HostOp) : (s.startHostOp op).line2 = s.line2 := rfl
@[simp] theorem startHostOp_earlierClosing (op : HostOp) : (s.startHostOp op).earlierClosing = s.earlierClosing := rfl
@[simp] theorem startHostOp_table (op : HostOp) : (s.startHostOp op).table = s.table := rfl
@[simp] theorem startHostOp_tableOp (op : HostOp) : (s.startHostOp op).tableOp = some (.host op) := rfl
@[simp] theorem startHostOp_sweepClaim (op : HostOp) : (s.startHostOp op).sweepClaim = s.sweepClaim := rfl
@[simp] theorem startHostOp_occupancy (op : HostOp) : (s.startHostOp op).occupancy = s.occupancy := rfl
@[simp] theorem startHostOp_queue (op : HostOp) : (s.startHostOp op).queue = s.queue := rfl
@[simp] theorem startHostOp_pass (op : HostOp) : (s.startHostOp op).pass = s.pass := rfl
@[simp] theorem startHostOp_passTimer (op : HostOp) : (s.startHostOp op).passTimer = s.passTimer := rfl
@[simp] theorem startHostOp_groups (op : HostOp) : (s.startHostOp op).groups = s.groups := rfl
@[simp] theorem startHostOp_protection (op : HostOp) : (s.startHostOp op).protection = s.protection := rfl
@[simp] theorem startHostOp_events (op : HostOp) : (s.startHostOp op).events = s.events := rfl
@[simp] theorem startHostOp_link (op : HostOp) : (s.startHostOp op).link = { s.link with response := .pending } := rfl
@[simp] theorem startHostOp_supply (op : HostOp) : (s.startHostOp op).supply = s.supply := rfl
@[simp] theorem startHostOp_resetPinLow (op : HostOp) : (s.startHostOp op).resetPinLow = s.resetPinLow := rfl

/-! ### setMap -/

@[simp] theorem setMap_pending (map : BitVec 32) : (s.setMap map).pending = s.pending := rfl
@[simp] theorem setMap_channels (map : BitVec 32) : (s.setMap map).channels = s.channels := rfl
@[simp] theorem setMap_period (map : BitVec 32) : (s.setMap map).period = s.period := rfl
@[simp] theorem setMap_monitor (map : BitVec 32) : (s.setMap map).monitor = s.monitor := rfl
@[simp] theorem setMap_config (map : BitVec 32) : (s.setMap map).config = s.config := rfl
@[simp] theorem setMap_line1 (map : BitVec 32) : (s.setMap map).line1 = s.line1 := rfl
@[simp] theorem setMap_line2 (map : BitVec 32) : (s.setMap map).line2 = s.line2 := rfl
@[simp] theorem setMap_earlierClosing (map : BitVec 32) : (s.setMap map).earlierClosing = s.earlierClosing := rfl
@[simp] theorem setMap_table (map : BitVec 32) : (s.setMap map).table = s.table := rfl
@[simp] theorem setMap_tableOp (map : BitVec 32) : (s.setMap map).tableOp = s.tableOp := rfl
@[simp] theorem setMap_sweepClaim (map : BitVec 32) : (s.setMap map).sweepClaim = s.sweepClaim := rfl
@[simp] theorem setMap_occupancy (map : BitVec 32) : (s.setMap map).occupancy = s.occupancy := rfl
@[simp] theorem setMap_queue (map : BitVec 32) : (s.setMap map).queue = s.queue := rfl
@[simp] theorem setMap_pass (map : BitVec 32) : (s.setMap map).pass = s.pass := rfl
@[simp] theorem setMap_passTimer (map : BitVec 32) : (s.setMap map).passTimer = s.passTimer := rfl
@[simp] theorem setMap_groups (map : BitVec 32) : (s.setMap map).groups = s.groups := rfl
@[simp] theorem setMap_protection (map : BitVec 32) : (s.setMap map).protection = { s.protection with map := map } := rfl
@[simp] theorem setMap_events (map : BitVec 32) : (s.setMap map).events = s.events := rfl
@[simp] theorem setMap_supply (map : BitVec 32) : (s.setMap map).supply = s.supply := rfl
@[simp] theorem setMap_resetPinLow (map : BitVec 32) : (s.setMap map).resetPinLow = s.resetPinLow := rfl

/-! ### protectionFault -/

@[simp] theorem protectionFault_pending (mark : Nat) : (s.protectionFault mark).pending = s.pending := rfl
@[simp] theorem protectionFault_channels (mark : Nat) : (s.protectionFault mark).channels = s.channels := rfl
@[simp] theorem protectionFault_period (mark : Nat) : (s.protectionFault mark).period = s.period := rfl
@[simp] theorem protectionFault_monitor (mark : Nat) : (s.protectionFault mark).monitor = s.monitor := rfl
@[simp] theorem protectionFault_config (mark : Nat) : (s.protectionFault mark).config = s.config := rfl
@[simp] theorem protectionFault_line1 (mark : Nat) : (s.protectionFault mark).line1 = s.line1 := rfl
@[simp] theorem protectionFault_line2 (mark : Nat) : (s.protectionFault mark).line2 = s.line2 := rfl
@[simp] theorem protectionFault_earlierClosing (mark : Nat) : (s.protectionFault mark).earlierClosing = s.earlierClosing := rfl
@[simp] theorem protectionFault_table (mark : Nat) : (s.protectionFault mark).table = s.table := rfl
@[simp] theorem protectionFault_tableOp (mark : Nat) : (s.protectionFault mark).tableOp = s.tableOp := rfl
@[simp] theorem protectionFault_sweepClaim (mark : Nat) : (s.protectionFault mark).sweepClaim = s.sweepClaim := rfl
@[simp] theorem protectionFault_occupancy (mark : Nat) : (s.protectionFault mark).occupancy = s.occupancy := rfl
@[simp] theorem protectionFault_queue (mark : Nat) : (s.protectionFault mark).queue = s.queue := rfl
@[simp] theorem protectionFault_pass (mark : Nat) : (s.protectionFault mark).pass = s.pass := rfl
@[simp] theorem protectionFault_passTimer (mark : Nat) : (s.protectionFault mark).passTimer = s.passTimer := rfl
@[simp] theorem protectionFault_groups (mark : Nat) : (s.protectionFault mark).groups = s.groups := rfl
@[simp] theorem protectionFault_protection (mark : Nat) : (s.protectionFault mark).protection = { s.protection with fault := .request mark } := rfl
@[simp] theorem protectionFault_events (mark : Nat) : (s.protectionFault mark).events = s.events.raise .protectFault := rfl
@[simp] theorem protectionFault_link (mark : Nat) : (s.protectionFault mark).link = s.link := rfl
@[simp] theorem protectionFault_supply (mark : Nat) : (s.protectionFault mark).supply = s.supply := rfl
@[simp] theorem protectionFault_resetPinLow (mark : Nat) : (s.protectionFault mark).resetPinLow = s.resetPinLow := rfl

/-! ### setCauses -/

@[simp] theorem setCauses_pending (causes : ResetCauses) : (s.setCauses causes).pending = s.pending := rfl
@[simp] theorem setCauses_channels (causes : ResetCauses) : (s.setCauses causes).channels = s.channels := rfl
@[simp] theorem setCauses_period (causes : ResetCauses) : (s.setCauses causes).period = s.period := rfl
@[simp] theorem setCauses_monitor (causes : ResetCauses) : (s.setCauses causes).monitor = s.monitor := rfl
@[simp] theorem setCauses_config (causes : ResetCauses) : (s.setCauses causes).config = s.config := rfl
@[simp] theorem setCauses_line1 (causes : ResetCauses) : (s.setCauses causes).line1 = s.line1 := rfl
@[simp] theorem setCauses_line2 (causes : ResetCauses) : (s.setCauses causes).line2 = s.line2 := rfl
@[simp] theorem setCauses_earlierClosing (causes : ResetCauses) : (s.setCauses causes).earlierClosing = s.earlierClosing := rfl
@[simp] theorem setCauses_table (causes : ResetCauses) : (s.setCauses causes).table = s.table := rfl
@[simp] theorem setCauses_tableOp (causes : ResetCauses) : (s.setCauses causes).tableOp = s.tableOp := rfl
@[simp] theorem setCauses_sweepClaim (causes : ResetCauses) : (s.setCauses causes).sweepClaim = s.sweepClaim := rfl
@[simp] theorem setCauses_occupancy (causes : ResetCauses) : (s.setCauses causes).occupancy = s.occupancy := rfl
@[simp] theorem setCauses_queue (causes : ResetCauses) : (s.setCauses causes).queue = s.queue := rfl
@[simp] theorem setCauses_pass (causes : ResetCauses) : (s.setCauses causes).pass = s.pass := rfl
@[simp] theorem setCauses_passTimer (causes : ResetCauses) : (s.setCauses causes).passTimer = s.passTimer := rfl
@[simp] theorem setCauses_groups (causes : ResetCauses) : (s.setCauses causes).groups = s.groups := rfl
@[simp] theorem setCauses_protection (causes : ResetCauses) : (s.setCauses causes).protection = s.protection := rfl
@[simp] theorem setCauses_events (causes : ResetCauses) : (s.setCauses causes).events = s.events := rfl
@[simp] theorem setCauses_link (causes : ResetCauses) : (s.setCauses causes).link = { s.link with causes := causes } := rfl
@[simp] theorem setCauses_supply (causes : ResetCauses) : (s.setCauses causes).supply = s.supply := rfl
@[simp] theorem setCauses_resetPinLow (causes : ResetCauses) : (s.setCauses causes).resetPinLow = s.resetPinLow := rfl

/-! ### sampleStraps -/

@[simp] theorem sampleStraps_pending (straps : Straps) : (s.sampleStraps straps).pending = s.pending := rfl
@[simp] theorem sampleStraps_channels (straps : Straps) : (s.sampleStraps straps).channels = s.channels := rfl
@[simp] theorem sampleStraps_period (straps : Straps) : (s.sampleStraps straps).period = s.period := rfl
@[simp] theorem sampleStraps_monitor (straps : Straps) : (s.sampleStraps straps).monitor = s.monitor := rfl
@[simp] theorem sampleStraps_config (straps : Straps) : (s.sampleStraps straps).config = s.config := rfl
@[simp] theorem sampleStraps_line1 (straps : Straps) : (s.sampleStraps straps).line1 = s.line1 := rfl
@[simp] theorem sampleStraps_line2 (straps : Straps) : (s.sampleStraps straps).line2 = s.line2 := rfl
@[simp] theorem sampleStraps_earlierClosing (straps : Straps) : (s.sampleStraps straps).earlierClosing = s.earlierClosing := rfl
@[simp] theorem sampleStraps_table (straps : Straps) : (s.sampleStraps straps).table = s.table := rfl
@[simp] theorem sampleStraps_tableOp (straps : Straps) : (s.sampleStraps straps).tableOp = s.tableOp := rfl
@[simp] theorem sampleStraps_sweepClaim (straps : Straps) : (s.sampleStraps straps).sweepClaim = s.sweepClaim := rfl
@[simp] theorem sampleStraps_occupancy (straps : Straps) : (s.sampleStraps straps).occupancy = s.occupancy := rfl
@[simp] theorem sampleStraps_queue (straps : Straps) : (s.sampleStraps straps).queue = s.queue := rfl
@[simp] theorem sampleStraps_pass (straps : Straps) : (s.sampleStraps straps).pass = s.pass := rfl
@[simp] theorem sampleStraps_passTimer (straps : Straps) : (s.sampleStraps straps).passTimer = s.passTimer := rfl
@[simp] theorem sampleStraps_groups (straps : Straps) : (s.sampleStraps straps).groups = s.groups := rfl
@[simp] theorem sampleStraps_protection (straps : Straps) : (s.sampleStraps straps).protection = { s.protection with cal := straps.cal } := rfl
@[simp] theorem sampleStraps_events (straps : Straps) : (s.sampleStraps straps).events = s.events := rfl
@[simp] theorem sampleStraps_link (straps : Straps) : (s.sampleStraps straps).link = { s.link with strap := straps.address } := rfl
@[simp] theorem sampleStraps_supply (straps : Straps) : (s.sampleStraps straps).supply = s.supply := rfl
@[simp] theorem sampleStraps_resetPinLow (straps : Straps) : (s.sampleStraps straps).resetPinLow = s.resetPinLow := rfl

/-! ### stopExchange -/

@[simp] theorem stopExchange_pending : s.stopExchange.pending = s.pending := rfl
@[simp] theorem stopExchange_channels : s.stopExchange.channels = s.channels := rfl
@[simp] theorem stopExchange_period : s.stopExchange.period = s.period := rfl
@[simp] theorem stopExchange_monitor : s.stopExchange.monitor = s.monitor := rfl
@[simp] theorem stopExchange_config : s.stopExchange.config = s.config := rfl
@[simp] theorem stopExchange_line1 : s.stopExchange.line1 = s.line1 := rfl
@[simp] theorem stopExchange_line2 : s.stopExchange.line2 = s.line2 := rfl
@[simp] theorem stopExchange_earlierClosing : s.stopExchange.earlierClosing = s.earlierClosing := rfl
@[simp] theorem stopExchange_table : s.stopExchange.table = s.table := rfl
@[simp] theorem stopExchange_tableOp : s.stopExchange.tableOp = s.tableOp := rfl
@[simp] theorem stopExchange_sweepClaim : s.stopExchange.sweepClaim = s.sweepClaim := rfl
@[simp] theorem stopExchange_occupancy : s.stopExchange.occupancy = s.occupancy := rfl
@[simp] theorem stopExchange_queue : s.stopExchange.queue = s.queue := rfl
@[simp] theorem stopExchange_pass : s.stopExchange.pass = s.pass := rfl
@[simp] theorem stopExchange_passTimer : s.stopExchange.passTimer = s.passTimer := rfl
@[simp] theorem stopExchange_groups : s.stopExchange.groups = s.groups := rfl
@[simp] theorem stopExchange_protection : s.stopExchange.protection = s.protection := rfl
@[simp] theorem stopExchange_events : s.stopExchange.events = s.events.stopNotice := rfl
@[simp] theorem stopExchange_supply : s.stopExchange.supply = s.supply := rfl
@[simp] theorem stopExchange_resetPinLow : s.stopExchange.resetPinLow = s.resetPinLow := rfl

@[simp] theorem line_l1 : s.line .l1 = s.line1 := rfl
@[simp] theorem line_l2 : s.line .l2 = s.line2 := rfl

/-! ### setLine -/

@[simp] theorem setLine_pending (i : LineId) (l : LineInput) : (s.setLine i l).pending = s.pending := by cases i <;> rfl
@[simp] theorem setLine_channels (i : LineId) (l : LineInput) : (s.setLine i l).channels = s.channels := by cases i <;> rfl
@[simp] theorem setLine_period (i : LineId) (l : LineInput) : (s.setLine i l).period = s.period := by cases i <;> rfl
@[simp] theorem setLine_monitor (i : LineId) (l : LineInput) : (s.setLine i l).monitor = s.monitor := by cases i <;> rfl
@[simp] theorem setLine_config (i : LineId) (l : LineInput) : (s.setLine i l).config = s.config := by cases i <;> rfl
@[simp] theorem setLine_earlierClosing (i : LineId) (l : LineInput) : (s.setLine i l).earlierClosing = s.earlierClosing := by cases i <;> rfl
@[simp] theorem setLine_table (i : LineId) (l : LineInput) : (s.setLine i l).table = s.table := by cases i <;> rfl
@[simp] theorem setLine_tableOp (i : LineId) (l : LineInput) : (s.setLine i l).tableOp = s.tableOp := by cases i <;> rfl
@[simp] theorem setLine_sweepClaim (i : LineId) (l : LineInput) : (s.setLine i l).sweepClaim = s.sweepClaim := by cases i <;> rfl
@[simp] theorem setLine_occupancy (i : LineId) (l : LineInput) : (s.setLine i l).occupancy = s.occupancy := by cases i <;> rfl
@[simp] theorem setLine_queue (i : LineId) (l : LineInput) : (s.setLine i l).queue = s.queue := by cases i <;> rfl
@[simp] theorem setLine_pass (i : LineId) (l : LineInput) : (s.setLine i l).pass = s.pass := by cases i <;> rfl
@[simp] theorem setLine_passTimer (i : LineId) (l : LineInput) : (s.setLine i l).passTimer = s.passTimer := by cases i <;> rfl
@[simp] theorem setLine_groups (i : LineId) (l : LineInput) : (s.setLine i l).groups = s.groups := by cases i <;> rfl
@[simp] theorem setLine_protection (i : LineId) (l : LineInput) : (s.setLine i l).protection = s.protection := by cases i <;> rfl
@[simp] theorem setLine_events (i : LineId) (l : LineInput) : (s.setLine i l).events = s.events := by cases i <;> rfl
@[simp] theorem setLine_link (i : LineId) (l : LineInput) : (s.setLine i l).link = s.link := by cases i <;> rfl
@[simp] theorem setLine_supply (i : LineId) (l : LineInput) : (s.setLine i l).supply = s.supply := by cases i <;> rfl
@[simp] theorem setLine_resetPinLow (i : LineId) (l : LineInput) : (s.setLine i l).resetPinLow = s.resetPinLow := by cases i <;> rfl
@[simp] theorem line_setLine (i : LineId) (l : LineInput) : (s.setLine i l).line i = l := by cases i <;> rfl
@[simp] theorem line_setLine_other (i : LineId) (l : LineInput) :
    (s.setLine i l).line (otherLine i) = s.line (otherLine i) := by cases i <;> rfl

end Sys2Proof.Machine.State
end

