-- ==== Sys2Proof/Laws/Ops.lean ====
section
/-! SUPPORT. What each shared operation that branches can do, said once: the gates a command passes, the arbiter, the end of a
pass, the queue, and handing over a response. -/

namespace Sys2Proof.Machine.State

variable (s : State)

/-! ### Gates -/

theorem operating_iff : s.operating = true ↔ s.supply = .on ∧ s.resetPinLow = false := by
  simp [State.operating]

theorem whileOperating_of_operating (f : State → State) (h : s.operating = true) : s.whileOperating f = f s := by
  simp [State.whileOperating, h]

theorem whileOperating_held (f : State → State) (h : s.operating = false) : s.whileOperating f = s := by
  simp [State.whileOperating, h]

/-- A request that is received with the right length is executed by its owner in TAKEN. -/
theorem request_accepted (len : Nat) (params : List Byte) (owner : State → State) (ho : s.operating = true)
    (hx : s.link.exchange ≠ .poisoned) (hl : params.length = len) :
    s.request len params owner = owner (s.addressedForWrite .taken) := by
  simp [State.request, ho, hx, hl]

theorem request_wrong_length (len : Nat) (params : List Byte) (owner : State → State) (ho : s.operating = true)
    (hx : s.link.exchange ≠ .poisoned) (hl : params.length ≠ len) :
    s.request len params owner = (s.addressedForWrite .taken).reject .length := by
  simp [State.request, ho, hx, hl]

theorem request_not_received (len : Nat) (params : List Byte) (owner : State → State)
    (h : s.operating = false ∨ s.link.exchange = .poisoned) : s.request len params owner = s := by
  rcases h with h | h <;> simp [State.request, h]

/-- The three things a request can come to. -/
theorem request_cases (len : Nat) (params : List Byte) (owner : State → State) :
    s.request len params owner = s
      ∨ s.request len params owner = (s.addressedForWrite .taken).reject .length
      ∨ s.request len params owner = owner (s.addressedForWrite .taken) := by
  unfold State.request
  split
  · exact .inl rfl
  · simp only
    split
    · exact .inr (.inl rfl)
    · exact .inr (.inr rfl)

/-! ### The reference period -/

theorem periodReaching_under_way {p : ReferencePeriod} {k : ChannelIx} (h : s.period = some p) (hk : p.reached[k] = false) :
    s.periodReaching k = { p with reached := p.reached.set k true } := by
  have hf : (!p.reached[k]) = true := by simp [hk]
  simp only [State.periodReaching, h, Option.filter_some, hf, if_true]

theorem periodReaching_new {k : ChannelIx} (h : ∀ p, s.period = some p → p.reached[k] = true) :
    s.periodReaching k = ⟨s.channels, (Vector.replicate 6 false).set k true⟩ := by
  cases hp : s.period with
  | none => simp only [State.periodReaching, hp, Option.filter_none]
  | some p =>
    have hk : p.reached[k.val] = true := h p hp
    simp [State.periodReaching, hp, Option.filter_some, hk]

theorem awaits_iff (p : ReferencePeriod) (k : ChannelIx) :
    s.awaits p k = true ↔ (s.channel k).state ≠ .off ∧ p.reached[k] = false := by
  simp [State.awaits]

/-- Everything a sample event can do to the period: it goes on where an enabled channel is still awaited, and else is over. -/
theorem enterPeriod_period (k : ChannelIx) :
    (s.enterPeriod k).period =
      if ∃ j : ChannelIx, s.awaits (s.periodReaching k) j = true then some (s.periodReaching k) else none := by
  have he : (s.enterPeriod k).period
      = (some (s.periodReaching k)).filter fun p => (List.finRange 6).any (s.awaits p) := rfl
  rw [he, Option.filter_some]
  congr 1
  simp

/-! ### The arbiter -/

theorem arbitrate_busy {op : TableOp} (h : s.tableOp = some op) : s.arbitrate = s := by
  simp [State.arbitrate, h]

theorem arbitrate_abort (h : s.tableOp = none) (hc : s.sweepClaim = some .abort) :
    s.arbitrate = { s with tableOp := some .abortSweep, sweepClaim := none } := by
  simp [State.arbitrate, h, hc]

theorem arbitrate_sighting {x : Sighting} {rest : List Sighting} (h : s.tableOp = none)
    (hc : s.sweepClaim ≠ some .abort) (hq : s.queue = x :: rest) :
    s.arbitrate = { s with tableOp := some (.sightingMatch { sighting := x }), queue := rest } := by
  rcases hs : s.sweepClaim with _ | (_ | _)
  · simp [State.arbitrate, h, hs, hq]
  · simp [State.arbitrate, h, hs, hq]
  · exact absurd hs hc

theorem arbitrate_close (h : s.tableOp = none) (hc : s.sweepClaim = some .close) (hq : s.queue = []) :
    s.arbitrate = { s with tableOp := some .closeSweep, sweepClaim := none } := by
  simp [State.arbitrate, h, hc, hq]

theorem arbitrate_none (h : s.tableOp = none) (hc : s.sweepClaim = none) (hq : s.queue = []) : s.arbitrate = s := by
  simp [State.arbitrate, h, hc, hq]

/-- Everything the arbiter can do. -/
theorem arbitrate_cases :
    s.arbitrate = s
      ∨ (s.tableOp = none ∧ s.sweepClaim = some .abort
          ∧ s.arbitrate = { s with tableOp := some .abortSweep, sweepClaim := none })
      ∨ (s.tableOp = none ∧ s.sweepClaim ≠ some .abort ∧ ∃ x rest, s.queue = x :: rest
          ∧ s.arbitrate = { s with tableOp := some (.sightingMatch { sighting := x }), queue := rest })
      ∨ (s.tableOp = none ∧ s.sweepClaim = some .close ∧ s.queue = []
          ∧ s.arbitrate = { s with tableOp := some .closeSweep, sweepClaim := none }) := by
  obtain h | ⟨op, h⟩ : s.tableOp = none ∨ ∃ op, s.tableOp = some op := by cases s.tableOp <;> simp
  · obtain hq | ⟨x, rest, hq⟩ : s.queue = [] ∨ ∃ x rest, s.queue = x :: rest := by cases s.queue <;> simp
    all_goals
      obtain hc | hc | hc : s.sweepClaim = none ∨ s.sweepClaim = some .close ∨ s.sweepClaim = some .abort := by
        rcases s.sweepClaim with _ | (_ | _) <;> simp
    · exact .inl (s.arbitrate_none h hc hq)
    · exact .inr (.inr (.inr ⟨h, hc, hq, s.arbitrate_close h hc hq⟩))
    · exact .inr (.inl ⟨h, hc, s.arbitrate_abort h hc⟩)
    · exact .inr (.inr (.inl ⟨h, by simp [hc], x, rest, hq, s.arbitrate_sighting h (by simp [hc]) hq⟩))
    · exact .inr (.inr (.inl ⟨h, by simp [hc], x, rest, hq, s.arbitrate_sighting h (by simp [hc]) hq⟩))
    · exact .inr (.inl ⟨h, hc, s.arbitrate_abort h hc⟩)
  · exact .inl (s.arbitrate_busy h)

/-! ### The end of a pass -/

theorem abortLivePass_live (cause : AbortCause) (h : s.pass.state.live = true) :
    s.abortLivePass cause =
      { s.emptyQueue (decide (cause ≠ .reset)) with
        pass := { s.pass with state := .aborting, outcome := some (.aborted cause) }
        passTimer := false
        sweepClaim := some .abort } := by
  simp [State.abortLivePass, h]

theorem abortLivePass_not_live (cause : AbortCause) (h : s.pass.state.live = false) : s.abortLivePass cause = s := by
  simp [State.abortLivePass, h]

theorem closeLivePass_live (h : s.pass.state.live = true) :
    s.closeLivePass =
      { s with
        pass := { s.pass with state := .closing, outcome := some .done }
        passTimer := false
        sweepClaim := if s.pass.state = .running then some .close else s.sweepClaim } := by
  simp [State.closeLivePass, h]

theorem closeLivePass_not_live (h : s.pass.state.live = false) : s.closeLivePass = s := by
  simp [State.closeLivePass, h]

/-! ### The queue and the response -/

theorem enqueue_room (x : Sighting) (h : s.queue.length < 6) : s.enqueue x = { s with queue := s.queue ++ [x] } := by
  simp [State.enqueue, Config.queueDepth, h]

theorem enqueue_full (x : Sighting) (h : 6 ≤ s.queue.length) :
    s.enqueue x = (s.count .overrun 1).raise .queueOverrun := by
  simp [State.enqueue, Config.queueDepth, Nat.not_lt.mpr h]

theorem handOver_awaited (status : Status) (bytes : List Byte) (h : s.link.response = .pending) :
    s.handOver status bytes = s.answer status bytes := by
  simp [State.handOver, h]

theorem handOver_discarded (status : Status) (bytes : List Byte) (h : s.link.response ≠ .pending) :
    s.handOver status bytes = s := by
  simp [State.handOver, h]

end Sys2Proof.Machine.State
end

