-- ==== Sys2Proof/Laws/Frames.lean ====
section
/-! SUPPORT. Frames: which fields of State the operations that branch leave alone. -/

namespace Sys2Proof.Machine.State

variable (s : State)

/-! ### enqueue -/

@[simp] theorem enqueue_pending (x : Sighting) : (s.enqueue x).pending = s.pending := by
  unfold State.enqueue; split <;> rfl
@[simp] theorem enqueue_channels (x : Sighting) : (s.enqueue x).channels = s.channels := by
  unfold State.enqueue; split <;> rfl
@[simp] theorem enqueue_period (x : Sighting) : (s.enqueue x).period = s.period := by
  unfold State.enqueue; split <;> rfl
@[simp] theorem enqueue_monitor (x : Sighting) : (s.enqueue x).monitor = s.monitor := by
  unfold State.enqueue; split <;> rfl
@[simp] theorem enqueue_config (x : Sighting) : (s.enqueue x).config = s.config := by
  unfold State.enqueue; split <;> rfl
@[simp] theorem enqueue_line1 (x : Sighting) : (s.enqueue x).line1 = s.line1 := by
  unfold State.enqueue; split <;> rfl
@[simp] theorem enqueue_line2 (x : Sighting) : (s.enqueue x).line2 = s.line2 := by
  unfold State.enqueue; split <;> rfl
@[simp] theorem enqueue_earlierClosing (x : Sighting) : (s.enqueue x).earlierClosing = s.earlierClosing := by
  unfold State.enqueue; split <;> rfl
@[simp] theorem enqueue_table (x : Sighting) : (s.enqueue x).table = s.table := by
  unfold State.enqueue; split <;> rfl
@[simp] theorem enqueue_tableOp (x : Sighting) : (s.enqueue x).tableOp = s.tableOp := by
  unfold State.enqueue; split <;> rfl
@[simp] theorem enqueue_sweepClaim (x : Sighting) : (s.enqueue x).sweepClaim = s.sweepClaim := by
  unfold State.enqueue; split <;> rfl
@[simp] theorem enqueue_occupancy (x : Sighting) : (s.enqueue x).occupancy = s.occupancy := by
  unfold State.enqueue; split <;> rfl
@[simp] theorem enqueue_pass (x : Sighting) : (s.enqueue x).pass = s.pass := by
  unfold State.enqueue; split <;> rfl
@[simp] theorem enqueue_passTimer (x : Sighting) : (s.enqueue x).passTimer = s.passTimer := by
  unfold State.enqueue; split <;> rfl
@[simp] theorem enqueue_groups (x : Sighting) : (s.enqueue x).groups = s.groups := by
  unfold State.enqueue; split <;> rfl
@[simp] theorem enqueue_protection (x : Sighting) : (s.enqueue x).protection = s.protection := by
  unfold State.enqueue; split <;> rfl
@[simp] theorem enqueue_link (x : Sighting) : (s.enqueue x).link = s.link := by
  unfold State.enqueue; split <;> rfl
@[simp] theorem enqueue_supply (x : Sighting) : (s.enqueue x).supply = s.supply := by
  unfold State.enqueue; split <;> rfl
@[simp] theorem enqueue_resetPinLow (x : Sighting) : (s.enqueue x).resetPinLow = s.resetPinLow := by
  unfold State.enqueue; split <;> rfl

/-! ### abortLivePass -/

@[simp] theorem abortLivePass_pending (cause : AbortCause) : (s.abortLivePass cause).pending = s.pending := by
  unfold State.abortLivePass; split <;> rfl
@[simp] theorem abortLivePass_channels (cause : AbortCause) : (s.abortLivePass cause).channels = s.channels := by
  unfold State.abortLivePass; split <;> rfl
@[simp] theorem abortLivePass_period (cause : AbortCause) : (s.abortLivePass cause).period = s.period := by
  unfold State.abortLivePass; split <;> rfl
@[simp] theorem abortLivePass_monitor (cause : AbortCause) : (s.abortLivePass cause).monitor = s.monitor := by
  unfold State.abortLivePass; split <;> rfl
@[simp] theorem abortLivePass_config (cause : AbortCause) : (s.abortLivePass cause).config = s.config := by
  unfold State.abortLivePass; split <;> rfl
@[simp] theorem abortLivePass_line1 (cause : AbortCause) : (s.abortLivePass cause).line1 = s.line1 := by
  unfold State.abortLivePass; split <;> rfl
@[simp] theorem abortLivePass_line2 (cause : AbortCause) : (s.abortLivePass cause).line2 = s.line2 := by
  unfold State.abortLivePass; split <;> rfl
@[simp] theorem abortLivePass_earlierClosing (cause : AbortCause) : (s.abortLivePass cause).earlierClosing = s.earlierClosing := by
  unfold State.abortLivePass; split <;> rfl
@[simp] theorem abortLivePass_table (cause : AbortCause) : (s.abortLivePass cause).table = s.table := by
  unfold State.abortLivePass; split <;> rfl
@[simp] theorem abortLivePass_tableOp (cause : AbortCause) : (s.abortLivePass cause).tableOp = s.tableOp := by
  unfold State.abortLivePass; split <;> rfl
@[simp] theorem abortLivePass_occupancy (cause : AbortCause) : (s.abortLivePass cause).occupancy = s.occupancy := by
  unfold State.abortLivePass; split <;> rfl
@[simp] theorem abortLivePass_groups (cause : AbortCause) : (s.abortLivePass cause).groups = s.groups := by
  unfold State.abortLivePass; split <;> rfl
@[simp] theorem abortLivePass_protection (cause : AbortCause) : (s.abortLivePass cause).protection = s.protection := by
  unfold State.abortLivePass; split <;> rfl
@[simp] theorem abortLivePass_link (cause : AbortCause) : (s.abortLivePass cause).link = s.link := by
  unfold State.abortLivePass; split <;> rfl
@[simp] theorem abortLivePass_supply (cause : AbortCause) : (s.abortLivePass cause).supply = s.supply := by
  unfold State.abortLivePass; split <;> rfl
@[simp] theorem abortLivePass_resetPinLow (cause : AbortCause) : (s.abortLivePass cause).resetPinLow = s.resetPinLow := by
  unfold State.abortLivePass; split <;> rfl

/-! ### closeLivePass -/

@[simp] theorem closeLivePass_pending : s.closeLivePass.pending = s.pending := by
  unfold State.closeLivePass; split <;> rfl
@[simp] theorem closeLivePass_channels : s.closeLivePass.channels = s.channels := by
  unfold State.closeLivePass; split <;> rfl
@[simp] theorem closeLivePass_period : s.closeLivePass.period = s.period := by
  unfold State.closeLivePass; split <;> rfl
@[simp] theorem closeLivePass_monitor : s.closeLivePass.monitor = s.monitor := by
  unfold State.closeLivePass; split <;> rfl
@[simp] theorem closeLivePass_config : s.closeLivePass.config = s.config := by
  unfold State.closeLivePass; split <;> rfl
@[simp] theorem closeLivePass_line1 : s.closeLivePass.line1 = s.line1 := by
  unfold State.closeLivePass; split <;> rfl
@[simp] theorem closeLivePass_line2 : s.closeLivePass.line2 = s.line2 := by
  unfold State.closeLivePass; split <;> rfl
@[simp] theorem closeLivePass_earlierClosing : s.closeLivePass.earlierClosing = s.earlierClosing := by
  unfold State.closeLivePass; split <;> rfl
@[simp] theorem closeLivePass_table : s.closeLivePass.table = s.table := by
  unfold State.closeLivePass; split <;> rfl
@[simp] theorem closeLivePass_tableOp : s.closeLivePass.tableOp = s.tableOp := by
  unfold State.closeLivePass; split <;> rfl
@[simp] theorem closeLivePass_occupancy : s.closeLivePass.occupancy = s.occupancy := by
  unfold State.closeLivePass; split <;> rfl
@[simp] theorem closeLivePass_queue : s.closeLivePass.queue = s.queue := by
  unfold State.closeLivePass; split <;> rfl
@[simp] theorem closeLivePass_groups : s.closeLivePass.groups = s.groups := by
  unfold State.closeLivePass; split <;> rfl
@[simp] theorem closeLivePass_protection : s.closeLivePass.protection = s.protection := by
  unfold State.closeLivePass; split <;> rfl
@[simp] theorem closeLivePass_events : s.closeLivePass.events = s.events := by
  unfold State.closeLivePass; split <;> rfl
@[simp] theorem closeLivePass_link : s.closeLivePass.link = s.link := by
  unfold State.closeLivePass; split <;> rfl
@[simp] theorem closeLivePass_supply : s.closeLivePass.supply = s.supply := by
  unfold State.closeLivePass; split <;> rfl
@[simp] theorem closeLivePass_resetPinLow : s.closeLivePass.resetPinLow = s.resetPinLow := by
  unfold State.closeLivePass; split <;> rfl

/-! ### arbitrate -/

@[simp] theorem arbitrate_pending : s.arbitrate.pending = s.pending := by
  unfold State.arbitrate; repeat' split
  all_goals rfl
@[simp] theorem arbitrate_channels : s.arbitrate.channels = s.channels := by
  unfold State.arbitrate; repeat' split
  all_goals rfl
@[simp] theorem arbitrate_period : s.arbitrate.period = s.period := by
  unfold State.arbitrate; repeat' split
  all_goals rfl
@[simp] theorem arbitrate_monitor : s.arbitrate.monitor = s.monitor := by
  unfold State.arbitrate; repeat' split
  all_goals rfl
@[simp] theorem arbitrate_config : s.arbitrate.config = s.config := by
  unfold State.arbitrate; repeat' split
  all_goals rfl
@[simp] theorem arbitrate_line1 : s.arbitrate.line1 = s.line1 := by
  unfold State.arbitrate; repeat' split
  all_goals rfl
@[simp] theorem arbitrate_line2 : s.arbitrate.line2 = s.line2 := by
  unfold State.arbitrate; repeat' split
  all_goals rfl
@[simp] theorem arbitrate_earlierClosing : s.arbitrate.earlierClosing = s.earlierClosing := by
  unfold State.arbitrate; repeat' split
  all_goals rfl
@[simp] theorem arbitrate_table : s.arbitrate.table = s.table := by
  unfold State.arbitrate; repeat' split
  all_goals rfl
@[simp] theorem arbitrate_occupancy : s.arbitrate.occupancy = s.occupancy := by
  unfold State.arbitrate; repeat' split
  all_goals rfl
@[simp] theorem arbitrate_pass : s.arbitrate.pass = s.pass := by
  unfold State.arbitrate; repeat' split
  all_goals rfl
@[simp] theorem arbitrate_passTimer : s.arbitrate.passTimer = s.passTimer := by
  unfold State.arbitrate; repeat' split
  all_goals rfl
@[simp] theorem arbitrate_groups : s.arbitrate.groups = s.groups := by
  unfold State.arbitrate; repeat' split
  all_goals rfl
@[simp] theorem arbitrate_protection : s.arbitrate.protection = s.protection := by
  unfold State.arbitrate; repeat' split
  all_goals rfl
@[simp] theorem arbitrate_events : s.arbitrate.events = s.events := by
  unfold State.arbitrate; repeat' split
  all_goals rfl
@[simp] theorem arbitrate_link : s.arbitrate.link = s.link := by
  unfold State.arbitrate; repeat' split
  all_goals rfl
@[simp] theorem arbitrate_supply : s.arbitrate.supply = s.supply := by
  unfold State.arbitrate; repeat' split
  all_goals rfl
@[simp] theorem arbitrate_resetPinLow : s.arbitrate.resetPinLow = s.resetPinLow := by
  unfold State.arbitrate; repeat' split
  all_goals rfl

/-! ### handOver -/

@[simp] theorem handOver_pending (status : Status) (bytes : List Byte) : (s.handOver status bytes).pending = s.pending := by
  unfold State.handOver; split <;> rfl
@[simp] theorem handOver_channels (status : Status) (bytes : List Byte) : (s.handOver status bytes).channels = s.channels := by
  unfold State.handOver; split <;> rfl
@[simp] theorem handOver_period (status : Status) (bytes : List Byte) : (s.handOver status bytes).period = s.period := by
  unfold State.handOver; split <;> rfl
@[simp] theorem handOver_monitor (status : Status) (bytes : List Byte) : (s.handOver status bytes).monitor = s.monitor := by
  unfold State.handOver; split <;> rfl
@[simp] theorem handOver_config (status : Status) (bytes : List Byte) : (s.handOver status bytes).config = s.config := by
  unfold State.handOver; split <;> rfl
@[simp] theorem handOver_line1 (status : Status) (bytes : List Byte) : (s.handOver status bytes).line1 = s.line1 := by
  unfold State.handOver; split <;> rfl
@[simp] theorem handOver_line2 (status : Status) (bytes : List Byte) : (s.handOver status bytes).line2 = s.line2 := by
  unfold State.handOver; split <;> rfl
@[simp] theorem handOver_earlierClosing (status : Status) (bytes : List Byte) : (s.handOver status bytes).earlierClosing = s.earlierClosing := by
  unfold State.handOver; split <;> rfl
@[simp] theorem handOver_table (status : Status) (bytes : List Byte) : (s.handOver status bytes).table = s.table := by
  unfold State.handOver; split <;> rfl
@[simp] theorem handOver_tableOp (status : Status) (bytes : List Byte) : (s.handOver status bytes).tableOp = s.tableOp := by
  unfold State.handOver; split <;> rfl
@[simp] theorem handOver_sweepClaim (status : Status) (bytes : List Byte) : (s.handOver status bytes).sweepClaim = s.sweepClaim := by
  unfold State.handOver; split <;> rfl
@[simp] theorem handOver_occupancy (status : Status) (bytes : List Byte) : (s.handOver status bytes).occupancy = s.occupancy := by
  unfold State.handOver; split <;> rfl
@[simp] theorem handOver_queue (status : Status) (bytes : List Byte) : (s.handOver status bytes).queue = s.queue := by
  unfold State.handOver; split <;> rfl
@[simp] theorem handOver_pass (status : Status) (bytes : List Byte) : (s.handOver status bytes).pass = s.pass := by
  unfold State.handOver; split <;> rfl
@[simp] theorem handOver_passTimer (status : Status) (bytes : List Byte) : (s.handOver status bytes).passTimer = s.passTimer := by
  unfold State.handOver; split <;> rfl
@[simp] theorem handOver_groups (status : Status) (bytes : List Byte) : (s.handOver status bytes).groups = s.groups := by
  unfold State.handOver; split <;> rfl
@[simp] theorem handOver_protection (status : Status) (bytes : List Byte) : (s.handOver status bytes).protection = s.protection := by
  unfold State.handOver; split <;> rfl
@[simp] theorem handOver_events (status : Status) (bytes : List Byte) : (s.handOver status bytes).events = s.events := by
  unfold State.handOver; split <;> rfl
@[simp] theorem handOver_supply (status : Status) (bytes : List Byte) : (s.handOver status bytes).supply = s.supply := by
  unfold State.handOver; split <;> rfl
@[simp] theorem handOver_resetPinLow (status : Status) (bytes : List Byte) : (s.handOver status bytes).resetPinLow = s.resetPinLow := by
  unfold State.handOver; split <;> rfl

/-! ### putGuarded -/

@[simp] theorem putGuarded_pending (i : LineId) (g : LineInput × Bool) : (s.putGuarded i g).pending = s.pending := by
  unfold State.putGuarded; simp only; split <;> simp
@[simp] theorem putGuarded_channels (i : LineId) (g : LineInput × Bool) : (s.putGuarded i g).channels = s.channels := by
  unfold State.putGuarded; simp only; split <;> simp
@[simp] theorem putGuarded_period (i : LineId) (g : LineInput × Bool) : (s.putGuarded i g).period = s.period := by
  unfold State.putGuarded; simp only; split <;> simp
@[simp] theorem putGuarded_monitor (i : LineId) (g : LineInput × Bool) : (s.putGuarded i g).monitor = s.monitor := by
  unfold State.putGuarded; simp only; split <;> simp
@[simp] theorem putGuarded_config (i : LineId) (g : LineInput × Bool) : (s.putGuarded i g).config = s.config := by
  unfold State.putGuarded; simp only; split <;> simp
@[simp] theorem putGuarded_earlierClosing (i : LineId) (g : LineInput × Bool) : (s.putGuarded i g).earlierClosing = s.earlierClosing := by
  unfold State.putGuarded; simp only; split <;> simp
@[simp] theorem putGuarded_table (i : LineId) (g : LineInput × Bool) : (s.putGuarded i g).table = s.table := by
  unfold State.putGuarded; simp only; split <;> simp
@[simp] theorem putGuarded_tableOp (i : LineId) (g : LineInput × Bool) : (s.putGuarded i g).tableOp = s.tableOp := by
  unfold State.putGuarded; simp only; split <;> simp
@[simp] theorem putGuarded_sweepClaim (i : LineId) (g : LineInput × Bool) : (s.putGuarded i g).sweepClaim = s.sweepClaim := by
  unfold State.putGuarded; simp only; split <;> simp
@[simp] theorem putGuarded_occupancy (i : LineId) (g : LineInput × Bool) : (s.putGuarded i g).occupancy = s.occupancy := by
  unfold State.putGuarded; simp only; split <;> simp
@[simp] theorem putGuarded_queue (i : LineId) (g : LineInput × Bool) : (s.putGuarded i g).queue = s.queue := by
  unfold State.putGuarded; simp only; split <;> simp
@[simp] theorem putGuarded_pass (i : LineId) (g : LineInput × Bool) : (s.putGuarded i g).pass = s.pass := by
  unfold State.putGuarded; simp only; split <;> simp
@[simp] theorem putGuarded_passTimer (i : LineId) (g : LineInput × Bool) : (s.putGuarded i g).passTimer = s.passTimer := by
  unfold State.putGuarded; simp only; split <;> simp
@[simp] theorem putGuarded_groups (i : LineId) (g : LineInput × Bool) : (s.putGuarded i g).groups = s.groups := by
  unfold State.putGuarded; simp only; split <;> simp
@[simp] theorem putGuarded_protection (i : LineId) (g : LineInput × Bool) : (s.putGuarded i g).protection = s.protection := by
  unfold State.putGuarded; simp only; split <;> simp
@[simp] theorem putGuarded_link (i : LineId) (g : LineInput × Bool) : (s.putGuarded i g).link = s.link := by
  unfold State.putGuarded; simp only; split <;> simp
@[simp] theorem putGuarded_supply (i : LineId) (g : LineInput × Bool) : (s.putGuarded i g).supply = s.supply := by
  unfold State.putGuarded; simp only; split <;> simp
@[simp] theorem putGuarded_resetPinLow (i : LineId) (g : LineInput × Bool) : (s.putGuarded i g).resetPinLow = s.resetPinLow := by
  unfold State.putGuarded; simp only; split <;> simp

/-! ### lineSees -/

@[simp] theorem lineSees_pending (i : LineId) (k : ChannelIx) (p : Nat → Position) (st : ChannelState) (left : Bool) (q : Option Position) : (s.lineSees i k p st left q).pending = s.pending := by
  simp [State.lineSees]
@[simp] theorem lineSees_channels (i : LineId) (k : ChannelIx) (p : Nat → Position) (st : ChannelState) (left : Bool) (q : Option Position) : (s.lineSees i k p st left q).channels = s.channels := by
  simp [State.lineSees]
@[simp] theorem lineSees_period (i : LineId) (k : ChannelIx) (p : Nat → Position) (st : ChannelState) (left : Bool) (q : Option Position) : (s.lineSees i k p st left q).period = s.period := by
  simp [State.lineSees]
@[simp] theorem lineSees_monitor (i : LineId) (k : ChannelIx) (p : Nat → Position) (st : ChannelState) (left : Bool) (q : Option Position) : (s.lineSees i k p st left q).monitor = s.monitor := by
  simp [State.lineSees]
@[simp] theorem lineSees_config (i : LineId) (k : ChannelIx) (p : Nat → Position) (st : ChannelState) (left : Bool) (q : Option Position) : (s.lineSees i k p st left q).config = s.config := by
  simp [State.lineSees]
@[simp] theorem lineSees_earlierClosing (i : LineId) (k : ChannelIx) (p : Nat → Position) (st : ChannelState) (left : Bool) (q : Option Position) : (s.lineSees i k p st left q).earlierClosing = s.earlierClosing := by
  simp [State.lineSees]
@[simp] theorem lineSees_table (i : LineId) (k : ChannelIx) (p : Nat → Position) (st : ChannelState) (left : Bool) (q : Option Position) : (s.lineSees i k p st left q).table = s.table := by
  simp [State.lineSees]
@[simp] theorem lineSees_tableOp (i : LineId) (k : ChannelIx) (p : Nat → Position) (st : ChannelState) (left : Bool) (q : Option Position) : (s.lineSees i k p st left q).tableOp = s.tableOp := by
  simp [State.lineSees]
@[simp] theorem lineSees_sweepClaim (i : LineId) (k : ChannelIx) (p : Nat → Position) (st : ChannelState) (left : Bool) (q : Option Position) : (s.lineSees i k p st left q).sweepClaim = s.sweepClaim := by
  simp [State.lineSees]
@[simp] theorem lineSees_occupancy (i : LineId) (k : ChannelIx) (p : Nat → Position) (st : ChannelState) (left : Bool) (q : Option Position) : (s.lineSees i k p st left q).occupancy = s.occupancy := by
  simp [State.lineSees]
@[simp] theorem lineSees_queue (i : LineId) (k : ChannelIx) (p : Nat → Position) (st : ChannelState) (left : Bool) (q : Option Position) : (s.lineSees i k p st left q).queue = s.queue := by
  simp [State.lineSees]
@[simp] theorem lineSees_pass (i : LineId) (k : ChannelIx) (p : Nat → Position) (st : ChannelState) (left : Bool) (q : Option Position) : (s.lineSees i k p st left q).pass = s.pass := by
  simp [State.lineSees]
@[simp] theorem lineSees_passTimer (i : LineId) (k : ChannelIx) (p : Nat → Position) (st : ChannelState) (left : Bool) (q : Option Position) : (s.lineSees i k p st left q).passTimer = s.passTimer := by
  simp [State.lineSees]
@[simp] theorem lineSees_groups (i : LineId) (k : ChannelIx) (p : Nat → Position) (st : ChannelState) (left : Bool) (q : Option Position) : (s.lineSees i k p st left q).groups = s.groups := by
  simp [State.lineSees]
@[simp] theorem lineSees_protection (i : LineId) (k : ChannelIx) (p : Nat → Position) (st : ChannelState) (left : Bool) (q : Option Position) : (s.lineSees i k p st left q).protection = s.protection := by
  simp [State.lineSees]
@[simp] theorem lineSees_link (i : LineId) (k : ChannelIx) (p : Nat → Position) (st : ChannelState) (left : Bool) (q : Option Position) : (s.lineSees i k p st left q).link = s.link := by
  simp [State.lineSees]
@[simp] theorem lineSees_supply (i : LineId) (k : ChannelIx) (p : Nat → Position) (st : ChannelState) (left : Bool) (q : Option Position) : (s.lineSees i k p st left q).supply = s.supply := by
  simp [State.lineSees]
@[simp] theorem lineSees_resetPinLow (i : LineId) (k : ChannelIx) (p : Nat → Position) (st : ChannelState) (left : Bool) (q : Option Position) : (s.lineSees i k p st left q).resetPinLow = s.resetPinLow := by
  simp [State.lineSees]

/-! ### linesSee -/

@[simp] theorem linesSee_pending (k : ChannelIx) (p : Nat → Position) (st : ChannelState) (left : Bool) (q : Option Position) : (s.linesSee k p st left q).pending = s.pending := by
  simp [State.linesSee]
@[simp] theorem linesSee_channels (k : ChannelIx) (p : Nat → Position) (st : ChannelState) (left : Bool) (q : Option Position) : (s.linesSee k p st left q).channels = s.channels := by
  simp [State.linesSee]
@[simp] theorem linesSee_period (k : ChannelIx) (p : Nat → Position) (st : ChannelState) (left : Bool) (q : Option Position) : (s.linesSee k p st left q).period = s.period := by
  simp [State.linesSee]
@[simp] theorem linesSee_monitor (k : ChannelIx) (p : Nat → Position) (st : ChannelState) (left : Bool) (q : Option Position) : (s.linesSee k p st left q).monitor = s.monitor := by
  simp [State.linesSee]
@[simp] theorem linesSee_config (k : ChannelIx) (p : Nat → Position) (st : ChannelState) (left : Bool) (q : Option Position) : (s.linesSee k p st left q).config = s.config := by
  simp [State.linesSee]
@[simp] theorem linesSee_earlierClosing (k : ChannelIx) (p : Nat → Position) (st : ChannelState) (left : Bool) (q : Option Position) : (s.linesSee k p st left q).earlierClosing = s.earlierClosing := by
  simp [State.linesSee]
@[simp] theorem linesSee_table (k : ChannelIx) (p : Nat → Position) (st : ChannelState) (left : Bool) (q : Option Position) : (s.linesSee k p st left q).table = s.table := by
  simp [State.linesSee]
@[simp] theorem linesSee_tableOp (k : ChannelIx) (p : Nat → Position) (st : ChannelState) (left : Bool) (q : Option Position) : (s.linesSee k p st left q).tableOp = s.tableOp := by
  simp [State.linesSee]
@[simp] theorem linesSee_sweepClaim (k : ChannelIx) (p : Nat → Position) (st : ChannelState) (left : Bool) (q : Option Position) : (s.linesSee k p st left q).sweepClaim = s.sweepClaim := by
  simp [State.linesSee]
@[simp] theorem linesSee_occupancy (k : ChannelIx) (p : Nat → Position) (st : ChannelState) (left : Bool) (q : Option Position) : (s.linesSee k p st left q).occupancy = s.occupancy := by
  simp [State.linesSee]
@[simp] theorem linesSee_queue (k : ChannelIx) (p : Nat → Position) (st : ChannelState) (left : Bool) (q : Option Position) : (s.linesSee k p st left q).queue = s.queue := by
  simp [State.linesSee]
@[simp] theorem linesSee_pass (k : ChannelIx) (p : Nat → Position) (st : ChannelState) (left : Bool) (q : Option Position) : (s.linesSee k p st left q).pass = s.pass := by
  simp [State.linesSee]
@[simp] theorem linesSee_passTimer (k : ChannelIx) (p : Nat → Position) (st : ChannelState) (left : Bool) (q : Option Position) : (s.linesSee k p st left q).passTimer = s.passTimer := by
  simp [State.linesSee]
@[simp] theorem linesSee_groups (k : ChannelIx) (p : Nat → Position) (st : ChannelState) (left : Bool) (q : Option Position) : (s.linesSee k p st left q).groups = s.groups := by
  simp [State.linesSee]
@[simp] theorem linesSee_protection (k : ChannelIx) (p : Nat → Position) (st : ChannelState) (left : Bool) (q : Option Position) : (s.linesSee k p st left q).protection = s.protection := by
  simp [State.linesSee]
@[simp] theorem linesSee_link (k : ChannelIx) (p : Nat → Position) (st : ChannelState) (left : Bool) (q : Option Position) : (s.linesSee k p st left q).link = s.link := by
  simp [State.linesSee]
@[simp] theorem linesSee_supply (k : ChannelIx) (p : Nat → Position) (st : ChannelState) (left : Bool) (q : Option Position) : (s.linesSee k p st left q).supply = s.supply := by
  simp [State.linesSee]
@[simp] theorem linesSee_resetPinLow (k : ChannelIx) (p : Nat → Position) (st : ChannelState) (left : Bool) (q : Option Position) : (s.linesSee k p st left q).resetPinLow = s.resetPinLow := by
  simp [State.linesSee]

/-! ### prefilter -/

@[simp] theorem prefilter_pending (x : Sighting) : (s.prefilter x).pending = s.pending := by
  unfold State.prefilter; split <;> simp
@[simp] theorem prefilter_channels (x : Sighting) : (s.prefilter x).channels = s.channels := by
  unfold State.prefilter; split <;> simp
@[simp] theorem prefilter_period (x : Sighting) : (s.prefilter x).period = s.period := by
  unfold State.prefilter; split <;> simp
@[simp] theorem prefilter_monitor (x : Sighting) : (s.prefilter x).monitor = s.monitor := by
  unfold State.prefilter; split <;> simp
@[simp] theorem prefilter_config (x : Sighting) : (s.prefilter x).config = s.config := by
  unfold State.prefilter; split <;> simp
@[simp] theorem prefilter_line1 (x : Sighting) : (s.prefilter x).line1 = s.line1 := by
  unfold State.prefilter; split <;> simp
@[simp] theorem prefilter_line2 (x : Sighting) : (s.prefilter x).line2 = s.line2 := by
  unfold State.prefilter; split <;> simp
@[simp] theorem prefilter_earlierClosing (x : Sighting) : (s.prefilter x).earlierClosing = s.earlierClosing := by
  unfold State.prefilter; split <;> simp
@[simp] theorem prefilter_table (x : Sighting) : (s.prefilter x).table = s.table := by
  unfold State.prefilter; split <;> simp
@[simp] theorem prefilter_tableOp (x : Sighting) : (s.prefilter x).tableOp = s.tableOp := by
  unfold State.prefilter; split <;> simp
@[simp] theorem prefilter_sweepClaim (x : Sighting) : (s.prefilter x).sweepClaim = s.sweepClaim := by
  unfold State.prefilter; split <;> simp
@[simp] theorem prefilter_occupancy (x : Sighting) : (s.prefilter x).occupancy = s.occupancy := by
  unfold State.prefilter; split <;> simp
@[simp] theorem prefilter_pass (x : Sighting) : (s.prefilter x).pass = s.pass := by
  unfold State.prefilter; split <;> simp
@[simp] theorem prefilter_passTimer (x : Sighting) : (s.prefilter x).passTimer = s.passTimer := by
  unfold State.prefilter; split <;> simp
@[simp] theorem prefilter_groups (x : Sighting) : (s.prefilter x).groups = s.groups := by
  unfold State.prefilter; split <;> simp
@[simp] theorem prefilter_protection (x : Sighting) : (s.prefilter x).protection = s.protection := by
  unfold State.prefilter; split <;> simp
@[simp] theorem prefilter_link (x : Sighting) : (s.prefilter x).link = s.link := by
  unfold State.prefilter; split <;> simp
@[simp] theorem prefilter_supply (x : Sighting) : (s.prefilter x).supply = s.supply := by
  unfold State.prefilter; split <;> simp
@[simp] theorem prefilter_resetPinLow (x : Sighting) : (s.prefilter x).resetPinLow = s.resetPinLow := by
  unfold State.prefilter; split <;> simp

/-! ### tagSighting -/

@[simp] theorem tagSighting_pending (i : LineId) (c : Position) (w : Nat) (a : Option Position) : (s.tagSighting i c w a).pending = s.pending := by
  unfold State.tagSighting; repeat' split
  all_goals simp
@[simp] theorem tagSighting_channels (i : LineId) (c : Position) (w : Nat) (a : Option Position) : (s.tagSighting i c w a).channels = s.channels := by
  unfold State.tagSighting; repeat' split
  all_goals simp
@[simp] theorem tagSighting_period (i : LineId) (c : Position) (w : Nat) (a : Option Position) : (s.tagSighting i c w a).period = s.period := by
  unfold State.tagSighting; repeat' split
  all_goals simp
@[simp] theorem tagSighting_monitor (i : LineId) (c : Position) (w : Nat) (a : Option Position) : (s.tagSighting i c w a).monitor = s.monitor := by
  unfold State.tagSighting; repeat' split
  all_goals simp
@[simp] theorem tagSighting_config (i : LineId) (c : Position) (w : Nat) (a : Option Position) : (s.tagSighting i c w a).config = s.config := by
  unfold State.tagSighting; repeat' split
  all_goals simp
@[simp] theorem tagSighting_line1 (i : LineId) (c : Position) (w : Nat) (a : Option Position) : (s.tagSighting i c w a).line1 = s.line1 := by
  unfold State.tagSighting; repeat' split
  all_goals simp
@[simp] theorem tagSighting_line2 (i : LineId) (c : Position) (w : Nat) (a : Option Position) : (s.tagSighting i c w a).line2 = s.line2 := by
  unfold State.tagSighting; repeat' split
  all_goals simp
@[simp] theorem tagSighting_earlierClosing (i : LineId) (c : Position) (w : Nat) (a : Option Position) : (s.tagSighting i c w a).earlierClosing = s.earlierClosing := by
  unfold State.tagSighting; repeat' split
  all_goals simp
@[simp] theorem tagSighting_table (i : LineId) (c : Position) (w : Nat) (a : Option Position) : (s.tagSighting i c w a).table = s.table := by
  unfold State.tagSighting; repeat' split
  all_goals simp
@[simp] theorem tagSighting_tableOp (i : LineId) (c : Position) (w : Nat) (a : Option Position) : (s.tagSighting i c w a).tableOp = s.tableOp := by
  unfold State.tagSighting; repeat' split
  all_goals simp
@[simp] theorem tagSighting_sweepClaim (i : LineId) (c : Position) (w : Nat) (a : Option Position) : (s.tagSighting i c w a).sweepClaim = s.sweepClaim := by
  unfold State.tagSighting; repeat' split
  all_goals simp
@[simp] theorem tagSighting_occupancy (i : LineId) (c : Position) (w : Nat) (a : Option Position) : (s.tagSighting i c w a).occupancy = s.occupancy := by
  unfold State.tagSighting; repeat' split
  all_goals simp
@[simp] theorem tagSighting_pass (i : LineId) (c : Position) (w : Nat) (a : Option Position) : (s.tagSighting i c w a).pass = s.pass := by
  unfold State.tagSighting; repeat' split
  all_goals simp
@[simp] theorem tagSighting_passTimer (i : LineId) (c : Position) (w : Nat) (a : Option Position) : (s.tagSighting i c w a).passTimer = s.passTimer := by
  unfold State.tagSighting; repeat' split
  all_goals simp
@[simp] theorem tagSighting_groups (i : LineId) (c : Position) (w : Nat) (a : Option Position) : (s.tagSighting i c w a).groups = s.groups := by
  unfold State.tagSighting; repeat' split
  all_goals simp
@[simp] theorem tagSighting_protection (i : LineId) (c : Position) (w : Nat) (a : Option Position) : (s.tagSighting i c w a).protection = s.protection := by
  unfold State.tagSighting; repeat' split
  all_goals simp
@[simp] theorem tagSighting_link (i : LineId) (c : Position) (w : Nat) (a : Option Position) : (s.tagSighting i c w a).link = s.link := by
  unfold State.tagSighting; repeat' split
  all_goals simp
@[simp] theorem tagSighting_supply (i : LineId) (c : Position) (w : Nat) (a : Option Position) : (s.tagSighting i c w a).supply = s.supply := by
  unfold State.tagSighting; repeat' split
  all_goals simp
@[simp] theorem tagSighting_resetPinLow (i : LineId) (c : Position) (w : Nat) (a : Option Position) : (s.tagSighting i c w a).resetPinLow = s.resetPinLow := by
  unfold State.tagSighting; repeat' split
  all_goals simp

/-! ### formLine -/

@[simp] theorem formLine_pending (i : LineId) : (s.formLine i).pending = s.pending := by
  unfold State.formLine; repeat' split
  all_goals simp
@[simp] theorem formLine_channels (i : LineId) : (s.formLine i).channels = s.channels := by
  unfold State.formLine; repeat' split
  all_goals simp
@[simp] theorem formLine_period (i : LineId) : (s.formLine i).period = s.period := by
  unfold State.formLine; repeat' split
  all_goals simp
@[simp] theorem formLine_monitor (i : LineId) : (s.formLine i).monitor = s.monitor := by
  unfold State.formLine; repeat' split
  all_goals simp
@[simp] theorem formLine_config (i : LineId) : (s.formLine i).config = s.config := by
  unfold State.formLine; repeat' split
  all_goals simp
@[simp] theorem formLine_earlierClosing (i : LineId) : (s.formLine i).earlierClosing = s.earlierClosing := by
  unfold State.formLine; repeat' split
  all_goals simp
@[simp] theorem formLine_table (i : LineId) : (s.formLine i).table = s.table := by
  unfold State.formLine; repeat' split
  all_goals simp
@[simp] theorem formLine_tableOp (i : LineId) : (s.formLine i).tableOp = s.tableOp := by
  unfold State.formLine; repeat' split
  all_goals simp
@[simp] theorem formLine_sweepClaim (i : LineId) : (s.formLine i).sweepClaim = s.sweepClaim := by
  unfold State.formLine; repeat' split
  all_goals simp
@[simp] theorem formLine_occupancy (i : LineId) : (s.formLine i).occupancy = s.occupancy := by
  unfold State.formLine; repeat' split
  all_goals simp
@[simp] theorem formLine_pass (i : LineId) : (s.formLine i).pass = s.pass := by
  unfold State.formLine; repeat' split
  all_goals simp
@[simp] theorem formLine_passTimer (i : LineId) : (s.formLine i).passTimer = s.passTimer := by
  unfold State.formLine; repeat' split
  all_goals simp
@[simp] theorem formLine_groups (i : LineId) : (s.formLine i).groups = s.groups := by
  unfold State.formLine; repeat' split
  all_goals simp
@[simp] theorem formLine_protection (i : LineId) : (s.formLine i).protection = s.protection := by
  unfold State.formLine; repeat' split
  all_goals simp
@[simp] theorem formLine_link (i : LineId) : (s.formLine i).link = s.link := by
  unfold State.formLine; repeat' split
  all_goals simp
@[simp] theorem formLine_supply (i : LineId) : (s.formLine i).supply = s.supply := by
  unfold State.formLine; repeat' split
  all_goals simp
@[simp] theorem formLine_resetPinLow (i : LineId) : (s.formLine i).resetPinLow = s.resetPinLow := by
  unfold State.formLine; repeat' split
  all_goals simp

/-! ### formSightings -/

@[simp] theorem formSightings_pending : s.formSightings.pending = s.pending := by
  simp [State.formSightings]
@[simp] theorem formSightings_channels : s.formSightings.channels = s.channels := by
  simp [State.formSightings]
@[simp] theorem formSightings_period : s.formSightings.period = s.period := by
  simp [State.formSightings]
@[simp] theorem formSightings_monitor : s.formSightings.monitor = s.monitor := by
  simp [State.formSightings]
@[simp] theorem formSightings_config : s.formSightings.config = s.config := by
  simp [State.formSightings]
@[simp] theorem formSightings_earlierClosing : s.formSightings.earlierClosing = s.earlierClosing := by
  simp [State.formSightings]
@[simp] theorem formSightings_table : s.formSightings.table = s.table := by
  simp [State.formSightings]
@[simp] theorem formSightings_tableOp : s.formSightings.tableOp = s.tableOp := by
  simp [State.formSightings]
@[simp] theorem formSightings_sweepClaim : s.formSightings.sweepClaim = s.sweepClaim := by
  simp [State.formSightings]
@[simp] theorem formSightings_occupancy : s.formSightings.occupancy = s.occupancy := by
  simp [State.formSightings]
@[simp] theorem formSightings_pass : s.formSightings.pass = s.pass := by
  simp [State.formSightings]
@[simp] theorem formSightings_passTimer : s.formSightings.passTimer = s.passTimer := by
  simp [State.formSightings]
@[simp] theorem formSightings_groups : s.formSightings.groups = s.groups := by
  simp [State.formSightings]
@[simp] theorem formSightings_protection : s.formSightings.protection = s.protection := by
  simp [State.formSightings]
@[simp] theorem formSightings_link : s.formSightings.link = s.link := by
  simp [State.formSightings]
@[simp] theorem formSightings_supply : s.formSightings.supply = s.supply := by
  simp [State.formSightings]
@[simp] theorem formSightings_resetPinLow : s.formSightings.resetPinLow = s.resetPinLow := by
  simp [State.formSightings]

/-! ### testCrossing -/

@[simp] theorem testCrossing_pending (p : Position) : (s.testCrossing p).pending = s.pending := by
  unfold State.testCrossing; repeat' split
  all_goals simp
@[simp] theorem testCrossing_channels (p : Position) : (s.testCrossing p).channels = s.channels := by
  unfold State.testCrossing; repeat' split
  all_goals simp
@[simp] theorem testCrossing_period (p : Position) : (s.testCrossing p).period = s.period := by
  unfold State.testCrossing; repeat' split
  all_goals simp
@[simp] theorem testCrossing_monitor (p : Position) : (s.testCrossing p).monitor = s.monitor := by
  unfold State.testCrossing; repeat' split
  all_goals simp
@[simp] theorem testCrossing_config (p : Position) : (s.testCrossing p).config = s.config := by
  unfold State.testCrossing; repeat' split
  all_goals simp
@[simp] theorem testCrossing_line1 (p : Position) : (s.testCrossing p).line1 = s.line1 := by
  unfold State.testCrossing; repeat' split
  all_goals simp
@[simp] theorem testCrossing_line2 (p : Position) : (s.testCrossing p).line2 = s.line2 := by
  unfold State.testCrossing; repeat' split
  all_goals simp
@[simp] theorem testCrossing_earlierClosing (p : Position) : (s.testCrossing p).earlierClosing = s.earlierClosing := by
  unfold State.testCrossing; repeat' split
  all_goals simp
@[simp] theorem testCrossing_table (p : Position) : (s.testCrossing p).table = s.table := by
  unfold State.testCrossing; repeat' split
  all_goals simp
@[simp] theorem testCrossing_tableOp (p : Position) : (s.testCrossing p).tableOp = s.tableOp := by
  unfold State.testCrossing; repeat' split
  all_goals simp
@[simp] theorem testCrossing_occupancy (p : Position) : (s.testCrossing p).occupancy = s.occupancy := by
  unfold State.testCrossing; repeat' split
  all_goals simp
@[simp] theorem testCrossing_groups (p : Position) : (s.testCrossing p).groups = s.groups := by
  unfold State.testCrossing; repeat' split
  all_goals simp
@[simp] theorem testCrossing_protection (p : Position) : (s.testCrossing p).protection = s.protection := by
  unfold State.testCrossing; repeat' split
  all_goals simp
@[simp] theorem testCrossing_link (p : Position) : (s.testCrossing p).link = s.link := by
  unfold State.testCrossing; repeat' split
  all_goals simp
@[simp] theorem testCrossing_supply (p : Position) : (s.testCrossing p).supply = s.supply := by
  unfold State.testCrossing; repeat' split
  all_goals simp
@[simp] theorem testCrossing_resetPinLow (p : Position) : (s.testCrossing p).resetPinLow = s.resetPinLow := by
  unfold State.testCrossing; repeat' split
  all_goals simp

/-! ### passSees -/

@[simp] theorem passSees_pending (k : ChannelIx) (left : Bool) (p : Position) : (s.passSees k left p).pending = s.pending := by
  unfold State.passSees; repeat' split
  all_goals simp
@[simp] theorem passSees_channels (k : ChannelIx) (left : Bool) (p : Position) : (s.passSees k left p).channels = s.channels := by
  unfold State.passSees; repeat' split
  all_goals simp
@[simp] theorem passSees_period (k : ChannelIx) (left : Bool) (p : Position) : (s.passSees k left p).period = s.period := by
  unfold State.passSees; repeat' split
  all_goals simp
@[simp] theorem passSees_monitor (k : ChannelIx) (left : Bool) (p : Position) : (s.passSees k left p).monitor = s.monitor := by
  unfold State.passSees; repeat' split
  all_goals simp
@[simp] theorem passSees_config (k : ChannelIx) (left : Bool) (p : Position) : (s.passSees k left p).config = s.config := by
  unfold State.passSees; repeat' split
  all_goals simp
@[simp] theorem passSees_line1 (k : ChannelIx) (left : Bool) (p : Position) : (s.passSees k left p).line1 = s.line1 := by
  unfold State.passSees; repeat' split
  all_goals simp
@[simp] theorem passSees_line2 (k : ChannelIx) (left : Bool) (p : Position) : (s.passSees k left p).line2 = s.line2 := by
  unfold State.passSees; repeat' split
  all_goals simp
@[simp] theorem passSees_earlierClosing (k : ChannelIx) (left : Bool) (p : Position) : (s.passSees k left p).earlierClosing = s.earlierClosing := by
  unfold State.passSees; repeat' split
  all_goals simp
@[simp] theorem passSees_table (k : ChannelIx) (left : Bool) (p : Position) : (s.passSees k left p).table = s.table := by
  unfold State.passSees; repeat' split
  all_goals simp
@[simp] theorem passSees_tableOp (k : ChannelIx) (left : Bool) (p : Position) : (s.passSees k left p).tableOp = s.tableOp := by
  unfold State.passSees; repeat' split
  all_goals simp
@[simp] theorem passSees_occupancy (k : ChannelIx) (left : Bool) (p : Position) : (s.passSees k left p).occupancy = s.occupancy := by
  unfold State.passSees; repeat' split
  all_goals simp
@[simp] theorem passSees_groups (k : ChannelIx) (left : Bool) (p : Position) : (s.passSees k left p).groups = s.groups := by
  unfold State.passSees; repeat' split
  all_goals simp
@[simp] theorem passSees_protection (k : ChannelIx) (left : Bool) (p : Position) : (s.passSees k left p).protection = s.protection := by
  unfold State.passSees; repeat' split
  all_goals simp
@[simp] theorem passSees_link (k : ChannelIx) (left : Bool) (p : Position) : (s.passSees k left p).link = s.link := by
  unfold State.passSees; repeat' split
  all_goals simp
@[simp] theorem passSees_supply (k : ChannelIx) (left : Bool) (p : Position) : (s.passSees k left p).supply = s.supply := by
  unfold State.passSees; repeat' split
  all_goals simp
@[simp] theorem passSees_resetPinLow (k : ChannelIx) (left : Bool) (p : Position) : (s.passSees k left p).resetPinLow = s.resetPinLow := by
  unfold State.passSees; repeat' split
  all_goals simp

end Sys2Proof.Machine.State
end

