-- ==== Sys2Proof/Laws/Bytes.lean ====
section
/-! SUPPORT. Bytes and numbers: a field read back from the bytes of its value, and the bytes of a value as the statements spell
them (R172); the check value byte by byte; and a request as the statements speak of it. -/

namespace Sys2Proof.Machine

theorem beNat_two (w : BitVec 16) : beNat (twoBytes w) = w.toNat := by
  simp [beNat, twoBytes, BitVec.extractLsb'_toNat, Nat.shiftRight_eq_div_pow]
  omega

theorem beNat_four (w : BitVec 32) : beNat (fourBytes w) = w.toNat := by
  simp [beNat, fourBytes, BitVec.extractLsb'_toNat, Nat.shiftRight_eq_div_pow]
  omega

theorem beNat_six (p : Position) : beNat (sixBytes p) = p.toNat := by
  simp [beNat, sixBytes, BitVec.extractLsb'_toNat, Nat.shiftRight_eq_div_pow]
  omega

theorem beNat_one (b : Byte) : beNat [b] = b.toNat := by simp [beNat]

theorem beBytes_two (n : Nat) : beBytes 2 n = twoBytes (BitVec.ofNat 16 n) := by
  simp only [beBytes, twoBytes, List.cons.injEq, and_true]
  refine ⟨?_, ?_⟩ <;> apply BitVec.eq_of_toNat_eq <;> simp [BitVec.extractLsb'_toNat, Nat.shiftRight_eq_div_pow]
  omega

theorem beBytes_four (w : BitVec 32) : beBytes 4 w.toNat = fourBytes w := by
  simp only [beBytes, fourBytes, List.cons.injEq, and_true]
  refine ⟨?_, ?_, ?_, ?_⟩ <;> apply BitVec.eq_of_toNat_eq <;>
    simp [BitVec.extractLsb'_toNat, Nat.shiftRight_eq_div_pow]

theorem beBytes_four_ofNat (n : Nat) : beBytes 4 n = fourBytes (BitVec.ofNat 32 n) := by
  simp only [beBytes, fourBytes, List.cons.injEq, and_true]
  refine ⟨?_, ?_, ?_, ?_⟩ <;> apply BitVec.eq_of_toNat_eq <;>
    simp [BitVec.extractLsb'_toNat, Nat.shiftRight_eq_div_pow]
  all_goals omega

theorem beBytes_three (n : Nat) : beBytes 3 n = (fourBytes (BitVec.ofNat 32 n)).drop 1 := by
  simp only [beBytes, fourBytes, List.drop_succ_cons, List.drop_zero, List.cons.injEq, and_true]
  refine ⟨?_, ?_, ?_⟩ <;> apply BitVec.eq_of_toNat_eq <;>
    simp [BitVec.extractLsb'_toNat, Nat.shiftRight_eq_div_pow]
  all_goals omega

theorem beBytes_five (w : BitVec 40) :
    beBytes 5 w.toNat = [w.extractLsb' 32 8] ++ fourBytes (w.extractLsb' 0 32) := by
  simp only [beBytes, fourBytes, List.cons_append, List.nil_append, List.cons.injEq, and_true]
  refine ⟨?_, ?_, ?_, ?_, ?_⟩ <;> apply BitVec.eq_of_toNat_eq <;>
    simp [BitVec.extractLsb'_toNat, Nat.shiftRight_eq_div_pow]

theorem beBytes_eight (w : BitVec 64) :
    beBytes 8 w.toNat = fourBytes (w.extractLsb' 32 32) ++ fourBytes (w.extractLsb' 0 32) := by
  simp only [beBytes, fourBytes, List.cons_append, List.nil_append, List.cons.injEq, and_true]
  refine ⟨?_, ?_, ?_, ?_, ?_, ?_, ?_, ?_⟩ <;> apply BitVec.eq_of_toNat_eq <;>
    simp [BitVec.extractLsb'_toNat, Nat.shiftRight_eq_div_pow]
  all_goals omega

theorem oneByte_eq (n : Nat) : oneByte n = [BitVec.ofNat 8 n] := by simp [oneByte, beBytes]

theorem positionBytes_eq (p : Position) : positionBytes p = sixBytes p := by
  simp only [positionBytes, beBytes, sixBytes, List.cons.injEq, and_true]
  refine ⟨?_, ?_, ?_, ?_, ?_, ?_⟩ <;> apply BitVec.eq_of_toNat_eq <;>
    simp [BitVec.extractLsb'_toNat, Nat.shiftRight_eq_div_pow]

theorem optionalPosition_eq (p : Option Position) : optionalPosition p = sixBytes (p.getD 0) := by
  cases p <;> simp [optionalPosition, positionBytes_eq]

/-! ### The check value (R165) -/

/-- One step of the division by the generator: the bit shifted out decides. -/
def crcShift (x : Byte) : Byte := if x.msb then (x <<< 1) ^^^ 0x31#8 else x <<< 1

theorem crcBit_msb (x y : Byte) : crcBit (x ^^^ y) y.msb = crcShift x ^^^ (y <<< 1) := by
  have swap : ∀ a b c : Byte, a ^^^ b ^^^ c = a ^^^ c ^^^ b := fun a b c => by
    rw [BitVec.xor_assoc, BitVec.xor_comm b, BitVec.xor_assoc]
  simp only [crcBit, crcShift, BitVec.msb_xor]
  cases x.msb <;> cases y.msb <;> simp [BitVec.shiftLeft_xor_distrib, swap]

/-- A byte enters the check value whole: it is added, and eight steps of the division follow. -/
theorem crcByte_eq (c b : Byte) : crcByte c b = Nat.iterate crcShift 8 (c ^^^ b) := by
  have bit : ∀ n, n < 8 → b.getLsbD (7 - n) = (b <<< n).msb := by
    intro n hn
    rw [BitVec.msb_shiftLeft, BitVec.getMsbD]
    simp [hn]
  have step : ∀ n, n < 8 → ∀ x, crcBit (x ^^^ b <<< n) (b.getLsbD (7 - n)) = crcShift x ^^^ b <<< (n + 1) := by
    intro n hn x
    rw [bit n hn, crcBit_msb, BitVec.shiftLeft_add]
  have h0 : c = (c ^^^ b) ^^^ b <<< 0 := by simp
  rw [crcByte]
  simp only [List.foldl]
  rw [h0, step 0 (by decide), step 1 (by decide), step 2 (by decide), step 3 (by decide), step 4 (by decide),
    step 5 (by decide), step 6 (by decide), step 7 (by decide)]
  simp

theorem crc8_snoc (bytes : List Byte) (b : Byte) : crc8 (bytes ++ [b]) = Nat.iterate crcShift 8 (crc8 bytes ^^^ b) := by
  rw [← crcByte_eq]
  simp [crc8]

/-! ### Requests -/

/-- A received request of the right length is executed in TAKEN with an EMPTY buffer. -/
theorem State.receives.request_eq {s : State} (h : s.receives) {len : Nat} {params : List Byte}
    (hl : params.length = len) (owner : State → State) :
    s.request len params owner = owner (s.responding .empty) :=
  s.request_accepted len params owner h.1 h.2 hl

theorem State.receives.request_short {s : State} (h : s.receives) {len : Nat} {params : List Byte}
    (hl : params.length ≠ len) (owner : State → State) :
    s.request len params owner = s.refused .length :=
  s.request_wrong_length len params owner h.1 h.2 hl

end Sys2Proof.Machine
end

