-- ==== Sys2Proof/Laws/Reading.lean ====
section
/-! SUPPORT. Reading one channel, group, slot or flag after a write; buckets and slots as
numbers; the down mask bit by bit; one record after an update of the
table. -/

namespace Sys2Proof.Machine

/-! ### Channels, groups, slots -/

theorem State.channel_eq_of_channels {s t : State} (h : t.channels = s.channels) (k : ChannelIx) :
    t.channel k = s.channel k := by simp [State.channel, h]

theorem State.channel_set {s t : State} {k : ChannelIx} {c : Channel} (h : t.channels = s.channels.set k c)
    (j : ChannelIx) : t.channel j = if j = k then c else s.channel j := by
  by_cases hjk : j = k
  · subst hjk; simp [State.channel, h]
  · have : k.val ≠ j.val := fun e => hjk (Fin.ext e.symm)
    simp [State.channel, h, hjk, this]

theorem State.group_set {s t : State} {g : Fin 8} {c : GroupCounts} (h : t.groups = s.groups.set g c) (j : Fin 8) :
    t.group j = if j = g then c else s.group j := by
  by_cases hjg : j = g
  · subst hjg; simp [State.group, h]
  · have : g.val ≠ j.val := fun e => hjg (Fin.ext e.symm)
    simp [State.group, h, hjg, this]

theorem State.channel_putChannel (s : State) (k j : ChannelIx) (c : Channel) :
    (s.putChannel k c).channel j = if j = k then c else s.channel j := State.channel_set rfl j

theorem State.group_setGroup (s : State) (g j : Fin 8) (c : GroupCounts) :
    (s.setGroup g c).group j = if j = g then c else s.group j := State.group_set rfl j

theorem getElem_addClaims (slots : List (Fin 64)) (o : Vector Nat 64) (k : Fin 64) :
    (addClaims o slots)[k] = o[k] + slots.count k := by
  induction slots generalizing o with
  | nil => simp [addClaims]
  | cons a rest ih =>
    rw [show addClaims o (a :: rest) = addClaims (o.set a (o[a] + 1)) rest from rfl, ih, List.count_cons]
    by_cases h : a = k
    · subst h; simp; omega
    · have : a.val ≠ k.val := fun e => h (Fin.ext e)
      simp [h, this]

theorem getElem_removeClaims (slots : List (Fin 64)) (o : Vector Nat 64) (k : Fin 64) :
    (removeClaims o slots)[k] = o[k] - slots.count k := by
  induction slots generalizing o with
  | nil => simp [removeClaims]
  | cons a rest ih =>
    rw [show removeClaims o (a :: rest) = removeClaims (o.set a (o[a] - 1)) rest from rfl, ih, List.count_cons]
    by_cases h : a = k
    · subst h; simp; omega
    · have : a.val ≠ k.val := fun e => h (Fin.ext e)
      simp [h, this]

/-- The bucket of a position is its quotient by the power of two, rounded toward minus infinity (R64). -/
theorem toInt_bucketOf (shift : Nat) (p : Position) : (bucketOf shift p).toInt = p.toInt / 2 ^ shift := by
  simp [bucketOf, BitVec.toInt_sshiftRight, Int.shiftRight_eq_div_pow]

/-- The slot of a bucket, piece by piece of its low 36 bits (R65). -/
theorem val_slotOf (b : Position) :
    (slotOf b).val = b.toNat % 64 ^^^ b.toNat / 2 ^ 6 % 64 ^^^ b.toNat / 2 ^ 12 % 64 ^^^ b.toNat / 2 ^ 18 % 64
      ^^^ b.toNat / 2 ^ 24 % 64 ^^^ b.toNat / 2 ^ 30 % 64 := by
  simp [slotOf, BitVec.extractLsb'_toNat, Nat.shiftRight_eq_div_pow]

/-! ### Flags -/

theorem EventUnit.has_raise (e : EventUnit) (f g : EventFlag) : (e.raise f).has g = (e.has g || decide (f = g)) := by
  simp only [EventUnit.has, EventUnit.raise, BitVec.getLsbD_or, EventFlag.word]
  cases f <;> cases g <;> simp [EventFlag.bit]

theorem ChannelState.down_iff (st : ChannelState) : st.down = true ↔ st = .acquiring ∨ st = .lost := by
  cases st <;> simp [ChannelState.down]

theorem State.getLsbD_downMask (s : State) (k : ChannelIx) : s.downMask.getLsbD k.val = (s.channel k).state.down := by
  have h : ∀ (f : ChannelIx → Bool) (k : ChannelIx),
      ((List.finRange 6).foldl (fun m k => if f k then m ||| (1#6 <<< k.val) else m) 0#6).getLsbD k.val = f k := by
    intro f k
    have table : ∀ (a b c d e g : Bool) (k : Fin 6),
        ((List.finRange 6).foldl (fun m k => if [a, b, c, d, e, g][k.val] then m ||| (1#6 <<< k.val) else m) 0#6).getLsbD
          k.val = [a, b, c, d, e, g][k.val] := by decide
    have hf : ∀ j : Fin 6, [f 0, f 1, f 2, f 3, f 4, f 5][j.val] = f j := by
      intro j; fin_cases j <;> rfl
    have := table (f 0) (f 1) (f 2) (f 3) (f 4) (f 5) k
    simp only [hf] at this
    exact this
  exact h (fun k => (s.channel k).state.down) k

theorem State.downMask_ne_zero (s : State) :
    s.downMask ≠ 0 ↔ ∃ k : ChannelIx, (s.channel k).state = .acquiring ∨ (s.channel k).state = .lost := by
  constructor
  · intro h
    by_contra hc
    push Not at hc
    apply h
    apply BitVec.eq_of_getLsbD_eq
    intro i hi
    have hbit := s.getLsbD_downMask ⟨i, hi⟩
    have hdown : ¬(s.channel ⟨i, hi⟩).state.down = true := by
      rw [ChannelState.down_iff]; have := hc ⟨i, hi⟩; tauto
    simp only at hbit
    rw [hbit]
    simpa using hdown
  · rintro ⟨k, hk⟩ h0
    have := s.getLsbD_downMask k
    rw [h0, (ChannelState.down_iff _).mpr hk] at this
    simp at this

/-! ### Records -/

theorem updateMark_map_mark (table : List MarkRecord) (mark : Nat) (f : MarkRecord → MarkRecord)
    (hf : ∀ r, (f r).mark = r.mark) : (updateMark table mark f).map MarkRecord.mark = table.map MarkRecord.mark := by
  simp only [updateMark, List.map_map]
  apply List.map_congr_left
  intro r _
  simp only [Function.comp]
  split
  · exact hf r
  · rfl

theorem length_updateMark (table : List MarkRecord) (mark : Nat) (f : MarkRecord → MarkRecord) :
    (updateMark table mark f).length = table.length := by simp [updateMark]

theorem findMark_mem {table : List MarkRecord} {mark : Nat} {r : MarkRecord} (h : findMark table mark = some r) :
    r ∈ table ∧ r.mark = mark :=
  ⟨List.mem_of_find?_eq_some h, by simpa using List.find?_some h⟩

theorem insertRecord_perm (r : MarkRecord) (table : List MarkRecord) : (insertRecord r table).Perm (r :: table) := by
  induction table with
  | nil => exact .refl _
  | cons x rest ih =>
    simp only [insertRecord]
    split
    · exact .refl _
    · exact (List.Perm.cons x ih).trans (List.Perm.swap r x rest)

theorem mem_insertRecord {r x : MarkRecord} {table : List MarkRecord} : x ∈ insertRecord r table ↔ x = r ∨ x ∈ table := by
  rw [(insertRecord_perm r table).mem_iff, List.mem_cons]

theorem length_insertRecord (r : MarkRecord) (table : List MarkRecord) :
    (insertRecord r table).length = table.length + 1 := by
  rw [(insertRecord_perm r table).length_eq, List.length_cons]

/-- An insertion keeps the strict order, where no record has the same nominal. -/
theorem insertRecord_sorted (r : MarkRecord) (table : List MarkRecord)
    (h : table.Pairwise fun a b => a.nominal.toInt < b.nominal.toInt)
    (hr : ∀ x ∈ table, x.nominal.toInt ≠ r.nominal.toInt) :
    (insertRecord r table).Pairwise fun a b => a.nominal.toInt < b.nominal.toInt := by
  induction table with
  | nil => simp [insertRecord]
  | cons x rest ih =>
    rw [List.pairwise_cons] at h
    simp only [insertRecord]
    split
    · rename_i hlt
      refine List.pairwise_cons.mpr ⟨fun y hy => ?_, List.pairwise_cons.mpr h⟩
      rcases List.mem_cons.mp hy with rfl | hy
      · exact hlt
      · exact lt_trans hlt (h.1 y hy)
    · rename_i hge
      refine List.pairwise_cons.mpr ⟨fun y hy => ?_, ih h.2 fun z hz => hr z (List.mem_cons_of_mem _ hz)⟩
      rcases mem_insertRecord.mp hy with rfl | hy
      · have := hr x List.mem_cons_self; omega
      · exact h.1 y hy

end Sys2Proof.Machine
end

