-- ==== Sys2Proof/Laws/Groups.lean ====
section
/-! SUPPORT. All that a report to the tally groups can do: one report, and the one report of a sweep to each group. -/

namespace Sys2Proof.Machine

theorem GroupCounts.complete_iff (c : GroupCounts) : c.complete = true ↔ c.settled = c.members ∧ 0 < c.members := by
  simp [GroupCounts.complete]

theorem getLsbD_groupBit (g j : Fin 8) : (1#8 <<< g.val).getLsbD j.val = decide (j = g) := by
  have : ∀ g j : Fin 8, (1#8 <<< g.val).getLsbD j.val = decide (j = g) := by decide
  exact this g j

/-- What one or more reports make of the event unit: the groups for which `completes` holds set their mask bits and raise
GROUP_DONE, and no other flag and no counter moves (R137). -/
structure EventUnit.Completes (e : EventUnit) (completes : Fin 8 → Prop) (e' : EventUnit) : Prop where
  mask : ∀ g : Fin 8, e'.groupMask.getLsbD g.val = true ↔ e.groupMask.getLsbD g.val = true ∨ completes g
  flag : e'.has .groupDone = true ↔ e.has .groupDone = true ∨ ∃ g, completes g
  others : ∀ f, f ≠ .groupDone → e'.has f = e.has f
  counters : e'.counters = e.counters

namespace EventUnit.Completes

theorem none (e : EventUnit) {completes : Fin 8 → Prop} (h : ∀ g, ¬completes g) : e.Completes completes e :=
  ⟨fun g => by simp [h g], by simp [h], fun _ _ => rfl, rfl⟩

theorem one (e : EventUnit) (g : Fin 8) : e.Completes (· = g) (e.groupCompletes g) := by
  refine ⟨fun j => ?_, ?_, fun f hf => ?_, rfl⟩
  · change (e.groupMask ||| (1#8 <<< g.val)).getLsbD j.val = true ↔ _
    rw [BitVec.getLsbD_or, getLsbD_groupBit, Bool.or_eq_true, decide_eq_true_eq]
  · simp [EventUnit.groupCompletes, EventUnit.has_raise]
  · rw [EventUnit.groupCompletes, EventUnit.has_raise, decide_eq_false (Ne.symm hf), Bool.or_false]
    rfl

theorem trans {a b c : EventUnit} {p q : Fin 8 → Prop} (h : a.Completes p b) (k : b.Completes q c) :
    a.Completes (fun g => p g ∨ q g) c := by
  refine ⟨fun g => ?_, ?_, fun f hf => (k.others f hf).trans (h.others f hf), k.counters.trans h.counters⟩
  · rw [k.mask, h.mask, or_assoc]
  · rw [k.flag, h.flag, or_assoc, exists_or]

theorem congr {a b : EventUnit} {p q : Fin 8 → Prop} (h : a.Completes p b) (hpq : ∀ g, p g ↔ q g) : a.Completes q b := by
  rwa [← funext fun g => propext (hpq g)]

end EventUnit.Completes

/-- All that giving a group new counts does to the event unit. -/
theorem State.setGroup_completes (s : State) (g : Fin 8) (c : GroupCounts) :
    s.events.Completes (fun j => j = g ∧ (s.group j).complete = false ∧ c.complete = true) (s.setGroup g c).events := by
  simp only [State.setGroup]
  split
  · rename_i h
    simp only [Bool.and_eq_true, Bool.not_eq_true'] at h
    refine (EventUnit.Completes.one s.events g).congr fun j => ⟨?_, And.left⟩
    rintro rfl
    exact ⟨rfl, h⟩
  · rename_i h
    simp only [Bool.and_eq_true, Bool.not_eq_true'] at h
    refine .none _ ?_
    rintro j ⟨rfl, hj⟩
    exact h hj

/-- Reports to the groups of a list, each once: `change g` is what the report makes of the counts. -/
theorem State.reports_spec (change : Fin 8 → GroupCounts → GroupCounts) (s : State) (gs : List (Fin 8)) (hn : gs.Nodup) :
    let u := gs.foldl (fun (t : State) g => t.setGroup g (change g (t.group g))) s
    (∀ g, u.group g = if g ∈ gs then change g (s.group g) else s.group g)
      ∧ u = { s with groups := u.groups, events := u.events }
      ∧ s.events.Completes
          (fun g => g ∈ gs ∧ (s.group g).complete = false ∧ (change g (s.group g)).complete = true) u.events := by
  induction gs generalizing s with
  | nil => exact ⟨fun g => by simp, rfl, .none _ (by simp)⟩
  | cons a rest ih =>
    obtain ⟨ha, hr⟩ := List.nodup_cons.mp hn
    have hs : ∀ g, (s.setGroup a (change a (s.group a))).group g = if g = a then change a (s.group a) else s.group g :=
      fun g => s.group_setGroup a g _
    obtain ⟨i1, i2, i3⟩ := ih (s.setGroup a (change a (s.group a))) hr
    refine ⟨fun g => ?_, i2, ((s.setGroup_completes a _).trans i3).congr fun g => ?_⟩
    · rw [List.foldl_cons, i1, hs]
      by_cases hg : g = a
      · subst hg; simp [ha]
      · simp [hg]
    · rw [hs]
      by_cases hg : g = a
      · subst hg; simp [ha]
      · simp [hg]

/-- The groups in a table, by the words of the statements (R134). -/
theorem groupCounts_eq (table : List MarkRecord) (g : Fin 8) :
    groupCounts table g
      = ⟨(table.map (MarkRecord.memberOf · g)).sum, (table.map (MarkRecord.settledOf · g)).sum⟩ := by
  have h : ∀ p : MarkRecord → Bool, table.countP p = (table.map fun r => if p r = true then 1 else 0).sum := by
    intro p
    induction table with
    | nil => rfl
    | cons r rest ih => rw [List.countP_cons, ih, List.map_cons, List.sum_cons, Nat.add_comm]
  simp only [groupCounts, h, MarkRecord.memberOf, MarkRecord.settledOf, MarkRecord.isSettled, Bool.and_eq_true,
    decide_eq_true_eq]

/-- All that the reports of a sweep do: each group moves by the net change between the two tables, and those that complete say so
(R136, R137). -/
theorem State.reportSweep_spec (s : State) (before after : List MarkRecord) :
    let u := s.reportSweep before after
    (∀ g, u.group g =
        ⟨(s.group g).members + (groupCounts after g).members - (groupCounts before g).members,
          (s.group g).settled + (groupCounts after g).settled - (groupCounts before g).settled⟩)
      ∧ u = { s with groups := u.groups, events := u.events }
      ∧ s.events.Completes (fun g => (s.group g).complete = false ∧ (u.group g).complete = true) u.events := by
  have hnet : ∀ a b c : Nat, ((a : Int) + ((b : Int) - c)).toNat = a + b - c := by omega
  obtain ⟨h1, h2, h3⟩ := State.reports_spec
    (fun g c => ⟨(c.members + (((groupCounts after g).members : Int) - (groupCounts before g).members)).toNat,
      (c.settled + (((groupCounts after g).settled : Int) - (groupCounts before g).settled)).toNat⟩)
    s (List.finRange 8) (List.nodup_finRange 8)
  have hg : ∀ g, (s.reportSweep before after).group g = _ := h1
  simp only [List.mem_finRange, if_true, hnet] at hg
  refine ⟨hg, h2, EventUnit.Completes.congr h3 fun g => ?_⟩
  simp only [List.mem_finRange, true_and, hg, hnet]

end Sys2Proof.Machine
end

