-- ==== Sys2Proof/Laws/Judging.lean ====
section
/-! SUPPORT. Operands and the judging of table requests: one byte of the parameters, channel numbers, the amendable fields, the
kind-dependent part, all that judging a new record can answer, the place of an insertion, and the host operation that a completion
finishes with its response handed over. -/

namespace Sys2Proof.Machine

/-! ### Operands -/

theorem byteField_at (p : List Byte) (i : Nat) (b : Byte) (h : p[i]? = some b) : byteField p i = b.toNat := by
  have : (p.drop i).take 1 = [b] := by
    obtain ⟨hi, hb⟩ := List.getElem?_eq_some_iff.mp h
    rw [List.drop_eq_getElem_cons hi, List.take_succ_cons, hb]
    simp
  simp [byteField, field, this, beNat]

theorem channelOf_val (k : ChannelIx) : channelOf k.val = some k := by simp [channelOf]

theorem channelOf_ge (n : Nat) (h : 6 ≤ n) : channelOf n = none := by simp [channelOf, Nat.not_lt.mpr h]

/-! ### Fields within their values -/

/-- The values the amendable fields may have (R42). -/
def amendableInRange (shift : Nat) (nominal : Int) (half minWidth maxWidth accept : Nat) : Prop :=
  1 ≤ half ∧ half ≤ 2 ^ (shift - 1) - 1 ∧ minWidth ≤ maxWidth ∧ 1 ≤ maxWidth ∧ maxWidth ≤ 65535 ∧ 1 ≤ accept ∧ accept ≤ 3
    ∧ -(2 ^ 47) ≤ nominal - half ∧ nominal + half ≤ 2 ^ 47 - 1

theorem judgeAmendable_inRange {shift : Nat} {nominal : Int} {half minWidth maxWidth accept : Nat}
    (h : amendableInRange shift nominal half minWidth maxWidth accept) :
    ∃ a, judgeAmendable shift nominal half minWidth maxWidth accept = some ⟨half, minWidth, maxWidth, a⟩
      ∧ a.code = accept := by
  obtain ⟨h1, h2, h3, h4, h5, h6, h7, h8, h9⟩ := h
  have hc : ∃ a, Accept.ofCode accept = some a ∧ a.code = accept := by
    obtain rfl | rfl | rfl : accept = 1 ∨ accept = 2 ∨ accept = 3 := by omega
    · exact ⟨.l1, rfl, rfl⟩
    · exact ⟨.l2, rfl, rfl⟩
    · exact ⟨.either, rfl, rfl⟩
  obtain ⟨a, ha, hac⟩ := hc
  exact ⟨a, by simp only [judgeAmendable, ha]; rw [if_pos ⟨h1, h2, h3, h4, h5, h8, h9⟩], hac⟩

theorem judgeAmendable_outOfRange {shift : Nat} {nominal : Int} {half minWidth maxWidth accept : Nat}
    (h : ¬amendableInRange shift nominal half minWidth maxWidth accept) :
    judgeAmendable shift nominal half minWidth maxWidth accept = none := by
  unfold judgeAmendable
  split
  · rfl
  · rename_i a ha
    rw [if_neg]
    rintro ⟨h1, h2, h3, h4, h5, h8, h9⟩
    apply h
    have : 1 ≤ accept ∧ accept ≤ 3 := by
      rcases accept with _ | _ | _ | _ | n
      · simp [Accept.ofCode] at ha
      · omega
      · omega
      · omega
      · simp [Accept.ofCode] at ha
    exact ⟨h1, h2, h3, h4, h5, this.1, this.2, h8, h9⟩

/-- The values of the kind-dependent fields of an ENROL (Table 3-2). -/
def EnrolFields.kindInRange (f : EnrolFields) : Prop :=
  f.kind = 1 ∧ f.group < 8 ∧ 1 ≤ f.passes ∧ f.passes ≤ 15 ∨ f.kind = 2 ∨ f.kind = 3

theorem EnrolFields.kindPart_outOfRange (f : EnrolFields) (h : ¬f.kindInRange) : f.kindPart = none := by
  unfold EnrolFields.kindInRange at h
  simp only [EnrolFields.kindPart]
  split
  · simp only [judgePlan]
    split
    · split
      · exact absurd (Or.inl ⟨‹_›, ‹_›, (‹_ ∧ _› : 1 ≤ f.passes ∧ f.passes ≤ 15)⟩) h
      · rfl
    · rfl
  · exact absurd (Or.inr (Or.inl ‹_›)) h
  · exact absurd (Or.inr (Or.inr ‹_›)) h
  · rfl

theorem EnrolFields.kindPart_line (f : EnrolFields) (h : f.kind = 1) (hg : f.group < 8) (h1 : 1 ≤ f.passes)
    (h15 : f.passes ≤ 15) : f.kindPart = some (.line { plan := ⟨⟨f.group, hg⟩, f.passes⟩ }) := by
  simp [EnrolFields.kindPart, h, judgePlan, hg, h1, h15]

theorem EnrolFields.kindPart_datum (f : EnrolFields) (h : f.kind = 2) : f.kindPart = some (.datum {}) := by
  simp [EnrolFields.kindPart, h]

theorem EnrolFields.kindPart_keepout (f : EnrolFields) (h : f.kind = 3) : f.kindPart = some (.keepout {}) := by
  simp [EnrolFields.kindPart, h]

theorem findMark_eq_none {table : List MarkRecord} {mark : Nat} :
    findMark table mark = none ↔ ∀ x ∈ table, x.mark ≠ mark := by simp [findMark]

theorem overlaps_iff (r : MarkRecord) (nominal : Int) (half : Nat) :
    r.overlaps nominal half = true
      ↔ nominal - half ≤ r.nominal.toInt + r.reach ∧ r.nominal.toInt - r.reach ≤ nominal + half := by
  simp [MarkRecord.overlaps, meet]

/-! ### The judging of a new record -/

theorem EnrolFields.record_outOfRange {f : EnrolFields} {shift mark : Nat} {nominal : Int}
    (h : ¬f.inRange shift nominal) : f.record shift mark nominal = none := by
  by_cases hk : f.kindInRange
  · have ha : ¬amendableInRange shift nominal f.half f.minWidth f.maxWidth f.accept := fun ha => h ⟨hk, ha⟩
    simp [EnrolFields.record, judgeAmendable_outOfRange ha]
  · simp [EnrolFields.record, f.kindPart_outOfRange hk]

/-- Fields within their values make their record (R118, R119). -/
theorem EnrolFields.record_inRange {f : EnrolFields} {shift : Nat} (mark : Nat) {nominal : Int}
    (h : f.inRange shift nominal) :
    ∃ r, f.record shift mark nominal = some r ∧ r.fields.half = f.half ∧ f.Makes mark (BitVec.ofInt 48 nominal) r := by
  obtain ⟨hk, ha⟩ := h
  obtain ⟨a, e, hc⟩ := judgeAmendable_inRange ha
  rcases hk with ⟨k1, k2, k3, k4⟩ | k1 | k1
  · refine ⟨_, by simp only [EnrolFields.record, e, f.kindPart_line k1 k2 k3 k4]; rfl, rfl, ?_⟩
    exact ⟨rfl, rfl, rfl, rfl, rfl, rfl, rfl, rfl, hc, fun _ => ⟨_, rfl, rfl, rfl⟩, fun h => by omega, fun h => by omega⟩
  · refine ⟨_, by simp only [EnrolFields.record, e, f.kindPart_datum k1]; rfl, rfl, ?_⟩
    exact ⟨rfl, rfl, rfl, rfl, rfl, rfl, rfl, rfl, hc, fun h => by omega, fun _ => rfl, fun h => by omega⟩
  · refine ⟨_, by simp only [EnrolFields.record, e, f.kindPart_keepout k1]; rfl, rfl, ?_⟩
    exact ⟨rfl, rfl, rfl, rfl, rfl, rfl, rfl, rfl, hc, fun h => by omega, fun h => by omega, fun _ => rfl⟩

/-- All that judging a new record can answer: the code of the check that it fails first, or, where it fails none, the record its
fields make (R118). -/
theorem judgeRecord_spec (s : State) (f : EnrolFields) (mark : Nat) (nominal : Int) (hm : mark < 4096) :
    (∀ code, s.judgeRecord f mark nominal = .inl code → s.failsFirst f mark nominal code)
      ∧ ∀ r, s.judgeRecord f mark nominal = .inr r →
        (∀ code, ¬s.failsFirst f mark nominal code) ∧ f.Makes mark (BitVec.ofInt 48 nominal) r := by
  have hfind := @findMark_eq_none s.table mark
  have hfull : s.tableFull = true ↔ s.table.length = 2048 := by simp [State.tableFull, Config.tableCapacity]
  have hover : (s.table.any fun x => x.overlaps nominal f.half) = true ↔ s.overlapped nominal f.half := by
    simp [State.overlapped, overlaps_iff]
  by_cases h1 : findMark s.table mark = none
  · have fresh := hfind.mp h1
    by_cases h2 : s.table.length = 2048
    · rw [show s.judgeRecord f mark nominal = .inl .full by simp [State.judgeRecord, h1, hfull.mpr h2]]
      refine ⟨?_, by simp⟩
      rintro _ ⟨⟩
      exact .inr (.inr (.inl ⟨rfl, ⟨hm, fresh⟩, h2⟩))
    · have hnf : s.tableFull = false := by simpa using fun h => h2 (hfull.mp h)
      by_cases h3 : f.inRange s.config.shift nominal
      · obtain ⟨r, e, hh, hM⟩ := EnrolFields.record_inRange mark h3
        by_cases h4 : s.overlapped nominal f.half
        · rw [show s.judgeRecord f mark nominal = .inl .overlap by
            simp only [State.judgeRecord, h1, hnf, e, hh, hover.mpr h4]; rfl]
          refine ⟨?_, by simp⟩
          rintro _ ⟨⟩
          exact .inr (.inr (.inr (.inr ⟨rfl, ⟨hm, fresh⟩, h2, h3, h4⟩)))
        · rw [show s.judgeRecord f mark nominal = .inr r by
            simp only [State.judgeRecord, h1, hnf, e, hh, eq_false_of_ne_true fun h => h4 (hover.mp h)]; rfl]
          refine ⟨by simp, ?_⟩
          rintro _ ⟨⟩
          refine ⟨?_, hM⟩
          rintro code (⟨_, h⟩ | ⟨_, _, x, hx, h⟩ | ⟨_, _, h⟩ | ⟨_, _, _, h⟩ | ⟨_, _, _, _, h⟩)
          · omega
          · exact fresh x hx h
          · exact h2 h
          · exact h h3
          · exact h4 h
      · rw [show s.judgeRecord f mark nominal = .inl .range by
          simp [State.judgeRecord, h1, hnf, EnrolFields.record_outOfRange h3]]
        refine ⟨?_, by simp⟩
        rintro _ ⟨⟩
        exact .inr (.inr (.inr (.inl ⟨rfl, ⟨hm, fresh⟩, h2, h3⟩)))
  · have hsome : (findMark s.table mark).isSome = true := by simpa [Option.isSome_iff_ne_none] using h1
    rw [show s.judgeRecord f mark nominal = .inl .alreadyExists by simp [State.judgeRecord, hsome]]
    refine ⟨?_, by simp⟩
    rintro _ ⟨⟩
    refine .inr (.inl ⟨rfl, hm, ?_⟩)
    by_contra hc
    push Not at hc
    exact h1 (hfind.mpr hc)

/-- All that judging one record of a run can answer (R121). -/
theorem judgeRunRecord_spec (s : State) (run : RunRequest) (i : Nat) :
    (∀ code, s.judgeRunRecord run i = .inl code →
        s.failsFirst run.fields (run.firstMark + i) (run.start + i * run.pitch) code)
      ∧ ∀ r, s.judgeRunRecord run i = .inr r →
        (∀ code, ¬s.failsFirst run.fields (run.firstMark + i) (run.start + i * run.pitch) code)
          ∧ run.fields.Makes (run.firstMark + i) (BitVec.ofInt 48 (run.start + i * run.pitch)) r := by
  unfold State.judgeRunRecord
  split
  · rename_i h
    refine ⟨?_, by simp⟩
    rintro _ ⟨⟩
    exact .inl ⟨rfl, h⟩
  · rename_i h
    exact judgeRecord_spec s _ _ _ (Nat.lt_of_not_le h)

/-! ### Insertion and completion -/

/-- Where a record is inserted into an ordered table (R52). -/
theorem insertRecord_split (r : MarkRecord) (table : List MarkRecord)
    (h : table.Pairwise fun a b => a.nominal.toInt < b.nominal.toInt) :
    ∃ low high, table = low ++ high ∧ insertRecord r table = low ++ r :: high
      ∧ (∀ x ∈ low, x.nominal.toInt ≤ r.nominal.toInt) ∧ ∀ x ∈ high, r.nominal.toInt < x.nominal.toInt := by
  induction table with
  | nil => exact ⟨[], [], rfl, rfl, by simp, by simp⟩
  | cons x rest ih =>
    rw [List.pairwise_cons] at h
    simp only [insertRecord]
    split
    · rename_i hlt
      refine ⟨[], x :: rest, rfl, rfl, by simp, fun y hy => ?_⟩
      rcases List.mem_cons.mp hy with rfl | hy
      · exact hlt
      · exact lt_trans hlt (h.1 y hy)
    · rename_i hge
      obtain ⟨low, high, e1, e2, e3, e4⟩ := ih h.2
      refine ⟨x :: low, high, by simp [e1], by simp [e2], fun y hy => ?_, e4⟩
      rcases List.mem_cons.mp hy with rfl | hy
      · omega
      · exact e3 y hy

theorem insertNew_table (s : State) (r : MarkRecord) : (s.insertNew r).table = insertRecord r s.table := by
  simp only [State.insertNew]
  cases r.kind <;> simp only <;> split <;> simp

theorem insertNew_link (s : State) (r : MarkRecord) : (s.insertNew r).link = s.link := by
  simp only [State.insertNew]
  cases r.kind <;> simp only <;> split <;> simp

theorem insertNew_occupancy (s : State) (r : MarkRecord) :
    (s.insertNew r).occupancy = addClaims s.occupancy (r.slots s.config.shift) := by
  simp only [State.insertNew]
  cases r.kind <;> simp only <;> split <;> simp

/-- All that handing over a response changes (R61, R163). -/
theorem handOver_eq (s : State) (status : Status) (bytes : List Byte) :
    s.handOver status bytes = { s with link := s.handed status bytes } := by
  simp only [State.handOver, State.handed]
  split <;> simp_all [State.answer]

/-- The completion of the host operation in progress. -/
theorem exec_tableOperationCompletion (s : State) (op : HostOp) (h : s.operating = true)
    (ho : s.tableOp = some (.host op)) : exec .tableOperationCompletion s = .next (s.finishHostOp op) := by
  simp [exec, execTableOperationCompletion, State.whileOperating, h, ho]

end Sys2Proof.Machine
end

