-- ==== Sys2Proof/Laws/SampleFrames.lean ====
section
/-! SUPPORT. What the line inputs and the pass controller can do to the event unit at an event of a channel, and the whole frame
of a sample event. -/

namespace Sys2Proof.Machine

/-- Two event units that differ at most in counters, in QUEUE_OVERRUN, and in the notice that QUEUE_OVERRUN makes pending. -/
structure EventUnit.SameButOverrun (a b : EventUnit) : Prop where
  flags : ∀ f, f ≠ .queueOverrun → b.has f = a.has f
  enables : b.enables = a.enables
  groupMask : b.groupMask = a.groupMask
  axisMask : b.axisMask = a.axisMask
  lastLinkFault : b.lastLinkFault = a.lastLinkFault
  noticeOn : b.noticeOn = a.noticeOn

namespace EventUnit.SameButOverrun

theorem refl (a : EventUnit) : a.SameButOverrun a := ⟨fun _ _ => rfl, rfl, rfl, rfl, rfl, rfl⟩

theorem trans {a b c : EventUnit} (h : a.SameButOverrun b) (k : b.SameButOverrun c) : a.SameButOverrun c :=
  ⟨fun f hf => (k.flags f hf).trans (h.flags f hf), k.enables.trans h.enables, k.groupMask.trans h.groupMask,
    k.axisMask.trans h.axisMask, k.lastLinkFault.trans h.lastLinkFault, k.noticeOn.trans h.noticeOn⟩

theorem of_eq {a b : EventUnit} (h : b = a) : a.SameButOverrun b := h ▸ refl a

theorem count (a : EventUnit) (k : Counter) (n : Nat) : a.SameButOverrun (a.count k n) :=
  ⟨fun _ _ => rfl, rfl, rfl, rfl, rfl, rfl⟩

theorem overrun (a : EventUnit) : a.SameButOverrun (a.raise .queueOverrun) := by
  refine ⟨fun f hf => ?_, rfl, rfl, rfl, rfl, rfl⟩
  rw [EventUnit.has_raise]
  simp [Ne.symm hf]

theorem enqueue (s : State) (x : Sighting) : s.events.SameButOverrun (s.enqueue x).events := by
  unfold State.enqueue
  split
  · exact refl _
  · exact (count s.events .overrun 1).trans (overrun _)

theorem tagSighting (s : State) (i : LineId) (c : Position) (w : Nat) (a : Option Position) :
    s.events.SameButOverrun (s.tagSighting i c w a).events := by
  unfold State.tagSighting
  split
  · simp only
    split
    · unfold State.prefilter
      split
      · exact count s.events _ _
      · exact enqueue s _
    · exact enqueue s _
    · exact count s.events _ _
  · exact count s.events _ _

theorem setLine (s : State) (i : LineId) (l : LineInput) : s.events.SameButOverrun (s.setLine i l).events :=
  of_eq (by simp)

theorem formLine (s : State) (i : LineId) : s.events.SameButOverrun (s.formLine i).events := by
  unfold State.formLine
  split
  · exact refl _
  · split
    · exact refl _
    · exact (setLine s i _).trans (count _ _ _)
    · exact (setLine s i _).trans (tagSighting _ _ _ _ _)

theorem formSightings (s : State) : s.events.SameButOverrun s.formSightings.events :=
  (formLine s _).trans (formLine _ _)

theorem putGuarded (s : State) (i : LineId) (g : LineInput × Bool) :
    s.events.SameButOverrun (s.putGuarded i g).events := by
  unfold State.putGuarded
  simp only
  split
  · exact (setLine s i _).trans (count _ _ _)
  · exact setLine s i _

theorem linesSee (s : State) (k : ChannelIx) (p : Nat → Position) (st : ChannelState) (left : Bool)
    (q : Option Position) : s.events.SameButOverrun (s.linesSee k p st left q).events :=
  (putGuarded _ _ _).trans (putGuarded _ _ _)

theorem arbitrate (s : State) : s.events.SameButOverrun s.arbitrate.events := of_eq (by simp)

theorem abortLivePass (s : State) (cause : AbortCause) : s.events.SameButOverrun (s.abortLivePass cause).events := by
  unfold State.abortLivePass
  split
  · simp only [State.emptyQueue]
    split
    · exact count _ _ _
    · exact refl _
  · exact refl _

theorem closeLivePass (s : State) : s.events.SameButOverrun s.closeLivePass.events := of_eq (by simp)

theorem testCrossing (s : State) (p : Position) : s.events.SameButOverrun (s.testCrossing p).events := by
  unfold State.testCrossing
  split
  · exact refl _
  · split
    · split
      · exact closeLivePass s
      · exact abortLivePass s _
    · exact refl _

theorem passSees (s : State) (k : ChannelIx) (left : Bool) (p : Position) :
    s.events.SameButOverrun (s.passSees k left p).events := by
  unfold State.passSees
  split
  · split
    · exact abortLivePass s _
    · exact testCrossing s p
  · exact refl _

end EventUnit.SameButOverrun

/-- What the forming of sightings and the pass controller leave alone at the end of a sample event. -/
theorem State.settleEvent_frame (s : State) (first : MeetOrder) (k : ChannelIx) (left : Bool) (p : Position) :
    let t := s.settleEvent first fun t => t.passSees k left p
    t.pending = s.pending ∧ t.channels = s.channels ∧ t.period = s.period ∧ t.monitor = s.monitor ∧ t.config = s.config ∧ t.table = s.table
      ∧ t.occupancy = s.occupancy ∧ t.groups = s.groups ∧ t.protection = s.protection ∧ t.link = s.link
      ∧ t.supply = s.supply ∧ t.resetPinLow = s.resetPinLow ∧ s.events.SameButOverrun t.events := by
  refine ⟨?_, ?_, ?_, ?_, ?_, ?_, ?_, ?_, ?_, ?_, ?_, ?_, ?_⟩
  iterate 12 cases first <;> simp [State.settleEvent]
  cases first
  · exact ((EventUnit.SameButOverrun.formSightings s).trans (.passSees _ _ _ _)).trans (.arbitrate _)
  · exact ((EventUnit.SameButOverrun.passSees s _ _ _).trans (.formSightings _)).trans (.arbitrate _)
  · exact (((EventUnit.SameButOverrun.formLine s _).trans (.passSees _ _ _ _)).trans (.formLine _ _)).trans (.arbitrate _)

/-- The frame of a sample event: the channel itself, and of the event unit the reports of its change of state. -/
theorem State.sampleChannel_frame (s : State) (k : ChannelIx) (increment : Int) (amplitude : Nat) (first : MeetOrder) :
    let t := s.sampleChannel k increment amplitude first
    let c := ((s.channel k).sample increment amplitude).1
    t.pending = s.pending ∧ t.channels = s.channels.set k c ∧ t.period = (s.enterPeriod k).period ∧ t.monitor = s.monitor ∧ t.config = s.config
      ∧ t.table = s.table ∧ t.occupancy = s.occupancy ∧ t.groups = s.groups ∧ t.protection = s.protection
      ∧ t.link = s.link ∧ t.supply = s.supply ∧ t.resetPinLow = s.resetPinLow
      ∧ (s.events.transition k (s.channel k).state c.state).SameButOverrun t.events := by
  simp only [State.sampleChannel]
  obtain ⟨h1, h2, h3, h4, h5, h6, h7, h8, h9, h10, h11, h12, h13⟩ := State.settleEvent_frame _ first k _ _
  exact ⟨h1.trans (by simp), h2.trans (by simp), h3.trans (by simp), h4.trans (by simp), h5.trans (by simp),
    h6.trans (by simp), h7.trans (by simp), h8.trans (by simp), h9.trans (by simp), h10.trans (by simp),
    h11.trans (by simp), h12.trans (by simp),
    (EventUnit.SameButOverrun.linesSee ((s.enterPeriod k).putChannel k _) k _ _ _ _).trans h13⟩

/-- A sample event that reaches its channel. -/
theorem exec_sampleEvent (s : State) (k : ChannelIx) (increment : Int) (amplitude : Fin 256) (first : MeetOrder)
    (ho : s.operating = true) (hm : s.monitor = .present) (hc : (s.channel k).state ≠ .off) :
    exec (.sampleEvent k increment amplitude first) s = .next (s.sampleChannel k increment amplitude.val first) := by
  simp [exec, execSampleEvent, State.whileOperating, ho, hm, hc]

theorem Channel.sensed_eq (c : Channel) (i : Int) : c.sensed i = if c.sense = .inverted then -i else i := by
  unfold Channel.sensed
  cases c.sense <;> simp

theorem Channel.natAbs_sensed (c : Channel) (i : Int) : (c.sensed i).natAbs = i.natAbs := by
  unfold Channel.sensed
  cases c.sense <;> simp

end Sys2Proof.Machine
end

