-- ==== Sys2Proof/Laws/LineNews.lean ====
section
/-! SUPPORT. All that an event of the channels can do to the line inputs before a sighting is formed: the machine after `linesSee`
tells them the channel's news, and after the loss of the reference that of all six. -/

namespace Sys2Proof.Machine

/-! ### Snapshots -/

theorem Snapshot.after_none (x : Snapshot) : x.after none = x := by cases x <;> rfl

theorem Snapshot.complete_eq_after (x : Snapshot) (e : ChannelNews) : x.complete e.edge e.state = x.after (some e) := by
  cases x <;> rfl

theorem Snapshot.after_only (x : Snapshot) (j k : ChannelIx) (e : ChannelNews) :
    (if j = k then x.complete e.edge e.state else x) = x.after (LineNews.only k e j) := by
  unfold LineNews.only
  split
  · exact x.complete_eq_after e
  · exact x.after_none.symm

theorem EdgeSnapshots.complete_eq_after (x : EdgeSnapshots) (axis : ChannelIx) (pair : Option (ChannelIx × ChannelIx))
    (k : ChannelIx) (e : ChannelNews) :
    x.complete axis pair k e.edge e.state = x.after (LineNews.only k e) axis pair := by
  obtain ⟨a, xy⟩ := x
  simp only [EdgeSnapshots.complete, EdgeSnapshots.after, Snapshot.after_only]
  congr 1
  rcases pair with _ | ⟨p, q⟩ <;> rcases xy with _ | ⟨x, y⟩ <;> rfl

theorem EdgeSnapshots.after_congr {news news' : LineNews} (axis : ChannelIx) (pair : Option (ChannelIx × ChannelIx))
    (x : EdgeSnapshots) (h : ∀ j, news j = news' j) : x.after news axis pair = x.after news' axis pair := by
  rw [funext h]

/-! ### One input and the news of one channel -/

theorem OpenLine.spoiled_iff (o : OpenLine) (k : ChannelIx) (e : ChannelNews) :
    (decide (o.axis = k) && (o.completeLeading k e.edge e.state).spoiled e.left e.sampled) = true
      ↔ o.discardedBy (LineNews.only k e) := by
  by_cases hk : o.axis = k
  · have hl : (o.completeLeading k e.edge e.state).leading.axis = o.leading.axis.after (some e) := by
      simp only [OpenLine.completeLeading, EdgeSnapshots.complete, if_pos hk, Snapshot.complete_eq_after]
    have hs : (o.completeLeading k e.edge e.state).span = o.span := rfl
    simp only [OpenLine.discardedBy, LineNews.only, hk, if_true, Option.some.injEq, decide_true, Bool.true_and,
      OpenLine.spoiled, hl, hs, exists_eq_left']
    cases hx : o.leading.axis.after (some e) with
    | waiting n => simp
    | completed p st => cases e.sampled <;> simp
  · simp [OpenLine.discardedBy, LineNews.only, hk]

theorem LineInput.hears_see (l : LineInput) (k : ChannelIx) (e : ChannelNews) :
    l.Hears (LineNews.only k e) ((l.completeSnapshots k e.edge e.state).guardOpen k e.left e.sampled).1
      ∧ l.smears ((l.completeSnapshots k e.edge e.state).guardOpen k e.left e.sampled).1
          = (((l.completeSnapshots k e.edge e.state).guardOpen k e.left e.sampled).2).toNat := by
  have hc : (l.closing.map fun c => c.complete k e.edge e.state) = l.closing.map fun c =>
      ⟨{ c.line with leading := c.line.leading.after (LineNews.only k e) c.line.axis c.line.pair },
        c.trailing.after (LineNews.only k e) c.line.axis c.line.pair⟩ := by
    congr 1
    funext c
    simp only [ClosingLine.complete, OpenLine.completeLeading, EdgeSnapshots.complete_eq_after]
  cases hp : l.phase with
  | quiet =>
    simp only [LineInput.completeSnapshots, hp, LineInput.guardOpen, LineInput.smears, Bool.toNat_false, and_true]
    exact ⟨rfl, fun o h => (nomatch hp.symm.trans h), fun o h => (nomatch hp.symm.trans h), fun _ => hp.symm, hc⟩
  | discarding o =>
    simp only [LineInput.completeSnapshots, hp, LineInput.guardOpen, LineInput.smears, Bool.toNat_false, and_true]
    exact ⟨rfl, fun o h => (nomatch hp.symm.trans h), fun o h => (nomatch hp.symm.trans h), fun _ => hp.symm, hc⟩
  | inLine o =>
    have hl : o.completeLeading k e.edge e.state
        = { o with leading := o.leading.after (LineNews.only k e) o.axis o.pair } := by
      simp only [OpenLine.completeLeading, EdgeSnapshots.complete_eq_after]
    have hd := o.spoiled_iff k e
    have hax : (o.completeLeading k e.edge e.state).axis = o.axis := rfl
    simp only [LineInput.completeSnapshots, hp, LineInput.guardOpen, LineInput.smears, hax]
    by_cases h : o.discardedBy (LineNews.only k e)
    · rw [if_pos (hd.mpr h)]
      refine ⟨⟨rfl, fun o' h' hn => ?_, fun o' h' _ => ?_, fun hn => absurd hp (hn o), hc⟩, rfl⟩
      · cases hp.symm.trans h'
        exact absurd h hn
      · cases hp.symm.trans h'
        exact ⟨_, by rw [hl]⟩
    · rw [if_neg fun hs => h (hd.mp hs)]
      refine ⟨⟨rfl, fun o' h' _ => ?_, fun o' h' hy => ?_, fun hn => absurd hp (hn o), hc⟩, rfl⟩
      · cases hp.symm.trans h'
        exact congrArg LinePhase.inLine hl
      · cases hp.symm.trans h'
        exact absurd hy h

/-! ### Both inputs -/

/-- The counters after the guard of an input, whether it discards the line or not. -/
theorem State.putGuarded_counters (s : State) (i : LineId) (g : LineInput × Bool) (h : s.events.counters.smear ≤ 65535) :
    (s.putGuarded i g).events.counters =
      { s.events.counters with smear := min 65535 (s.events.counters.smear + g.2.toNat) } := by
  obtain ⟨l, b⟩ := g
  cases b
  · simp [State.putGuarded, h]
  · simp [State.putGuarded, State.count, EventUnit.count, Counters.add, saturate, Config.counterCeiling]

theorem State.putGuarded_rest (s : State) (i : LineId) (g : LineInput × Bool) :
    s.putGuarded i g = { s.setLine i g.1 with events := (s.putGuarded i g).events } := by
  obtain ⟨l, b⟩ := g
  cases b <;> cases i <;> rfl

theorem State.line_putGuarded (s : State) (i j : LineId) (g : LineInput × Bool) :
    (s.putGuarded i g).line j = if j = i then g.1 else s.line j := by
  obtain ⟨l, b⟩ := g
  cases b <;> cases i <;> cases j <;> rfl

/-- All that `linesSee` does: both inputs hear the news of the channel, and each discarded line counts one SMEAR. -/
theorem State.tellsLines_linesSee (s : State) (k : ChannelIx) (e : ChannelNews) :
    s.TellsLines (LineNews.only k e) (s.linesSee k e.edge e.state e.left e.sampled) := by
  let g1 := (s.line1.completeSnapshots k e.edge e.state).guardOpen k e.left e.sampled
  let s1 := s.putGuarded .l1 g1
  let g2 := (s.line2.completeSnapshots k e.edge e.state).guardOpen k e.left e.sampled
  have hl2 : s1.line2 = s.line2 := s.line_putGuarded .l1 .l2 g1
  have hu : s.linesSee k e.edge e.state e.left e.sampled = s1.putGuarded .l2 g2 := by
    simp only [State.linesSee, State.lineSees, State.line]
    rw [show (s.putGuarded .l1 ((s.line1.completeSnapshots k e.edge e.state).guardOpen k e.left e.sampled)).line2
      = s.line2 from hl2]
  have h1 : (s1.putGuarded .l2 g2).line1 = g1.1 := (s1.line_putGuarded .l2 .l1 g2).trans (s.line_putGuarded .l1 .l1 g1)
  have h2 : (s1.putGuarded .l2 g2).line2 = g2.1 := s1.line_putGuarded .l2 .l2 g2
  rw [hu]
  refine ⟨?_, ?_, ?_⟩
  · rintro (_ | _)
    · change LineInput.Hears _ s.line1 (s1.putGuarded .l2 g2).line1
      rw [h1]
      exact (s.line1.hears_see k e).1
    · change LineInput.Hears _ s.line2 (s1.putGuarded .l2 g2).line2
      rw [h2]
      exact (s.line2.hears_see k e).1
  · intro h
    have c1 := s.putGuarded_counters .l1 g1 h
    have c2 := s1.putGuarded_counters .l2 g2 (by rw [c1]; exact min_le_left _ _)
    rw [c2, c1, h1, h2, (s.line1.hears_see k e).2, (s.line2.hears_see k e).2]
    simp only [Counters.mk.injEq, true_and, and_true]
    change min 65535 (min 65535 (s.events.counters.smear + g1.2.toNat) + g2.2.toNat)
      = min 65535 (s.events.counters.smear + g1.2.toNat + g2.2.toNat)
    omega
  · rw [s1.putGuarded_rest .l2 g2]
    have hr := s.putGuarded_rest .l1 g1
    have : s1 = { s.setLine .l1 g1.1 with events := s1.events } := hr
    rw [this]
    rfl

/-! ### The news of several channels in one event -/

/-- The news of the channels of a list. -/
def LineNews.among (news : LineNews) (ks : List ChannelIx) : LineNews := fun j => if j ∈ ks then news j else none

/-- Hearing the news of some channels and then that of another is hearing them together. -/
theorem LineInput.Hears.snoc {news : LineNews} {ks : List ChannelIx} {k : ChannelIx} {e : ChannelNews} {l m r : LineInput}
    (hk : k ∉ ks) (he : news k = some e) (h1 : l.Hears (news.among ks) m) (h2 : m.Hears (LineNews.only k e) r) :
    l.Hears (news.among (ks ++ [k])) r ∧ l.smears r = l.smears m + m.smears r := by
  have hat : ∀ j, (news.among (ks ++ [k])) j = if j = k then some e else news.among ks j := by
    intro j
    by_cases hj : j = k
    · subst hj; simp [LineNews.among, he]
    · simp [LineNews.among, hj]
  have hnone : news.among ks k = none := by simp [LineNews.among, hk]
  have hsnap : ∀ (j : ChannelIx) (x : Snapshot),
      (x.after (news.among ks j)).after (LineNews.only k e j) = x.after (news.among (ks ++ [k]) j) := by
    intro j x
    rw [hat]
    by_cases hj : j = k
    · subst hj; simp [hnone, Snapshot.after_none, LineNews.only]
    · simp [LineNews.only, hj, Snapshot.after_none]
  have hedge : ∀ (x : EdgeSnapshots) a p, (x.after (news.among ks) a p).after (LineNews.only k e) a p
      = x.after (news.among (ks ++ [k])) a p := by
    intro x a p
    obtain ⟨x, xy⟩ := x
    rcases p with _ | ⟨p, q⟩ <;> rcases xy with _ | ⟨y, z⟩ <;> simp [EdgeSnapshots.after, hsnap]
  have hdisc : ∀ o : OpenLine, o.discardedBy (news.among (ks ++ [k])) ↔ o.discardedBy (news.among ks)
      ∨ OpenLine.discardedBy (LineNews.only k e) { o with leading := o.leading.after (news.among ks) o.axis o.pair } := by
    intro o
    simp only [OpenLine.discardedBy, hat]
    by_cases ha : o.axis = k
    · simp [ha, hnone, LineNews.only, EdgeSnapshots.after, Snapshot.after_none]
    · simp [ha, LineNews.only]
  have hrest : r = { l with phase := r.phase, closing := r.closing } := by rw [h2.rest, h1.rest]
  have hclosing : r.closing = l.closing.map fun c =>
      ⟨{ c.line with leading := c.line.leading.after (news.among (ks ++ [k])) c.line.axis c.line.pair },
        c.trailing.after (news.among (ks ++ [k])) c.line.axis c.line.pair⟩ := by
    rw [h2.closing, h1.closing, Option.map_map]
    congr 1
    funext c
    simp only [Function.comp, hedge]
  by_cases hin : ∃ o, l.phase = .inLine o
  · obtain ⟨o, ho⟩ := hin
    by_cases hd1 : o.discardedBy (news.among ks)
    · obtain ⟨x, hx⟩ := h1.discarded o ho hd1
      have hr : r.phase = .discarding { o with leading := x } := (h2.others fun o' h' => nomatch hx.symm.trans h').trans hx
      refine ⟨⟨hrest, fun o' h' hn => ?_, fun o' h' _ => ?_, fun hn => absurd ho (hn o), hclosing⟩, ?_⟩
      · cases ho.symm.trans h'
        exact absurd ((hdisc o).mpr (.inl hd1)) hn
      · cases ho.symm.trans h'
        exact ⟨x, hr⟩
      · simp [LineInput.smears, ho, hx, hr]
    · have hm := h1.kept o ho hd1
      by_cases hd2 : OpenLine.discardedBy (LineNews.only k e) { o with leading := o.leading.after (news.among ks) o.axis o.pair }
      · obtain ⟨x, hx⟩ := h2.discarded _ hm hd2
        refine ⟨⟨hrest, fun o' h' hn => ?_, fun o' h' _ => ?_, fun hn => absurd ho (hn o), hclosing⟩, ?_⟩
        · cases ho.symm.trans h'
          exact absurd ((hdisc o).mpr (.inr hd2)) hn
        · cases ho.symm.trans h'
          exact ⟨x, hx⟩
        · simp [LineInput.smears, ho, hm, hx]
      · have hr := h2.kept _ hm hd2
        refine ⟨⟨hrest, fun o' h' _ => ?_, fun o' h' hy => ?_, fun hn => absurd ho (hn o), hclosing⟩, ?_⟩
        · cases ho.symm.trans h'
          rw [hr]
          simp only [hedge]
        · cases ho.symm.trans h'
          rcases (hdisc o).mp hy with h | h
          · exact absurd h hd1
          · exact absurd h hd2
        · simp [LineInput.smears, ho, hm, hr]
  · have hn : ∀ o, l.phase ≠ .inLine o := fun o h => hin ⟨o, h⟩
    have hm := h1.others hn
    have hr := (h2.others fun o h => hn o (hm.symm.trans h)).trans hm
    refine ⟨⟨hrest, fun o h => absurd h (hn o), fun o h => absurd h (hn o), fun _ => hr, hclosing⟩, ?_⟩
    simp only [LineInput.smears, hm, hr]
    cases hp : l.phase with
    | inLine o => exact absurd hp (hn o)
    | quiet => rfl
    | discarding o => rfl

/-- Telling the lines the news of some channels and then of another is telling them together. -/
theorem State.TellsLines.snoc {news : LineNews} {ks : List ChannelIx} {k : ChannelIx} {e : ChannelNews} {s u : State}
    (hk : k ∉ ks) (he : news k = some e) (h : s.TellsLines (news.among ks) u) :
    s.TellsLines (news.among (ks ++ [k])) (u.linesSee k e.edge e.state e.left e.sampled) := by
  have h2 := u.tellsLines_linesSee k e
  refine ⟨fun i => ((h.lines i).snoc hk he (h2.lines i)).1, ?_, ?_⟩
  · intro hb
    have l1 := ((h.lines .l1).snoc hk he (h2.lines .l1)).2
    have l2 := ((h.lines .l2).snoc hk he (h2.lines .l2)).2
    simp only [State.line] at l1 l2
    rw [h2.counters (by rw [h.counters hb]; exact min_le_left _ _), h.counters hb, l1, l2]
    simp only [Counters.mk.injEq, true_and, and_true]
    omega
  · have hs := h.rest
    have hu := h2.rest
    generalize u.linesSee k e.edge e.state e.left e.sampled = r at hu ⊢
    clear h h2
    cases s; cases u; cases r
    simp_all

/-- An event that tells nothing. -/
theorem State.tellsLines_nothing (s : State) (news : LineNews) :
    s.TellsLines (news.among []) s := by
  have hs : ∀ x : Snapshot, x.after none = x := Snapshot.after_none
  have he : ∀ (x : EdgeSnapshots) a p, x.after (news.among []) a p = x := by
    intro x a p
    obtain ⟨x, xy⟩ := x
    rcases p with _ | ⟨p, q⟩ <;> rcases xy with _ | ⟨y, z⟩ <;> simp [EdgeSnapshots.after, LineNews.among, hs]
  have hl : ∀ l : LineInput, l.Hears (news.among []) l ∧ l.smears l = 0 := by
    intro l
    refine ⟨⟨rfl, fun o ho _ => ?_, fun o _ hd => ?_, fun _ => rfl, ?_⟩, ?_⟩
    · rw [he]; exact ho
    · obtain ⟨e, hx, _⟩ := hd
      simp [LineNews.among] at hx
    · simp only [he]
      exact by simp
    · unfold LineInput.smears
      cases l.phase <;> rfl
  refine ⟨fun i => (hl _).1, fun h => ?_, rfl⟩
  rw [(hl s.line1).2, (hl s.line2).2]
  simp [h]

/-- The fold of `linesSee` over all six channels tells the news of each. -/
theorem State.tellsLines_all (s : State) (news : ChannelIx → ChannelNews) :
    s.TellsLines (fun k => some (news k))
      ((List.finRange 6).foldl
        (fun t k => t.linesSee k (news k).edge (news k).state (news k).left (news k).sampled) s) := by
  have step : ∀ (rest done : List ChannelIx) (u : State), (done ++ rest).Nodup →
      s.TellsLines (LineNews.among (fun k => some (news k)) done) u →
      s.TellsLines (LineNews.among (fun k => some (news k)) (done ++ rest))
        (rest.foldl (fun t k => t.linesSee k (news k).edge (news k).state (news k).left (news k).sampled) u) := by
    intro rest
    induction rest with
    | nil => intro done u _ hu; simpa using hu
    | cons k rest ih =>
      intro done u hn hu
      have hk : k ∉ done := by
        intro hm
        exact (List.nodup_append.mp hn).2.2 k hm k (by simp) rfl
      have := ih (done ++ [k]) _ (by simpa using hn) (hu.snoc hk rfl)
      simpa using this
  have := step (List.finRange 6) [] s (by simpa using List.nodup_finRange 6) (s.tellsLines_nothing _)
  rwa [show LineNews.among (fun k => some (news k)) ([] ++ List.finRange 6) = fun k => some (news k) by
    funext j; simp [LineNews.among]] at this

/-! ### The end of the event -/

theorem State.abortLivePass_eq (s : State) (cause : AbortCause) (h : cause ≠ .reset) :
    s.abortLivePass cause = s.takesAbort cause := by
  have hl : s.pass.state.live = true ↔ s.pass.state = .arming ∨ s.pass.state = .running := by
    cases s.pass.state <;> simp [PassState.live]
  unfold State.abortLivePass State.takesAbort
  by_cases hs : s.pass.state.live = true
  · rw [if_pos hs, if_pos (hl.mp hs)]
    simp [State.emptyQueue, h]
  · rw [if_neg hs, if_neg fun hx => hs (hl.mpr hx)]

/-- `settleEvent` is the end of an event as the statements spell it, where the pass controller leaves the order of the closing
lines alone. -/
theorem State.settleEvent_eq (s : State) (first : MeetOrder) (ends : State → State)
    (h : ∀ v, (ends v).earlierClosing = v.earlierClosing) : s.settleEvent first ends = s.concludes first ends := by
  cases first <;> simp only [State.settleEvent, State.concludes, State.formSightings, h] <;>
    cases s.earlierClosing <;> simp only [otherLine]

/-! ### Sample events -/

theorem Channel.sample_integrated (c : Channel) (increment : Int) (amplitude : Nat) :
    (c.sample increment amplitude).2 = c.integrated increment amplitude := by
  unfold Channel.sample Channel.integrated
  have hs := c.sensed_eq increment
  cases c.state <;> simp only [hs]
  · rw [← hs, c.natAbs_sensed]
    by_cases h1 : amplitude < c.loseLevel
    · simp [h1, Nat.not_le.mpr h1]
    · by_cases h2 : c.rateLimit < increment.natAbs
      · simp [h1, h2, Nat.not_le.mpr h2]
      · simp [h1, h2, Nat.not_lt.mp h1, Nat.not_lt.mp h2]
  · by_cases h1 : amplitude < c.loseLevel
    · simp [h1, Nat.not_le.mpr h1]
    · simp only [h1, Nat.not_lt.mp h1, if_true, if_false]
      split <;> rfl

theorem EventUnit.transition_counters (e : EventUnit) (k : ChannelIx) (a b : ChannelState) :
    (e.transition k a b).counters = e.counters := by
  unfold EventUnit.transition
  split <;> simp only <;> split <;> rfl

/-- Everything a sample event does before a sighting is formed: its channel, and the news of it to both inputs. -/
theorem State.sampleChannel_eq (s : State) (k : ChannelIx) (increment : Int) (amplitude : Nat) (first : MeetOrder) :
    let c := s.channel k
    let c' := (c.sample increment amplitude).1
    ∃ u, s.TellsLines (LineNews.only k (.ofSample c c' increment amplitude)) u ∧ u.channels = s.channels.set k c'
      ∧ u.monitor = s.monitor
      ∧ s.sampleChannel k increment amplitude first = u.settleEvent first fun t =>
          t.passSees k (decide (c.state = .tracking ∧ c'.state ≠ .tracking)) c'.position := by
  intro c c'
  let e := ChannelNews.ofSample c c' increment amplitude
  have ht := ((s.enterPeriod k).putChannel k c').tellsLines_linesSee k e
  refine ⟨((s.enterPeriod k).putChannel k c').linesSee k e.edge e.state e.left e.sampled, ?_, by simp, by simp, ?_⟩
  · have hr := ht.rest
    generalize ((s.enterPeriod k).putChannel k c').linesSee k e.edge e.state e.left e.sampled = u at ht hr ⊢
    have hc : ((s.enterPeriod k).putChannel k c').events.counters = s.events.counters :=
      EventUnit.transition_counters _ _ _ _
    refine ⟨fun i => ?_, fun h => ?_, by rw [hr]; rfl⟩
    · have := ht.lines i
      cases i <;> exact this
    · have := ht.counters (by rw [hc]; exact h)
      rw [hc] at this
      exact this
  · have hi : e.edge = interpolate c.position (c.sample increment amplitude).2 := by
      rw [c.sample_integrated]
      rfl
    simp only [State.sampleChannel, hi]
    rfl

/-! ### The phase of an input at the end of an event -/

/-- Forming a closing line leaves the open line of either input alone (R35). -/
theorem State.formLine_phase (s : State) (i j : LineId) : ((s.formLine i).line j).phase = (s.line j).phase := by
  have ht : ∀ (v : State) c w a, (v.tagSighting i c w a).line j = v.line j := by
    intro v c w a
    cases j <;> simp [State.line]
  unfold State.formLine
  split
  · rfl
  · split
    · rfl
    · cases i <;> cases j <;> rfl
    · rw [ht]
      cases i <;> cases j <;> rfl

theorem State.concludes_phase (s : State) (first : MeetOrder) (ends : State → State) (j : LineId)
    (h : ∀ v, (ends v).line j = v.line j) : ((s.concludes first ends).line j).phase = (s.line j).phase := by
  have ha : ∀ v : State, v.arbitrate.line j = v.line j := by
    intro v
    cases j <;> simp [State.line]
  cases first <;> simp [State.concludes, ha, State.formLine_phase, h]

end Sys2Proof.Machine
end

