-- ==== Sys2Proof/Laws/PerInstr.lean ====
section
/-! SUPPORT. One lemma per command: the request a command is, framed by its code and parameter bytes, is the command that the
decoder reads from them (Table 12-3). -/

namespace Sys2Proof.Laws.Catalogue

/-- A command that is a request is what its own code and parameters decode to. -/
def Statement (i : Instr) : Prop :=
  ∀ code params, i.request? = some (code, params) → ∃ first, requestCommand first code params = some i

theorem sampleEvent (channel : ChannelIx) (increment : Int) (amplitude : Fin 256) (first : MeetOrder) : Statement (.sampleEvent channel increment amplitude first) :=
  fun _ _ h => nomatch (h : none = some _)

theorem referenceAbsenceTimeout (first : MeetOrder) : Statement (.referenceAbsenceTimeout first) :=
  fun _ _ h => nomatch (h : none = some _)

theorem referenceEdge : Statement (.referenceEdge) :=
  fun _ _ h => nomatch (h : none = some _)

theorem leadingEdge (input : LineId) (phase : Fin 256) : Statement (.leadingEdge input phase) :=
  fun _ _ h => nomatch (h : none = some _)

theorem trailingEdge (input : LineId) (phase : Fin 256) : Statement (.trailingEdge input phase) :=
  fun _ _ h => nomatch (h : none = some _)

theorem matchCompletion : Statement (.matchCompletion) :=
  fun _ _ h => nomatch (h : none = some _)

theorem datumOffsetClaim : Statement (.datumOffsetClaim) :=
  fun _ _ h => nomatch (h : none = some _)

theorem armSweepCompletion : Statement (.armSweepCompletion) :=
  fun _ _ h => nomatch (h : none = some _)

theorem closeSweepCompletion : Statement (.closeSweepCompletion) :=
  fun _ _ h => nomatch (h : none = some _)

theorem abortSweepCompletion : Statement (.abortSweepCompletion) :=
  fun _ _ h => nomatch (h : none = some _)

theorem tableOperationCompletion : Statement (.tableOperationCompletion) :=
  fun _ _ h => nomatch (h : none = some _)

theorem passTimerExpiry : Statement (.passTimerExpiry) :=
  fun _ _ h => nomatch (h : none = some _)

theorem setAxis (params : List Byte) (first : MeetOrder) : Statement (.setAxis params first) :=
  fun _ _ h => match (h : some (_, _) = some _) with | rfl => ⟨first, rfl⟩

theorem trackAxis (params : List Byte) : Statement (.trackAxis params) :=
  fun _ _ h => match (h : some (_, _) = some _) with | rfl => ⟨.formationFirst, rfl⟩

theorem restartAxis (params : List Byte) : Statement (.restartAxis params) :=
  fun _ _ h => match (h : some (_, _) = some _) with | rfl => ⟨.formationFirst, rfl⟩

theorem zeroAxis (params : List Byte) : Statement (.zeroAxis params) :=
  fun _ _ h => match (h : some (_, _) = some _) with | rfl => ⟨.formationFirst, rfl⟩

theorem readAxes (params : List Byte) : Statement (.readAxes params) :=
  fun _ _ h => match (h : some (_, _) = some _) with | rfl => ⟨.formationFirst, rfl⟩

theorem setMatch (params : List Byte) : Statement (.setMatch params) :=
  fun _ _ h => match (h : some (_, _) = some _) with | rfl => ⟨.formationFirst, rfl⟩

theorem setLine (params : List Byte) : Statement (.setLine params) :=
  fun _ _ h => match (h : some (_, _) = some _) with | rfl => ⟨.formationFirst, rfl⟩

theorem readLines (params : List Byte) : Statement (.readLines params) :=
  fun _ _ h => match (h : some (_, _) = some _) with | rfl => ⟨.formationFirst, rfl⟩

theorem enrol (params : List Byte) : Statement (.enrol params) :=
  fun _ _ h => match (h : some (_, _) = some _) with | rfl => ⟨.formationFirst, rfl⟩

theorem enrolRun (params : List Byte) : Statement (.enrolRun params) :=
  fun _ _ h => match (h : some (_, _) = some _) with | rfl => ⟨.formationFirst, rfl⟩

theorem amend (params : List Byte) : Statement (.amend params) :=
  fun _ _ h => match (h : some (_, _) = some _) with | rfl => ⟨.formationFirst, rfl⟩

theorem retire (params : List Byte) : Statement (.retire params) :=
  fun _ _ h => match (h : some (_, _) = some _) with | rfl => ⟨.formationFirst, rfl⟩

theorem reopen (params : List Byte) : Statement (.reopen params) :=
  fun _ _ h => match (h : some (_, _) = some _) with | rfl => ⟨.formationFirst, rfl⟩

theorem lookup (params : List Byte) : Statement (.lookup params) :=
  fun _ _ h => match (h : some (_, _) = some _) with | rfl => ⟨.formationFirst, rfl⟩

theorem readRange (params : List Byte) : Statement (.readRange params) :=
  fun _ _ h => match (h : some (_, _) = some _) with | rfl => ⟨.formationFirst, rfl⟩

theorem beginPass (params : List Byte) : Statement (.beginPass params) :=
  fun _ _ h => match (h : some (_, _) = some _) with | rfl => ⟨.formationFirst, rfl⟩

theorem abortPass (params : List Byte) : Statement (.abortPass params) :=
  fun _ _ h => match (h : some (_, _) = some _) with | rfl => ⟨.formationFirst, rfl⟩

theorem readPass (params : List Byte) : Statement (.readPass params) :=
  fun _ _ h => match (h : some (_, _) = some _) with | rfl => ⟨.formationFirst, rfl⟩

theorem readGroups (params : List Byte) : Statement (.readGroups params) :=
  fun _ _ h => match (h : some (_, _) = some _) with | rfl => ⟨.formationFirst, rfl⟩

theorem protect (params : List Byte) : Statement (.protect params) :=
  fun _ _ h => match (h : some (_, _) = some _) with | rfl => ⟨.formationFirst, rfl⟩

theorem unprotect (params : List Byte) : Statement (.unprotect params) :=
  fun _ _ h => match (h : some (_, _) = some _) with | rfl => ⟨.formationFirst, rfl⟩

theorem readProtect (params : List Byte) : Statement (.readProtect params) :=
  fun _ _ h => match (h : some (_, _) = some _) with | rfl => ⟨.formationFirst, rfl⟩

theorem readEvents (params : List Byte) : Statement (.readEvents params) :=
  fun _ _ h => match (h : some (_, _) = some _) with | rfl => ⟨.formationFirst, rfl⟩

theorem clearEvents (params : List Byte) : Statement (.clearEvents params) :=
  fun _ _ h => match (h : some (_, _) = some _) with | rfl => ⟨.formationFirst, rfl⟩

theorem setNotice (params : List Byte) : Statement (.setNotice params) :=
  fun _ _ h => match (h : some (_, _) = some _) with | rfl => ⟨.formationFirst, rfl⟩

theorem identify (params : List Byte) : Statement (.identify params) :=
  fun _ _ h => match (h : some (_, _) = some _) with | rfl => ⟨.formationFirst, rfl⟩

theorem reset (params : List Byte) : Statement (.reset params) :=
  fun _ _ h => match (h : some (_, _) = some _) with | rfl => ⟨.formationFirst, rfl⟩

theorem unknownRequest (code : UnknownCode) (params : List Byte) : Statement (.unknownRequest code params) :=
  fun _ _ h => match (h : some (code.code, params) = some _) with | rfl => ⟨.formationFirst, dif_pos code.unlisted⟩

theorem linkFault (cause : LinkFaultCause) : Statement (.linkFault cause) :=
  fun _ _ h => nomatch (h : none = some _)

theorem linkStart (address : Option Byte) : Statement (.linkStart address) :=
  fun _ _ h => nomatch (h : none = some _)

theorem linkStop (straps : Straps) : Statement (.linkStop straps) :=
  fun _ _ h => nomatch (h : none = some _)

theorem responseRead (extent : ReadExtent) : Statement (.responseRead extent) :=
  fun _ _ h => nomatch (h : none = some _)

theorem poll (extent : ReadExtent) : Statement (.poll extent) :=
  fun _ _ h => nomatch (h : none = some _)

theorem noticeStart (rival : Option Byte) : Statement (.noticeStart rival) :=
  fun _ _ h => nomatch (h : none = some _)

theorem noticeWithdraw : Statement (.noticeWithdraw) :=
  fun _ _ h => nomatch (h : none = some _)

theorem powerOnReset : Statement (.powerOnReset) :=
  fun _ _ h => nomatch (h : none = some _)

theorem powerOnHoldEnd (straps : Straps) : Statement (.powerOnHoldEnd straps) :=
  fun _ _ h => nomatch (h : none = some _)

theorem pinResetAssert : Statement (.pinResetAssert) :=
  fun _ _ h => nomatch (h : none = some _)

theorem pinResetRelease (straps : Straps) : Statement (.pinResetRelease straps) :=
  fun _ _ h => nomatch (h : none = some _)

theorem supplyFailure : Statement (.supplyFailure) :=
  fun _ _ h => nomatch (h : none = some _)

end Sys2Proof.Laws.Catalogue
end

