-- ==== Sys2Proof/Tests/Slice0.lean ====
section
/-! SUPPORT. The model's own tests: ill-formed commands that the check refuses, the spec's worked examples, one event each, and
for every obligation with hypotheses a concrete state and operands that meet them. -/

namespace Sys2Proof.Tests

open Sys2Proof.Machine

/-! ### Small states -/

/-- The machine after one command. -/
def after (c : Instr) (s : State) : State :=
  match exec c s with
  | .next t => t
  | .fault _ => s
  | .refused _ => s

/-- Records 200, 203 and 204 of Table 5-2. -/
def line200 : MarkRecord where
  mark := 200
  nominal := 10000
  fields := ⟨400, 1800, 2600, .either⟩
  kind := .line { plan := ⟨2, 2⟩, forwardCount := 1 }

def keepout203 : MarkRecord where
  mark := 203
  nominal := 22000
  fields := ⟨1500, 500, 65535, .either⟩
  kind := .keepout {}

def datum204 : MarkRecord where
  mark := 204
  nominal := 26000
  fields := ⟨300, 1800, 2600, .l1⟩
  kind := .datum {}

def records : List MarkRecord := [line200, keepout203, datum204]

/-- Channel 0 TRACKING and referenced, 1 ACQUIRING and qualified in MANUAL mode, 2 LOST, 3 ACQUIRING one good event short, 4
TRACKING, 5 OFF; the three records enrolled; the pass IDLE. -/
def bench : State :=
  { State.reset with
    channels := #v[{ state := .tracking, referenced := true, raw := 1000 },
      { state := .acquiring, mode := .manual, qualified := true, qualCount := 300 }, { state := .lost },
      { state := .acquiring, qualCount := 255 }, { state := .tracking }, {}]
    monitor := .present
    table := records
    occupancy := addClaims (Vector.replicate 64 0) (records.flatMap (MarkRecord.slots 12))
    groups := Vector.ofFn fun g => groupCounts records g }

def armed (r : MarkRecord) : MarkRecord := { r with state := .armed }

def measureTerms : PassTerms := ⟨.measure, .forward, 9000, 31000, 100⟩

def datumTerms : PassTerms := ⟨.datum 204, .forward, 9000, 31000, 0⟩

/-- A MEASURE pass in a state, with its timer if it is live. -/
def inPass (state : PassState) : State :=
  { bench with
    pass := { number := 52, terms := some measureTerms, state := state }
    passTimer := state.live
    table := [armed line200, armed keepout203, datum204] }

/-- A DATUM pass naming record 204. -/
def inDatumPass (state : PassState) : State :=
  { bench with
    pass := { number := 53, terms := some datumTerms, state := state }
    table := [line200, keepout203, armed datum204] }

def seen (input : LineId) (centre : Position) (width : Nat) : Sighting := ⟨input, 52, centre, width, none⟩

def matching (s : State) (x : Sighting) (claim : Option ClaimReport) : State :=
  { s with tableOp := some (.sightingMatch ⟨x, claim⟩) }

def hosting (s : State) (op : HostOp) : State :=
  { s with tableOp := some (.host op), link := { s.link with exchange := .taken, idleTimer := false, response := .pending } }

def withExchange (s : State) (x : ExchangeState) : State :=
  { s with link := { s.link with exchange := x, idleTimer := decide (x = .idle) } }

def nominal (n : Int) : List Byte := sixBytes (BitVec.ofInt 48 n)

/-! ### Commands that cannot come -/

theorem test_wellFormed_refuses_increment :
    (Instr.sampleEvent 0 511 0 .passFirst).wellFormed = true ∧ (Instr.sampleEvent 0 512 0 .passFirst).wellFormed = false
      ∧ (Instr.sampleEvent 0 (-512) 0 .passFirst).wellFormed = false := by decide +kernel

def tooLong : List Byte := List.replicate 256 0

theorem test_wellFormed_refuses_length :
    ([Instr.setAxis tooLong .passFirst, .trackAxis tooLong, .restartAxis tooLong, .zeroAxis tooLong, .readAxes tooLong,
      .setMatch tooLong, .setLine tooLong, .readLines tooLong, .enrol tooLong, .enrolRun tooLong, .amend tooLong,
      .retire tooLong, .reopen tooLong, .lookup tooLong, .readRange tooLong, .beginPass tooLong, .abortPass tooLong,
      .readPass tooLong, .readGroups tooLong, .protect tooLong, .unprotect tooLong, .readProtect tooLong,
      .readEvents tooLong, .clearEvents tooLong, .setNotice tooLong, .identify tooLong, .reset tooLong,
      .unknownRequest ⟨0x03, by decide +kernel⟩ tooLong].any Instr.wellFormed) = false := by decide +kernel

theorem test_wellFormed_admits_length : (Instr.protect (List.replicate 255 0)).wellFormed = true := by decide +kernel

/-! ### The spec's worked examples -/

/-- R21: 1150 and 900. -/
theorem test_interpolation : interpolate 1000 300 128 = 1150 ∧ interpolate 1000 (-300) 85 = 900 := by decide +kernel

/-- Section 2.8: both directions. -/
theorem test_sighting_formed :
    centreOf 100075 102625 (BitVec.ofInt 32 (-40)) = 101310 ∧ widthOf 100075 102625 = 2550
      ∧ centreOf (BitVec.ofInt 48 (-5001)) (BitVec.ofInt 48 (-7500)) 0 = BitVec.ofInt 48 (-6251)
      ∧ widthOf (BitVec.ofInt 48 (-5001)) (BitVec.ofInt 48 (-7500)) = 2499 := by decide +kernel

/-- Section 2.8: the Abbe value of differences 12 and 17. -/
theorem test_abbe :
    (ClosingLine.mk ⟨.high, 0, 65536, 0, some (1, 2), ⟨.completed 100075 .tracking, some (.completed 12 .tracking,
      .completed 0 .tracking)⟩⟩ ⟨.completed 102625 .tracking, some (.completed 17 .tracking, .completed 0 .tracking)⟩).abbe
      = some 14 := by decide +kernel

/-- Table 4-2. -/
theorem test_slots :
    windowSlots 12 (BitVec.ofInt 48 (-3000)) 500 = [0] ∧ windowSlots 12 8192 500 = [1, 2] ∧ windowSlots 12 264000 1000 = [1]
      ∧ windowSlots 12 8388608 1000 = [32, 32] ∧ slotOf (bucketOf 12 (BitVec.ofInt 48 (-5000))) = 1
      ∧ slotOf (bucketOf 12 270000) = 0 := by decide +kernel

/-- Table 5-3: S1, S4, S6, S8, S9 and S10. -/
theorem test_outcomes :
    (armed line200).outcome (seen .l1 10030 2100) = .take ∧ (armed line200).outcome (seen .l1 10030 3000) = .width
      ∧ ({ armed line200 with kind := (armed line200).kind.take (seen .l1 10030 2100) } : MarkRecord).outcome
        (seen .l1 10060 2100) = .duplicate
      ∧ (armed keepout203).outcome (seen .l1 21300 300) = .width ∧ (armed keepout203).outcome (seen .l2 22800 1900) = .flaw
      ∧ datum204.outcome (seen .l1 26100 2000) = .unarmed := by decide +kernel

/-- Section 5.7: the arm sweep arms the LINE record short of its passes and the KEEPOUT record, not the DATUM record. -/
theorem test_armed : records.map measureTerms.arms = [true, true, false] ∧ records.map datumTerms.arms = [false, false, true] := by
  decide +kernel

/-- Table 6-8 and section 12.4: mark 300 after the fold of pass 61, and its image. -/
def line300 : MarkRecord where
  mark := 300
  nominal := 4000
  fields := ⟨400, 1800, 2600, .either⟩
  state := .armed
  kind := .line
    { plan := ⟨2, 1⟩
      forwardCount := 1
      forwardSum := 4012
      centres := some ⟨4012, 4012⟩
      widthSum := 2100
      abbeCount := 1
      abbeSum := 10
      current := some ⟨3990, 2110, .l1, some 8, true⟩ }

theorem test_image300 :
    ((line300.amended (MarkRecord.resolveClose .reverse)).restLine).image =
      ([0x01, 0x2C, 0x01, 0, 0, 0, 0, 0x0F, 0xA0, 0, 0x01, 0x90, 0x07, 0x08, 0x0A, 0x28, 0x03, 0x03, 0x08]
        ++ [0x02, 0x01, 0x01, 0x01] ++ [0, 0, 0, 0, 0, 0, 0x0F, 0xAC] ++ [0, 0, 0, 0, 0, 0, 0x0F, 0x96]
        ++ [0, 0, 0, 0, 0x0F, 0x96] ++ [0, 0, 0, 0, 0x0F, 0xAC] ++ [0, 0, 0, 0x10, 0x72] ++ [0x02]
        ++ [0, 0, 0, 0, 0, 0, 0, 0x12] ++ [0, 0, 1] ++ List.replicate 26 0 : List Byte) := by decide +kernel

/-- R162 and R165: IDENTIFY as the host frames it to the part at 0x4A, received as itself, and refused with one wrong bit. -/
theorem test_frame :
    (receiveFrame 0x94 (sendFrame 0x94 0x01 []) = .request 0x01 [])
      ∧ (receiveFrame 0x94 [⟨0x01, true⟩, ⟨0x00, true⟩, ⟨0x00, true⟩] = .parityError)
      ∧ receiveFrame 0x94 [⟨0x01, false⟩, ⟨0x00, true⟩] = .unfinished := by decide +kernel

/-- R162: the same request with every parity right and another check byte. -/
theorem test_check_error :
    (sendFrame 0x94 0x01 [] = [0x01, 0x00, crc8 [0x94, 0x01, 0x00]].map ParityByte.of)
      ∧ receiveFrame 0x94 ([0x01, 0x00, crc8 [0x94, 0x01, 0x00] ^^^ 1].map ParityByte.of) = .checkError
      ∧ decodeFrame .passFirst 0x94 ([0x01, 0x00, crc8 [0x94, 0x01, 0x00] ^^^ 1].map ParityByte.of)
        = some (.linkFault .check) := by decide +kernel

/-- The CRC-8 of R165 on the bytes 0xBE 0xEF is 0x92. -/
theorem test_crc : crc8 [0xBE, 0xEF] = 0x92 := by decide +kernel

/-! ### One event each -/

/-- Table 1-5, step 4: the qualifying sample event is integrated and the channel TRACKING. -/
theorem test_sample_qualifies :
    (after (.sampleEvent 3 200 150 .passFirst) bench).channel 3
      = { state := .tracking, raw := 200, qualCount := 256 } := by decide +kernel

/-- One good sample event on each of these channels. -/
def sampled (ks : List ChannelIx) (s : State) : State := ks.foldl (fun s k => after (.sampleEvent k 200 150 .passFirst) s) s

/-- R19: within a reference period READ AXES answers the entries of the boundary before it, and after it those of the next. -/
theorem test_report_of_one_boundary :
    (sampled [0, 3] bench).axisReport = bench.axisReport ∧ (sampled [0, 1, 2, 3] bench).axisReport = bench.axisReport
      ∧ (sampled [0, 1, 2, 3, 4] bench).period = none
      ∧ (sampled [0, 1, 2, 3, 4] bench).axisReport ≠ bench.axisReport := by decide +kernel

/-- Table 1-5, step 7: a fade. -/
theorem test_sample_fades :
    (after (.sampleEvent 0 200 40 .passFirst) bench).channel 0
      = { state := .lost, raw := 1000, lossReason := .fade, lossTally := 1 } := by decide +kernel

theorem test_reference_lost :
    (after (.referenceAbsenceTimeout .passFirst) (inPass .running)).pass.outcome = some (.aborted .axis) := by decide +kernel

theorem test_edges :
    ((after (.leadingEdge .l1 64) { bench with line1 := { enable := true } }).line1.phase
        = .inLine ⟨.high, 0, 65536, 0, none, ⟨.waiting 64, none⟩⟩)
      ∧ (after (.trailingEdge .l1 64) { bench with
        line1 := { phase := .inLine ⟨.high, 0, 65536, 0, none, ⟨.waiting 64, none⟩⟩ } }).events.counters.smear = 1 := by
  decide +kernel

/-- Section 5.8, D3: the shift of −1,500,310. -/
theorem test_datum_claim :
    ((after .datumOffsetClaim (matching (inDatumPass .running) (seen .l1 1526310 2120) none)).channel 0).offset
      = BitVec.ofInt 48 (-1500310) := by decide +kernel

/-- Section 5.8, step 5. -/
theorem test_datum_completes :
    (after .matchCompletion (matching (inDatumPass .running) (seen .l1 1526310 2120) (some .applied))).tableOp
      = some .closeSweep := by decide +kernel

/-- Both inputs form a sighting in the event of the end crossing: one formed before it is tagged, one formed after it counts
UNPASSED (R38). -/
def twoClosing : State :=
  let c : ClosingLine := ⟨⟨.high, 0, 65536, 0, none, ⟨.completed 9000 .tracking, none⟩⟩, ⟨.waiting 64, none⟩⟩
  { inPass .running with
    channels := bench.channels.set 0 { state := .tracking, referenced := true, raw := 30999 }
    occupancy := Vector.replicate 64 1
    line1 := { closing := some c }
    line2 := { closing := some c } }

theorem test_pass_between :
    ((after (.sampleEvent 0 4 150 .passFirst) twoClosing).events.counters.unpassed,
      (after (.sampleEvent 0 4 150 .passBetween) twoClosing).events.counters.unpassed,
      (after (.sampleEvent 0 4 150 .formationFirst) twoClosing).events.counters.unpassed) = (2, 1, 0) := by decide +kernel

/-- The open line of input 1 in a running pass, its axis in TRACKING at 1000. -/
def lineOpen (leading : Snapshot) : State :=
  { inPass .running with line1 := { phase := .inLine ⟨.high, 0, 100, 0, none, ⟨leading, none⟩⟩ } }

/-- R21, R29 and R32: from position 1000 a leading snapshot at half an increment of 200 is placed at 1100; at half of 300 it lies more
than the span of 100 before the sample event, and the line is discarded; a fade discards it, once; a sample event of another channel
leaves it waiting. -/
theorem test_open_line :
    ((after (.sampleEvent 0 200 150 .passFirst) (lineOpen (.waiting 128))).line1.phase
        = .inLine ⟨.high, 0, 100, 0, none, ⟨.completed 1100 .tracking, none⟩⟩)
      ∧ ((after (.sampleEvent 0 300 150 .passFirst) (lineOpen (.waiting 128))).line1.phase
          = .discarding ⟨.high, 0, 100, 0, none, ⟨.completed 1150 .tracking, none⟩⟩)
      ∧ (after (.sampleEvent 0 300 150 .passFirst) (lineOpen (.waiting 128))).events.counters.smear = 1
      ∧ ((after (.sampleEvent 0 200 40 .passFirst) (lineOpen (.waiting 128))).line1.phase
          = .discarding ⟨.high, 0, 100, 0, none, ⟨.completed 1000 .lost, none⟩⟩)
      ∧ (after (.sampleEvent 0 200 40 .passFirst) (lineOpen (.waiting 128))).events.counters.smear = 1
      ∧ (after (.sampleEvent 4 200 150 .passFirst) (lineOpen (.waiting 128))).line1
          = (lineOpen (.waiting 128)).line1 := by decide +kernel

/-- R14, R15 and R103: what the loss of the reference and the disabling of the measuring axis report and end. -/
theorem test_axis_stops :
    ((after (.referenceAbsenceTimeout .passFirst) (lineOpen (.waiting 9))).events.has .lockChange
        && (after (.referenceAbsenceTimeout .passFirst) (lineOpen (.waiting 9))).events.has .axisDown) = true
      ∧ (after (.referenceAbsenceTimeout .passFirst) (lineOpen (.waiting 9))).events.axisMask = 0b010001
      ∧ (after (.referenceAbsenceTimeout .passFirst) (lineOpen (.waiting 9))).events.counters.smear = 1
      ∧ (after (.setAxis ([0x00, 0x00, 0x60, 0x30] ++ twoBytes 256 ++ twoBytes 384) .passFirst)
          (lineOpen (.waiting 9))).tableOp = some .abortSweep
      ∧ (after (.setAxis ([0x00, 0x00, 0x60, 0x30] ++ twoBytes 256 ++ twoBytes 384) .passFirst)
          (lineOpen (.waiting 9))).events.counters.smear = 1 := by decide +kernel

/-- R155: a lock change after the snapshot marks the notice as overtaken. -/
theorem test_later_raise :
    (after (.sampleEvent 0 200 40 .passFirst)
      { bench with events := { enables := EventFlag.lockChange.word, notice := some ⟨0, 0, 0, false, true⟩ } }).events.notice
        = some ⟨0, 0, 0, true, true⟩ := by decide +kernel

theorem test_sweeps :
    (after .armSweepCompletion { inPass .arming with table := records, tableOp := some .armSweep }).pass.armed = 2
      ∧ (after .closeSweepCompletion { inPass .closing with tableOp := some .closeSweep }).pass.missed = 1
      ∧ (after .abortSweepCompletion { inPass .aborting with tableOp := some .abortSweep }).pass.missed = 0 := by decide +kernel

theorem test_set_axis :
    (after (.setAxis ([0x05, 0x01, 0x60, 0x30] ++ twoBytes 16 ++ twoBytes 384) .passFirst) bench).channel 5
      = { state := .acquiring, qualifyCount := 16 } := by decide +kernel

/-- R58: a change of shift that meets a non-empty table starts an operation, which refuses it at its completion. -/
theorem test_set_match_refused :
    (after (.setMatch [0, 0xFF, 0xFF, 13]) bench).tableOp = some (.host (.refuse .state))
      ∧ (after (.setMatch [0, 0xFF, 0xFF, 13]) bench).link.response = .pending
      ∧ (after .tableOperationCompletion (after (.setMatch [0, 0xFF, 0xFF, 13]) bench)).link.response
        = .ready (.rejected .state) []
      ∧ (after .tableOperationCompletion (after (.setMatch [0, 0xFF, 0xFF, 13]) bench)).config = bench.config := by
  decide +kernel

theorem test_begin_pass :
    (after (.beginPass ([1, 1] ++ nominal 9000 ++ nominal 31000 ++ [0, 100, 0, 0])) bench).pass
      = { number := 1, terms := some measureTerms, state := .arming } := by decide +kernel

theorem test_enrol :
    (after (.enrol ([0x00, 0xC9, 0x01] ++ nominal 14000 ++ [0, 0x01, 0x90, 0x07, 0x08, 0x0A, 0x28, 0x01, 0x02, 0x02])) bench).tableOp
      = some (.host (.enrol { line200 with
          mark := 201, nominal := 14000, fields := ⟨400, 1800, 2600, .l1⟩, kind := .line { plan := ⟨2, 2⟩ } })) := by
  decide +kernel

/-- Section 12.4: the first byte of a READ RANGE answered with the last records. -/
theorem test_read_range :
    (after .tableOperationCompletion (hosting bench (.readRange 20000))).link.response
      = .ready .done ([0x82] ++ keepout203.image ++ datum204.image) := by decide +kernel

theorem test_notice :
    (after (.poll .complete) bench).link.sent = [⟨0, true⟩, ⟨0, true⟩, ⟨0, true⟩, ⟨0, true⟩, ⟨crc8 [0x91, 0, 0, 0, 0], false⟩] := by
  decide +kernel

/-- Section 11.8: 0x4B wins over 0x4D. -/
theorem test_arbitration :
    (after (.noticeStart (some 0x97))
      { bench with
        events := { noticeOn := true, noticePending := true }
        link := { strap := 5 } }).link.exchange = .elsewhere := by decide +kernel

/-! ### Hypotheses met: for each obligation a state and operands, at the boundaries of its clauses -/

def held : State := { bench with supply := .hold }

def poisoned : State := withExchange bench .poisoned

def receiving : State := withExchange bench .receiving

def busy : State := hosting bench .readGroups

theorem receives_bench : bench.receives := by unfold State.receives; decide +kernel

theorem receives_receiving : receiving.receives := by unfold State.receives; decide +kernel

theorem receives_inPass (p : PassState) : (inPass p).receives := by cases p <;> unfold State.receives <;> decide +kernel

theorem receives_busy : busy.receives := by unfold State.receives; decide +kernel

theorem test_witness_stepRunsFrontCommand :
    { bench with pending := [Instr.referenceEdge] }.pending = Instr.referenceEdge :: [] ∧ bench.pending = [] := by decide +kernel

theorem test_witness_everyCommandHasNextState :
    held.operating = false ∧ Instr.referenceEdge ≠ .powerOnReset ∧ (∀ straps, Instr.referenceEdge ≠ .powerOnHoldEnd straps)
      ∧ Instr.referenceEdge ≠ .pinResetAssert ∧ (∀ straps, Instr.referenceEdge ≠ .pinResetRelease straps)
      ∧ Instr.referenceEdge ≠ .supplyFailure :=
  ⟨by decide +kernel, by decide +kernel, nofun, by decide +kernel, nofun, by decide +kernel⟩

theorem test_witness_framedRequestDecodes :
    (Instr.trackAxis [5]).request? = some (0x11, [5]) ∧ (Instr.trackAxis [5]).wellFormed = true
      ∧ (Instr.identify []).request? = some (0x01, []) ∧ (Instr.identify []).wellFormed = true := by decide +kernel

theorem test_witness_singleBitError :
    (sendFrame 0x90 0x01 [])[2]? = some (ParityByte.of (crc8 [0x90, 0x01, 0x00])) ∧ ([] : List Byte).length ≤ 255 := by
  decide +kernel

theorem test_witness_linkChecks :
    bench.receives ∧ (Instr.identify [0]).request? = some (0x01, [0]) ∧ requestLength 0x01 = some 0
      ∧ ([0] : List Byte).length ≠ 0 :=
  ⟨receives_bench, by decide +kernel⟩

theorem test_witness_trackingSample :
    bench.operating = true ∧ bench.monitor = .present ∧ (bench.channel 0).state = .tracking
      ∧ (bench.channel 0).loseLevel ≤ 48 ∧ (384 : Int).natAbs ≤ (bench.channel 0).rateLimit
      ∧ (-384 : Int).natAbs ≤ (bench.channel 0).rateLimit := by decide +kernel

theorem test_witness_poisoned :
    bench.receives ∧ poisoned.operating = true ∧ poisoned.link.exchange = .poisoned
      ∧ (Instr.identify []).request? ≠ none :=
  ⟨receives_bench, by decide +kernel⟩

theorem test_witness_trackingLoss :
    47 < (bench.channel 0).loseLevel ∧ (bench.channel 0).rateLimit < (385 : Int).natAbs
      ∧ (inPass .running).operating = true ∧ (inPass .running).monitor = .present
      ∧ (inPass .running).measuringAxis.state = .tracking ∧ (inPass .running).pass.state.live = true
      ∧ (inPass .running).tableOp = none ∧ (hosting (inPass .running) .readGroups).tableOp ≠ none := by decide +kernel

/-- One count short of the end limit: an increment of 0 stays short, one of 1 crosses. -/
def nearEnd : State := { inPass .running with channels := bench.channels.set 0 { state := .tracking, referenced := true, raw := 30999 } }

theorem test_witness_endCrossing :
    nearEnd.operating = true ∧ nearEnd.measuringAxis.state = .tracking ∧ nearEnd.pass.terms = some measureTerms
      ∧ (after (.sampleEvent 0 0 48 .passFirst) nearEnd).measuringAxis.position.toInt = 30999
      ∧ (after (.sampleEvent 0 1 48 .passFirst) nearEnd).measuringAxis.position.toInt = 31000
      ∧ (inDatumPass .arming).pass.terms = some datumTerms ∧ (inDatumPass .arming).pass.state.live = true
      ∧ (nearEnd.pass.state = .running ∧ nearEnd.tableOp = none ∧ nearEnd.line1.closing = none ∧ nearEnd.line2.closing = none
        ∧ nearEnd.queue = [])
      ∧ (after (.sampleEvent 0 1 48 .passFirst) nearEnd).tableOp = some .closeSweep
      ∧ { nearEnd with queue := [seen .l1 10000 2000] }.queue = seen .l1 10000 2000 :: []
      ∧ (hosting nearEnd .readGroups).tableOp ≠ none
      ∧ ({ inPass .arming with tableOp := some .armSweep }.pass.state = .arming
        ∧ { inPass .arming with tableOp := some .armSweep }.tableOp ≠ none) := by decide +kernel

theorem test_witness_untracked :
    (bench.channel 1).state = .acquiring ∧ (bench.channel 1).mode = .manual ∧ (bench.channel 1).qualified = true
      ∧ (bench.channel 3).state = .acquiring ∧ (bench.channel 3).mode = .auto
      ∧ (bench.channel 3).acquireLevel ≤ 96 ∧ ¬(bench.channel 3).acquireLevel ≤ 95
      ∧ (bench.channel 3).qualifyCount ≤ min 4096 ((bench.channel 3).qualCount + 1)
      ∧ ¬(({ qualCount := 254 } : Channel).qualifyCount ≤ min 4096 (254 + 1))
      ∧ (bench.channel 2).state = .lost ∧ 47 < (bench.channel 2).loseLevel ∧ (bench.channel 2).loseLevel ≤ 48
      ∧ (bench.channel 2).acquireLevel ≤ 96 ∧ 95 < (bench.channel 2).acquireLevel := by decide +kernel

theorem test_witness_setAxis :
    bench.receives ∧ (7#8).toNat < 8 ∧ (254#8).toNat < (255#8).toNat ∧ 16 ≤ (16#16).toNat ∧ (4096#16).toNat ≤ 4096
      ∧ 1 ≤ (1#16).toNat ∧ (511#16).toNat ≤ 511 ∧ (bench.channel 5).state = .off ∧ (bench.channel 0).sense = .normal
      ∧ (bench.channel 0).sense ≠ .inverted ∧ (bench.channel 0).state ≠ .off ∧ ¬((6#8).toNat < 6)
      ∧ (0 : ChannelIx) = (inPass .arming).config.axis ∧ ((inPass .arming).channel 0).state = .tracking
      ∧ (inPass .arming).pass.state.live = true ∧ (inPass .arming).tableOp = none
      ∧ (hosting (inPass .running) .readGroups).tableOp ≠ none ∧ (0#8).getLsbD 0 = false :=
  ⟨receives_bench, by decide +kernel⟩

theorem test_witness_referenceGates :
    bench.operating = true ∧ bench.monitor = .present ∧ (bench.channel 5).state = .off ∧ State.reset.monitor = .absent
      ∧ (inPass .arming).measuringAxis.state = .tracking ∧ (inPass .arming).pass.state.live = true := by decide +kernel

theorem test_witness_trackAndRestart :
    bench.receives ∧ 6 ≤ (6#8).toNat
      ∧ ((bench.channel 1).mode = .manual ∧ (bench.channel 1).state = .acquiring ∧ (bench.channel 1).qualified = true)
      ∧ ¬((bench.channel 3).mode = .manual) ∧ (bench.channel 2).state = .lost ∧ (bench.channel 0).state ≠ .lost :=
  ⟨receives_bench, by decide +kernel⟩

theorem test_witness_zeroAxis :
    (inPass .closing).receives ∧ (inPass .closing).config.axis = 0 ∧ (inPass .closing).pass.state ≠ .idle
      ∧ (4 : ChannelIx) ≠ (inPass .closing).config.axis ∧ ((inPass .closing).channel 4).state = .tracking
      ∧ ((inPass .closing).channel 1).state ≠ .tracking ∧ bench.pass.state = .idle :=
  ⟨receives_inPass _, by decide +kernel⟩

/-- For the reports, and for both clauses of the reference period: none under way, channel 3 reached and not reached. -/
theorem test_witness_reports :
    bench.receives ∧ 2 ≤ (2#8).toNat ∧ bench.operating = true ∧ bench.monitor = .present ∧ (bench.channel 3).state ≠ .off
      ∧ bench.period = none ∧ (sampled [0] bench).period.map (fun p => p.reached[3]) = some false
      ∧ (sampled [3] bench).period.map (fun p => p.reached[3]) = some true :=
  ⟨receives_bench, by decide +kernel⟩

theorem test_witness_setMatch :
    bench.receives ∧ (inPass .running).receives ∧ busy.receives ∧ 6 ≤ (6#8).toNat ∧ (20#8).toNat ≤ 20
      ∧ (1#8).toNat = (1 : ChannelIx).val ∧ (2#8).toNat = (2 : ChannelIx).val ∧ (1 : ChannelIx) ≠ 2
      ∧ (1 : ChannelIx) ≠ (inPass .running).config.axis ∧ (inPass .running).pass.state ≠ .idle
      ∧ (12#8).toNat = bench.config.shift ∧ (6#8).toNat ≠ bench.config.shift
      ∧ (bench.tableOp = none ∧ bench.sweepClaim = none ∧ bench.queue = []) ∧ busy.tableOp ≠ none
      ∧ bench.table ≠ [] ∧ State.reset.table = []
      ∧ ¬(6 ≤ (5#8).toNat) ∧ ¬((21#8).toNat ≤ 20) ∧ ¬((6#8).toNat < 6)
      ∧ ¬((0xFF#8 = 0xFF#8 ∧ 5#8 = 0xFF#8) ∨ ((0xFF#8).toNat < 6 ∧ (5#8).toNat < 6 ∧ 0xFF#8 ≠ 5#8))
      ∧ ¬((5#8 = 0xFF#8 ∧ 5#8 = 0xFF#8) ∨ ((5#8).toNat < 6 ∧ (5#8).toNat < 6 ∧ 5#8 ≠ 5#8)) :=
  ⟨receives_bench, receives_inPass _, receives_busy, by decide +kernel⟩

def listening : State := { bench with line1 := { enable := true } }

theorem test_witness_leadingEdge :
    listening.operating = true ∧ (listening.line .l1).enable = true ∧ (listening.line .l1).phase = .quiet
      ∧ listening.monitor = .present ∧ listening.measuringAxis.state ≠ .off
      ∧ ({ State.reset with line1 := { enable := true } }.monitor = .absent
        ∧ { State.reset with line1 := { enable := true } }.measuringAxis.state ≠ .tracking)
      ∧ (listening.line .l2).enable = false ∧ (listening.line .l2).phase = .quiet
      ∧ (lineOpen (.completed 900 .tracking)).operating = true ∧ (lineOpen (.completed 900 .tracking)).monitor = .present
      ∧ ((lineOpen (.completed 900 .tracking)).line .l1).phase
        = .inLine ⟨.high, 0, 100, 0, none, ⟨.completed 900 .tracking, none⟩⟩
      ∧ ((after (.sampleEvent 0 0 150 .passFirst) (lineOpen (.completed 900 .tracking))).line1.phase
        = .inLine ⟨.high, 0, 100, 0, none, ⟨.completed 900 .tracking, none⟩⟩)
      ∧ ((after (.sampleEvent 0 1 150 .passFirst) (lineOpen (.completed 900 .tracking))).line1.phase
        = .discarding ⟨.high, 0, 100, 0, none, ⟨.completed 900 .tracking, none⟩⟩) := by decide +kernel

def opened (leading : Snapshot) : OpenLine := ⟨.high, 0, 65536, 0, none, ⟨leading, none⟩⟩

theorem test_witness_trailingEdge :
    { bench with line1 := { phase := .discarding (opened (.waiting 0)) } }.line1.phase = .discarding (opened (.waiting 0))
      ∧ (opened (.waiting 255)).leading.axis = .waiting 255 ∧ (opened (.completed 5 .tracking)).leading.axis = .completed 5 .tracking
      ∧ bench.line1.closing = none ∧ bench.line1.phase = .quiet ∧ (bench.channel (opened (.waiting 0)).axis).state ≠ .off := by
  decide +kernel

/-- A placed line at each input, `first` the closing line of input 1. -/
def bothPlaced (first : Option ClosingLine) : State :=
  { bench with
    line1 := { phase := .inLine (opened (.completed 5 .tracking)), closing := first }
    line2 := { phase := .inLine (opened (.completed 5 .tracking)) } }

def firstClosing : ClosingLine := ⟨opened (.completed 5 .tracking), ⟨.waiting 9, none⟩⟩

/-- R39 and R31: the input that closes alone is the earlier, the one that closes beside another the later; a second line of one
input is dropped and counted (logs 23, 24). -/
theorem test_closing_order :
    (after (.trailingEdge .l2 7) (bothPlaced none)).earlierClosing = .l2
      ∧ (after (.trailingEdge .l2 7) (after (.trailingEdge .l1 7) (bothPlaced none))).earlierClosing = .l1
      ∧ (after (.trailingEdge .l1 7) (after (.trailingEdge .l2 7) (bothPlaced none))).earlierClosing = .l2
      ∧ (after (.trailingEdge .l1 7) (bothPlaced (some firstClosing))).events.counters.smear = 1
      ∧ (after (.trailingEdge .l1 7) (bothPlaced (some firstClosing))).line1.closing = some firstClosing := by decide +kernel

theorem test_witness_sighting :
    (inPass .closing).pass.state.live = false ∧ (inPass .running).pass.terms = some measureTerms
      ∧ (inPass .running).slot (slotOf (bucketOf 12 20000)) = 0 ∧ (inPass .running).slot (slotOf (bucketOf 12 10400)) ≠ 0
      ∧ (inPass .running).queue.length < 6
      ∧ 6 ≤ (List.replicate 6 (seen .l1 10000 2000)).length ∧ (List.replicate 5 (seen .l1 10000 2000)).length < 6 := by
  decide +kernel

theorem test_witness_formation :
    widthOf 0 65536 ≤ (opened (.completed 0 .tracking)).span ∧ (opened (.completed 0 .tracking)).span < widthOf 0 65537
      ∧ -(2 ^ 47 : Int) ≤ (0x7FFFFFFFFFFF#48).toInt - (0#48).toInt ∧ (0x7FFFFFFFFFFF#48).toInt - (0#48).toInt < 2 ^ 47
      ∧ ((0#48).toInt + (0x7FFFFFFFFFFF#48).toInt) / 2 + (0#32).toInt < 2 ^ 47 := by decide +kernel

/-- A closing line that latched a pair, all its edges at 0 and 2000, and the state of one channel at the trailing edge. -/
def pairClosing (state : ChannelState) : ClosingLine :=
  ⟨⟨.high, 0, 65536, 0, some (1, 2), ⟨.completed 0 .tracking, some (.completed 12 .tracking, .completed 0 .tracking)⟩⟩,
    ⟨.completed 2000 .tracking, some (.completed 17 state, .completed 0 .tracking)⟩⟩

/-- Lines that wait, in the axis and in the pair, and lines with a pair formed with and without an Abbe value and refused. -/
theorem test_witness_formation_pair :
    (pairClosing .tracking).form = .formed 1000 2000 (some 14) ∧ (pairClosing .lost).form = .formed 1000 2000 none
      ∧ { pairClosing .tracking with trailing := ⟨.completed 2000 .acquiring, (pairClosing .tracking).trailing.pair⟩ }.form
        = .refused
      ∧ { pairClosing .tracking with trailing := ⟨.waiting 3, (pairClosing .tracking).trailing.pair⟩ }.form = .waiting
      ∧ { pairClosing .tracking with
        trailing := ⟨.completed 2000 .tracking, some (.waiting 3, .completed 0 .tracking)⟩ }.form = .waiting
      ∧ { bench with line1 := { closing := some (pairClosing .tracking) } }.line1.closing = some (pairClosing .tracking) := by
  decide +kernel

theorem test_witness_setLine :
    bench.receives ∧ (3#8).toNat < 4 ∧ 1 ≤ (1#32).toNat ∧ (16777216#32).toNat ≤ 16777216
      ∧ ¬((16777217#32).toNat ≤ 16777216) ∧ (1#8).getLsbD 0 = true ∧ (2#8).getLsbD 0 = false :=
  ⟨receives_bench, by decide +kernel⟩

def shielded (cal : CalState) : State := { bench with protection := { map := 3, cal := cal } }

theorem receives_shielded (cal : CalState) : (shielded cal).receives := by cases cal <;> unfold State.receives <;> decide +kernel

theorem test_witness_protectionBits :
    (shielded .tied).protection.map.getLsbD 0 = true
      ∧ (after (.unprotect [0, 0, 0, 1]) (shielded .tied)).protection.map.getLsbD 0 = false
      ∧ (after .powerOnReset (shielded .untied)).protection.map.getLsbD 0 = false := by decide +kernel

theorem test_witness_protectionRequests :
    (shielded .tied).receives ∧ (shielded .untied).receives ∧ (shielded .tied).protection.cal = .tied
      ∧ (shielded .untied).protection.cal = .untied :=
  ⟨receives_shielded _, receives_shielded _, rfl, rfl⟩

def enrolParams (mark : BitVec 16) (kind : Byte) (at_ : Int) (half : Byte) : List Byte :=
  twoBytes mark ++ [kind] ++ nominal at_ ++ [0, 0x01, half, 0x07, 0x08, 0x0A, 0x28, 0x03, 0x02, 0x02]

def runParams (mark : BitVec 16) (count : Byte) (pitch : Int) : List Byte :=
  twoBytes mark ++ [count] ++ nominal 100000 ++ nominal pitch ++ [0x01, 0, 0x01, 0x90, 0x07, 0x08, 0x0A, 0x28, 0x03, 0x02, 0x02]

def amendParams (mark : BitVec 16) (half passes : Byte) : List Byte :=
  twoBytes mark ++ [0, 0x01, half, 0x07, 0x08, 0x0A, 0x28, 0x03, 0x02, passes]

theorem test_witness_protectedSegment :
    (shielded .untied).receives ∧ (shielded .untied).tableFree = true ∧ field (twoBytes 255) 0 2 = 255
      ∧ (shielded .untied).protection.map.getLsbD (255 / 128) = true ∧ (enrolParams 255 1 50000 0x90).length = 19
      ∧ (amendParams 255 0x90 2).length = 12 ∧ (runParams 255 16 5000).length = 26
      ∧ (runRequest (runParams 255 16 5000)).count = 16 ∧ (runRequest (runParams 255 16 5000)).pitch ≠ 0 :=
  ⟨receives_shielded _, by decide +kernel⟩

theorem test_witness_clearEvents : bench.receives ∧ 512 ≤ (512#16).toNat ∧ (511#16).toNat < 512 :=
  ⟨receives_bench, by decide +kernel⟩

theorem test_witness_setNotice :
    bench.receives ∧ 1 < (2#8).toNat ∧ 512 ≤ (512#16).toNat ∧ (1#8).toNat ≤ 1 ∧ (511#16).toNat < 512 :=
  ⟨receives_bench, by decide +kernel⟩

theorem test_witness_reset : bench.receives ∧ (0#8) ≠ 1 ∧ (0#8) ≠ 2 := ⟨receives_bench, by decide +kernel⟩

theorem test_witness_beginPass :
    bench.receives ∧ bench.pass.state = .idle ∧ bench.tableFree = true ∧ bench.measuringAxis.referenced = true
      ∧ bench.measuringAxis.state = .tracking ∧ findMark bench.table 204 = some datum204 ∧ datum204.kind = .datum {}
      ∧ (9000#48).toInt < (9001#48).toInt ∧ busy.receives ∧ busy.pass.state = .idle ∧ busy.tableFree = false
      ∧ (inPass .closing).receives ∧ (inPass .closing).pass.state ≠ .idle ∧ ¬((4096#16).toNat < 4096)
      ∧ findMark bench.table 4095 = none ∧ findMark bench.table 200 = some line200 ∧ (∀ d, line200.kind ≠ .datum d) :=
  ⟨receives_bench, by decide +kernel, by decide +kernel, by decide +kernel, by decide +kernel, by decide +kernel, by decide +kernel, by decide +kernel, receives_busy, by decide +kernel,
    by decide +kernel, receives_inPass _, by decide +kernel, by decide +kernel, by decide +kernel, by decide +kernel, nofun⟩

theorem test_witness_abortPass :
    (inPass .arming).receives ∧ (inPass .arming).pass.state.live = true ∧ (52#16).toNat = (inPass .arming).pass.number
      ∧ (53#16).toNat ≠ (inPass .arming).pass.number ∧ (inPass .arming).passTimer = true ∧ bench.passTimer = false :=
  ⟨receives_inPass _, by decide +kernel⟩

theorem test_witness_arbiter :
    busy.tableOp ≠ none ∧ (bench.tableOp = none ∧ bench.sweepClaim = none ∧ bench.queue = [])
      ∧ { bench with sweepClaim := some SweepClaim.abort }.sweepClaim = some .abort
      ∧ { bench with queue := [seen .l1 10000 2000] }.queue = seen .l1 10000 2000 :: [] := by decide +kernel

theorem test_witness_tableRequests :
    busy.receives ∧ busy.tableFree = false ∧ bench.receives ∧ bench.tableFree = true ∧ field (twoBytes 4095) 0 2 = 4095
      ∧ field (twoBytes 4096) 0 2 = 4096 ∧ findMark bench.table 4095 = none ∧ findMark bench.table 200 = some line200
      ∧ bench.protection.map.getLsbD (200 / 128) = false ∧ (inPass .running).receives ∧ (inPass .running).tableFree = true
      ∧ (inPass .running).pass.state ≠ .idle :=
  ⟨receives_busy, by decide +kernel, receives_bench, by decide +kernel, by decide +kernel, by decide +kernel, by decide +kernel, by decide +kernel, by decide +kernel,
    receives_inPass _, by decide +kernel⟩

/-- ENROL of an existing mark number, of a half-width at and beyond its limit of 2047, of a window one count from that of
record 200 and of one that shares its last position. -/
theorem test_witness_enrol :
    bench.receives ∧ bench.tableFree = true ∧ (enrolParams 201 1 50000 0x90).length = 19
      ∧ (∃ x ∈ bench.table, x.mark = field (enrolParams 200 1 50000 0x90) 0 2)
      ∧ (∀ x ∈ bench.table, x.mark ≠ field (enrolParams 201 1 50000 0x90) 0 2) ∧ bench.table.length ≠ 2048
      ∧ (List.replicate 2048 keepout203).length = 2048
      ∧ (enrolFields (enrolParams 201 1 10801 0x90)).half = 400
      ∧ (∀ x ∈ bench.table, ¬(10801 - 400 ≤ x.nominal.toInt + x.reach ∧ x.nominal.toInt - x.reach ≤ 10801 + 400))
      ∧ (∃ x ∈ bench.table, 10800 - 400 ≤ x.nominal.toInt + x.reach ∧ x.nominal.toInt - x.reach ≤ 10800 + 400)
      ∧ (enrolFields (enrolParams 201 4 50000 0x90)).kind = 4 :=
  ⟨receives_bench, by decide +kernel, by decide +kernel, by decide +kernel, by decide +kernel, by decide +kernel, List.length_replicate, by decide +kernel⟩

theorem test_witness_runAndAmendment :
    bench.receives ∧ bench.tableFree = true ∧ bench.protection.map.getLsbD (200 / 128) = false
      ∧ (runRequest (runParams 200 1 (-1))).count = 1 ∧ (runRequest (runParams 200 1 (-1))).pitch = -1
      ∧ (runRequest (runParams 200 17 1)).count = 17 ∧ findMark bench.table (field (amendParams 200 0x90 2) 0 2) = some line200
      ∧ (amendFields (amendParams 200 0x90 1)).passes = 1 ∧ line200.retiring = false
      ∧ (∀ x ∈ bench.table, x.mark ≠ 200 →
        ¬(line200.nominal.toInt - 400 ≤ x.nominal.toInt + x.reach ∧ x.nominal.toInt - x.reach ≤ line200.nominal.toInt + 400)) :=
  ⟨receives_bench, by decide +kernel⟩

/-- The amendments of a LINE and of a KEEPOUT record. -/
theorem test_amend_plans :
    (after (.amend (amendParams 200 0x90 3)) bench).tableOp
        = some (.host (.amend 200 ⟨⟨400, 1800, 2600, .either⟩, some ⟨2, 3⟩⟩))
      ∧ (after (.amend (amendParams 203 0x90 3)) bench).tableOp
        = some (.host (.amend 203 ⟨⟨400, 1800, 2600, .either⟩, none⟩)) := by decide +kernel

def line201 : MarkRecord := { line200 with mark := 201, nominal := 14000, kind := .line { plan := ⟨2, 2⟩ } }

theorem test_witness_enrolCompletion :
    (hosting bench (.enrol line201)).operating = true ∧ (hosting bench (.enrol line201)).tableOp = some (.host (.enrol line201))
      ∧ (hosting bench (.enrol line201)).table.Pairwise fun a b => a.nominal.toInt < b.nominal.toInt := by decide +kernel

theorem test_witness_amendRetire :
    findMark bench.table line200.mark = some line200 ∧ (∀ x ∈ bench.table, x.mark = line200.mark → x = line200)
      ∧ (hosting bench (.retire 200)).link.response = .pending ∧ (hosting bench (.retire 200)).pass.state = .idle
      ∧ (hosting (inPass .running) (.retire 203)).pass.state ≠ .idle
      ∧ findMark (inPass .running).table 203 = some (armed keepout203)
      ∧ (hosting bench (.amend 200 ⟨line200.fields, some ⟨1, 3⟩⟩)).tableOp
        = some (.host (.amend line200.mark ⟨line200.fields, some ⟨1, 3⟩⟩))
      ∧ (after (.linkStop ⟨0, .untied⟩) (hosting bench (.retire 200))).link.response ≠ .pending
      ∧ (after (.linkStop ⟨0, .untied⟩) (hosting bench (.retire 200))).tableOp = some (.host (.retire line200.mark)) := by
  decide +kernel

theorem test_witness_hostOperations :
    busy.operating = true ∧ busy.tableOp = some (.host .readGroups) ∧ busy.link.response = .pending
      ∧ findMark busy.table 200 = some line200 ∧ line200.kind = .line { plan := ⟨2, 2⟩, forwardCount := 1 }
      ∧ (∀ x ∈ busy.table, x.mark = 200 → x = line200) := by decide +kernel

/-- REOPEN of a SETTLED record: its group reports one settled record less. -/
theorem test_reopen_settled :
    (after .tableOperationCompletion
      { hosting bench (.reopen 200) with
        table := [{ line200 with state := .settled }, keepout203, datum204]
        groups := Vector.ofFn (groupCounts [{ line200 with state := .settled }]) }).group 2 = ⟨1, 0⟩ := by decide +kernel

/-- A run that ends with its segment (marks 255 and then 256), one that ends with its count, and one that meets record 200. -/
theorem test_witness_enrolRun :
    (runRequest (runParams 255 16 5000)).count ≤ 16
      ∧ (after .tableOperationCompletion (hosting bench (.enrolRun (runRequest (runParams 255 16 5000))))).link.response
        = .ready .done [1, 1]
      ∧ (after .tableOperationCompletion (hosting bench (.enrolRun (runRequest (runParams 300 2 5000))))).link.response
        = .ready .done [2, 0]
      ∧ (after .tableOperationCompletion (hosting bench (.enrolRun (runRequest (runParams 198 16 5000))))).link.response
        = .ready .done [2, BitVec.ofNat 8 RejectCode.alreadyExists.code] := by decide +kernel

theorem test_witness_measureMatch :
    (inPass .running).pass.terms.map PassTerms.kind = some .measure
      ∧ (∀ r ∈ (inPass .running).table, ¬(r.nominal.toInt - r.fields.half ≤ 10401 ∧ 10401 ≤ r.nominal.toInt + r.fields.half))
      ∧ (10400 : Position).toInt = line200.nominal.toInt + line200.fields.half
      ∧ (∀ y ∈ (inPass .running).table, (y.nominal.toInt - y.fields.half ≤ 10400 ∧ 10400 ≤ y.nominal.toInt + y.fields.half)
          ∨ y.mark = 200 → y = armed line200)
      ∧ (armed line200).state = .armed ∧ (armed line200).fields.accept = .either
      ∧ ((armed line200).fields.minWidth ≤ 1800 ∧ 2600 ≤ (armed line200).fields.maxWidth)
      ∧ ¬(2601 ≤ (armed line200).fields.maxWidth)
      ∧ (20500 : Position).toInt = keepout203.nominal.toInt - keepout203.fields.half := by decide +kernel

theorem test_witness_datumTake :
    findMark (inDatumPass .running).table 204 = some (armed datum204) ∧ (armed datum204).kind = .datum {}
      ∧ (∀ y ∈ (inDatumPass .running).table, y.mark = 204 → y = armed datum204)
      ∧ (armed datum204).fields.accept = .l1 ∧ (armed datum204).fields.minWidth ≤ 1800
      ∧ (inDatumPass .running).measuringAxis.state = .tracking
      ∧ (inDatumPass .running).pass.terms.map PassTerms.kind = some (.datum 204)
      ∧ { inDatumPass .aborting with channels := Vector.replicate 6 {} }.measuringAxis.state ≠ .tracking
      ∧ (inDatumPass .running).pass.state = .running ∧ (inDatumPass .aborting).pass.state = .aborting := by decide +kernel

/-- A MATCH that completes before its claim makes the claim itself (log 15). -/
theorem test_completion_claims :
    ((after .matchCompletion (matching (inDatumPass .running) (seen .l1 1526310 2120) none)).channel 0).offset
        = BitVec.ofInt 48 (-1500310)
      ∧ (after .matchCompletion (matching (inDatumPass .running) (seen .l1 1526310 2120) none)).pass.taken = 1 := by
  decide +kernel

theorem test_witness_armSweep :
    { inPass .arming with tableOp := some .armSweep }.pass.terms = some measureTerms
      ∧ { inPass .closing with tableOp := some .armSweep }.pass.state = .closing
      ∧ { inPass .closing with tableOp := some .armSweep }.sweepClaim = none
      ∧ { inDatumPass .arming with tableOp := some .armSweep }.pass.terms = some datumTerms := by decide +kernel

theorem test_witness_sweeps :
    { inPass .closing with tableOp := some .closeSweep }.pass.terms = some measureTerms
      ∧ { inPass .closing with tableOp := some .closeSweep }.sweepClaim = none
      ∧ { inPass .aborting with tableOp := some .abortSweep }.queue = []
      ∧ { inPass .aborting with tableOp := some .abortSweep }.operating = true
      ∧ { inPass .closing with events := { enables := 1 } }.events.enabled .passEnd = true := by decide +kernel

/-- A close sweep that completes a group: its one member's last pass (R137). -/
theorem test_sweep_completes_group :
    let line : MarkRecord := { armed line200 with
      kind := .line { plan := ⟨2, 1⟩, reverseCount := 1, current := some ⟨10000, 2000, .l1, none, false⟩ } }
    let s : State := { inPass .closing with
      table := [line], groups := Vector.ofFn (groupCounts [line]), tableOp := some .closeSweep }
    (after .closeSweepCompletion s).group 2 = ⟨1, 1⟩ ∧ (after .closeSweepCompletion s).events.groupMask = 4
      ∧ (after .closeSweepCompletion s).events.has .groupDone = true := by decide +kernel

theorem test_witness_closeSweepFolds :
    line300.state = .armed ∧ (armed line200).state = .armed
      ∧ (armed line200).kind = .line { plan := ⟨2, 2⟩, forwardCount := 1 }
      ∧ (widenCentres (some ⟨4012, 4012⟩) 3990) = ⟨3990, 4012⟩
      ∧ (line200.state ≠ .armed ∧ line200.kind = .line { plan := ⟨2, 2⟩, forwardCount := 1 })
      ∧ ((armed keepout203).amended MarkRecord.resolveAbort).restLine = keepout203
      ∧ ((armed datum204).amended (MarkRecord.resolveClose .forward)).restLine = datum204 := by decide +kernel

theorem test_witness_groupCompletes :
    ¬((bench.group 2).settled = (bench.group 2).members ∧ 0 < (bench.group 2).members)
      ∧ ((bench.group 2).members, (bench.group 2).settled) = (1, 0)
      ∧ (after .referenceEdge (bench.groupReport 2 0 1)).events.has .groupDone = true := by decide +kernel

theorem test_witness_start :
    bench.receives ∧ bench.link.exchange ≠ .starting ∧ (0x48#7 + bench.link.strap.zeroExtend 7) ++ 1#1 = 0x91#8
      ∧ (0x48#7 + bench.link.strap.zeroExtend 7) ++ 0#1 = 0x90#8
      ∧ (0x92#8).extractLsb' 1 7 ≠ 0x48#7 + bench.link.strap.zeroExtend 7
      ∧ (withExchange bench .starting).link.exchange = .starting ∧ (0x91#8).toNat ≤ (0x91#8).toNat
      ∧ (0x8F#8).toNat < (0x90#8).toNat :=
  ⟨receives_bench, by decide +kernel⟩

theorem receives_starting : (withExchange bench .starting).receives := by unfold State.receives; decide +kernel

/-- R168: a rival in STARTING, below, at and above the part's own address with R. -/
theorem test_rival :
    (after (.linkStart (some 0x8F)) (withExchange bench .starting)).link.exchange = .elsewhere
      ∧ (after (.linkStart (some 0x90)) (withExchange bench .starting)).link.exchange = .receiving
      ∧ after (.linkStart (some 0x91)) (withExchange bench .starting) = withExchange bench .starting
      ∧ after (.linkStart (some 0x92)) (withExchange bench .starting) = withExchange bench .starting := by decide +kernel

def arming (part interface : Bool) : State :=
  { inPass .running with link := { bench.link with exchange := .taken, armedPart := part, armedInterface := interface } }

theorem test_witness_stop :
    (arming true true).operating = true ∧ (arming true true).link.armedPart = true ∧ (arming false true).link.armedPart = false
      ∧ (arming false true).link.armedInterface = true ∧ (arming false false).link.armedInterface = false
      ∧ (arming false true).pass.state.live = true ∧ (arming false true).tableOp = none
      ∧ (after (.linkStop ⟨0, .untied⟩) (arming false true)).tableOp = some .abortSweep
      ∧ (hosting (arming false true) .readGroups).tableOp ≠ none := by decide +kernel

/-- R159 and R40: what an interface reset raises again, and what a part reset leaves of a line input. -/
theorem test_armed_resets :
    ((after (.linkStop ⟨0, .untied⟩) { arming false true with events := { enables := EventFlag.axisDown.word } }).events.axisMask
        = 0b001110)
      ∧ ((after (.linkStop ⟨0, .untied⟩)
        { arming false true with events := { enables := EventFlag.axisDown.word } }).events.noticePending = true)
      ∧ (after (.linkStop ⟨0, .untied⟩) (arming false true)).events.noticePending = false
      ∧ (after (.linkStop ⟨0, .untied⟩) { arming true false with
        line1 := { enable := true, polarity := .low, span := 9, level := .high } }).line1 = { level := .high } := by decide +kernel

theorem test_witness_responseRead :
    receiving.receives ∧ receiving.link.exchange.fresh = false ∧ receiving.link.response = .empty
      ∧ busy.link.exchange.fresh = false ∧ busy.link.response = .pending
      ∧ (after (.readPass []) receiving).link.response = .ready .done (bench.pass.image)
      ∧ (after (.readPass [0]) receiving).link.response = .ready (.rejected .length) [] :=
  ⟨receives_receiving, by decide +kernel⟩

theorem test_witness_poll :
    bench.receives ∧ bench.link.exchange.fresh = true
      ∧ { bench with events := { enables := 1, notice := some ⟨0, 0, 0, false, true⟩ } }.events.enabled .passEnd = true
      ∧ (after .closeSweepCompletion
        { inPass .closing with
          tableOp := some .closeSweep
          events := { flags := 1, enables := 1, notice := some ⟨0, 0, 0, false, true⟩ } }).events.notice
        = some ⟨0, 0, 0, true, true⟩ :=
  ⟨receives_bench, by decide +kernel⟩

def noticing : State := { bench with events := { noticeOn := true, noticePending := true } }

theorem test_witness_notice :
    (noticing.link.exchange = .idle ∧ noticing.link.idleTimer = true ∧ noticing.events.noticeOn = true
        ∧ noticing.events.noticePending = true)
      ∧ ¬(bench.events.noticeOn = true) ∧ (0x91#8).toNat ≤ (0x91#8).toNat ∧ (0x8F#8).toNat < (0x90#8).toNat
      ∧ (withExchange bench .starting).link.exchange = .starting := by decide +kernel

theorem test_witness_resets :
    bench.supply ≠ .failed ∧ held.supply = .hold ∧ { bench with resetPinLow := true }.resetPinLow = true
      ∧ { bench with resetPinLow := true }.supply = .on := by decide +kernel

theorem bench_tableOp (op : TableOp) : bench.tableOp ≠ some op := by
  rw [show bench.tableOp = none from rfl]
  nofun

/-- The bench satisfies every law, so the laws' hypotheses are met by a state with records, windows and members. -/
theorem test_witness_laws_signals : bench.ReferencedTracks ∧ bench.WithinCeilings ∧ bench.LivePassLaw :=
  ⟨by unfold State.ReferencedTracks; decide +kernel,
    ⟨by decide +kernel, by decide +kernel, by decide +kernel, by decide +kernel, by decide +kernel, by decide +kernel, by decide +kernel, by decide +kernel⟩,
    ⟨by decide +kernel, by decide +kernel, fun _ h => absurd h (bench_tableOp _)⟩⟩

/-- The law of the reference period, with none under way and within one. -/
theorem test_witness_laws_period : bench.PeriodLaw ∧ (sampled [0] bench).PeriodLaw ∧ (sampled [0] bench).period ≠ none := by
  refine ⟨⟨nofun, nofun, fun _ => rfl⟩, ⟨?_, ?_, by decide +kernel⟩, by decide +kernel⟩
  · have : ∃ k : ChannelIx, ((sampled [0] bench).channel k).state ≠ .off
        ∧ (sampled [0] bench).period.map (fun p => p.reached[k]) = some false := by decide +kernel
    obtain ⟨k, hk, hr⟩ := this
    intro p hp
    rw [hp] at hr
    exact ⟨k, hk, by simpa using hr⟩
  · have : ∀ k : ChannelIx, (sampled [0] bench).period.map (fun p => p.reached[k]) = some false →
        (sampled [0] bench).period.map (fun p => p.boundary[k].raw) = some ((sampled [0] bench).channel k).raw := by
      decide +kernel
    intro p hp k hr
    have h := this k (by rw [hp]; exact congrArg some hr)
    simp only [hp, Option.map_some, Option.some.injEq] at h
    exact h.symm

theorem test_witness_laws_link : bench.LinkLaw ∧ bench.PassNumberLaw :=
  ⟨⟨by decide +kernel, by decide +kernel, by decide +kernel⟩, ⟨by decide +kernel, by decide +kernel⟩⟩

theorem test_witness_laws_queue : bench.QueueLaw :=
  ⟨by decide +kernel, by decide +kernel, by decide +kernel, by decide +kernel, by decide +kernel, by decide +kernel, by decide +kernel, by decide +kernel, by decide +kernel⟩

theorem test_witness_laws_table : bench.TableLaw ∧ bench.WindowLaw :=
  ⟨⟨by decide +kernel, by decide +kernel, by decide +kernel, by decide +kernel,
    fun _ h => absurd h (bench_tableOp _)⟩,
    ⟨by decide +kernel, fun _ h => absurd h (bench_tableOp _), fun _ _ h => absurd h (bench_tableOp _)⟩⟩

theorem test_witness_laws_counts : bench.OccupancyLaw ∧ bench.GroupLaw ∧ bench.OptionalPartLaw := by
  refine ⟨⟨by decide +kernel, fun _ h => absurd h (bench_tableOp _)⟩,
    ⟨by decide +kernel, ?_, fun _ h => absurd h (bench_tableOp _)⟩,
    ⟨?_, by decide +kernel, fun _ h => absurd h (bench_tableOp _), fun h => absurd h (bench_tableOp _),
      fun _ h => absurd h (bench_tableOp _), fun _ h => absurd h (bench_tableOp _)⟩⟩
  · have : ∀ r ∈ bench.table, r.state ≠ .settled := by decide +kernel
    exact fun r hr _ _ hs => absurd hs (this r hr)
  · unfold MarkRecord.restful; decide +kernel

theorem test_witness_laws_step : step bench = .next bench := rfl

theorem test_witness_laws_range : bench.RangeLaw := by
  have h : ∀ r ∈ bench.table, r.fields.half ≤ 2 ^ (bench.config.shift - 1) - 1 ∧ 1 ≤ r.fields.half
      ∧ r.fields.minWidth ≤ r.fields.maxWidth ∧ r.fields.maxWidth ≤ 65535
      ∧ -(2 ^ 47 : Int) ≤ r.nominal.toInt - r.fields.half ∧ r.nominal.toInt + r.fields.half ≤ 2 ^ 47 - 1
      ∧ r.staged = none := by decide +kernel
  exact ⟨by decide +kernel, fun r hr => ⟨(h r hr).2.1, (h r hr).1, (h r hr).2.2.1, (h r hr).2.2.2.1, (h r hr).2.2.2.2.1,
      (h r hr).2.2.2.2.2.1⟩, fun r hr a ha => absurd ((h r hr).2.2.2.2.2.2.symm.trans ha) nofun,
    fun _ h => absurd h (bench_tableOp _), fun _ _ h => absurd h (bench_tableOp _), fun _ h => absurd h (bench_tableOp _)⟩

theorem test_witness_prefilter :
    line200 ∈ bench.table ∧ (9600 : Position).toInt = line200.nominal.toInt - line200.fields.half
      ∧ (10400 : Position).toInt = line200.nominal.toInt + line200.fields.half := by decide +kernel

end Sys2Proof.Tests
end

