-- ==== Sys2Proof/Proofs/Ceilings.lean ====
section
/-! SUPPORT. The event unit's counters stay within their ceilings (R152): one rule per operation that reports to the event unit,
and the two gates through which every command passes. -/

namespace Sys2Proof.Machine

/-! ### The gates -/

/-- What holds of the state itself, of a refused length, and of the owner's execution holds of a request. -/
theorem State.request_of {P : State → Prop} (s : State) (len : Nat) (params : List Byte) (owner : State → State)
    (ignored : P s) (short : P ((s.addressedForWrite .taken).reject .length))
    (executed : P (owner (s.addressedForWrite .taken))) : P (s.request len params owner) := by
  obtain h | h | h := s.request_cases len params owner
  · rw [h]; exact ignored
  · rw [h]; exact short
  · rw [h]; exact executed

/-- What holds of the state itself and of the executed meaning holds of a command that only an operating part carries out. -/
theorem State.whileOperating_of {P : State → Prop} (s : State) (f : State → State) (held : P s) (executed : P (f s)) :
    P (s.whileOperating f) := by
  unfold State.whileOperating
  split
  · exact executed
  · exact held

/-! ### Counters -/

/-- The six counters lie within their ceiling. -/
structure Counters.Within (c : Counters) : Prop where
  stray : c.stray ≤ 65535
  unarmed : c.unarmed ≤ 65535
  width : c.width ≤ 65535
  smear : c.smear ≤ 65535
  unpassed : c.unpassed ≤ 65535
  overrun : c.overrun ≤ 65535

theorem Counters.within_zero : ({} : Counters).Within := by
  constructor <;> exact Nat.zero_le _

/-- A saturating report leaves every counter within its ceiling. -/
theorem Counters.within_add {c : Counters} (h : c.Within) (k : Counter) (n : Nat) : (c.add k n).Within := by
  have top : ∀ m, saturate Config.counterCeiling m ≤ 65535 := fun m => Nat.min_le_left _ _
  obtain ⟨h1, h2, h3, h4, h5, h6⟩ := h
  cases k
  case stray => exact ⟨top _, h2, h3, h4, h5, h6⟩
  case unarmed => exact ⟨h1, top _, h3, h4, h5, h6⟩
  case width => exact ⟨h1, h2, top _, h4, h5, h6⟩
  case smear => exact ⟨h1, h2, h3, top _, h5, h6⟩
  case unpassed => exact ⟨h1, h2, h3, h4, top _, h6⟩
  case overrun => exact ⟨h1, h2, h3, h4, h5, top _⟩

@[simp] theorem EventUnit.raiseConditions_counters (e : EventUnit) (down : BitVec 6) (full : Bool) :
    (e.raiseConditions down full).counters = e.counters := by
  unfold EventUnit.raiseConditions
  split <;> simp only <;> split <;> rfl

@[simp] theorem EventUnit.clear_counters (e : EventUnit) (set : BitVec 9) (down : BitVec 6) (full : Bool) :
    (e.clear set down full).counters = e.counters := by
  simp only [EventUnit.clear, apply_ite EventUnit.counters, EventUnit.raiseConditions_counters, ite_self]

/-- Counters within their ceilings before are so after. -/
def EventUnit.KeepsCeilings (a b : EventUnit) : Prop := a.counters.Within → b.counters.Within

namespace EventUnit.KeepsCeilings

theorem trans {a b c : EventUnit} (h : a.KeepsCeilings b) (k : b.KeepsCeilings c) : a.KeepsCeilings c := fun ha => k (h ha)

theorem of_counters {a b : EventUnit} (h : b.counters = a.counters) : a.KeepsCeilings b := fun ha => h ▸ ha

theorem of_zero {a b : EventUnit} (h : b.counters = {}) : a.KeepsCeilings b := fun _ => h ▸ Counters.within_zero

theorem refl (a : EventUnit) : a.KeepsCeilings a := of_counters rfl

theorem count (a : EventUnit) (k : Counter) (n : Nat) : a.KeepsCeilings (a.count k n) := fun h => Counters.within_add h k n

theorem raise (a : EventUnit) (f : EventFlag) : a.KeepsCeilings (a.raise f) := of_counters rfl

theorem transition (a : EventUnit) (k : ChannelIx) (before after : ChannelState) :
    a.KeepsCeilings (a.transition k before after) := of_counters (a.transition_counters k before after)

theorem stopNotice (a : EventUnit) : a.KeepsCeilings a.stopNotice := by
  unfold EventUnit.stopNotice
  split <;> exact of_counters rfl

theorem raiseConditions (a : EventUnit) (down : BitVec 6) (full : Bool) : a.KeepsCeilings (a.raiseConditions down full) :=
  of_counters (a.raiseConditions_counters down full)

theorem clear (a : EventUnit) (set : BitVec 9) (down : BitVec 6) (full : Bool) : a.KeepsCeilings (a.clear set down full) :=
  of_counters (a.clear_counters set down full)

theorem notify (a : EventUnit) (len : Nat) (extent : ReadExtent) : a.KeepsCeilings (a.notify len extent) := by
  unfold EventUnit.notify
  split
  · exact refl a
  · split
    · exact of_counters rfl
    · split <;> exact of_counters rfl

/-! ### Lines, queue and pass -/

theorem enqueue (s : State) (x : Sighting) : s.events.KeepsCeilings (s.enqueue x).events := by
  unfold State.enqueue
  split
  · exact refl _
  · exact (count s.events .overrun 1).trans (raise _ _)

theorem prefilter (s : State) (x : Sighting) : s.events.KeepsCeilings (s.prefilter x).events := by
  unfold State.prefilter
  split
  · exact count s.events _ _
  · exact enqueue s x

theorem tagSighting (s : State) (i : LineId) (c : Position) (w : Nat) (a : Option Position) :
    s.events.KeepsCeilings (s.tagSighting i c w a).events := by
  unfold State.tagSighting
  split
  · simp only
    split
    · exact prefilter s _
    · exact enqueue s _
    · exact count s.events _ _
  · exact count s.events _ _

theorem setLine (s : State) (i : LineId) (l : LineInput) : s.events.KeepsCeilings (s.setLine i l).events :=
  of_counters (by simp)

theorem formLine (s : State) (i : LineId) : s.events.KeepsCeilings (s.formLine i).events := by
  unfold State.formLine
  split
  · exact refl _
  · split
    · exact refl _
    · exact (setLine s i _).trans (count _ _ _)
    · exact (setLine s i _).trans (tagSighting _ _ _ _ _)

theorem formSightings (s : State) : s.events.KeepsCeilings s.formSightings.events := (formLine s _).trans (formLine _ _)

theorem putGuarded (s : State) (i : LineId) (g : LineInput × Bool) : s.events.KeepsCeilings (s.putGuarded i g).events := by
  unfold State.putGuarded
  simp only
  split
  · exact (setLine s i _).trans (count _ _ _)
  · exact setLine s i _

theorem linesSee (s : State) (k : ChannelIx) (p : Nat → Position) (st : ChannelState) (left : Bool) (q : Option Position) :
    s.events.KeepsCeilings (s.linesSee k p st left q).events := (putGuarded _ _ _).trans (putGuarded _ _ _)

theorem emptyQueue (s : State) (counted : Bool) : s.events.KeepsCeilings (s.emptyQueue counted).events := by
  rw [State.emptyQueue_events]
  split
  · exact count _ _ _
  · exact refl _

theorem abortLivePass (s : State) (cause : AbortCause) : s.events.KeepsCeilings (s.abortLivePass cause).events := by
  unfold State.abortLivePass
  split
  · exact emptyQueue s _
  · exact refl _

theorem testCrossing (s : State) (p : Position) : s.events.KeepsCeilings (s.testCrossing p).events := by
  unfold State.testCrossing
  split
  · exact refl _
  · split
    · split
      · exact of_counters (by simp)
      · exact abortLivePass s _
    · exact refl _

theorem passSees (s : State) (k : ChannelIx) (left : Bool) (p : Position) :
    s.events.KeepsCeilings (s.passSees k left p).events := by
  unfold State.passSees
  split
  · split
    · exact abortLivePass s _
    · exact testCrossing s p
  · exact refl _

theorem arbitrate (s : State) : s.events.KeepsCeilings s.arbitrate.events := of_counters (by simp)

theorem settleEvent (s : State) (first : MeetOrder) (ends : State → State)
    (h : ∀ v : State, v.events.KeepsCeilings (ends v).events) : s.events.KeepsCeilings (s.settleEvent first ends).events := by
  cases first
  case formationFirst => exact ((formSightings s).trans (h _)).trans (arbitrate _)
  case passFirst => exact ((h s).trans (formSightings _)).trans (arbitrate _)
  case passBetween => exact (((formLine s _).trans (h _)).trans (formLine _ _)).trans (arbitrate _)

/-! ### Groups and records -/

theorem setGroup (s : State) (g : Fin 8) (c : GroupCounts) : s.events.KeepsCeilings (s.setGroup g c).events :=
  of_counters (s.setGroup_completes g c).counters

theorem groupReport (s : State) (g : Fin 8) (m n : Int) : s.events.KeepsCeilings (s.groupReport g m n).events := setGroup s g _

end EventUnit.KeepsCeilings

end Sys2Proof.Machine
end

