-- ==== Sys2Proof/Proofs/Quiet.lean ====
section
/-! SUPPORT. The operations and commands that leave the fringe channels, the reference period and the reference monitor as they are,
and the counters within their ceilings. -/

namespace Sys2Proof.Machine

/-- What the insertion of each record that passes its checks keeps, a run of insertions keeps (R121). -/
theorem State.runFrom_of {P : State → Prop} {run : RunRequest}
    (h : ∀ (v : State) (i : Nat) (r : MarkRecord), P v → v.judgeRunRecord run i = .inr r → P (v.insertNew r)) (left : Nat) :
    ∀ (i : Nat) (s : State), P s → P (State.runFrom run left i s).1 := by
  induction left with
  | zero => exact fun i s hs => hs
  | succ left ih =>
    intro i s hs
    unfold State.runFrom
    split
    · exact hs
    · split
      · exact hs
      next r hr => exact ih _ _ (h s i r hs hr)

/-- The channels, the reference period and the monitor stand as they did, and the counters are still within their ceilings. -/
structure State.Quiet (s t : State) : Prop where
  channels : t.channels = s.channels
  period : t.period = s.period
  monitor : t.monitor = s.monitor
  ceilings : s.events.KeepsCeilings t.events

namespace State.Quiet

theorem refl (s : State) : s.Quiet s := ⟨rfl, rfl, rfl, .refl _⟩

theorem trans {s t u : State} (h : s.Quiet t) (k : t.Quiet u) : s.Quiet u :=
  ⟨k.channels.trans h.channels, k.period.trans h.period, k.monitor.trans h.monitor, h.ceilings.trans k.ceilings⟩

/-- Only the event unit changes, and keeps its counters within their ceilings. -/
theorem events {s : State} {e : EventUnit} (h : s.events.KeepsCeilings e) : s.Quiet { s with events := e } := ⟨rfl, rfl, rfl, h⟩

/-! ### The link -/

theorem answer (s : State) (status : Status) (bytes : List Byte) : s.Quiet (s.answer status bytes) := ⟨rfl, rfl, rfl, .refl _⟩

theorem reject (s : State) (code : RejectCode) : s.Quiet (s.reject code) := answer s _ _

theorem handOver (s : State) (status : Status) (bytes : List Byte) : s.Quiet (s.handOver status bytes) := by
  unfold State.handOver
  split
  · exact answer s _ _
  · exact refl s

theorem startExchange (s : State) (x : ExchangeState) : s.Quiet (s.startExchange x) := ⟨rfl, rfl, rfl, .of_counters rfl⟩

theorem addressedForWrite (s : State) (x : ExchangeState) : s.Quiet (s.addressedForWrite x) := ⟨rfl, rfl, rfl, .of_counters rfl⟩

theorem stopExchange (s : State) : s.Quiet s.stopExchange := ⟨rfl, rfl, rfl, .stopNotice _⟩

theorem startHostOp (s : State) (op : HostOp) : s.Quiet (s.startHostOp op) := ⟨rfl, rfl, rfl, .refl _⟩

theorem judgeAddress (s : State) (address : Byte) : s.Quiet (s.judgeAddress address) := by
  unfold State.judgeAddress
  split
  · exact addressedForWrite s _
  · exact startExchange s _

theorem meetRival (s : State) (rival : Byte) : s.Quiet (s.meetRival rival) := by
  unfold State.meetRival
  split
  · exact judgeAddress s rival
  · exact refl s

theorem linkStart (s : State) (address : Option Byte) : s.Quiet (s.linkStart address) := by
  unfold State.linkStart
  split
  · exact refl s
  · exact refl s
  · exact meetRival s _
  · exact startExchange s _
  · split
    · exact startExchange s _
    · exact judgeAddress s _

theorem send (s : State) (bytes : List Byte) (extent : ReadExtent) : s.Quiet (s.send bytes extent) :=
  ⟨rfl, rfl, rfl, .of_counters rfl⟩

theorem declineRead (s : State) : s.Quiet s.declineRead := ⟨rfl, rfl, rfl, .of_counters rfl⟩

theorem readResponse (s : State) (extent : ReadExtent) : s.Quiet (s.readResponse extent) := by
  unfold State.readResponse
  split
  · exact declineRead s
  · exact send s _ _
  · exact send s _ _

theorem sendPayload (s : State) (extent : ReadExtent) : s.Quiet (s.sendPayload extent) :=
  (send s s.events.payload extent).trans (events (.notify _ _ _))

theorem addressedForRead (s : State) (extent : ReadExtent) : s.Quiet (s.addressedForRead extent) := by
  unfold State.addressedForRead
  split
  · exact ⟨rfl, rfl, rfl, .refl _⟩
  · split
    · exact sendPayload s extent
    · exact readResponse s extent

theorem startNotice (s : State) (rival : Option Byte) : s.Quiet (s.startNotice rival) := by
  unfold State.startNotice
  split
  · exact startExchange s _
  · exact (startExchange s _).trans (meetRival _ _)

/-- A request is quiet where its owner's execution is. -/
theorem request {s : State} {len : Nat} {params : List Byte} {owner : State → State} (h : ∀ u : State, u.Quiet (owner u)) :
    s.Quiet (s.request len params owner) :=
  s.request_of len params owner (refl s) ((addressedForWrite s _).trans (reject _ _)) ((addressedForWrite s _).trans (h _))

theorem whileOperating {s : State} {f : State → State} (h : s.Quiet (f s)) : s.Quiet (s.whileOperating f) :=
  s.whileOperating_of f (refl s) h

/-! ### Line inputs, the pass and the arbiter -/

theorem arbitrate (s : State) : s.Quiet s.arbitrate := ⟨by simp, by simp, by simp, .arbitrate s⟩

theorem count (s : State) (k : Counter) (n : Nat) : s.Quiet (s.count k n) := events (.count _ _ _)

theorem raise (s : State) (f : EventFlag) : s.Quiet (s.raise f) := events (.raise _ _)

theorem setLine (s : State) (i : LineId) (l : LineInput) : s.Quiet (s.setLine i l) :=
  ⟨by simp, by simp, by simp, .setLine s i l⟩

theorem putGuarded (s : State) (i : LineId) (g : LineInput × Bool) : s.Quiet (s.putGuarded i g) :=
  ⟨by simp, by simp, by simp, .putGuarded s i g⟩

theorem linesSee (s : State) (k : ChannelIx) (p : Nat → Position) (st : ChannelState) (left : Bool) (q : Option Position) :
    s.Quiet (s.linesSee k p st left q) := ⟨by simp, by simp, by simp, .linesSee s k p st left q⟩

theorem formLine (s : State) (i : LineId) : s.Quiet (s.formLine i) := ⟨by simp, by simp, by simp, .formLine s i⟩

theorem formSightings (s : State) : s.Quiet s.formSightings := (formLine s _).trans (formLine _ _)

theorem emptyQueue (s : State) (counted : Bool) : s.Quiet (s.emptyQueue counted) := ⟨rfl, rfl, rfl, .emptyQueue s counted⟩

theorem abortLivePass (s : State) (cause : AbortCause) : s.Quiet (s.abortLivePass cause) :=
  ⟨by simp, by simp, by simp, .abortLivePass s cause⟩

theorem closeLivePass (s : State) : s.Quiet s.closeLivePass := ⟨by simp, by simp, by simp, .of_counters (by simp)⟩

theorem passSees (s : State) (k : ChannelIx) (left : Bool) (p : Position) : s.Quiet (s.passSees k left p) :=
  ⟨by simp, by simp, by simp, .passSees s k left p⟩

/-- The end of an event is quiet where the pass controller is. -/
theorem settleEvent (s : State) (first : MeetOrder) {ends : State → State} (h : ∀ v : State, v.Quiet (ends v)) :
    s.Quiet (s.settleEvent first ends) := by
  cases first
  case formationFirst => exact ((formSightings s).trans (h _)).trans (arbitrate _)
  case passFirst => exact ((h s).trans (formSightings _)).trans (arbitrate _)
  case passBetween => exact (((formLine s _).trans (h _)).trans (formLine _ _)).trans (arbitrate _)

theorem leadingEdge (s : State) (i : LineId) (phase : Nat) : s.Quiet (s.leadingEdge i phase) := by
  unfold State.leadingEdge
  simp only
  split
  · exact refl s
  · exact refl s
  · split
    · exact putGuarded s _ _
    · exact setLine s _ _

theorem closeLine (s : State) (i : LineId) (l : LineInput) (o : OpenLine) (phase : Nat) : s.Quiet (s.closeLine i l o phase) := by
  have order : s.Quiet { s with earlierClosing := s.closingOrder i } := ⟨rfl, rfl, rfl, .refl _⟩
  exact ((order.trans (setLine _ _ _)).trans (formSightings _)).trans (arbitrate _)

theorem trailingEdge (s : State) (i : LineId) (phase : Nat) : s.Quiet (s.trailingEdge i phase) := by
  unfold State.trailingEdge
  simp only
  split
  · exact setLine s _ _
  · exact setLine s _ _
  · split
    · exact (setLine s _ _).trans (count _ _ _)
    · exact closeLine s _ _ _ _

theorem setLineRequest (s : State) (f : SetLineFields) : s.Quiet (s.setLineRequest f) := by
  unfold State.setLineRequest
  split
  · exact reject s _
  · split
    · exact reject s _
    · exact (setLine s _ _).trans (answer _ _ _)

theorem beginPassRequest (s : State) (f : BeginPassFields) : s.Quiet (s.beginPassRequest f) := by
  unfold State.beginPassRequest
  split
  · exact reject s _
  · split
    · exact reject s _
    · split
      · exact reject s _
      · split
        · exact reject s _
        · exact ⟨rfl, rfl, rfl, .refl _⟩

theorem abortPassRequest (s : State) (number : Nat) : s.Quiet (s.abortPassRequest number) := by
  unfold State.abortPassRequest
  split
  · exact reject s _
  · split
    · exact reject s _
    · exact ((abortLivePass s _).trans (arbitrate _)).trans (answer _ _ _)

/-! ### Records, groups and sweeps -/

theorem records (s : State) (table : List MarkRecord) (occupancy : Vector Nat 64) :
    s.Quiet { s with table := table, occupancy := occupancy } := ⟨rfl, rfl, rfl, .refl _⟩

theorem groupReport (s : State) (g : Fin 8) (m n : Int) : s.Quiet (s.groupReport g m n) :=
  ⟨rfl, rfl, rfl, .groupReport s g m n⟩

theorem reportSweep (s : State) (before after : List MarkRecord) : s.Quiet (s.reportSweep before after) := by
  obtain ⟨-, rest, completes⟩ := s.reportSweep_spec before after
  exact ⟨by rw [rest], by rw [rest], by rw [rest], .of_counters completes.counters⟩

theorem endPass (s : State) (missed : Nat) : s.Quiet (s.endPass missed) := by
  have idle : s.Quiet { s with pass := { s.pass with state := .idle, missed := missed }, tableOp := none } :=
    ⟨rfl, rfl, rfl, .refl _⟩
  exact (idle.trans (raise _ _)).trans (arbitrate _)

theorem sweepRecords (s : State) (resolve : MarkRecord → MarkRecord) : s.Quiet (s.sweepRecords resolve) :=
  (records s _ _).trans (reportSweep _ _ _)

theorem finishArmSweep (s : State) : s.Quiet s.finishArmSweep := by
  have armed : s.Quiet s.armRecords := by
    unfold State.armRecords
    split <;> exact ⟨rfl, rfl, rfl, .refl _⟩
  have after : ∀ v : State, v.Quiet { v.afterArming with tableOp := none } := by
    intro v
    unfold State.afterArming
    split <;> exact ⟨rfl, rfl, rfl, .refl _⟩
  exact ((armed.trans (handOver _ _ _)).trans (after _)).trans (arbitrate _)

theorem insertNew (s : State) (r : MarkRecord) : s.Quiet (s.insertNew r) := by
  have full : ∀ v : State, v.Quiet (if v.tableFull then v.raise .tableFull else v) := by
    intro v
    split
    · exact raise v _
    · exact refl v
  unfold State.insertNew
  cases r.kind
  case line l => exact ((records s _ _).trans (groupReport _ _ _ _)).trans (full _)
  case datum d => exact (records s _ _).trans (full _)
  case keepout k => exact (records s _ _).trans (full _)

theorem runFrom (run : RunRequest) (left i : Nat) (s : State) : s.Quiet (State.runFrom run left i s).1 :=
  State.runFrom_of (P := s.Quiet) (fun v _ r hv _ => hv.trans (insertNew v r)) left i s (refl s)

theorem reportAmended (s : State) (before after : MarkRecord) : s.Quiet (s.reportAmended before after) := by
  unfold State.reportAmended
  split
  · split
    · exact groupReport s _ _ _
    · exact (groupReport s _ _ _).trans (groupReport _ _ _ _)
  · exact refl s

theorem applyAmend (s : State) (r : MarkRecord) (a : Amendment) : s.Quiet (s.applyAmend r a) :=
  (records s _ _).trans (reportAmended _ _ _)

theorem removeRecord (s : State) (r : MarkRecord) : s.Quiet (s.removeRecord r) := by
  unfold State.removeRecord
  cases r.kind
  case line l => exact (records s _ _).trans (groupReport _ _ _ _)
  case datum d => exact records s _ _
  case keepout k => exact records s _ _

theorem reopenRecord (s : State) (r : MarkRecord) (l : LinePart) : s.Quiet (s.reopenRecord r l) :=
  (records s _ s.occupancy).trans (groupReport _ _ _ _)

theorem completeHostOp (s : State) (op : HostOp) : s.Quiet (s.completeHostOp op).1 := by
  cases op
  case refuse code => exact refl s
  case enrol r => exact insertNew s r
  case enrolRun run => exact runFrom run _ _ s
  case amend mark a =>
    simp only [State.completeHostOp]
    split
    · exact refl s
    · split
      · exact applyAmend s _ a
      · exact ⟨rfl, rfl, rfl, .refl _⟩
  case retire mark =>
    simp only [State.completeHostOp]
    split
    · exact refl s
    · split
      · exact removeRecord s _
      · exact ⟨rfl, rfl, rfl, .refl _⟩
  case reopen mark =>
    simp only [State.completeHostOp]
    split
    · exact refl s
    · split
      · exact reopenRecord s _ _
      · exact refl s
      · exact refl s
  case lookup mark =>
    simp only [State.completeHostOp]
    split
    · exact refl s
    · exact refl s
  case readRange p => exact refl s
  case readGroups => exact refl s
  case setMatch m => exact ⟨rfl, rfl, rfl, .refl _⟩

theorem finishHostOp (s : State) (op : HostOp) : s.Quiet (s.finishHostOp op) := by
  have freed : ∀ v : State, v.Quiet { v with tableOp := none } := fun v => ⟨rfl, rfl, rfl, .refl _⟩
  exact (((completeHostOp s op).trans (handOver _ _ _)).trans (freed _)).trans (arbitrate _)

theorem hostTable (s : State) (judge : State → HostOp) : s.Quiet (s.hostTable judge) := by
  unfold State.hostTable
  split
  · exact startHostOp s _
  · exact reject s _

theorem hostTableGuarded (s : State) (judge : State → Verdict) {shielded : State → State}
    (h : ∀ u : State, u.Quiet (shielded u)) : s.Quiet (s.hostTableGuarded judge shielded) := by
  unfold State.hostTableGuarded
  split
  · split
    · exact startHostOp s _
    · have fault : ∀ mark, s.Quiet (s.protectionFault mark) := fun mark => ⟨rfl, rfl, rfl, .of_counters rfl⟩
      exact (fault _).trans (h _)
  · exact reject s _

theorem setMatchRequest (s : State) (f : SetMatchFields) : s.Quiet (s.setMatchRequest f) := by
  unfold State.setMatchRequest
  split
  · exact reject s _
  · split
    · exact reject s _
    · split
      · exact ⟨rfl, rfl, rfl, .refl _⟩
      · split
        · exact reject s _
        · split
          · exact startHostOp s _
          · exact startHostOp s _

/-! ### Matching, beside the offset claim -/

theorem reportOutcome (s : State) (o : MatchOutcome) : s.Quiet (s.reportOutcome o) := by
  cases o
  case stray => exact count s _ _
  case unarmed => exact count s _ _
  case width => exact count s _ _
  case flaw => exact raise s _
  case duplicate => exact refl s
  case take => exact ⟨rfl, rfl, rfl, .refl _⟩

theorem updateKind (s : State) (mark : Nat) (f : KindPart → KindPart) : s.Quiet (s.updateKind mark f) :=
  ⟨rfl, rfl, rfl, .refl _⟩

theorem matchMeasure (s : State) (x : Sighting) : s.Quiet (s.matchMeasure x) := by
  unfold State.matchMeasure
  split
  · exact reportOutcome s _
  · exact (updateKind s _ _).trans (reportOutcome _ _)

theorem finishClaim (s : State) (report : ClaimReport) : s.Quiet (s.finishClaim report) := by
  cases report
  case refused => exact count s _ _
  case applied =>
    have closing : ∀ v : State, v.Quiet v.claimClosing := by
      intro v
      unfold State.claimClosing
      split
      · exact closeLivePass v
      · exact refl v
    have taken : s.Quiet { s with pass := { s.pass with taken := s.pass.taken + 1 } } := ⟨rfl, rfl, rfl, .refl _⟩
    exact (taken.trans (emptyQueue _ _)).trans (closing _)

/-! ### Events, protection and the link's own requests -/

theorem readEventsRequest (s : State) (option : Nat) : s.Quiet (s.readEventsRequest option) := by
  unfold State.readEventsRequest
  split
  · exact answer s _ _
  · exact (events (.of_zero rfl)).trans (answer _ _ _)
  · exact reject s _

theorem clearEventsRequest (s : State) (word : Nat) : s.Quiet (s.clearEventsRequest word) := by
  unfold State.clearEventsRequest
  split
  · exact reject s _
  · exact (events (.clear _ _ _ _)).trans (answer _ _ _)

theorem setNoticeRequest (s : State) (setting word : Nat) : s.Quiet (s.setNoticeRequest setting word) := by
  unfold State.setNoticeRequest
  split
  · exact (events (e := s.events.setNotice _ _) (.of_counters rfl)).trans (answer _ _ _)
  · exact reject s _

theorem unprotectRequest (s : State) (set : BitVec 32) : s.Quiet (s.unprotectRequest set) := by
  unfold State.unprotectRequest
  split <;> exact ⟨rfl, rfl, rfl, .of_counters rfl⟩

theorem resetRequest (s : State) (scope : Nat) : s.Quiet (s.resetRequest scope) := by
  unfold State.resetRequest
  split
  · exact ⟨rfl, rfl, rfl, .refl _⟩
  · exact ⟨rfl, rfl, rfl, .refl _⟩
  · exact reject s _

theorem interfaceReset (s : State) : s.Quiet s.interfaceReset := by
  have cleared : ∀ v : State, v.Quiet { v with
      queue := []
      line1 := v.line1.dropLines
      line2 := v.line2.dropLines
      events := v.events.interfaceReset v.downMask v.tableFull } :=
    fun v => ⟨rfl, rfl, rfl, .of_zero (EventUnit.raiseConditions_counters _ _ _)⟩
  exact ((abortLivePass s .reset).trans (cleared _)).trans (arbitrate _)

end State.Quiet

end Sys2Proof.Machine
end

