-- ==== Sys2Proof/Proofs/SignalLaws.lean ====
section
/-! SUPPORT. Every command keeps the laws of the fringe channels, of the counters and of the reference period (R1, R5, R11, R12, R19,
R152), and the proof of ReferenceAndCeilingsAreKept. -/

namespace Sys2Proof.Machine

/-! ### One channel -/

/-- What an event makes of one channel keeps the laws of a channel: referenced only in TRACKING, and its two counters within their
ceilings (R5, R11, R12). -/
structure Channel.KeepsLaws (c c' : Channel) : Prop where
  referenced : (c.referenced = true → c.state = .tracking) → c'.referenced = true → c'.state = .tracking
  qualification : c.qualCount ≤ 4096 → c'.qualCount ≤ 4096
  losses : c.lossTally ≤ 255 → c'.lossTally ≤ 255

namespace Channel.KeepsLaws

theorem refl (c : Channel) : c.KeepsLaws c := ⟨id, id, id⟩

theorem integrate (c : Channel) (d : Int) : c.KeepsLaws (c.integrate d) := ⟨id, id, id⟩

theorem enterLost (c : Channel) (reason : LossReason) : c.KeepsLaws (c.enterLost reason) :=
  ⟨nofun, id, fun _ => Nat.min_le_left _ _⟩

theorem enterOff (c : Channel) : c.KeepsLaws c.enterOff := ⟨nofun, fun _ => Nat.zero_le _, id⟩

theorem enterTracking (c : Channel) : c.KeepsLaws c.enterTracking := ⟨fun _ _ => rfl, fun _ => Nat.zero_le _, id⟩

/-- Only a channel that does not track may enter ACQUIRING: it was not referenced. -/
theorem enterAcquiring {c : Channel} (h : c.state ≠ .tracking) : c.KeepsLaws c.enterAcquiring :=
  ⟨fun hr hc => absurd (hr hc) h, fun _ => Nat.zero_le _, id⟩

theorem zeroAt {c : Channel} (value : Position) (h : c.state = .tracking) : c.KeepsLaws (c.zeroAt value) := ⟨fun _ _ => h, id, id⟩

theorem claim (c : Channel) (shift : Position) : c.KeepsLaws (c.claim shift).1 := by
  unfold Channel.claim
  split
  · exact ⟨fun _ _ => ‹_›, id, id⟩
  · exact refl c

theorem qualify {c : Channel} (d : Int) (amplitude : Nat) (h : c.state = .acquiring) : c.KeepsLaws (c.qualify d amplitude) := by
  have unreferenced : (c.referenced = true → c.state = .tracking) → c.referenced ≠ true :=
    fun hr hc => by simp [h] at hr; simp [hr] at hc
  have top : ∀ n, saturate Config.qualificationCeiling n ≤ 4096 := fun n => Nat.min_le_left _ _
  unfold Channel.qualify
  simp only
  split
  · split
    · exact ⟨fun _ _ => rfl, fun _ => top _, id⟩
    · exact ⟨fun hr hc => absurd hc (unreferenced hr), fun _ => top _, id⟩
  · exact ⟨fun hr hc => absurd hc (unreferenced hr), fun _ => Nat.zero_le _, id⟩

theorem sample (c : Channel) (increment : Int) (amplitude : Nat) : c.KeepsLaws (c.sample increment amplitude).1 := by
  unfold Channel.sample
  simp only
  cases h : c.state
  case off => exact refl c
  case acquiring => exact qualify _ _ h
  case tracking =>
    simp only
    split
    · exact enterLost c _
    · split
      · exact enterLost c _
      · exact integrate c _
  case lost =>
    simp only
    split
    · exact refl c
    · split
      · exact ⟨fun hr hc => by simp [h] at hr; simp [Channel.enterAcquiring, Channel.integrate, hr] at hc,
          fun _ => Nat.zero_le _, id⟩
      · exact integrate c _

theorem configured (c : Channel) (f : SetAxisFields) (enable : Bool) : c.KeepsLaws ((c.configure f).applyEnable enable) := by
  unfold Channel.applyEnable
  split
  · split
    · rename_i hoff
      have off : c.state ≠ .tracking := fun h => by simp [Channel.configure, h] at hoff
      exact ⟨fun hr hc => absurd (hr hc) off, fun _ => Nat.zero_le _, id⟩
    · exact ⟨id, id, id⟩
  · exact ⟨nofun, fun _ => Nat.zero_le _, id⟩

end Channel.KeepsLaws

theorem Channel.configured_raw (c : Channel) (f : SetAxisFields) (enable : Bool) :
    ((c.configure f).applyEnable enable).raw = c.raw := by
  unfold Channel.applyEnable
  split
  · split <;> rfl
  · rfl

theorem Channel.configured_state_ne_off {enable : Bool} (c : Channel) (f : SetAxisFields) (h : enable = true)
    (hc : c.state ≠ .off) : ((c.configure f).applyEnable enable).state ≠ .off := by
  have same : ¬(c.configure f).state = .off := hc
  rw [Channel.applyEnable, if_pos h, if_neg same]
  exact hc

theorem Channel.claim_state (c : Channel) (shift : Position) : (c.claim shift).1.state = c.state := by
  unfold Channel.claim
  split <;> rfl

theorem Channel.claim_raw (c : Channel) (shift : Position) : (c.claim shift).1.raw = c.raw := by
  unfold Channel.claim
  split <;> rfl

/-! ### The loss of the reference -/

/-- One channel at the loss of the reference (R15). -/
def Channel.loseReference (c : Channel) : Channel :=
  if c.state = .acquiring ∨ c.state = .tracking then c.enterLost .noReference else c

theorem Channel.KeepsLaws.loseReference (c : Channel) : c.KeepsLaws c.loseReference := by
  unfold Channel.loseReference
  split
  · exact enterLost c _
  · exact refl c

theorem EventUnit.transition_same (e : EventUnit) (k : ChannelIx) (st : ChannelState) : e.transition k st st = e := by
  simp [EventUnit.transition]

/-- Storing what a channel already is changes nothing. -/
theorem State.putChannel_self (s : State) (k : ChannelIx) : s.putChannel k (s.channel k) = s := by
  simp [State.putChannel, State.channel, EventUnit.transition_same]

theorem State.loseReference_eq (s : State) (k : ChannelIx) : s.loseReference k = s.putChannel k (s.channel k).loseReference := by
  unfold State.loseReference Channel.loseReference
  split
  next h => simp [h, s.putChannel_self]
  next h => simp [h, s.putChannel_self]
  next h => simp [h]
  next h => simp [h]

/-- Changing the channels of a list, each once, changes each by itself; of all else only the event unit can differ. -/
theorem State.foldl_putChannel_spec (f : Channel → Channel) (ks : List ChannelIx) (hn : ks.Nodup) (s : State) :
    let u := ks.foldl (fun (t : State) k => t.putChannel k (f (t.channel k))) s
    (∀ j, u.channel j = if j ∈ ks then f (s.channel j) else s.channel j)
      ∧ u = { s with channels := u.channels, events := u.events } ∧ s.events.KeepsCeilings u.events := by
  induction ks generalizing s with
  | nil => exact ⟨fun j => by simp, rfl, .refl _⟩
  | cons k ks ih =>
    obtain ⟨hk, hn⟩ := List.nodup_cons.mp hn
    obtain ⟨channels, rest, ceilings⟩ := ih hn (s.putChannel k (f (s.channel k)))
    refine ⟨fun j => ?_, rest, .trans (.transition _ _ _ _) ceilings⟩
    rw [List.foldl_cons, channels j, State.channel_putChannel]
    by_cases hj : j = k
    · subst hj; simp [hk]
    · simp [hj]

theorem State.loseReferences_spec (s : State) :
    let u := (List.finRange 6).foldl State.loseReference s
    (∀ j, u.channel j = (s.channel j).loseReference) ∧ u = { s with channels := u.channels, events := u.events }
      ∧ s.events.KeepsCeilings u.events := by
  have step : State.loseReference = fun (t : State) k => t.putChannel k (t.channel k).loseReference :=
    funext fun t => funext t.loseReference_eq
  rw [step]
  simpa using State.foldl_putChannel_spec Channel.loseReference (List.finRange 6) (List.nodup_finRange 6) s

theorem State.Quiet.linesLoseReference (s tracked : State) : s.Quiet (s.linesLoseReference tracked) := by
  unfold State.linesLoseReference
  have fold : ∀ (ks : List ChannelIx) (u : State), u.Quiet (ks.foldl (fun t (k : ChannelIx) =>
      t.linesSee k (fun _ => (s.channel k).position) (s.channel k).state
        (decide ((tracked.channel k).state = .tracking)) none) u) := by
    intro ks
    induction ks with
    | nil => exact fun u => refl u
    | cons k ks ih => exact fun u => (linesSee u _ _ _ _ _).trans (ih _)
  exact fold _ s

/-! ### The machine -/

/-- What holds of the channel that is written and of every other channel holds of all of them afterwards. -/
theorem State.channel_set_cases {s t : State} {k : ChannelIx} {c : Channel} {P : ChannelIx → Channel → Prop}
    (hc : t.channels = s.channels.set k c) (written : P k c) (others : ∀ j, j ≠ k → P j (s.channel j)) (j : ChannelIx) :
    P j (t.channel j) := by
  rw [State.channel_set hc j]
  split
  next h => exact h ▸ written
  next h => exact others j h

/-- The three laws of the signal side are kept from one state to another. -/
structure State.KeepsSignalLaws (s t : State) : Prop where
  referenced : s.ReferencedTracks → t.ReferencedTracks
  ceilings : s.WithinCeilings → t.WithinCeilings
  period : s.PeriodLaw → t.PeriodLaw

theorem State.withinCeilings_iff (s : State) :
    s.WithinCeilings ↔ (∀ k, (s.channel k).qualCount ≤ 4096) ∧ (∀ k, (s.channel k).lossTally ≤ 255) ∧ s.events.counters.Within :=
  ⟨fun ⟨h1, h2, h3, h4, h5, h6, h7, h8⟩ => ⟨h1, h2, h3, h4, h5, h6, h7, h8⟩,
    fun ⟨h1, h2, h3, h4, h5, h6, h7, h8⟩ => ⟨h1, h2, h3, h4, h5, h6, h7, h8⟩⟩

namespace State.KeepsSignalLaws

theorem refl (s : State) : s.KeepsSignalLaws s := ⟨id, id, id⟩

theorem trans {s t u : State} (h : s.KeepsSignalLaws t) (k : t.KeepsSignalLaws u) : s.KeepsSignalLaws u :=
  ⟨fun hs => k.referenced (h.referenced hs), fun hs => k.ceilings (h.ceilings hs), fun hs => k.period (h.period hs)⟩

/-- Where every channel and the event unit keep their laws, the law of the period is all that is left to show. -/
theorem of_channels {s t : State} (h : ∀ k, (s.channel k).KeepsLaws (t.channel k)) (he : s.events.KeepsCeilings t.events)
    (hp : s.PeriodLaw → t.PeriodLaw) : s.KeepsSignalLaws t := by
  refine ⟨fun hs k => (h k).referenced (hs k), fun hs => ?_, hp⟩
  obtain ⟨hq, hl, hc⟩ := s.withinCeilings_iff.mp hs
  exact t.withinCeilings_iff.mpr ⟨fun k => (h k).qualification (hq k), fun k => (h k).losses (hl k), he hc⟩

/-- The law of a period that goes on: the channels it has not reached are enabled as before and hold the raw counts they held. -/
theorem periodLaw_of_same {s t : State} (hp : t.period = s.period) (hm : t.monitor = .absent → s.monitor = .absent)
    (hon : ∀ k, (s.channel k).state ≠ .off → (t.channel k).state ≠ .off) (hraw : ∀ k, (t.channel k).raw = (s.channel k).raw)
    (h : s.PeriodLaw) : t.PeriodLaw := by
  refine ⟨fun p hpt => ?_, fun p hpt k hk => ?_, fun hmt => hp.trans (h.absent (hm hmt))⟩
  · obtain ⟨k, hk, hr⟩ := h.awaited p (hp.symm.trans hpt)
    exact ⟨k, hon k hk, hr⟩
  · rw [hraw k]
    exact h.unreached p (hp.symm.trans hpt) k hk

theorem periodLaw_of_none {t : State} (hp : t.period = none) : t.PeriodLaw :=
  ⟨fun _ h => (nomatch hp.symm.trans h), fun _ h => (nomatch hp.symm.trans h), fun _ => hp⟩

theorem of_quiet {s t : State} (h : s.Quiet t) : s.KeepsSignalLaws t := by
  have same := State.channel_eq_of_channels h.channels
  refine of_channels (fun k => ?_) h.ceilings (periodLaw_of_same h.period (fun hm => h.monitor.symm.trans hm) ?_ ?_)
  · rw [same k]; exact .refl _
  · intro k hk; rwa [same k]
  · intro k; rw [same k]

/-- One channel changes, and neither leaves its period nor takes a count. -/
theorem of_channel_set {s t : State} {k : ChannelIx} {c : Channel} (hc : t.channels = s.channels.set k c)
    (laws : (s.channel k).KeepsLaws c) (on : (s.channel k).state ≠ .off → c.state ≠ .off) (raw : c.raw = (s.channel k).raw)
    (hp : t.period = s.period) (hm : t.monitor = s.monitor) (he : s.events.KeepsCeilings t.events) : s.KeepsSignalLaws t := by
  have at_each : ∀ j, (s.channel j).KeepsLaws (t.channel j) ∧ ((s.channel j).state ≠ .off → (t.channel j).state ≠ .off)
      ∧ (t.channel j).raw = (s.channel j).raw :=
    State.channel_set_cases (P := fun j c => (s.channel j).KeepsLaws c ∧ ((s.channel j).state ≠ .off → c.state ≠ .off)
      ∧ c.raw = (s.channel j).raw) hc ⟨laws, on, raw⟩ fun j _ => ⟨.refl _, id, rfl⟩
  exact of_channels (fun j => (at_each j).1) he
    (periodLaw_of_same hp (fun h => hm.symm.trans h) (fun j => (at_each j).2.1) fun j => (at_each j).2.2)

theorem putChannel {s : State} {k : ChannelIx} {c : Channel} (laws : (s.channel k).KeepsLaws c)
    (on : (s.channel k).state ≠ .off → c.state ≠ .off) (raw : c.raw = (s.channel k).raw) : s.KeepsSignalLaws (s.putChannel k c) :=
  of_channel_set rfl laws on raw rfl rfl (.transition _ _ _ _)

/-! ### The commands that change a channel -/

/-- A sample event in its period: a channel that the period has not reached has not been sampled since the boundary. -/
theorem periodLaw_enterPeriod {s t : State} {k : ChannelIx} {c : Channel} (hc : t.channels = s.channels.set k c)
    (hp : t.period = (s.enterPeriod k).period) (hm : t.monitor = .present) (h : s.PeriodLaw) :
    t.PeriodLaw := by
  have set := State.channel_set hc
  have reached : ∀ j : ChannelIx, (s.periodReaching k).reached[j] = false →
      j ≠ k ∧ (s.channel j).raw = (s.periodReaching k).boundary[j].raw := by
    intro j hj
    by_cases going : ∃ p, s.period = some p ∧ p.reached[k] = false
    · obtain ⟨p, hp, hk⟩ := going
      rw [s.periodReaching_under_way hp hk] at hj ⊢
      simp only [Fin.getElem_fin, Vector.getElem_set] at hj
      split at hj
      · cases hj
      · exact ⟨fun e => by simp_all, h.unreached p hp j hj⟩
    · have fresh : ∀ p, s.period = some p → p.reached[k] = true := by
        intro p hp
        by_contra hk
        exact going ⟨p, hp, by simpa using hk⟩
      rw [s.periodReaching_new fresh] at hj ⊢
      refine ⟨fun e => ?_, rfl⟩
      subst e
      simp at hj
  rw [s.enterPeriod_period] at hp
  refine ⟨fun p hpt => ?_, fun p hpt j hj => ?_, fun h => absurd (hm.symm.trans h) (by simp)⟩
  all_goals
    rw [hp] at hpt
    split at hpt
    case isFalse => cases hpt
    cases hpt
  case isTrue.refl awaited =>
    obtain ⟨j, hj⟩ := awaited
    obtain ⟨hon, hr⟩ := (s.awaits_iff _ _).mp hj
    refine ⟨j, ?_, hr⟩
    rw [set j, if_neg (reached j hr).1]
    exact hon
  case isTrue.refl =>
    rw [set j, if_neg (reached j hj).1]
    exact (reached j hj).2

/-- A period that is over where it awaits no enabled channel. -/
theorem periodLaw_settlePeriod {s u : State} (hp : u.period = s.period) (hm : u.monitor = s.monitor)
    (hraw : ∀ k, (u.channel k).raw = (s.channel k).raw) (h : s.PeriodLaw) : u.settlePeriod.PeriodLaw := by
  have kept : ∀ p, u.settlePeriod.period = some p → s.period = some p ∧ (List.finRange 6).any (u.awaits p) = true := by
    intro p hpt
    rw [State.settlePeriod_period, Option.filter_eq_some_iff] at hpt
    exact ⟨hp.symm.trans hpt.1, hpt.2⟩
  refine ⟨fun p hpt => ?_, fun p hpt j hj => ?_, fun hmt => ?_⟩
  · obtain ⟨j, -, hj⟩ := List.any_eq_true.mp (kept p hpt).2
    exact ⟨j, (u.awaits_iff p j).mp hj⟩
  · exact (hraw j).trans (h.unreached p (kept p hpt).1 j hj)
  · rw [State.settlePeriod_period, hp, h.absent (hm.symm.trans hmt), Option.filter_none]

theorem sampleChannel (s : State) (k : ChannelIx) (increment : Int) (amplitude : Nat) (first : MeetOrder)
    (hm : s.monitor = .present) : s.KeepsSignalLaws (s.sampleChannel k increment amplitude first) := by
  have met : s.KeepsSignalLaws ((s.enterPeriod k).putChannel k ((s.channel k).sample increment amplitude).1) := by
    refine of_channels (State.channel_set_cases (k := k) (P := fun j c => (s.channel j).KeepsLaws c) rfl (.sample _ _ _)
      fun j _ => .refl _) (.transition _ _ _ _) (periodLaw_enterPeriod rfl rfl hm)
  exact met.trans (of_quiet ((State.Quiet.linesSee _ _ _ _ _ _).trans
    (.settleEvent _ first fun v => .passSees v _ _ _)))

/-- The loss of the reference: every channel keeps its laws, and no period is under way any more. -/
theorem referenceLost (s : State) (first : MeetOrder) : s.KeepsSignalLaws (s.referenceLost first) := by
  obtain ⟨channels, rest, ceilings⟩ := State.loseReferences_spec { s with monitor := .absent, period := none }
  have lost : s.KeepsSignalLaws ((List.finRange 6).foldl State.loseReference { s with monitor := .absent, period := none }) := by
    refine of_channels (fun k => ?_) ceilings fun _ => periodLaw_of_none (by rw [rest])
    rw [channels k]
    exact .loseReference _
  have ends : ∀ v : State, v.Quiet (if s.measuringAxis.state = .tracking then v.abortLivePass .axis else v) := by
    intro v
    split
    · exact .abortLivePass v _
    · exact .refl v
  unfold State.referenceLost
  simp only
  exact lost.trans (of_quiet ((State.Quiet.linesLoseReference _ s).trans (.settleEvent _ first ends)))

theorem configureAxis (s : State) (k : ChannelIx) (f : SetAxisFields) (first : MeetOrder) :
    s.KeepsSignalLaws (s.configureAxis k f first) := by
  let c := ((s.channel k).configure f).applyEnable f.enable
  have laws : (s.channel k).KeepsLaws c := .configured _ _ _
  have raw : c.raw = (s.channel k).raw := Channel.configured_raw _ _ _
  unfold State.configureAxis
  simp only
  split
  next enabled => exact putChannel laws (Channel.configured_state_ne_off _ _ enabled) raw
  next =>
    have settled : s.KeepsSignalLaws (s.putChannel k c).settlePeriod := by
      refine of_channels (State.channel_set_cases (k := k) rfl laws fun j _ => .refl _) (.transition _ _ _ _)
        (periodLaw_settlePeriod rfl rfl fun j => ?_)
      exact State.channel_set_cases (s := s) (t := s.putChannel k c) (P := fun j c => c.raw = (s.channel j).raw) rfl raw
        (fun _ _ => rfl) j
    refine settled.trans (of_quiet ((State.Quiet.linesSee _ _ _ _ _ _).trans (.settleEvent _ first fun v => ?_)))
    split
    · exact .abortLivePass v _
    · exact .refl v

theorem setAxisRequest (s : State) (f : SetAxisFields) (first : MeetOrder) : s.KeepsSignalLaws (s.setAxisRequest f first) := by
  unfold State.setAxisRequest
  split
  · exact of_quiet (.reject s _)
  · split
    · exact of_quiet (.reject s _)
    · split
      · exact of_quiet (.reject s _)
      · exact (configureAxis s _ f first).trans (of_quiet (.answer _ _ _))

theorem trackRequest (s : State) (channel : Nat) : s.KeepsSignalLaws (s.trackRequest channel) := by
  unfold State.trackRequest
  split
  · exact of_quiet (.reject s _)
  · simp only
    split
    · exact of_quiet (.reject s _)
    · split
      · exact of_quiet (.reject s _)
      · exact (putChannel (.enterTracking _) (fun _ => by simp [Channel.enterTracking]) rfl).trans (of_quiet (.answer _ _ _))

theorem restartRequest (s : State) (channel : Nat) : s.KeepsSignalLaws (s.restartRequest channel) := by
  unfold State.restartRequest
  split
  · exact of_quiet (.reject s _)
  · simp only
    split
    · exact of_quiet (.reject s _)
    next k _ lost =>
      have untracked : (s.channel k).state ≠ .tracking := fun h => by simp [h] at lost
      exact (putChannel (.enterAcquiring untracked) (fun _ => by simp [Channel.enterAcquiring]) rfl).trans
        (of_quiet (.answer _ _ _))

theorem zeroRequest (s : State) (channel : Nat) (value : Position) : s.KeepsSignalLaws (s.zeroRequest channel value) := by
  unfold State.zeroRequest
  split
  · exact of_quiet (.reject s _)
  · simp only
    split
    · exact of_quiet (.reject s _)
    · split
      · exact of_quiet (.reject s _)
      next tracks =>
        exact (putChannel (.zeroAt value (not_not.mp tracks)) id rfl).trans (of_quiet (.answer _ _ _))

theorem makeClaim (s : State) (m : MatchUnderWay) (r : MarkRecord) : s.KeepsSignalLaws (s.makeClaim m r) := by
  let shift := r.nominal - m.sighting.centre
  have claimed : ∀ op, s.KeepsSignalLaws
      { s with channels := s.channels.set s.config.axis (s.measuringAxis.claim shift).1, tableOp := op } := fun op =>
    of_channel_set rfl (.claim _ _) (fun h => by rwa [Channel.claim_state]) (Channel.claim_raw _ _) rfl rfl (.refl _)
  unfold State.makeClaim
  simp only
  split
  · exact (claimed _).trans (of_quiet (.updateKind _ _ _))
  · exact claimed _

theorem matchSighting (s : State) (m : MatchUnderWay) : s.KeepsSignalLaws (s.matchSighting m) := by
  unfold State.matchSighting
  split
  · exact of_quiet (.matchMeasure s _)
  · unfold State.matchDatum
    split
    · exact of_quiet (.finishClaim s _)
    · exact refl s
    · split
      · exact of_quiet (.count s _ _)
      · exact of_quiet ((State.Quiet.updateKind s _ _).trans (.count _ _ _))
      · exact (makeClaim s m _).trans (of_quiet (.finishClaim _ _))
      · exact refl s
      · exact refl s
      · exact refl s
  · exact refl s

theorem blockReset (s : State) : s.KeepsSignalLaws s.blockReset := by
  have fresh : ∀ k, s.blockReset.channel k = {} := by
    intro k
    simp [State.channel, State.blockReset, State.reset]
  refine of_channels (fun k => ?_) (.of_zero rfl) fun _ => periodLaw_of_none rfl
  rw [fresh k]
  exact ⟨nofun, fun _ => Nat.zero_le _, fun _ => Nat.zero_le _⟩

theorem heldReset (s : State) : s.KeepsSignalLaws s.heldReset := (blockReset s).trans (of_quiet ⟨rfl, rfl, rfl, .refl _⟩)

/-- A hold in the reset state, after a change beside the signals. -/
theorem heldReset_of_quiet {s u : State} (h : s.Quiet u) : s.KeepsSignalLaws u.heldReset := (of_quiet h).trans (heldReset u)

theorem linkStop (s : State) (straps : Straps) : s.KeepsSignalLaws (s.linkStop straps) := by
  have stopped := of_quiet (.stopExchange s)
  unfold State.linkStop
  split
  · exact (stopped.trans (blockReset _)).trans (of_quiet ⟨rfl, rfl, rfl, .refl _⟩)
  · split
    · exact stopped.trans (of_quiet (.interfaceReset _))
    · exact stopped

/-- A request keeps the laws where its owner's execution does. -/
theorem request {s : State} {len : Nat} {params : List Byte} {owner : State → State}
    (h : ∀ u : State, u.KeepsSignalLaws (owner u)) : s.KeepsSignalLaws (s.request len params owner) :=
  s.request_of len params owner (refl s) (of_quiet ((State.Quiet.addressedForWrite s _).trans (.reject _ _)))
    ((of_quiet (.addressedForWrite s _)).trans (h _))

theorem whileOperating {s : State} {f : State → State} (h : s.KeepsSignalLaws (f s)) : s.KeepsSignalLaws (s.whileOperating f) :=
  s.whileOperating_of f (refl s) h

/-- A request whose owner's execution is quiet. -/
theorem quietRequest {s : State} {len : Nat} {params : List Byte} {owner : State → State} (h : ∀ u : State, u.Quiet (owner u)) :
    s.KeepsSignalLaws (s.request len params owner) := of_quiet (.request h)

end State.KeepsSignalLaws

open State.KeepsSignalLaws in
/-- Every command keeps the laws of the signal side. -/
theorem exec_keepsSignalLaws (c : Instr) (s t : State) (h : exec c s = .next t) : s.KeepsSignalLaws t := by
  cases c <;> obtain rfl := Host.Outcome.next.inj h
  case sampleEvent k increment amplitude first =>
    refine whileOperating ?_
    split
    · exact refl s
    next h =>
      have present : s.monitor = .present := by
        cases hm : s.monitor
        · rfl
        · exact absurd (.inl hm) h
      exact sampleChannel s k increment _ first present
  case referenceAbsenceTimeout first =>
    refine whileOperating ?_
    split
    · exact referenceLost s first
    · exact refl s
  case referenceEdge =>
    exact whileOperating (of_channels (fun k => .refl _) (.refl _) (periodLaw_of_same rfl nofun (fun _ h => h) fun _ => rfl))
  case leadingEdge i phase => exact whileOperating (of_quiet (.leadingEdge s i _))
  case trailingEdge i phase => exact whileOperating (of_quiet (.trailingEdge s i _))
  case matchCompletion =>
    have freed : ∀ v : State, v.Quiet { v with tableOp := none } := fun v => ⟨rfl, rfl, rfl, .refl _⟩
    refine whileOperating ?_
    split
    · exact (matchSighting s _).trans (of_quiet ((freed _).trans (.arbitrate _)))
    all_goals exact refl s
  case datumOffsetClaim =>
    refine whileOperating ?_
    split
    · split
      · exact makeClaim s _ _
      · exact refl s
    all_goals exact refl s
  case armSweepCompletion =>
    refine whileOperating ?_
    split
    · exact of_quiet (.finishArmSweep s)
    · exact refl s
  case closeSweepCompletion =>
    refine whileOperating ?_
    split
    · exact of_quiet ((State.Quiet.sweepRecords s _).trans (.endPass _ _))
    · exact refl s
  case abortSweepCompletion =>
    refine whileOperating ?_
    split
    · exact of_quiet ((State.Quiet.sweepRecords s _).trans (.endPass _ _))
    · exact refl s
  case tableOperationCompletion =>
    refine whileOperating ?_
    split
    · exact of_quiet (.finishHostOp s _)
    all_goals exact refl s
  case passTimerExpiry =>
    have stopped : s.Quiet { s with passTimer := false } := ⟨rfl, rfl, rfl, .refl _⟩
    refine whileOperating ?_
    split
    · exact of_quiet ((stopped.trans (.abortLivePass _ _)).trans (.arbitrate _))
    · exact refl s
  case setAxis params first => exact request fun u => setAxisRequest u _ _
  case trackAxis params => exact request fun u => trackRequest u _
  case restartAxis params => exact request fun u => restartRequest u _
  case zeroAxis params => exact request fun u => zeroRequest u _ _
  case readAxes params => exact quietRequest fun u => .answer u _ _
  case setMatch params => exact quietRequest fun u => .setMatchRequest u _
  case setLine params => exact quietRequest fun u => .setLineRequest u _
  case readLines params => exact quietRequest fun u => .answer u _ _
  case enrol params => exact quietRequest fun u => .hostTableGuarded u _ fun v => .reject v _
  case enrolRun params => exact quietRequest fun u => .hostTableGuarded u _ fun v => .answer v _ _
  case amend params => exact quietRequest fun u => .hostTableGuarded u _ fun v => .reject v _
  case retire params => exact quietRequest fun u => .hostTableGuarded u _ fun v => .reject v _
  case reopen params => exact quietRequest fun u => .hostTable u _
  case lookup params => exact quietRequest fun u => .hostTable u _
  case readRange params => exact quietRequest fun u => .hostTable u _
  case beginPass params => exact quietRequest fun u => .beginPassRequest u _
  case abortPass params => exact quietRequest fun u => .abortPassRequest u _
  case readPass params => exact quietRequest fun u => .answer u _ _
  case readGroups params => exact quietRequest fun u => .hostTable u _
  case protect params => exact quietRequest fun u => ⟨rfl, rfl, rfl, .refl _⟩
  case unprotect params => exact quietRequest fun u => .unprotectRequest u _
  case readProtect params => exact quietRequest fun u => .answer u _ _
  case readEvents params => exact quietRequest fun u => .readEventsRequest u _
  case clearEvents params => exact quietRequest fun u => .clearEventsRequest u _
  case setNotice params => exact quietRequest fun u => .setNoticeRequest u _ _
  case identify params => exact quietRequest fun u => ⟨rfl, rfl, rfl, .refl _⟩
  case reset params => exact quietRequest fun u => .resetRequest u _
  case unknownRequest code params => exact quietRequest fun u => .reject u _
  case linkFault cause =>
    split
    · exact refl s
    · exact of_quiet ((State.Quiet.addressedForWrite s _).trans (.events (.of_counters rfl)))
  case linkStart address => exact whileOperating (of_quiet (.linkStart s _))
  case linkStop straps => exact whileOperating (linkStop s _)
  case responseRead extent => exact whileOperating (of_quiet (.addressedForRead s _))
  case poll extent => exact whileOperating (of_quiet (.addressedForRead s _))
  case noticeStart rival =>
    refine whileOperating ?_
    split
    · exact of_quiet (.startNotice s _)
    · exact refl s
  case noticeWithdraw =>
    refine whileOperating ?_
    split
    · exact of_quiet (.stopExchange s)
    · exact refl s
  case powerOnReset => exact heldReset_of_quiet ⟨rfl, rfl, rfl, .refl _⟩
  case powerOnHoldEnd straps =>
    split
    · exact of_quiet ⟨rfl, rfl, rfl, .refl _⟩
    · exact refl s
  case pinResetAssert =>
    split
    · exact of_quiet ⟨rfl, rfl, rfl, .refl _⟩
    · exact heldReset_of_quiet ⟨rfl, rfl, rfl, .refl _⟩
  case pinResetRelease straps =>
    split
    · exact refl s
    · split
      · exact of_quiet ⟨rfl, rfl, rfl, .refl _⟩
      · exact of_quiet ⟨rfl, rfl, rfl, .refl _⟩
  case supplyFailure => exact of_quiet ⟨rfl, rfl, rfl, .of_counters rfl⟩

/-- A step keeps the laws of the signal side: it carries out the front command on the state with the queue's rest, or idles. -/
theorem step_keepsSignalLaws (s t : State) (h : step s = .next t) : s.KeepsSignalLaws t := by
  unfold step at h
  split at h
  · obtain rfl := Host.Outcome.next.inj h
    exact .refl s
  next c rest _ =>
    have taken : s.KeepsSignalLaws { s with pending := rest } := .of_quiet ⟨rfl, rfl, rfl, .refl _⟩
    exact taken.trans (exec_keepsSignalLaws c _ t h)

/-- Settles O50: each of the three laws is one field of what a step keeps. -/
theorem referenceAndCeilingsAreKept : Obligations.ReferenceAndCeilingsAreKept :=
  ⟨fun s t hs h => (step_keepsSignalLaws s t h).referenced hs, fun s t hs h => (step_keepsSignalLaws s t h).ceilings hs,
    fun s t hs h => (step_keepsSignalLaws s t h).period hs⟩

end Sys2Proof.Machine
end

