-- ==== Sys2Proof/Proofs/Windows.lean ====
section
/-! SUPPORT. Windows of records: what a record that stays where it was may do to its widened window and fields, the laws of the whole
table (R42, R54 to R56), and the operations that leave the windows alone. -/

namespace Sys2Proof.Machine

/-! ### One record -/

/-- The record stands where it stood, with fields that it had, current or staged, and at most the amendment that it had. -/
structure MarkRecord.StaysWithin (r r' : MarkRecord) : Prop where
  mark : r'.mark = r.mark
  nominal : r'.nominal = r.nominal
  fields : r'.fields = r.fields ∨ ∃ a, r.staged = some a ∧ r'.fields = a.fields
  staged : r'.staged = r.staged ∨ r'.staged = none

namespace MarkRecord.StaysWithin

theorem of_same {r r' : MarkRecord} (hm : r'.mark = r.mark) (hn : r'.nominal = r.nominal) (hf : r'.fields = r.fields)
    (hs : r'.staged = r.staged) : r.StaysWithin r' := ⟨hm, hn, .inl hf, .inl hs⟩

theorem refl (r : MarkRecord) : r.StaysWithin r := of_same rfl rfl rfl rfl

theorem trans {a b c : MarkRecord} (h : a.StaysWithin b) (k : b.StaysWithin c) : a.StaysWithin c := by
  refine ⟨k.mark.trans h.mark, k.nominal.trans h.nominal, ?_, ?_⟩
  · obtain hf | ⟨x, hx, hf⟩ := k.fields
    · rw [hf]; exact h.fields
    · obtain hs | hs := h.staged
      · exact .inr ⟨x, hs.symm.trans hx, hf⟩
      · cases hs.symm.trans hx
  · obtain hs | hs := k.staged
    · rw [hs]; exact h.staged
    · exact .inr hs

theorem restLine (r : MarkRecord) : r.StaysWithin r.restLine := by
  unfold MarkRecord.restLine
  split <;> exact of_same rfl rfl rfl rfl

theorem applyStaged (r : MarkRecord) : r.StaysWithin r.applyStaged := by
  unfold MarkRecord.applyStaged
  split
  · exact refl r
  next a h => exact ⟨rfl, rfl, .inr ⟨a, h, rfl⟩, .inr rfl⟩

theorem resolveClose (d : Direction) (r : MarkRecord) : r.StaysWithin (r.resolveClose d) := by
  unfold MarkRecord.resolveClose
  split
  · exact refl r
  · split
    · split <;> exact of_same rfl rfl rfl rfl
    · exact of_same rfl rfl rfl rfl
    · exact of_same rfl rfl rfl rfl

theorem resolveAbort (r : MarkRecord) : r.StaysWithin r.resolveAbort := by
  unfold MarkRecord.resolveAbort
  split
  · exact refl r
  · split <;> exact of_same rfl rfl rfl rfl

end MarkRecord.StaysWithin

theorem MarkRecord.half_le_reach (r : MarkRecord) : r.fields.half ≤ r.reach := by
  unfold MarkRecord.reach
  split
  · exact le_rfl
  · exact Nat.le_max_left _ _

theorem MarkRecord.staged_half_le_reach {r : MarkRecord} {a : Amendment} (h : r.staged = some a) : a.fields.half ≤ r.reach := by
  simp [MarkRecord.reach, h]

theorem MarkRecord.reach_of_unstaged {r : MarkRecord} (h : r.staged = none) : r.reach = r.fields.half := by
  simp [MarkRecord.reach, h]

/-- The widened window reaches no farther than whatever bounds the current half-width and the staged one. -/
theorem MarkRecord.reach_le {r : MarkRecord} {n : Nat} (hf : r.fields.half ≤ n) (hs : ∀ a, r.staged = some a → a.fields.half ≤ n) :
    r.reach ≤ n := by
  unfold MarkRecord.reach
  split
  · exact hf
  next a h => exact Nat.max_le.mpr ⟨hf, hs a h⟩

theorem MarkRecord.StaysWithin.reach_le {r r' : MarkRecord} (h : r.StaysWithin r') : r'.reach ≤ r.reach := by
  refine MarkRecord.reach_le ?_ fun a ha => ?_
  · obtain hf | ⟨a, hs, hf⟩ := h.fields
    · rw [hf]; exact r.half_le_reach
    · rw [hf]; exact MarkRecord.staged_half_le_reach hs
  · obtain hs | hs := h.staged
    · exact MarkRecord.staged_half_le_reach (hs.symm.trans ha)
    · cases hs.symm.trans ha

/-! ### Two records -/

/-- Neither widened window overlaps the other more than the other overlaps it. -/
theorem overlaps_comm (a b : MarkRecord) : a.overlaps b.nominal.toInt b.reach = b.overlaps a.nominal.toInt a.reach := by
  rw [Bool.eq_iff_iff, overlaps_iff, overlaps_iff]
  omega

/-- Narrower windows about the same nominals overlap less. -/
theorem overlaps_mono {a a' : MarkRecord} {nominal : Int} {half half' : Nat} (hn : a'.nominal = a.nominal)
    (hr : a'.reach ≤ a.reach) (hh : half' ≤ half) (h : a.overlaps nominal half = false) : a'.overlaps nominal half' = false := by
  rw [← Bool.not_eq_true, overlaps_iff] at h ⊢
  rw [hn]
  omega

/-- A window as wide as the wider of two overlaps where one of them does. -/
theorem overlaps_max {a : MarkRecord} {nominal : Int} {m n : Nat} (hm : a.overlaps nominal m = false)
    (hn : a.overlaps nominal n = false) : a.overlaps nominal (max m n) = false := by
  obtain h | h := Nat.le_total m n
  · rwa [Nat.max_eq_right h]
  · rwa [Nat.max_eq_left h]

/-! ### The whole table -/

/-- No two widened windows share a position (R55, R56). -/
def Apart (table : List MarkRecord) : Prop :=
  ∀ a ∈ table, ∀ b ∈ table, a.mark ≠ b.mark → a.overlaps b.nominal.toInt b.reach = false

/-- The fields of every record, current and staged, lie within the values of R42. -/
structure InValues (shift : Nat) (table : List MarkRecord) : Prop where
  records : ∀ r ∈ table, r.fields.InRange shift r.nominal
  staged : ∀ r ∈ table, ∀ a, r.staged = some a → a.fields.InRange shift r.nominal

theorem Apart.nil : Apart [] := by simp [Apart]

theorem InValues.nil (shift : Nat) : InValues shift [] := ⟨by simp, by simp⟩

/-- Every record of the second table comes from one of the first, and stays within its window. -/
def Remain (before after : List MarkRecord) : Prop := ∀ r' ∈ after, ∃ r ∈ before, r.StaysWithin r'

theorem Remain.refl (table : List MarkRecord) : Remain table table := fun r h => ⟨r, h, .refl r⟩

theorem Remain.trans {a b c : List MarkRecord} (h : Remain a b) (k : Remain b c) : Remain a c := by
  intro r hr
  obtain ⟨r', hr', k'⟩ := k r hr
  obtain ⟨r'', hr'', h'⟩ := h r' hr'
  exact ⟨r'', hr'', h'.trans k'⟩

theorem Remain.map (table : List MarkRecord) {f : MarkRecord → MarkRecord} (h : ∀ r ∈ table, r.StaysWithin (f r)) :
    Remain table (table.map f) := by
  intro r' hr'
  obtain ⟨r, hr, rfl⟩ := List.mem_map.mp hr'
  exact ⟨r, hr, h r hr⟩

theorem Remain.filter (table : List MarkRecord) (p : MarkRecord → Bool) : Remain table (table.filter p) :=
  fun r hr => ⟨r, List.mem_of_mem_filter hr, .refl r⟩

theorem Remain.updateMark (table : List MarkRecord) (mark : Nat) {f : MarkRecord → MarkRecord}
    (h : ∀ r ∈ table, r.mark = mark → r.StaysWithin (f r)) : Remain table (updateMark table mark f) := by
  refine .map table fun r hr => ?_
  split
  next hm => exact h r hr hm
  next => exact .refl r

theorem Remain.eq_nil {a b : List MarkRecord} (h : Remain a b) (ha : a = []) : b = [] := by
  refine List.eq_nil_iff_forall_not_mem.mpr fun r hr => ?_
  obtain ⟨r', hr', -⟩ := h r hr
  simp [ha] at hr'

/-- A sweep leaves every record that it keeps within its window (R108 to R110). -/
theorem Remain.sweepTable (table : List MarkRecord) {resolve : MarkRecord → MarkRecord}
    (h : ∀ r : MarkRecord, r.StaysWithin (resolve r)) :
    Remain table (sweepTable resolve table) :=
  ((Remain.map table fun r _ => (h r).trans (.applyStaged _)).trans (.filter _ _)).trans (.map _ fun r _ => .restLine r)

theorem Apart.of_remain {a b : List MarkRecord} (h : Apart a) (k : Remain a b) : Apart b := by
  intro x' hx' y' hy' hne
  obtain ⟨x, hx, kx⟩ := k x' hx'
  obtain ⟨y, hy, ky⟩ := k y' hy'
  rw [ky.nominal]
  rw [kx.mark, ky.mark] at hne
  exact overlaps_mono kx.nominal kx.reach_le ky.reach_le (h x hx y hy hne)

theorem InValues.of_remain {shift : Nat} {a b : List MarkRecord} (h : InValues shift a) (k : Remain a b) : InValues shift b := by
  constructor
  · intro r' hr'
    obtain ⟨r, hr, kr⟩ := k r' hr'
    rw [kr.nominal]
    obtain hf | ⟨x, hs, hf⟩ := kr.fields
    · rw [hf]; exact h.records r hr
    · rw [hf]; exact h.staged r hr x hs
  · intro r' hr' x hx
    obtain ⟨r, hr, kr⟩ := k r' hr'
    rw [kr.nominal]
    obtain hs | hs := kr.staged
    · exact h.staged r hr x (hs.symm.trans hx)
    · cases hs.symm.trans hx

/-- An insertion keeps windows apart where the new one overlaps none. -/
theorem Apart.insertRecord {table : List MarkRecord} {r : MarkRecord} (h : Apart table) (hs : r.staged = none)
    (hr : ∀ x ∈ table, x.overlaps r.nominal.toInt r.fields.half = false) : Apart (insertRecord r table) := by
  rw [← MarkRecord.reach_of_unstaged hs] at hr
  intro a ha b hb hne
  rcases mem_insertRecord.mp ha with hra | hta <;> rcases mem_insertRecord.mp hb with hrb | htb
  · exact absurd (hra ▸ hrb ▸ rfl) hne
  · rw [overlaps_comm, hra]; exact hr b htb
  · rw [hrb]; exact hr a hta
  · exact h a hta b htb hne

theorem InValues.insertRecord {shift : Nat} {table : List MarkRecord} {r : MarkRecord} (h : InValues shift table)
    (hs : r.staged = none) (hr : r.fields.InRange shift r.nominal) : InValues shift (insertRecord r table) := by
  constructor
  · intro x hx
    obtain rfl | hx := mem_insertRecord.mp hx
    · exact hr
    · exact h.records x hx
  · intro x hx a ha
    obtain rfl | hx := mem_insertRecord.mp hx
    · cases hs.symm.trans ha
    · exact h.staged x hx a ha

/-- Widening the window of one record to a half-width that overlaps no other keeps windows apart (R56). -/
theorem Apart.updateMark {table : List MarkRecord} {mark half : Nat} {f : MarkRecord → MarkRecord} (h : Apart table)
    (hf : ∀ r ∈ table, r.mark = mark → (f r).mark = mark ∧ (f r).nominal = r.nominal ∧ (f r).reach ≤ max half r.reach)
    (hr : ∀ r ∈ table, r.mark = mark → ∀ x ∈ table, x.mark ≠ mark → x.overlaps r.nominal.toInt half = false) :
    Apart (updateMark table mark f) := by
  have widened : ∀ r ∈ table, r.mark = mark → ∀ x ∈ table, x.mark ≠ mark → x.overlaps (f r).nominal.toInt (f r).reach = false := by
    intro r hm hmark x hx hne
    obtain ⟨-, hn, hreach⟩ := hf r hm hmark
    rw [hn]
    exact overlaps_mono rfl le_rfl hreach (overlaps_max (hr r hm hmark x hx hne) (h x hx r hm (hmark ▸ hne)))
  intro a' ha' b' hb' hne
  obtain ⟨a, ha, rfl⟩ := List.mem_map.mp ha'
  obtain ⟨b, hb, rfl⟩ := List.mem_map.mp hb'
  by_cases hma : a.mark = mark <;> by_cases hmb : b.mark = mark
  · rw [if_pos hma, if_pos hmb, (hf a ha hma).1, (hf b hb hmb).1] at hne
    exact absurd rfl hne
  · rw [if_pos hma, if_neg hmb, overlaps_comm]
    exact widened a ha hma b hb hmb
  · rw [if_neg hma, if_pos hmb]
    exact widened b hb hmb a ha hma
  · rw [if_neg hma, if_neg hmb] at hne ⊢
    exact h a ha b hb hne

/-- Giving one record fields within their values, current or staged, keeps the table within its values. -/
theorem InValues.updateMark {shift mark : Nat} {table : List MarkRecord} {f : MarkRecord → MarkRecord} {a : Amendment}
    (h : InValues shift table)
    (hf : ∀ r ∈ table, r.mark = mark → (f r).nominal = r.nominal ∧ ((f r).fields = r.fields ∨ (f r).fields = a.fields)
      ∧ ((f r).staged = r.staged ∨ (f r).staged = some a))
    (hr : ∀ r ∈ table, r.mark = mark → a.fields.InRange shift r.nominal) : InValues shift (updateMark table mark f) := by
  constructor
  · intro r' hr'
    obtain ⟨r, hm, rfl⟩ := List.mem_map.mp hr'
    split
    next hmark =>
      obtain ⟨hn, hfields | hfields, -⟩ := hf r hm hmark
      · rw [hn, hfields]; exact h.records r hm
      · rw [hn, hfields]; exact hr r hm hmark
    next => exact h.records r hm
  · intro r' hr' b hb
    obtain ⟨r, hm, rfl⟩ := List.mem_map.mp hr'
    split at hb
    next hmark =>
      rw [if_pos hmark]
      obtain ⟨hn, -, hs | hs⟩ := hf r hm hmark
      · rw [hn]; exact h.staged r hm b (hs.symm.trans hb)
      · rw [hn, ← Option.some.inj (hs.symm.trans hb)]; exact hr r hm hmark
    next hmark =>
      rw [if_neg hmark]
      exact h.staged r hm b hb

end Sys2Proof.Machine
end

