-- ==== Sys2Proof/Proofs/WindowLaws.lean ====
section
/-! SUPPORT. Every command keeps windows apart and fields within their values (R22, R42, R54 to R56), and the proof of
WindowLawIsKept. -/

namespace Sys2Proof.Machine

/-! ### What leaves the table alone -/

/-- Table, match configuration and the operation in progress stand as they did. -/
structure State.SameTable (s t : State) : Prop where
  table : t.table = s.table
  config : t.config = s.config
  tableOp : t.tableOp = s.tableOp

theorem State.TableLaw.of_same {s t : State} (h : s.TableLaw) (k : s.SameTable t) : t.TableLaw := by
  obtain ⟨h1, h2, h3, h4, h5⟩ := h
  constructor
  · rwa [k.table]
  · rwa [k.table]
  · rwa [k.table]
  · rwa [k.table]
  · rwa [k.table, k.tableOp]

/-- A mark number names one record (R51). -/
theorem State.TableLaw.eq_of_mark {s : State} (h : s.TableLaw) {a b : MarkRecord} (ha : a ∈ s.table) (hb : b ∈ s.table)
    (hm : a.mark = b.mark) : a = b := List.inj_on_of_nodup_map h.marks ha hb hm

theorem State.SameTable.addressedForWrite (s : State) (x : ExchangeState) : s.SameTable (s.addressedForWrite x) := ⟨rfl, rfl, rfl⟩

/-- Every record stays within its window, the bucket shift stands, and no operation of the host's has begun. -/
structure State.SameWindows (s t : State) : Prop where
  table : Remain s.table t.table
  shift : t.config.shift = s.config.shift
  host : ∀ op, t.tableOp = some (.host op) → s.tableOp = some (.host op)

namespace State.SameWindows

theorem of_same {s t : State} (ht : t.table = s.table) (hc : t.config = s.config) (ho : t.tableOp = s.tableOp) :
    s.SameWindows t := ⟨by rw [ht]; exact .refl _, by rw [hc], fun op h => ho.symm.trans h⟩

theorem refl (s : State) : s.SameWindows s := of_same rfl rfl rfl

theorem trans {s t u : State} (h : s.SameWindows t) (k : t.SameWindows u) : s.SameWindows u :=
  ⟨h.table.trans k.table, k.shift.trans h.shift, fun op hu => h.host op (k.host op hu)⟩

theorem freed (s : State) : s.SameWindows { s with tableOp := none } := ⟨.refl _, rfl, by simp⟩

theorem arbitrate (s : State) : s.SameWindows s.arbitrate := by
  refine ⟨by simp [Remain.refl], by simp, fun op h => ?_⟩
  obtain e | ⟨-, -, e⟩ | ⟨-, -, x, rest, -, e⟩ | ⟨-, -, -, e⟩ := s.arbitrate_cases <;> rw [e] at h
  · exact h
  all_goals cases h

theorem answer (s : State) (status : Status) (bytes : List Byte) : s.SameWindows (s.answer status bytes) := of_same rfl rfl rfl

theorem reject (s : State) (code : RejectCode) : s.SameWindows (s.reject code) := of_same rfl rfl rfl

theorem handOver (s : State) (status : Status) (bytes : List Byte) : s.SameWindows (s.handOver status bytes) :=
  of_same (by simp) (by simp) (by simp)

theorem count (s : State) (k : Counter) (n : Nat) : s.SameWindows (s.count k n) := of_same rfl rfl rfl

theorem setLine (s : State) (i : LineId) (l : LineInput) : s.SameWindows (s.setLine i l) := of_same (by simp) (by simp) (by simp)

theorem putGuarded (s : State) (i : LineId) (g : LineInput × Bool) : s.SameWindows (s.putGuarded i g) :=
  of_same (by simp) (by simp) (by simp)

theorem linesSee (s : State) (k : ChannelIx) (p : Nat → Position) (st : ChannelState) (left : Bool) (q : Option Position) :
    s.SameWindows (s.linesSee k p st left q) := of_same (by simp) (by simp) (by simp)

theorem formLine (s : State) (i : LineId) : s.SameWindows (s.formLine i) := of_same (by simp) (by simp) (by simp)

theorem abortLivePass (s : State) (cause : AbortCause) : s.SameWindows (s.abortLivePass cause) :=
  of_same (by simp) (by simp) (by simp)

theorem closeLivePass (s : State) : s.SameWindows s.closeLivePass := of_same (by simp) (by simp) (by simp)

theorem passSees (s : State) (k : ChannelIx) (left : Bool) (p : Position) : s.SameWindows (s.passSees k left p) :=
  of_same (by simp) (by simp) (by simp)

theorem settleEvent (s : State) (first : MeetOrder) {ends : State → State} (h : ∀ v : State, v.SameWindows (ends v)) :
    s.SameWindows (s.settleEvent first ends) := by
  cases first
  case formationFirst => exact (((formLine s _).trans (formLine _ _)).trans (h _)).trans (arbitrate _)
  case passFirst => exact ((h s).trans ((formLine _ _).trans (formLine _ _))).trans (arbitrate _)
  case passBetween => exact (((formLine s _).trans (h _)).trans (formLine _ _)).trans (arbitrate _)

/-! ### Signals -/

theorem putChannel (s : State) (k : ChannelIx) (c : Channel) : s.SameWindows (s.putChannel k c) := of_same rfl rfl rfl

theorem sampleChannel (s : State) (k : ChannelIx) (increment : Int) (amplitude : Nat) (first : MeetOrder) :
    s.SameWindows (s.sampleChannel k increment amplitude first) := by
  have entered : s.SameWindows (s.enterPeriod k) := of_same rfl rfl rfl
  exact ((entered.trans (putChannel _ _ _)).trans (linesSee _ _ _ _ _ _)).trans (settleEvent _ first fun v => passSees v _ _ _)

theorem linesLoseReference (s tracked : State) : s.SameWindows (s.linesLoseReference tracked) := by
  unfold State.linesLoseReference
  have fold : ∀ (ks : List ChannelIx) (u : State), u.SameWindows (ks.foldl (fun t (k : ChannelIx) =>
      t.linesSee k (fun _ => (s.channel k).position) (s.channel k).state
        (decide ((tracked.channel k).state = .tracking)) none) u) := by
    intro ks
    induction ks with
    | nil => exact fun u => refl u
    | cons k ks ih => exact fun u => (linesSee u _ _ _ _ _).trans (ih _)
  exact fold _ s

theorem referenceLost (s : State) (first : MeetOrder) : s.SameWindows (s.referenceLost first) := by
  obtain ⟨-, rest, -⟩ := State.loseReferences_spec { s with monitor := .absent, period := none }
  have lost : s.SameWindows ((List.finRange 6).foldl State.loseReference { s with monitor := .absent, period := none }) := by
    rw [rest]
    exact of_same rfl rfl rfl
  have ends : ∀ v : State, v.SameWindows (if s.measuringAxis.state = .tracking then v.abortLivePass .axis else v) := by
    intro v
    split
    · exact abortLivePass v _
    · exact refl v
  unfold State.referenceLost
  simp only
  exact (lost.trans (linesLoseReference _ s)).trans (settleEvent _ first ends)

theorem leadingEdge (s : State) (i : LineId) (phase : Nat) : s.SameWindows (s.leadingEdge i phase) := by
  unfold State.leadingEdge
  simp only
  split
  · exact refl s
  · exact refl s
  · split
    · exact putGuarded s _ _
    · exact setLine s _ _

theorem trailingEdge (s : State) (i : LineId) (phase : Nat) : s.SameWindows (s.trailingEdge i phase) := by
  have order : ∀ first, s.SameWindows { s with earlierClosing := first } := fun _ => of_same rfl rfl rfl
  unfold State.trailingEdge
  simp only
  split
  · exact setLine s _ _
  · exact setLine s _ _
  · split
    · exact (setLine s _ _).trans (count _ _ _)
    · exact (((order _).trans (setLine _ _ _)).trans ((formLine _ _).trans (formLine _ _))).trans (arbitrate _)

/-! ### Requests that start no operation of the table unit -/

theorem setAxisRequest (s : State) (f : SetAxisFields) (first : MeetOrder) : s.SameWindows (s.setAxisRequest f first) := by
  have configured : ∀ k, s.SameWindows (s.configureAxis k f first) := by
    intro k
    unfold State.configureAxis
    simp only
    split
    · exact putChannel s _ _
    · have settled : ∀ v : State, v.SameWindows v.settlePeriod := fun v => of_same rfl rfl rfl
      refine (((putChannel s _ _).trans (settled _)).trans (linesSee _ _ _ _ _ _)).trans (settleEvent _ first fun v => ?_)
      split
      · exact abortLivePass v _
      · exact refl v
  unfold State.setAxisRequest
  split
  · exact reject s _
  · split
    · exact reject s _
    · split
      · exact reject s _
      · exact (configured _).trans (answer _ _ _)

theorem trackRequest (s : State) (channel : Nat) : s.SameWindows (s.trackRequest channel) := by
  unfold State.trackRequest
  split
  · exact reject s _
  · simp only
    repeat' split
    all_goals exact of_same rfl rfl rfl

theorem restartRequest (s : State) (channel : Nat) : s.SameWindows (s.restartRequest channel) := by
  unfold State.restartRequest
  split
  · exact reject s _
  · simp only
    repeat' split
    all_goals exact of_same rfl rfl rfl

theorem zeroRequest (s : State) (channel : Nat) (value : Position) : s.SameWindows (s.zeroRequest channel value) := by
  unfold State.zeroRequest
  split
  · exact reject s _
  · simp only
    repeat' split
    all_goals exact of_same rfl rfl rfl

theorem setLineRequest (s : State) (f : SetLineFields) : s.SameWindows (s.setLineRequest f) := by
  unfold State.setLineRequest
  split
  · exact reject s _
  · split
    · exact reject s _
    · exact (setLine s _ _).trans (answer _ _ _)

theorem beginPassRequest (s : State) (f : BeginPassFields) : s.SameWindows (s.beginPassRequest f) := by
  unfold State.beginPassRequest
  split
  · exact reject s _
  · split
    · exact reject s _
    · split
      · exact reject s _
      · split
        · exact reject s _
        · exact ⟨.refl _, rfl, by simp [State.openPass]⟩

theorem abortPassRequest (s : State) (number : Nat) : s.SameWindows (s.abortPassRequest number) := by
  unfold State.abortPassRequest
  split
  · exact reject s _
  · split
    · exact reject s _
    · exact ((abortLivePass s _).trans (arbitrate _)).trans (answer _ _ _)

theorem readEventsRequest (s : State) (option : Nat) : s.SameWindows (s.readEventsRequest option) := by
  unfold State.readEventsRequest
  split <;> exact of_same rfl rfl rfl

theorem clearEventsRequest (s : State) (word : Nat) : s.SameWindows (s.clearEventsRequest word) := by
  unfold State.clearEventsRequest
  split <;> exact of_same rfl rfl rfl

theorem setNoticeRequest (s : State) (setting word : Nat) : s.SameWindows (s.setNoticeRequest setting word) := by
  unfold State.setNoticeRequest
  split <;> exact of_same rfl rfl rfl

theorem unprotectRequest (s : State) (set : BitVec 32) : s.SameWindows (s.unprotectRequest set) := by
  unfold State.unprotectRequest
  split <;> exact of_same rfl rfl rfl

theorem resetRequest (s : State) (scope : Nat) : s.SameWindows (s.resetRequest scope) := by
  unfold State.resetRequest
  split <;> exact of_same rfl rfl rfl

/-! ### The link -/

theorem judgeAddress (s : State) (address : Byte) : s.SameWindows (s.judgeAddress address) := by
  unfold State.judgeAddress
  split <;> exact of_same rfl rfl rfl

theorem meetRival (s : State) (rival : Byte) : s.SameWindows (s.meetRival rival) := by
  unfold State.meetRival
  split
  · exact judgeAddress s rival
  · exact refl s

theorem linkStart (s : State) (address : Option Byte) : s.SameWindows (s.linkStart address) := by
  unfold State.linkStart
  split
  · exact refl s
  · exact refl s
  · exact meetRival s _
  · exact of_same rfl rfl rfl
  · split
    · exact of_same rfl rfl rfl
    · exact judgeAddress s _

theorem addressedForRead (s : State) (extent : ReadExtent) : s.SameWindows (s.addressedForRead extent) := by
  have response : s.SameWindows (s.readResponse extent) := by
    unfold State.readResponse
    split <;> exact of_same rfl rfl rfl
  unfold State.addressedForRead
  split
  · exact of_same rfl rfl rfl
  · split
    · exact of_same rfl rfl rfl
    · exact response

theorem startNotice (s : State) (rival : Option Byte) : s.SameWindows (s.startNotice rival) := by
  have started : s.SameWindows (s.startExchange .starting) := of_same rfl rfl rfl
  unfold State.startNotice
  split
  · exact started
  · exact started.trans (meetRival _ _)

theorem interfaceReset (s : State) : s.SameWindows s.interfaceReset := by
  have cleared : ∀ v : State, v.SameWindows { v with
      queue := []
      line1 := v.line1.dropLines
      line2 := v.line2.dropLines
      events := v.events.interfaceReset v.downMask v.tableFull } := fun v => of_same rfl rfl rfl
  exact ((abortLivePass s .reset).trans (cleared _)).trans (arbitrate _)

/-! ### Matching and sweeps -/

theorem updateKind (s : State) (mark : Nat) (f : KindPart → KindPart) : s.SameWindows (s.updateKind mark f) :=
  ⟨.updateMark _ _ fun _ _ _ => .of_same rfl rfl rfl rfl, rfl, fun _ h => h⟩

theorem matchMeasure (s : State) (x : Sighting) : s.SameWindows (s.matchMeasure x) := by
  have reported : ∀ (v : State) o, v.SameWindows (v.reportOutcome o) := by
    intro v o
    cases o <;> exact of_same rfl rfl rfl
  unfold State.matchMeasure
  split
  · exact reported s _
  · exact (updateKind s _ _).trans (reported _ _)

theorem makeClaim (s : State) (m : MatchUnderWay) (r : MarkRecord) : s.SameWindows (s.makeClaim m r) := by
  have claimed : ∀ c m', s.SameWindows
      { s with channels := s.channels.set s.config.axis c, tableOp := some (.sightingMatch m') } := fun c m' =>
    ⟨.refl _, rfl, by simp⟩
  unfold State.makeClaim
  simp only
  split
  · exact (claimed _ _).trans (updateKind _ _ _)
  · exact claimed _ _

theorem finishClaim (s : State) (report : ClaimReport) : s.SameWindows (s.finishClaim report) := by
  cases report
  case refused => exact count s _ _
  case applied =>
    have closing : ∀ v : State, v.SameWindows v.claimClosing := by
      intro v
      unfold State.claimClosing
      split
      · exact closeLivePass v
      · exact refl v
    have taken : s.SameWindows
        (({ s with pass := { s.pass with taken := s.pass.taken + 1 } } : State).emptyQueue true) := of_same rfl rfl rfl
    exact taken.trans (closing _)

theorem matchSighting (s : State) (m : MatchUnderWay) : s.SameWindows (s.matchSighting m) := by
  unfold State.matchSighting
  split
  · exact matchMeasure s _
  · unfold State.matchDatum
    split
    · exact finishClaim s _
    · exact refl s
    · split
      · exact count s _ _
      · exact (updateKind s _ _).trans (count _ _ _)
      · exact (makeClaim s m _).trans (finishClaim _ _)
      · exact refl s
      · exact refl s
      · exact refl s
  · exact refl s

theorem finishArmSweep (s : State) : s.SameWindows s.finishArmSweep := by
  have armed : s.SameWindows s.armRecords := by
    unfold State.armRecords
    split
    · exact refl s
    · refine ⟨.map _ fun r _ => ?_, rfl, fun _ h => h⟩
      split
      · exact .of_same rfl rfl rfl rfl
      · exact .refl r
  have after : ∀ v : State, v.SameWindows v.afterArming := by
    intro v
    unfold State.afterArming
    split <;> exact of_same rfl rfl rfl
  exact (((armed.trans (handOver _ _ _)).trans (after _)).trans (freed _)).trans (arbitrate _)

theorem reportSweep (s : State) (before after : List MarkRecord) : s.SameWindows (s.reportSweep before after) := by
  obtain ⟨-, rest, -⟩ := s.reportSweep_spec before after
  rw [rest]
  exact of_same rfl rfl rfl

theorem sweepRecords (s : State) {resolve : MarkRecord → MarkRecord} (h : ∀ r : MarkRecord, r.StaysWithin (resolve r)) :
    s.SameWindows (s.sweepRecords resolve) := by
  have swept : s.SameWindows { s with
      table := sweepTable resolve s.table
      occupancy := sweepOccupancy s.config.shift resolve s.table s.occupancy } := ⟨.sweepTable _ h, rfl, fun _ h => h⟩
  exact swept.trans (reportSweep _ _ _)

theorem endPass (s : State) (missed : Nat) : s.SameWindows (s.endPass missed) := by
  have idle : s.SameWindows
      (({ s with pass := { s.pass with state := .idle, missed := missed }, tableOp := none } : State).raise .passEnd) :=
    ⟨.refl _, rfl, by simp⟩
  exact idle.trans (arbitrate _)

end State.SameWindows

end Sys2Proof.Machine
end

