-- ==== Sys2Proof/Proofs/WindowLawIsKept.lean ====
section
/-! SUPPORT. The operations of the host that change windows, and the proof of WindowLawIsKept (R22, R42, R54 to R56). -/

namespace Sys2Proof.Machine

/-! ### The laws and the table that stands -/

/-- The laws of windows and of values are kept from one state to another, by a table whose mark numbers are unique. -/
structure State.KeepsTableLaws (s t : State) : Prop where
  windows : s.TableLaw → s.WindowLaw → t.WindowLaw
  ranges : s.TableLaw → s.RangeLaw → t.RangeLaw

/-- What the laws say of a table while no operation of the host's is in progress. -/
structure State.KeepsStanding (s t : State) : Prop where
  apart : s.TableLaw → s.WindowLaw → Apart t.table
  shift : s.TableLaw → s.RangeLaw → 6 ≤ t.config.shift ∧ t.config.shift ≤ 20
  values : s.TableLaw → s.RangeLaw → InValues t.config.shift t.table

theorem State.RangeLaw.inValues {s : State} (h : s.RangeLaw) : InValues s.config.shift s.table := ⟨h.records, h.staged⟩

/-- What the checks of an operation make sure of before it starts, as far as windows and values go (R22, R42, R55). -/
def HostOp.Fits (shift : Nat) (table : List MarkRecord) : HostOp → Prop
  | .enrol r => r.staged = none ∧ r.fields.InRange shift r.nominal ∧ ∀ x ∈ table, x.overlaps r.nominal.toInt r.fields.half = false
  | .amend mark a => ∀ r ∈ table, r.mark = mark → a.fields.InRange shift r.nominal
      ∧ ∀ x ∈ table, x.mark ≠ mark → x.overlaps r.nominal.toInt a.fields.half = false
  | .setMatch m => 6 ≤ m.shift ∧ m.shift ≤ 20 ∧ table = []
  | _ => True

theorem State.WindowLaw.of_sameWindows {s t : State} (w : s.WindowLaw) (h : s.SameWindows t) : t.WindowLaw := by
  refine ⟨Apart.of_remain w.disjoint h.table, fun r hr => ?_, fun mark a ha r' hr' hm x' hx' hne => ?_⟩
  · obtain ⟨hs, free⟩ := w.enrolling r (h.host _ hr)
    refine ⟨hs, fun x' hx' => ?_⟩
    obtain ⟨x, hx, kx⟩ := h.table x' hx'
    exact overlaps_mono kx.nominal kx.reach_le le_rfl (free x hx)
  · obtain ⟨r, hr, kr⟩ := h.table r' hr'
    obtain ⟨x, hx, kx⟩ := h.table x' hx'
    rw [kr.nominal]
    exact overlaps_mono kx.nominal kx.reach_le le_rfl
      (w.amending mark a (h.host _ ha) r hr (kr.mark.symm.trans hm) x hx fun e => hne (kx.mark.trans e))

theorem State.RangeLaw.of_sameWindows {s t : State} (w : s.RangeLaw) (h : s.SameWindows t) : t.RangeLaw := by
  obtain ⟨records, staged⟩ := w.inValues.of_remain h.table
  rw [← h.shift] at records staged
  refine ⟨by rw [h.shift]; exact w.shift, records, staged, fun r hr => ?_, fun mark a ha r' hr' hm => ?_, fun m hm => ?_⟩
  · rw [h.shift]; exact w.enrolling r (h.host _ hr)
  · obtain ⟨r, hr, kr⟩ := h.table r' hr'
    rw [kr.nominal, h.shift]
    exact w.amending mark a (h.host _ ha) r hr (kr.mark.symm.trans hm)
  · obtain ⟨low, high, empty⟩ := w.settingMatch m (h.host _ hm)
    exact ⟨low, high, h.table.eq_nil empty⟩

namespace State.KeepsTableLaws

theorem of_sameWindows {s t : State} (h : s.SameWindows t) : s.KeepsTableLaws t :=
  ⟨fun _ w => w.of_sameWindows h, fun _ w => w.of_sameWindows h⟩

theorem trans_sameWindows {s t u : State} (h : s.KeepsTableLaws t) (k : t.SameWindows u) : s.KeepsTableLaws u :=
  ⟨fun ht hw => (h.windows ht hw).of_sameWindows k, fun ht hr => (h.ranges ht hr).of_sameWindows k⟩

theorem of_sameTable {s t u : State} (h : s.SameTable t) (k : t.KeepsTableLaws u) : s.KeepsTableLaws u :=
  have same : s.SameWindows t := .of_same h.table h.config h.tableOp
  ⟨fun ht hw => k.windows (ht.of_same h) (hw.of_sameWindows same), fun ht hr => k.ranges (ht.of_same h) (hr.of_sameWindows same)⟩

/-- A standing table under no operation of the host's. -/
theorem of_standing {s t : State} (h : s.KeepsStanding t) (free : ∀ op, t.tableOp ≠ some (.host op)) : s.KeepsTableLaws t :=
  ⟨fun ht hw => ⟨h.apart ht hw, fun _ ho => absurd ho (free _), fun _ _ ho => absurd ho (free _)⟩,
    fun ht hr => ⟨h.shift ht hr, (h.values ht hr).records, (h.values ht hr).staged, fun _ ho => absurd ho (free _),
      fun _ _ ho => absurd ho (free _), fun _ ho => absurd ho (free _)⟩⟩

/-- The start of an operation whose checks have been made. -/
theorem startHostOp {s : State} {op : HostOp} (h : s.TableLaw → op.Fits s.config.shift s.table) :
    s.KeepsTableLaws (s.startHostOp op) := by
  have inProgress : ∀ op', (s.startHostOp op).tableOp = some (.host op') → op = op' := by
    intro op' e
    simpa [State.startHostOp] using e
  refine ⟨fun ht hw => ⟨hw.disjoint, fun r e => ?_, fun mark a e r hr hm => ?_⟩,
    fun ht hr => ⟨hr.shift, hr.records, hr.staged, fun r e => ?_, fun mark a e r hx hm => ?_, fun m e => ?_⟩⟩
  all_goals
    obtain rfl := inProgress _ e
    have fits := h ht
    simp only [HostOp.Fits] at fits
  · exact ⟨fits.1, fits.2.2⟩
  · exact (fits r hr hm).2
  · exact ⟨fits.2.1, fits.1⟩
  · exact (fits r hx hm).1
  · exact fits

end State.KeepsTableLaws

/-! ### The checks -/

/-- Fields that pass their check lie within the values of R42. -/
theorem judgeAmendable_inValues {shift : Nat} {nominal : Int} {half minWidth maxWidth accept : Nat} {f : Amendable}
    (h : judgeAmendable shift nominal half minWidth maxWidth accept = some f) :
    f.half = half ∧ ∀ p : Position, p.toInt = nominal → f.InRange shift p := by
  unfold judgeAmendable at h
  split at h
  · cases h
  · split at h
    next bounds =>
      cases h
      obtain ⟨h1, h2, h3, h4, h5, h6, h7⟩ := bounds
      exact ⟨rfl, fun p hp => ⟨h1, h2, h3, h5, hp ▸ h6, hp ▸ h7⟩⟩
    · cases h

theorem toInt_ofInt_of_bounds {n : Int} {half : Nat} (hl : -(2 ^ 47) ≤ n - half) (hh : n + half ≤ 2 ^ 47 - 1) :
    (BitVec.ofInt 48 n).toInt = n := BitVec.toInt_ofInt_eq_self (by omega) (by omega) (by omega)

/-- The record that an ENROL's fields make lies within the values of R42, and its nominal is the one asked for. -/
theorem EnrolFields.record_inValues {f : EnrolFields} {shift mark : Nat} {nominal : Int} {r : MarkRecord}
    (h : f.record shift mark nominal = some r) :
    r.staged = none ∧ r.nominal.toInt = nominal ∧ r.fields.InRange shift r.nominal := by
  unfold EnrolFields.record at h
  split at h
  next fields kind hf _ =>
    cases h
    have exact_nominal : (BitVec.ofInt 48 nominal).toInt = nominal := by
      unfold judgeAmendable at hf
      split at hf
      · cases hf
      · split at hf
        next bounds =>
          obtain ⟨-, -, -, -, -, hl, hh⟩ := bounds
          exact toInt_ofInt_of_bounds hl hh
        · cases hf
    exact ⟨rfl, exact_nominal, (judgeAmendable_inValues hf).2 _ exact_nominal⟩
  · cases h

theorem judgeRecord_fits {s : State} {f : EnrolFields} {mark : Nat} {nominal : Int} {r : MarkRecord}
    (h : s.judgeRecord f mark nominal = .inr r) : (HostOp.enrol r).Fits s.config.shift s.table := by
  unfold State.judgeRecord at h
  split at h
  · cases h
  · split at h
    · cases h
    · split at h
      · cases h
      next r' hr =>
        split at h
        · cases h
        next free =>
          cases h
          obtain ⟨hs, hn, hv⟩ := EnrolFields.record_inValues hr
          refine ⟨hs, hv, fun x hx => ?_⟩
          rw [hn, ← Bool.not_eq_true]
          exact fun ho => free (List.any_eq_true.mpr ⟨x, hx, ho⟩)

theorem judgeRunRecord_fits {s : State} {run : RunRequest} {i : Nat} {r : MarkRecord}
    (h : s.judgeRunRecord run i = .inr r) : (HostOp.enrol r).Fits s.config.shift s.table := by
  unfold State.judgeRunRecord at h
  split at h
  · cases h
  · exact judgeRecord_fits h

theorem judgeEnrol_fits {s : State} {mark : Nat} {nominal : Int} {f : EnrolFields} {op : HostOp}
    (h : s.judgeEnrol mark nominal f = .start op) : op.Fits s.config.shift s.table := by
  unfold State.judgeEnrol at h
  split at h
  · cases h; trivial
  · split at h
    · cases h
    · split at h
      · cases h; trivial
      next r hr => cases h; exact judgeRecord_fits hr

/-- An amendment's half-width is the one asked for, and its fields lie within the values of R42. -/
theorem AmendFields.amendment_inValues {f : AmendFields} {shift : Nat} {r : MarkRecord} {a : Amendment}
    (h : f.amendment shift r = some a) : a.fields.half = f.half ∧ a.fields.InRange shift r.nominal := by
  unfold AmendFields.amendment at h
  split at h
  · cases h
  next fields l hf _ =>
    split at h
    · cases h
    · split at h
      · cases h; exact ⟨(judgeAmendable_inValues hf).1, (judgeAmendable_inValues hf).2 _ rfl⟩
      · cases h
  next hf _ => cases h; exact ⟨(judgeAmendable_inValues hf).1, (judgeAmendable_inValues hf).2 _ rfl⟩
  next hf _ => cases h; exact ⟨(judgeAmendable_inValues hf).1, (judgeAmendable_inValues hf).2 _ rfl⟩

theorem judgeAmend_fits {s : State} {f : AmendFields} {op : HostOp} (ht : s.TableLaw) (h : s.judgeAmend f = .start op) :
    op.Fits s.config.shift s.table := by
  unfold State.judgeAmend at h
  split at h
  · cases h; trivial
  · split at h
    · cases h
    · split at h
      · cases h; trivial
      next r hr =>
        split at h
        · cases h; trivial
        next a ha =>
          split at h
          · cases h; trivial
          next free =>
            split at h
            · cases h; trivial
            · cases h
              obtain ⟨hmem, hmark⟩ := findMark_mem hr
              obtain ⟨hhalf, hrange⟩ := AmendFields.amendment_inValues ha
              intro r' hr' hm
              obtain rfl := ht.eq_of_mark hr' hmem (hm.trans hmark.symm)
              refine ⟨hrange, fun x hx hne => ?_⟩
              rw [hhalf, ← Bool.not_eq_true]
              exact fun ho => free (List.any_eq_true.mpr ⟨x, hx, by simp [hne, ho]⟩)

theorem judgeRun_fits {s : State} {run : RunRequest} {op : HostOp} (h : s.judgeRun run = .start op) :
    op.Fits s.config.shift s.table := by
  unfold State.judgeRun at h
  split at h
  · cases h; trivial
  · split at h
    · cases h
    · cases h; trivial

theorem judgeRetire_fits {s : State} {mark : Nat} {op : HostOp} (h : s.judgeRetire mark = .start op) :
    op.Fits s.config.shift s.table := by
  unfold State.judgeRetire at h
  split at h
  · cases h; trivial
  · split at h
    · cases h
    · split at h
      · cases h; trivial
      · split at h <;> cases h <;> trivial

theorem judgeReopen_fits (s : State) (mark : Nat) : (s.judgeReopen mark).Fits s.config.shift s.table := by
  unfold State.judgeReopen
  repeat' split
  all_goals trivial

theorem judgeLookup_fits (s : State) (mark : Nat) : (s.judgeLookup mark).Fits s.config.shift s.table := by
  unfold State.judgeLookup
  repeat' split
  all_goals trivial

namespace State.KeepsTableLaws

theorem hostTable {s : State} {judge : State → HostOp} (h : (judge s).Fits s.config.shift s.table) :
    s.KeepsTableLaws (s.hostTable judge) := by
  unfold State.hostTable
  split
  · exact startHostOp fun _ => h
  · exact of_sameWindows (.reject s _)

theorem hostTableGuarded {s : State} {judge : State → Verdict} {shielded : State → State}
    (h : s.TableLaw → ∀ op, judge s = .start op → op.Fits s.config.shift s.table)
    (hs : ∀ u : State, u.SameWindows (shielded u)) : s.KeepsTableLaws (s.hostTableGuarded judge shielded) := by
  unfold State.hostTableGuarded
  split
  · split
    next op e => exact startHostOp fun ht => h ht op e
    next mark _ =>
      have fault : s.SameWindows (s.protectionFault mark) := .of_same rfl rfl rfl
      exact of_sameWindows (fault.trans (hs _))
  · exact of_sameWindows (.reject s _)

theorem setMatchRequest (s : State) (f : SetMatchFields) : s.KeepsTableLaws (s.setMatchRequest f) := by
  unfold State.setMatchRequest
  split
  · exact of_sameWindows (.reject s _)
  next m hm =>
    split
    · exact of_sameWindows (.reject s _)
    · split
      next same => exact of_sameWindows ⟨.refl _, same, fun _ h => h⟩
      · split
        · exact of_sameWindows (.reject s _)
        · split
          · exact startHostOp fun _ => trivial
          next empty =>
            refine startHostOp fun _ => ?_
            unfold SetMatchFields.config at hm
            split at hm
            · split at hm
              next bounds => cases hm; exact ⟨bounds.1, bounds.2, not_not.mp empty⟩
              · cases hm
            · cases hm

end State.KeepsTableLaws

/-! ### The effects -/

theorem insertNew_config (s : State) (r : MarkRecord) : (s.insertNew r).config = s.config := by
  simp only [State.insertNew]
  cases r.kind <;> simp only <;> split <;> simp

theorem reportAmended_table (s : State) (before after : MarkRecord) : (s.reportAmended before after).table = s.table := by
  unfold State.reportAmended
  repeat' split
  all_goals rfl

theorem reportAmended_config (s : State) (before after : MarkRecord) : (s.reportAmended before after).config = s.config := by
  unfold State.reportAmended
  repeat' split
  all_goals rfl

namespace State.KeepsStanding

theorem of_sameWindows {s t : State} (h : s.SameWindows t) : s.KeepsStanding t :=
  ⟨fun _ w => (w.of_sameWindows h).disjoint, fun _ w => (w.of_sameWindows h).shift, fun _ w => (w.of_sameWindows h).inValues⟩

/-- The table and the bucket shift are all that counts. -/
theorem congr {s t u : State} (h : s.KeepsStanding t) (ht : u.table = t.table) (hc : u.config = t.config) : s.KeepsStanding u := by
  constructor
  · rw [ht]; exact h.apart
  · rw [hc]; exact h.shift
  · rw [ht, hc]; exact h.values

theorem enrol {s : State} {r : MarkRecord} (ho : s.tableOp = some (.host (.enrol r))) : s.KeepsStanding (s.insertNew r) := by
  refine ⟨fun _ w => ?_, fun _ w => ?_, fun _ w => ?_⟩
  · rw [insertNew_table]
    obtain ⟨hs, free⟩ := w.enrolling r ho
    exact Apart.insertRecord w.disjoint hs free
  · rw [insertNew_config]
    exact w.shift
  · rw [insertNew_table, insertNew_config]
    obtain ⟨values, hs⟩ := w.enrolling r ho
    exact w.inValues.insertRecord hs values

theorem enrolRun (s : State) (run : RunRequest) (left i : Nat) : s.KeepsStanding (State.runFrom run left i s).1 := by
  have config : (State.runFrom run left i s).1.config = s.config :=
    State.runFrom_of (P := fun v => v.config = s.config) (fun v _ r hv _ => (insertNew_config v r).trans hv) left i s rfl
  refine ⟨fun _ w => ?_, fun _ w => by rw [config]; exact w.shift, fun _ w => ?_⟩
  · refine State.runFrom_of (P := fun v => Apart v.table) (fun v _ r hv hr => ?_) left i s w.disjoint
    obtain ⟨hs, -, free⟩ := judgeRunRecord_fits hr
    rw [insertNew_table]
    exact Apart.insertRecord hv hs free
  · refine State.runFrom_of (P := fun v => InValues v.config.shift v.table) (fun v _ r hv hr => ?_) left i s w.inValues
    obtain ⟨hs, values, -⟩ := judgeRunRecord_fits hr
    rw [insertNew_table, insertNew_config]
    exact hv.insertRecord hs values

/-- An amendment in progress, applied at once or staged: the record keeps its nominal, takes the amendment's fields or stages them,
and reaches no farther than the wider of the two (R125, R126). -/
theorem amend {s : State} {mark : Nat} {a : Amendment} {f : MarkRecord → MarkRecord}
    (ho : s.tableOp = some (.host (.amend mark a)))
    (hf : s.TableLaw → ∀ r ∈ s.table, r.mark = mark → (f r).mark = mark ∧ (f r).nominal = r.nominal
      ∧ ((f r).fields = r.fields ∨ (f r).fields = a.fields) ∧ ((f r).staged = r.staged ∨ (f r).staged = some a)) :
    s.KeepsStanding { s with table := updateMark s.table mark f } := by
  have narrow : s.TableLaw → ∀ r ∈ s.table, r.mark = mark → (f r).reach ≤ max a.fields.half r.reach := by
    intro ht r hr hm
    obtain ⟨-, -, hfields, hstaged⟩ := hf ht r hr hm
    refine MarkRecord.reach_le ?_ fun b hb => ?_
    · obtain e | e := hfields
      · rw [e]; exact r.half_le_reach.trans (Nat.le_max_right _ _)
      · rw [e]; exact Nat.le_max_left _ _
    · obtain e | e := hstaged
      · exact (MarkRecord.staged_half_le_reach (e.symm.trans hb)).trans (Nat.le_max_right _ _)
      · rw [← Option.some.inj (e.symm.trans hb)]; exact Nat.le_max_left _ _
  refine ⟨fun ht w => ?_, fun _ w => w.shift, fun ht w => ?_⟩
  · exact Apart.updateMark w.disjoint (fun r hr hm => ⟨(hf ht r hr hm).1, (hf ht r hr hm).2.1, narrow ht r hr hm⟩)
      (w.amending mark a ho)
  · exact w.inValues.updateMark (fun r hr hm => (hf ht r hr hm).2) (w.amending mark a ho)

theorem applyAmend {s : State} {mark : Nat} {a : Amendment} {r : MarkRecord} (ho : s.tableOp = some (.host (.amend mark a)))
    (hr : findMark s.table mark = some r) : s.KeepsStanding (s.applyAmend r a) := by
  obtain ⟨hmem, hmark⟩ := findMark_mem hr
  have rest := MarkRecord.StaysWithin.restLine (r.replaceFields a)
  have replaced : (r.replaceFields a).restLine.fields = a.fields ∧ (r.replaceFields a).restLine.staged = r.staged := by
    unfold MarkRecord.restLine
    split <;> exact ⟨rfl, rfl⟩
  have amended := amend (f := fun _ => (r.replaceFields a).restLine) ho fun ht r' hr' hm => by
    obtain rfl := ht.eq_of_mark hr' hmem (hm.trans hmark.symm)
    exact ⟨rest.mark.trans hm, rest.nominal, .inr replaced.1, .inl replaced.2⟩
  exact amended.congr (by rw [State.applyAmend, reportAmended_table, hmark]) (by rw [State.applyAmend, reportAmended_config])

theorem stageAmend {s : State} {mark : Nat} {a : Amendment} (ho : s.tableOp = some (.host (.amend mark a))) :
    s.KeepsStanding (s.stageAmend mark a) := amend ho fun _ _ _ hm => ⟨hm, rfl, .inl rfl, .inr rfl⟩

theorem setMatch {s : State} {m : MatchConfig} (ho : s.tableOp = some (.host (.setMatch m))) :
    s.KeepsStanding { s with config := m } := by
  refine ⟨fun _ w => w.disjoint, fun _ w => ?_, fun _ w => ?_⟩
  · obtain ⟨low, high, -⟩ := w.settingMatch m ho
    exact ⟨low, high⟩
  · obtain ⟨-, -, empty⟩ := w.settingMatch m ho
    rw [show ({ s with config := m } : State).table = [] from empty]
    exact .nil m.shift

theorem removeRecord (s : State) (r : MarkRecord) : s.KeepsStanding (s.removeRecord r) := by
  have removed : s.KeepsStanding { s with table := removeMark s.table r.mark } :=
    of_sameWindows ⟨.filter _ _, rfl, fun _ h => h⟩
  unfold State.removeRecord
  cases r.kind <;> exact removed.congr rfl rfl

theorem reopenRecord (s : State) (r : MarkRecord) (l : LinePart) : s.KeepsStanding (s.reopenRecord r l) := by
  have reopened : s.KeepsStanding { s with
      table := updateMark s.table r.mark fun r => { r with kind := .line l.reopened, state := .enrolled } } :=
    of_sameWindows ⟨.updateMark _ _ fun _ _ _ => .of_same rfl rfl rfl rfl, rfl, fun _ h => h⟩
  exact reopened.congr rfl rfl

theorem markRetiring (s : State) (mark : Nat) : s.KeepsStanding (s.markRetiring mark) :=
  of_sameWindows ⟨.updateMark _ _ fun _ _ _ => .of_same rfl rfl rfl rfl, rfl, fun _ h => h⟩

theorem refl (s : State) : s.KeepsStanding s := of_sameWindows (.refl s)

theorem completeHostOp {s : State} {op : HostOp} (ho : s.tableOp = some (.host op)) : s.KeepsStanding (s.completeHostOp op).1 := by
  cases op
  case refuse code => exact refl s
  case enrol r => exact enrol ho
  case enrolRun run => exact enrolRun s run _ _
  case amend mark a =>
    simp only [State.completeHostOp]
    split
    · exact refl s
    next hr =>
      split
      · exact applyAmend ho hr
      · exact stageAmend ho
  case retire mark =>
    simp only [State.completeHostOp]
    split
    · exact refl s
    · split
      · exact removeRecord s _
      · exact markRetiring s _
  case reopen mark =>
    simp only [State.completeHostOp]
    split
    · exact refl s
    · split
      · exact reopenRecord s _ _
      · exact refl s
      · exact refl s
  case lookup mark =>
    simp only [State.completeHostOp]
    split <;> exact refl s
  case readRange p => exact refl s
  case readGroups => exact refl s
  case setMatch m => exact setMatch ho

end State.KeepsStanding

/-! ### Every command -/

namespace State.KeepsTableLaws

theorem finishHostOp {s : State} {op : HostOp} (ho : s.tableOp = some (.host op)) : s.KeepsTableLaws (s.finishHostOp op) := by
  have freed : s.KeepsTableLaws
      { (s.completeHostOp op).1.handOver (s.completeHostOp op).2.1 (s.completeHostOp op).2.2 with tableOp := none } :=
    of_standing ((State.KeepsStanding.completeHostOp ho).congr (by simp) (by simp)) (by simp)
  exact freed.trans_sameWindows (.arbitrate _)

/-- After a reset the table is empty, the bucket shift 12, and the table unit free (R62). -/
theorem of_reset (s : State) {t : State} (ht : t.table = []) (hc : t.config = {}) (ho : t.tableOp = none) :
    s.KeepsTableLaws t := by
  refine of_standing ⟨fun _ _ => ?_, fun _ _ => ?_, fun _ _ => ?_⟩ (by simp [ho])
  · rw [ht]; exact .nil
  · rw [hc]; decide
  · rw [ht]; exact .nil _

/-- A request keeps the laws where its owner's execution does. -/
theorem request {s : State} {len : Nat} {params : List Byte} {owner : State → State}
    (h : ∀ u : State, u.KeepsTableLaws (owner u)) : s.KeepsTableLaws (s.request len params owner) := by
  have taken := State.SameTable.addressedForWrite s .taken
  exact s.request_of len params owner (of_sameWindows (.refl s)) (of_sameTable taken (of_sameWindows (.reject _ _)))
    (of_sameTable taken (h _))

/-- A request whose owner's execution leaves the windows alone. -/
theorem sameRequest {s : State} {len : Nat} {params : List Byte} {owner : State → State}
    (h : ∀ u : State, u.SameWindows (owner u)) : s.KeepsTableLaws (s.request len params owner) :=
  request fun u => of_sameWindows (h u)

theorem whileOperating {s : State} {f : State → State} (h : s.KeepsTableLaws (f s)) : s.KeepsTableLaws (s.whileOperating f) :=
  s.whileOperating_of f (of_sameWindows (.refl s)) h

theorem refl (s : State) : s.KeepsTableLaws s := of_sameWindows (.refl s)

end State.KeepsTableLaws

open State.KeepsTableLaws in
/-- Every command keeps the laws of windows and of values. -/
theorem exec_keepsTableLaws (c : Instr) (s t : State) (h : exec c s = .next t) : s.KeepsTableLaws t := by
  cases c <;> obtain rfl := Host.Outcome.next.inj h
  case sampleEvent k increment amplitude first =>
    refine whileOperating ?_
    split
    · exact refl s
    · exact of_sameWindows (.sampleChannel s _ _ _ _)
  case referenceAbsenceTimeout first =>
    refine whileOperating ?_
    split
    · exact of_sameWindows (.referenceLost s first)
    · exact refl s
  case referenceEdge => exact whileOperating (of_sameWindows (.of_same rfl rfl rfl))
  case leadingEdge i phase => exact whileOperating (of_sameWindows (.leadingEdge s i _))
  case trailingEdge i phase => exact whileOperating (of_sameWindows (.trailingEdge s i _))
  case matchCompletion =>
    refine whileOperating ?_
    split
    · exact of_sameWindows (((State.SameWindows.matchSighting s _).trans (.freed _)).trans (.arbitrate _))
    all_goals exact refl s
  case datumOffsetClaim =>
    refine whileOperating ?_
    split
    · split
      · exact of_sameWindows (.makeClaim s _ _)
      · exact refl s
    all_goals exact refl s
  case armSweepCompletion =>
    refine whileOperating ?_
    split
    · exact of_sameWindows (.finishArmSweep s)
    · exact refl s
  case closeSweepCompletion =>
    refine whileOperating ?_
    split
    · exact of_sameWindows ((State.SameWindows.sweepRecords s fun r => .resolveClose _ r).trans (.endPass _ _))
    · exact refl s
  case abortSweepCompletion =>
    refine whileOperating ?_
    split
    · exact of_sameWindows ((State.SameWindows.sweepRecords s fun r => .resolveAbort r).trans (.endPass _ _))
    · exact refl s
  case tableOperationCompletion =>
    refine whileOperating ?_
    split
    next ho => exact finishHostOp ho
    all_goals exact refl s
  case passTimerExpiry =>
    have stopped : s.SameWindows { s with passTimer := false } := .of_same rfl rfl rfl
    refine whileOperating ?_
    split
    · exact of_sameWindows ((stopped.trans (.abortLivePass _ _)).trans (.arbitrate _))
    · exact refl s
  case setAxis params first => exact sameRequest fun u => .setAxisRequest u _ _
  case trackAxis params => exact sameRequest fun u => .trackRequest u _
  case restartAxis params => exact sameRequest fun u => .restartRequest u _
  case zeroAxis params => exact sameRequest fun u => .zeroRequest u _ _
  case readAxes params => exact sameRequest fun u => .answer u _ _
  case setMatch params => exact request fun u => setMatchRequest u _
  case setLine params => exact sameRequest fun u => .setLineRequest u _
  case readLines params => exact sameRequest fun u => .answer u _ _
  case enrol params =>
    exact request fun u => hostTableGuarded (fun _ _ h => judgeEnrol_fits h) fun v => .reject v _
  case enrolRun params =>
    exact request fun u => hostTableGuarded (fun _ _ h => judgeRun_fits h) fun v => .answer v _ _
  case amend params =>
    exact request fun u => hostTableGuarded (fun ht _ h => judgeAmend_fits ht h) fun v => .reject v _
  case retire params =>
    exact request fun u => hostTableGuarded (fun _ _ h => judgeRetire_fits h) fun v => .reject v _
  case reopen params => exact request fun u => hostTable (judgeReopen_fits u _)
  case lookup params => exact request fun u => hostTable (judgeLookup_fits u _)
  case readRange params => exact request fun u => hostTable trivial
  case beginPass params => exact sameRequest fun u => .beginPassRequest u _
  case abortPass params => exact sameRequest fun u => .abortPassRequest u _
  case readPass params => exact sameRequest fun u => .answer u _ _
  case readGroups params => exact request fun u => hostTable trivial
  case protect params => exact sameRequest fun u => .of_same rfl rfl rfl
  case unprotect params => exact sameRequest fun u => .unprotectRequest u _
  case readProtect params => exact sameRequest fun u => .answer u _ _
  case readEvents params => exact sameRequest fun u => .readEventsRequest u _
  case clearEvents params => exact sameRequest fun u => .clearEventsRequest u _
  case setNotice params => exact sameRequest fun u => .setNoticeRequest u _ _
  case identify params => exact sameRequest fun u => .of_same rfl rfl rfl
  case reset params => exact sameRequest fun u => .resetRequest u _
  case unknownRequest code params => exact sameRequest fun u => .reject u _
  case linkFault cause =>
    split
    · exact refl s
    · exact of_sameWindows (.of_same rfl rfl rfl)
  case linkStart address => exact whileOperating (of_sameWindows (.linkStart s _))
  case linkStop straps =>
    have stopped : s.SameWindows s.stopExchange := .of_same rfl rfl rfl
    refine whileOperating ?_
    unfold State.linkStop
    split
    · exact of_reset s rfl rfl rfl
    · split
      · exact of_sameWindows (stopped.trans (.interfaceReset _))
      · exact of_sameWindows stopped
  case responseRead extent => exact whileOperating (of_sameWindows (.addressedForRead s _))
  case poll extent => exact whileOperating (of_sameWindows (.addressedForRead s _))
  case noticeStart rival =>
    refine whileOperating ?_
    split
    · exact of_sameWindows (.startNotice s _)
    · exact refl s
  case noticeWithdraw =>
    refine whileOperating ?_
    split <;> exact of_sameWindows (.of_same rfl rfl rfl)
  case powerOnReset => exact of_reset s rfl rfl rfl
  case powerOnHoldEnd straps =>
    split <;> exact of_sameWindows (.of_same rfl rfl rfl)
  case pinResetAssert =>
    split
    · exact of_sameWindows (.of_same rfl rfl rfl)
    · exact of_reset s rfl rfl rfl
  case pinResetRelease straps =>
    split
    · exact refl s
    · split <;> exact of_sameWindows (.of_same rfl rfl rfl)
  case supplyFailure => exact of_sameWindows (.of_same rfl rfl rfl)

/-- A step keeps the laws of windows and of values: it carries out the front command on the state with the queue's rest, or idles. -/
theorem step_keepsTableLaws (s t : State) (h : step s = .next t) : s.KeepsTableLaws t := by
  unfold step at h
  split at h
  · obtain rfl := Host.Outcome.next.inj h
    exact .refl s
  next c rest _ =>
    exact .of_sameTable (t := { s with pending := rest }) ⟨rfl, rfl, rfl⟩ (exec_keepsTableLaws c _ t h)

/-- Two records whose windows share a position are one (R54, R55). -/
theorem eq_of_windows_meet {s : State} {p : Position} {a b : MarkRecord} (ht : s.TableLaw) (hw : s.WindowLaw) (ha : a ∈ s.table)
    (hb : b ∈ s.table) (inA : a.nominal.toInt - a.fields.half ≤ p.toInt ∧ p.toInt ≤ a.nominal.toInt + a.fields.half)
    (inB : b.nominal.toInt - b.fields.half ≤ p.toInt ∧ p.toInt ≤ b.nominal.toInt + b.fields.half) : a = b := by
  by_contra hne
  have apart := hw.disjoint a ha b hb fun hm => hne (ht.eq_of_mark ha hb hm)
  rw [← Bool.not_eq_true, overlaps_iff] at apart
  have reachA := a.half_le_reach
  have reachB := b.half_le_reach
  omega

/-- Settles O55: the first and the third law step by step, the second from the first and the unique mark numbers. -/
theorem windowLawIsKept : Obligations.WindowLawIsKept :=
  ⟨fun s t ht hw h => (step_keepsTableLaws s t h).windows ht hw,
    fun _ _ _ _ ht hw ha hb inA inB => eq_of_windows_meet ht hw ha hb inA inB,
    fun s t ht hr h => (step_keepsTableLaws s t h).ranges ht hr⟩

end Sys2Proof.Machine
end

