-- ==== Sys2Proof/Proofs/AxisRequests.lean ====
section
/-! SUPPORT. The requests of the fringe channels that answer at once: TRACK AXIS, RESTART AXIS, ZERO AXIS and SET MATCH, and the
machine right after reset. -/

namespace Sys2Proof.Machine

/-! ### The machine right after reset -/

theorem State.reset_channel (k : ChannelIx) : State.reset.channel k = {} := by simp [State.channel, State.reset]

/-- Settles O59: every block at its reset value, with no record, no operation and no pass. -/
theorem resetSatisfiesLaws : Obligations.ResetSatisfiesLaws := by
  have noOp : ∀ op, State.reset.tableOp ≠ some op := by simp [State.reset]
  have noRecord : ∀ r, r ∉ State.reset.table := by simp [State.reset]
  have noPeriod : ∀ p, State.reset.period ≠ some p := by simp [State.reset]
  refine ⟨fun k => ?_, State.reset.withinCeilings_iff.mpr ⟨fun k => ?_, fun k => ?_, Counters.within_zero⟩, ?_, ?_, ?_, ?_, ?_, ?_, ?_,
    ?_, ?_, ?_, ?_⟩
  case refine_1 | refine_2 | refine_3 => simp [State.reset_channel]
  case refine_4 => exact ⟨by decide, by decide, by decide⟩
  case refine_5 => exact ⟨by decide, by decide⟩
  case refine_6 => exact ⟨nofun, nofun, fun m h => absurd h (noOp _)⟩
  case refine_7 =>
    exact ⟨by decide, by simp [State.reset], fun _ => rfl, nofun, fun h => absurd h (noOp _), fun h => absurd h (noOp _), nofun,
      nofun, nofun⟩
  case refine_8 =>
    exact ⟨by decide, by decide, fun r h => absurd h (noRecord r), .nil, fun r h => absurd h (noOp _)⟩
  case refine_9 => exact ⟨Apart.nil, fun r h => absurd h (noOp _), fun m a h => absurd h (noOp _)⟩
  case refine_10 => exact ⟨fun k => by simp [State.slot, State.reset], fun m h => absurd h (noOp _)⟩
  case refine_11 =>
    exact ⟨fun g => by simp [State.group, State.reset, groupCounts], fun r h => absurd h (noRecord r), fun r h => absurd h (noOp _)⟩
  case refine_12 =>
    exact ⟨fun _ r h => absurd h (noRecord r), fun r h => absurd h (noRecord r), fun m h => absurd h (noOp _),
      fun h => absurd h (noOp _), fun m h => absurd h (noOp _), fun r h => absurd h (noOp _)⟩
  case refine_13 => exact ⟨fun p h => absurd h (noPeriod p), fun p h => absurd h (noPeriod p), fun _ => rfl⟩
  case refine_14 =>
    exact ⟨by decide, fun r h => absurd h (noRecord r), fun r h => absurd h (noRecord r), fun r h => absurd h (noOp _),
      fun m a h => absurd h (noOp _), fun m h => absurd h (noOp _)⟩

/-! ### Requests that are answered -/

@[simp] theorem State.responding_channel (s : State) (response : ResponseBuffer) (k : ChannelIx) :
    (s.responding response).channel k = s.channel k := rfl

theorem byteField_head (b : Byte) (rest : List Byte) : byteField (b :: rest) 0 = b.toNat := byteField_at _ 0 b rfl

/-! ### TRACK AXIS and RESTART AXIS (R7, R10) -/

section
variable {s : State} (h : s.receives)
include h

theorem exec_trackAxis (channel : Byte) :
    exec (.trackAxis [channel]) s = .next ((s.responding .empty).trackRequest channel.toNat) := by
  simp only [exec, execTrackAxis, h.request_eq (len := 1) (params := [channel]) rfl, byteField_head]

theorem exec_restartAxis (channel : Byte) :
    exec (.restartAxis [channel]) s = .next ((s.responding .empty).restartRequest channel.toNat) := by
  simp only [exec, execRestartAxis, h.request_eq (len := 1) (params := [channel]) rfl, byteField_head]

theorem exec_zeroAxis (channel : Byte) (value : Position) :
    exec (.zeroAxis (channel :: sixBytes value)) s = .next ((s.responding .empty).zeroRequest channel.toNat value) := by
  have hv : positionField (channel :: sixBytes value) 1 = value := by
    have six : ((channel :: sixBytes value).drop 1).take 6 = sixBytes value := rfl
    rw [positionField, field, six, beNat_six, BitVec.ofNat_toNat, BitVec.setWidth_eq]
  simp only [exec, execZeroAxis, h.request_eq (len := 7) (params := channel :: sixBytes value) rfl, byteField_head, hv]

end

theorem State.trackRequest_of_channel (s : State) (k : ChannelIx) :
    s.trackRequest k.val =
      if (s.channel k).mode = .manual ∧ (s.channel k).state = .acquiring ∧ (s.channel k).qualified = true then
        (s.putChannel k (s.channel k).enterTracking).answer .done []
      else s.reject .state := by
  simp only [State.trackRequest, channelOf_val]
  by_cases hm : (s.channel k).mode = .manual <;> by_cases hs : (s.channel k).state = .acquiring <;>
    cases hq : (s.channel k).qualified <;> simp [hm, hs]

theorem State.restartRequest_of_channel (s : State) (k : ChannelIx) :
    s.restartRequest k.val =
      if (s.channel k).state = .lost then (s.putChannel k (s.channel k).enterAcquiring).answer .done [] else s.reject .state := by
  simp only [State.restartRequest, channelOf_val, ite_not]

/-- Settles O13: the checks decide between the refusals and the change of the channel, whose only report is the lock change of an
entry to TRACKING. -/
theorem trackAndRestartMoveChannel : Obligations.TrackAndRestartMoveChannel := by
  refine ⟨fun s channel h => ⟨fun hc => ?_, fun k hk => ⟨fun hn => ?_, fun hy => ?_⟩⟩,
    fun s channel h => ⟨fun hc => ?_, fun k hk => ⟨fun hn => ?_, fun hy => ?_⟩⟩⟩
  · rw [exec_trackAxis h, State.trackRequest, channelOf_ge _ hc]
    rfl
  · rw [exec_trackAxis h, hk, State.trackRequest_of_channel, State.responding_channel, if_neg hn]
    rfl
  · rw [exec_trackAxis h, hk, State.trackRequest_of_channel, State.responding_channel, if_pos hy]
    have report : ∀ e : EventUnit, e.transition k (s.channel k).state .tracking = e.raise .lockChange := by
      intro e
      simp [hy.2.1, EventUnit.transition, ChannelState.down]
    simp only [State.putChannel, State.responding_channel, Channel.enterTracking, report]
    rfl
  · rw [exec_restartAxis h, State.restartRequest, channelOf_ge _ hc]
    rfl
  · rw [exec_restartAxis h, hk, State.restartRequest_of_channel, State.responding_channel, if_neg hn]
    rfl
  · rw [exec_restartAxis h, hk, State.restartRequest_of_channel, State.responding_channel, if_pos hy]
    have report : ∀ e : EventUnit, e.transition k (s.channel k).state .acquiring = e := by
      intro e
      simp [hy, EventUnit.transition, ChannelState.down]
    simp only [State.putChannel, State.responding_channel, Channel.enterAcquiring, report]
    rfl

/-! ### ZERO AXIS (R13) -/

theorem State.zeroRequest_of_channel (s : State) (k : ChannelIx) (value : Position) :
    s.zeroRequest k.val value =
      if k = s.config.axis ∧ s.pass.state ≠ .idle then s.reject .state
      else if (s.channel k).state = .tracking then (s.putChannel k ((s.channel k).zeroAt value)).answer .done []
      else s.reject .notTracking := by
  simp only [State.zeroRequest, channelOf_val, ite_not]

theorem Channel.zeroAt_position (c : Channel) (value : Position) : (c.zeroAt value).raw + (c.zeroAt value).offset = value := by
  simp only [Channel.zeroAt]
  rw [BitVec.add_comm, BitVec.sub_add_cancel]

/-- Settles O14: the checks in their order, and past them the offset that makes the position the value. -/
theorem zeroAxisReferences : Obligations.ZeroAxisReferences := by
  refine fun s channel value h => ⟨fun hc => ?_, fun k hk => ⟨fun hb => ?_, fun hf hn => ?_, fun hf ht => ?_⟩⟩
  · rw [exec_zeroAxis h, State.zeroRequest, channelOf_ge _ hc]
    rfl
  all_goals rw [exec_zeroAxis h, hk, State.zeroRequest_of_channel]
  · exact congrArg _ (if_pos hb)
  · exact congrArg _ ((if_neg hf).trans (if_neg hn))
  · refine ⟨(s.channel k).zeroAt value, rfl, (s.channel k).zeroAt_position value, ?_⟩
    have report : ∀ e : EventUnit, e.transition k (s.channel k).state ((s.channel k).zeroAt value).state = e :=
      fun e => e.transition_same k _
    refine congrArg _ ((if_neg hf).trans ((if_pos ht).trans ?_))
    simp only [State.putChannel, State.responding_channel, report]
    rfl

/-! ### SET MATCH (R22) -/

/-- The pair that two bytes name. -/
theorem pairOf_some {p q : Byte} {pair : Option (ChannelIx × ChannelIx)}
    (h : match pair with
      | none => p = 0xFF ∧ q = 0xFF
      | some (x, y) => p.toNat = x.val ∧ q.toNat = y.val ∧ x ≠ y) : pairOf p.toNat q.toNat = some pair := by
  obtain _ | ⟨x, y⟩ := pair
  · obtain ⟨rfl, rfl⟩ := h
    rfl
  · obtain ⟨hp, hq, hne⟩ := h
    have low : ¬(x.val = 0xFF ∧ y.val = 0xFF) := by omega
    simp only [pairOf, hp, hq, if_neg low, channelOf_val, if_neg hne]

theorem pairOf_none {p q : Byte} (h : ¬(p = 0xFF ∧ q = 0xFF ∨ p.toNat < 6 ∧ q.toNat < 6 ∧ p ≠ q)) :
    pairOf p.toNat q.toNat = none := by
  have high : ∀ b : Byte, b.toNat = 0xFF → b = 0xFF := fun b hb => BitVec.eq_of_toNat_eq hb
  unfold pairOf
  rw [if_neg fun hh => h (.inl ⟨high p hh.1, high q hh.2⟩)]
  unfold channelOf
  by_cases hp : p.toNat < 6 <;> by_cases hq : q.toNat < 6 <;> simp only [hp, hq, dif_pos, dif_neg, not_false_iff]
  rw [if_pos]
  by_contra hne
  exact h (.inr ⟨hp, hq, fun e => hne (by simp [e])⟩)

section
variable {s : State} (h : s.receives)
include h

theorem exec_setMatch (axis p q shift : Byte) :
    exec (.setMatch [axis, p, q, shift]) s
      = .next ((s.responding .empty).setMatchRequest ⟨axis.toNat, p.toNat, q.toNat, shift.toNat⟩) := by
  simp only [exec, execSetMatch, h.request_eq (len := 4) (params := [axis, p, q, shift]) rfl, setMatchFields,
    byteField_at [axis, p, q, shift] 0 axis rfl, byteField_at [axis, p, q, shift] 1 p rfl,
    byteField_at [axis, p, q, shift] 2 q rfl, byteField_at [axis, p, q, shift] 3 shift rfl]

end

theorem SetMatchFields.config_none {axis p q shift : Byte}
    (h : ¬(axis.toNat < 6 ∧ 6 ≤ shift.toNat ∧ shift.toNat ≤ 20
      ∧ (p = 0xFF ∧ q = 0xFF ∨ p.toNat < 6 ∧ q.toNat < 6 ∧ p ≠ q))) :
    SetMatchFields.config ⟨axis.toNat, p.toNat, q.toNat, shift.toNat⟩ = none := by
  unfold SetMatchFields.config
  by_cases ha : axis.toNat < 6
  · by_cases hpq : p = 0xFF ∧ q = 0xFF ∨ p.toNat < 6 ∧ q.toNat < 6 ∧ p ≠ q
    · split
      · rw [if_neg fun hs => h ⟨ha, hs.1, hs.2, hpq⟩]
      · rfl
    · simp [pairOf_none hpq]
  · simp [channelOf_ge _ (Nat.le_of_not_lt ha)]

theorem SetMatchFields.config_some {axis : ChannelIx} {p q : Byte} {pair : Option (ChannelIx × ChannelIx)} {shift : Nat}
    (hp : pairOf p.toNat q.toNat = some pair) (hl : 6 ≤ shift) (hh : shift ≤ 20) :
    SetMatchFields.config ⟨axis.val, p.toNat, q.toNat, shift⟩ = some ⟨axis, pair, shift⟩ := by
  simp only [SetMatchFields.config, channelOf_val, hp, if_pos (show 6 ≤ shift ∧ shift ≤ 20 from ⟨hl, hh⟩)]

theorem State.tableFree_iff (s : State) : s.tableFree = true ↔ s.tableOp = none ∧ s.sweepClaim = none ∧ s.queue = [] := by
  simp [State.tableFree, and_assoc]

theorem State.setMatchRequest_out_of_range (s : State) {f : SetMatchFields} (h : f.config = none) :
    s.setMatchRequest f = s.reject .range := by
  simp only [State.setMatchRequest, h]

/-- What a SET MATCH in range comes to, check by check. -/
theorem State.setMatchRequest_in_range (s : State) {f : SetMatchFields} {m : MatchConfig} (h : f.config = some m) :
    s.setMatchRequest f =
      if (m.axis ≠ s.config.axis ∨ m.pair ≠ s.config.pair) ∧ s.pass.state ≠ .idle then s.reject .state
      else if m.shift = s.config.shift then { s with config := m }.answer .done []
      else if ¬(s.tableOp = none ∧ s.sweepClaim = none ∧ s.queue = []) then s.reject .busy
      else if s.table ≠ [] then s.startHostOp (.refuse .state)
      else s.startHostOp (.setMatch m) := by
  simp only [State.setMatchRequest, h, ← s.tableFree_iff, Bool.not_eq_true']
  simp only [Bool.not_eq_true]

/-- Settles O16: the checks in their order, each with the branch that it decides. -/
theorem setMatchStoresOrStarts : Obligations.SetMatchStoresOrStarts := by
  refine ⟨fun s axis p q shift h hr => ?_, fun s axis p q shift pair h hl hh hp => ?_⟩
  · rw [exec_setMatch h, State.setMatchRequest_out_of_range _ (SetMatchFields.config_none hr)]
    rfl
  · have small : (BitVec.ofNat 8 axis.val).toNat = axis.val := by
      rw [BitVec.toNat_ofNat]; omega
    have run : exec (.setMatch [BitVec.ofNat 8 axis.val, p, q, shift]) s = _ := exec_setMatch h _ p q shift
    rw [small, State.setMatchRequest_in_range _ (SetMatchFields.config_some (pairOf_some hp) hl hh)] at run
    refine ⟨fun moves => run.trans (congrArg _ ?_), fun stays same => run.trans (congrArg _ ?_),
      fun stays new busy => run.trans (congrArg _ ?_), fun stays new free full => run.trans (congrArg _ ?_),
      fun stays new free empty => run.trans (congrArg _ ?_)⟩
    · exact if_pos moves
    · exact (if_neg stays).trans (if_pos same)
    · exact (if_neg stays).trans ((if_neg new).trans (if_pos busy))
    · exact (if_neg stays).trans ((if_neg new).trans ((if_neg (not_not.mpr free)).trans (if_pos full)))
    · exact (if_neg stays).trans ((if_neg new).trans ((if_neg (not_not.mpr free)).trans (if_neg (not_not.mpr empty))))

end Sys2Proof.Machine
end

