-- ==== Sys2Proof/Proofs/SampleEvents.lean ====
section
/-! SUPPORT. What a sample event makes of its channel, state by state (R2, R5, R6, R8, R9, R11), what the change of a channel's state
reports (R14, R151), and the abort of a live pass at the end of an event (R59, R101, R103). -/

namespace Sys2Proof.Machine

/-! ### The channel -/

theorem Channel.integrate_sensed (c : Channel) (increment : Int) :
    c.integrate (c.sensed increment)
      = { c with raw := c.raw + BitVec.ofInt 48 (if c.sense = .inverted then -increment else increment) } := by
  rw [Channel.integrate, c.sensed_eq]

/-- A sample event in TRACKING that passes both tests (R2, R8). -/
theorem Channel.sample_tracking {c : Channel} {increment : Int} {amplitude : Nat} (h : c.state = .tracking)
    (hl : c.loseLevel ≤ amplitude) (hr : increment.natAbs ≤ c.rateLimit) :
    (c.sample increment amplitude).1
      = { c with raw := c.raw + BitVec.ofInt 48 (if c.sense = .inverted then -increment else increment) } := by
  rw [← c.integrate_sensed]
  simp only [Channel.sample, h, c.natAbs_sensed, if_neg (Nat.not_lt.mpr hl), if_neg (Nat.not_lt.mpr hr)]

/-- A sample event in TRACKING that fails a test, the lose level before the rate limit (R8, R11). -/
theorem Channel.sample_loses {c : Channel} {increment : Int} {amplitude : Nat} (h : c.state = .tracking)
    (hf : amplitude < c.loseLevel ∨ c.rateLimit < increment.natAbs) :
    (c.sample increment amplitude).1 = c.enterLost (if amplitude < c.loseLevel then .fade else .overspeed) := by
  simp only [Channel.sample, h, c.natAbs_sensed]
  by_cases hl : amplitude < c.loseLevel
  · simp only [if_pos hl]
  · simp only [if_neg hl, if_pos (hf.resolve_left hl)]

/-- A sample event in ACQUIRING: integrated either way, and judged good or failing (R5, R6). -/
theorem Channel.sample_acquiring {c : Channel} {increment : Int} {amplitude : Nat} (h : c.state = .acquiring) :
    (c.sample increment amplitude).1 =
      let raw := c.raw + BitVec.ofInt 48 (if c.sense = .inverted then -increment else increment)
      let n := min 4096 (c.qualCount + 1)
      if c.acquireLevel ≤ amplitude ∧ increment.natAbs ≤ c.rateLimit then
        if c.qualified = true ∨ c.qualifyCount ≤ n then
          if c.mode = .auto then { c with raw := raw, qualCount := n, qualified := false, state := .tracking }
          else { c with raw := raw, qualCount := n, qualified := true }
        else { c with raw := raw, qualCount := n, qualified := false }
      else { c with raw := raw, qualCount := 0, qualified := false } := by
  simp only [Channel.sample, h, Channel.qualify, c.integrate_sensed, Channel.good, c.natAbs_sensed, saturate,
    Config.qualificationCeiling, Bool.and_eq_true, Bool.or_eq_true, decide_eq_true_eq]
  by_cases good : c.acquireLevel ≤ amplitude ∧ increment.natAbs ≤ c.rateLimit
  · by_cases qualifies : c.qualified = true ∨ c.qualifyCount ≤ min 4096 (c.qualCount + 1)
    · have flag : (c.qualified || decide (c.qualifyCount ≤ min 4096 (c.qualCount + 1))) = true := by simpa using qualifies
      simp only [if_pos good, qualifies, flag, true_and, if_true]
    · have flag : (c.qualified || decide (c.qualifyCount ≤ min 4096 (c.qualCount + 1))) = false := by
        simpa [not_or] using qualifies
      simp only [if_pos good, qualifies, flag, false_and, if_false]
  · simp only [if_neg good]

/-- A sample event in LOST: discarded below the lose level, and integrated at or above it, in AUTO mode at the acquire level followed
by the entry to ACQUIRING (R9). -/
theorem Channel.sample_lost {c : Channel} {increment : Int} {amplitude : Nat} (h : c.state = .lost) :
    (c.sample increment amplitude).1 =
      let raw := c.raw + BitVec.ofInt 48 (if c.sense = .inverted then -increment else increment)
      if amplitude < c.loseLevel then c
      else if c.mode = .auto ∧ c.acquireLevel ≤ amplitude then
        { c with raw := raw, state := .acquiring, qualCount := 0, qualified := false }
      else { c with raw := raw } := by
  simp only [Channel.sample, h, c.integrate_sensed, Channel.enterAcquiring]
  split
  · rfl
  · split <;> rfl

/-! ### Reports -/

/-- A change of state reports a lock change where it enters or leaves TRACKING, and that the channel is down where it becomes so. -/
theorem EventUnit.has_transition (e : EventUnit) (k : ChannelIx) (a b : ChannelState) (f : EventFlag) :
    (e.transition k a b).has f = (e.has f
      || decide (.lockChange = f) && (decide (a = .tracking) != decide (b = .tracking))
      || decide (.axisDown = f) && (!a.down && b.down)) := by
  have onset : ∀ e : EventUnit, (e.downOnset k).has f = (e.has f || decide (.axisDown = f)) := fun e => by
    rw [EventUnit.downOnset, EventUnit.has_raise]
    rfl
  unfold EventUnit.transition
  cases (decide (a = .tracking) != decide (b = .tracking)) <;> cases (!a.down && b.down) <;> simp [onset, EventUnit.has_raise]

theorem EventUnit.axisMask_transition (e : EventUnit) (k : ChannelIx) (a b : ChannelState) :
    (e.transition k a b).axisMask = if !a.down && b.down then e.axisMask ||| (1#6 <<< k.val) else e.axisMask := by
  unfold EventUnit.transition
  simp only
  split <;> split <;> rfl

theorem getLsbD_axisBit (k j : ChannelIx) : (1#6 <<< k.val).getLsbD j.val = decide (j = k) := by
  have : ∀ k j : Fin 6, (1#6 <<< k.val).getLsbD j.val = decide (j = k) := by decide
  exact this k j

/-! ### The abort of a live pass within an event -/

/-- The pass of `u` has been aborted by `cause`, and the arbiter has picked: a free table unit has taken up the abort sweep (R59,
R101, R103). -/
structure State.AbortsTo (cause : AbortCause) (u t : State) : Prop where
  pass : t.pass = { u.pass with state := .aborting, outcome := some (.aborted cause) }
  timer : t.passTimer = false
  queue : t.queue = []
  free : u.tableOp = none → t.tableOp = some .abortSweep ∧ t.sweepClaim = none
  busy : u.tableOp ≠ none → t.tableOp = u.tableOp ∧ t.sweepClaim = some .abort

theorem State.AbortsTo.of_same {cause : AbortCause} {s u t : State} (h : State.AbortsTo cause u t) (pass : u.pass = s.pass)
    (op : u.tableOp = s.tableOp) : State.AbortsTo cause s t :=
  ⟨pass ▸ h.pass, h.timer, h.queue, op ▸ h.free, op ▸ h.busy⟩

/-- A sighting formed while no pass is live never reaches the queue (R38). -/
theorem State.formLine_queue (s : State) (i : LineId) (h : s.pass.state.live = false) : (s.formLine i).queue = s.queue := by
  unfold State.formLine
  split
  · rfl
  · split
    · rfl
    · simp
    · simp [State.tagSighting, h]

theorem PassState.live_iff (x : PassState) : x.live = true ↔ x = .arming ∨ x = .running := by
  cases x <;> simp [PassState.live]

/-- Wherever the command places the abort among the formations, the event ends with the pass aborted. -/
theorem State.settleEvent_aborts {u : State} {cause : AbortCause} (first : MeetOrder) {ends : State → State}
    (live : u.pass.state.live = true) (aborts : ∀ v : State, v.config = u.config → ends v = v.abortLivePass cause) :
    State.AbortsTo cause u (u.settleEvent first ends) := by
  have after : ∀ v w : State, v.pass = u.pass → v.tableOp = u.tableOp → w.pass = (v.abortLivePass cause).pass →
      w.passTimer = false → w.queue = [] → w.tableOp = v.tableOp → w.sweepClaim = some .abort →
      State.AbortsTo cause u w.arbitrate := by
    intro v w hp ho hwp hwt hwq hwo hwc
    have hpass : w.pass = { u.pass with state := .aborting, outcome := some (.aborted cause) } := by
      rw [hwp, v.abortLivePass_live cause (hp ▸ live), hp]
    refine ⟨by simpa using hpass, by simpa using hwt, ?_, fun hn => ?_, fun hn => ?_⟩
    · obtain e | ⟨-, -, e⟩ | ⟨-, hc, -⟩ | ⟨-, hc, -⟩ := w.arbitrate_cases
      · rw [e, hwq]
      · rw [e]; exact hwq
      · exact absurd hwc hc
      · cases hwc.symm.trans hc
    · rw [w.arbitrate_abort (hwo.trans (ho.trans hn)) hwc]
      exact ⟨rfl, rfl⟩
    · obtain ⟨op, hop⟩ := Option.ne_none_iff_exists'.mp hn
      rw [w.arbitrate_busy (hwo.trans (ho.trans hop))]
      exact ⟨hwo.trans ho, hwc⟩
  have aborted : ∀ v : State, v.pass = u.pass →
      (v.abortLivePass cause).passTimer = false ∧ (v.abortLivePass cause).queue = []
        ∧ (v.abortLivePass cause).sweepClaim = some .abort ∧ (v.abortLivePass cause).pass.state.live = false := by
    intro v hp
    rw [v.abortLivePass_live cause (hp ▸ live)]
    exact ⟨rfl, rfl, rfl, rfl⟩
  cases first
  case formationFirst =>
    obtain ⟨ht, hq, hc, -⟩ := aborted u.formSightings (by simp)
    rw [State.settleEvent, aborts _ (by simp)]
    exact after u.formSightings _ (by simp) (by simp) rfl ht hq (by simp) hc
  case passFirst =>
    obtain ⟨ht, hq, hc, hl⟩ := aborted u rfl
    rw [State.settleEvent, aborts _ rfl]
    refine after u _ rfl rfl (by simp) (by simpa using ht) ?_ (by simp) (by simpa using hc)
    rw [State.formSightings, State.formLine_queue _ _ (by simpa using hl), State.formLine_queue _ _ hl, hq]
  case passBetween =>
    obtain ⟨ht, hq, hc, hl⟩ := aborted (u.formLine u.earlierClosing) (by simp)
    rw [State.settleEvent, aborts _ (by simp)]
    refine after (u.formLine u.earlierClosing) _ (by simp) (by simp) (by simp) (by simpa using ht) ?_ (by simp) (by simpa using hc)
    rw [State.formLine_queue _ _ hl, hq]

/-! ### The obligations of the sample events -/

/-- Settles O6: neither test fails, so the increment is integrated, and nothing changes state. -/
theorem trackingSampleIntegrates : Obligations.TrackingSampleIntegrates := by
  intro s k increment amplitude first ho hm ht hl hr
  obtain ⟨-, channels, -, monitor, config, table, occupancy, groups, protection, link, -, -, events⟩ :=
    s.sampleChannel_frame k increment amplitude.val first
  rw [Channel.sample_tracking ht hl hr] at channels events
  rw [show s.events.transition k (s.channel k).state _ = s.events from EventUnit.transition_same _ _ _] at events
  exact ⟨_, exec_sampleEvent s k increment amplitude first ho hm (by simp [ht]), channels, monitor, config, table, occupancy, groups,
    protection, link, events.flags, events.enables, events.groupMask, events.axisMask⟩

/-- A sample event of the measuring axis that loses the lock of a live pass (R103, R105). -/
theorem State.sampleChannel_aborts {s : State} {increment : Int} {amplitude : Nat} (first : MeetOrder)
    (ht : s.measuringAxis.state = .tracking) (live : s.pass.state.live = true)
    (hf : amplitude < s.measuringAxis.loseLevel ∨ s.measuringAxis.rateLimit < increment.natAbs) :
    State.AbortsTo .axis s (s.sampleChannel s.config.axis increment amplitude first) := by
  have axis : (s.channel s.config.axis).state = .tracking := ht
  have lost : ((s.channel s.config.axis).sample increment amplitude).1.state = .lost := by
    rw [Channel.sample_loses axis hf]
    rfl
  have left : decide ((s.channel s.config.axis).state = .tracking
      ∧ ((s.channel s.config.axis).sample increment amplitude).1.state ≠ .tracking) = true := by
    simp [lost, axis]
  obtain ⟨u, tells, -, -, e⟩ := s.sampleChannel_eq s.config.axis increment amplitude first
  have same : u.config = s.config ∧ u.pass = s.pass ∧ u.tableOp = s.tableOp := by
    rw [tells.rest]
    exact ⟨rfl, rfl, rfl⟩
  obtain ⟨hconfig, hpass, hop⟩ := same
  rw [e]
  refine (State.settleEvent_aborts first (hpass ▸ live) fun v hv => ?_).of_same hpass hop
  rw [State.passSees, if_pos (by rw [hv, hconfig]), if_pos left]

/-- Settles O8: the channel enters LOST with its reports, and a live pass of the measuring axis is aborted. -/
theorem trackingSampleLosesLock : Obligations.TrackingSampleLosesLock := by
  refine ⟨fun s k increment amplitude first ho hm ht hf => ?_, fun s increment amplitude first ho hm ht live hf => ?_⟩
  · obtain ⟨-, channels, -, -, config, table, -, -, -, link, -, -, events⟩ :=
      s.sampleChannel_frame k increment amplitude.val first
    rw [Channel.sample_loses ht hf] at channels events
    refine ⟨_, exec_sampleEvent s k increment amplitude first ho hm (by simp [ht]), channels, ?_, ?_, ?_, table, config, link⟩
    · rw [events.flags _ (by decide), EventUnit.has_transition]
      simp [ht, Channel.enterLost]
    · rw [events.flags _ (by decide), EventUnit.has_transition]
      simp [ht, Channel.enterLost, ChannelState.down]
    · rw [events.axisMask, EventUnit.axisMask_transition]
      simp [ht, Channel.enterLost, ChannelState.down]
  · obtain ⟨pass, timer, queue, free, busy⟩ := State.sampleChannel_aborts first ht live hf
    have on : (s.channel s.config.axis).state ≠ .off := fun h => by
      rw [show (s.channel s.config.axis).state = .tracking from ht] at h
      cases h
    exact ⟨_, exec_sampleEvent s s.config.axis increment amplitude first ho hm on, pass, timer, queue, free, busy⟩

theorem State.passSees_number (s : State) (k : ChannelIx) (left : Bool) (p : Position) :
    (s.passSees k left p).pass.number = s.pass.number := by
  have aborts : ∀ cause, (s.abortLivePass cause).pass.number = s.pass.number := by
    intro cause
    unfold State.abortLivePass
    split <;> rfl
  have closes : s.closeLivePass.pass.number = s.pass.number := by
    unfold State.closeLivePass
    split <;> rfl
  have crosses : (s.testCrossing p).pass.number = s.pass.number := by
    unfold State.testCrossing
    split
    next => rfl
    next =>
      split
      next =>
        split
        next => exact closes
        next => exact aborts _
      next => rfl
  unfold State.passSees
  split
  next =>
    split
    next => exact aborts _
    next => exact crosses
  next => rfl

theorem State.sampleChannel_number (s : State) (k : ChannelIx) (increment : Int) (amplitude : Nat) (first : MeetOrder) :
    (s.sampleChannel k increment amplitude first).pass.number = s.pass.number := by
  unfold State.sampleChannel
  cases first <;> simp [State.settleEvent, State.passSees_number, State.enterPeriod]

theorem State.set_channel_self (s : State) (k : ChannelIx) : s.channels.set k (s.channel k) = s.channels :=
  congrArg State.channels (s.putChannel_self k)

/-- Settles O10: the channel by its state, mode and the tests of the sample event. -/
theorem untrackedSampleRequalifies : Obligations.UntrackedSampleRequalifies := by
  refine ⟨fun s k increment amplitude first ho hm hs => ?_, fun s k increment amplitude first ho hm hs => ?_⟩
  all_goals
    obtain ⟨-, channels, -, -, config, table, -, -, -, link, -, -, events⟩ :=
      s.sampleChannel_frame k increment amplitude.val first
    refine ⟨_, exec_sampleEvent s k increment amplitude first ho hm (by simp [hs]), ?_⟩
  · rw [Channel.sample_acquiring hs] at channels events
    refine ⟨fun bad => ?_, fun good unready => ?_, fun good ready manual => ?_, fun good ready auto => ⟨?_, ?_⟩, table, config, link,
      s.sampleChannel_number _ _ _ _⟩
    · rw [channels]; simp only [if_neg bad]
    · rw [channels]; simp only [if_pos good, if_neg unready]
    · have mode : (s.channel k).mode ≠ .auto := by simp [manual]
      rw [channels]; simp only [if_pos good, if_pos ready, if_neg mode]
    · rw [channels]; simp only [if_pos good, if_pos ready, if_pos auto]
    · rw [events.flags _ (by decide), EventUnit.has_transition]
      simp only [if_pos good, if_pos ready, if_pos auto]
      simp [hs]
  · rw [Channel.sample_lost hs] at channels
    refine ⟨fun low => ?_, fun high auto acquires => ?_, fun high stays => ?_, table, config, link⟩
    · rw [channels]; simp only [if_pos low]; exact s.set_channel_self k
    · rw [channels]; simp only [if_neg (Nat.not_lt.mpr high), if_pos (And.intro auto acquires)]
    · have leaves : ¬((s.channel k).mode = .auto ∧ (s.channel k).acquireLevel ≤ amplitude.val) := by
        rintro ⟨auto, acquires⟩
        obtain manual | low := stays
        · simp [auto] at manual
        · omega
      rw [channels]; simp only [if_neg (Nat.not_lt.mpr high), if_neg leaves]

end Sys2Proof.Machine
end

