-- ==== Sys2Proof/Proofs/Reports.lean ====
section
/-! SUPPORT. The reports that change nothing, byte by byte (Tables 12-5 to 12-7), and the boundary that READ AXES reports (R19). -/

namespace Sys2Proof.Machine

/-! ### Bytes -/

theorem ofNat_flags (a b : Bool) :
    BitVec.ofNat 8 (flagByte a 1 + flagByte b 2) = (if a then 1 else 0) + (if b then 2 else 0) := by
  cases a <;> cases b <;> rfl

theorem pairBytes_some (p q : ChannelIx) : pairBytes (some (p, q)) = [BitVec.ofNat 8 p.val, BitVec.ofNat 8 q.val] := by
  simp [pairBytes, oneByte_eq]

theorem pairBytes_none : pairBytes none = [0xFF, 0xFF] := rfl

theorem beBytes_two_word {n : Nat} (w : BitVec n) : beBytes 2 w.toNat = twoBytes (w.zeroExtend 16) := by
  rw [beBytes_two]
  congr 1
  apply BitVec.eq_of_toNat_eq
  simp

theorem oneByte_word {n : Nat} (w : BitVec n) : oneByte w.toNat = [w.zeroExtend 8] := by
  rw [oneByte_eq]
  congr 1
  apply BitVec.eq_of_toNat_eq
  simp

/-! ### The reports -/

theorem Channel.report_eq (c : Channel) :
    c.report = [BitVec.ofNat 8 c.state.code, (if c.referenced then 1 else 0) + (if c.qualified then 2 else 0),
      BitVec.ofNat 8 c.lossReason.code, BitVec.ofNat 8 c.lossTally] ++ sixBytes (c.raw + c.offset) := by
  simp only [Channel.report, oneByte_eq, ofNat_flags, positionBytes_eq, Channel.position, List.cons_append, List.nil_append]

theorem State.axisReport_eq (s : State) :
    s.axisReport = s.boundaryChannels.toList.flatMap Channel.report
      ++ [if s.monitor = .present then 1 else 0, BitVec.ofNat 8 s.config.axis.val] ++ pairBytes s.config.pair
      ++ [BitVec.ofNat 8 s.config.shift] := by
  cases hm : s.monitor <;>
    simp [State.axisReport, hm, oneByte_eq]

/-- The weight of the polarity in the flags byte of an input. -/
def Polarity.weight : Polarity → Nat
  | .high => 0
  | .low => 2

/-- The bytes of an input's report before its line flags. -/
def LineInput.reportHead (l : LineInput) : List Byte :=
  oneByte (flagByte l.enable 1 + l.polarity.weight) ++ beBytes 4 l.offset.toNat ++ beBytes 4 l.span ++ oneByte l.phase.code

theorem LineInput.reportHead_eq (l : LineInput) :
    l.reportHead = [(if l.enable then 1 else 0) + (if l.polarity = .low then 2 else 0)] ++ fourBytes l.offset
      ++ fourBytes (BitVec.ofNat 32 l.span) ++ [BitVec.ofNat 8 l.phase.code] := by
  have flags : BitVec.ofNat 8 (flagByte l.enable 1 + l.polarity.weight)
      = (if l.enable then 1 else 0) + (if l.polarity = .low then 2 else 0) := by
    cases l.enable <;> cases l.polarity <;> rfl
  rw [LineInput.reportHead, oneByte_eq, oneByte_eq, flags, beBytes_four, beBytes_four_ofNat]

/-- The line flags: a closing line held, without and with the leading snapshot complete. -/
theorem LineInput.lineFlags_eq (l : LineInput) :
    BitVec.ofNat 8 (flagByte l.closing.isSome 2) = 0 + (if l.closing = none then 0 else 2)
      ∧ BitVec.ofNat 8 (1 + flagByte l.closing.isSome 2) = 1 + (if l.closing = none then 0 else 2) := by
  cases l.closing <;> simp [flagByte]

/-- An input in QUIET or DISCARDING reports no line. -/
theorem LineInput.report_idle {l : LineInput} (h : ∀ o, l.phase ≠ .inLine o) :
    l.report = l.reportHead ++ [0 + (if l.closing = none then 0 else 2)] ++ List.replicate 9 0 := by
  have spelled : l.report = padTo 20 (l.reportHead ++ oneByte (flagByte l.closing.isSome 2)) := by
    unfold LineInput.reportHead LineInput.report
    cases hp : l.phase
    case inLine o => exact absurd hp (h o)
    all_goals rfl
  rw [spelled, oneByte_eq, l.lineFlags_eq.1, padTo, l.reportHead_eq]
  rfl

/-- An input in IN_LINE reports the line, with the position of its leading snapshot as far as that has come back. -/
theorem LineInput.report_inLine {l : LineInput} {o : OpenLine} (h : l.phase = .inLine o) :
    l.report = l.reportHead ++ [(if o.leading.axis.value = none then 0 else 1) + (if l.closing = none then 0 else 2),
      BitVec.ofNat 8 o.axis.val] ++ pairBytes o.pair ++ sixBytes ((o.leading.axis.value.map Prod.fst).getD 0) := by
  have spelled : l.report = match o.leading.axis with
      | .waiting _ => l.reportHead ++ oneByte (flagByte l.closing.isSome 2) ++ (oneByte o.axis.val ++ pairBytes o.pair) ++ positionBytes 0
      | .completed p _ =>
        l.reportHead ++ oneByte (1 + flagByte l.closing.isSome 2) ++ (oneByte o.axis.val ++ pairBytes o.pair) ++ positionBytes p := by
    unfold LineInput.reportHead LineInput.report
    rw [h]
    rfl
  rw [spelled]
  cases o.leading.axis <;> simp [Snapshot.value, oneByte_eq, positionBytes_eq, l.lineFlags_eq]

/-- The datum mark as the pass record reports it. -/
def PassKind.markField : PassKind → Nat
  | .measure => 0xFFFF
  | .datum mark => mark

theorem twoBytes_absent : twoBytes 0xFFFF#16 = [0xFF#8, 0xFF#8] := by decide

/-- The bytes of what BEGIN PASS wrote into the pass record. -/
def termsBytes : Option PassTerms → List Byte
  | none => [0, 0] ++ sixBytes 0 ++ sixBytes 0 ++ [0, 0, 0xFF, 0xFF]
  | some t =>
    [BitVec.ofNat 8 t.kind.code, BitVec.ofNat 8 t.direction.code] ++ sixBytes t.startLimit ++ sixBytes t.endLimit
      ++ twoBytes (BitVec.ofNat 16 t.timeLimit) ++ twoBytes (BitVec.ofNat 16 t.kind.markField)

theorem PassRecord.image_eq (p : PassRecord) :
    p.image = twoBytes (BitVec.ofNat 16 p.number) ++ termsBytes p.terms
      ++ [BitVec.ofNat 8 p.state.code, BitVec.ofNat 8 (p.outcome.elim 0 PassOutcome.code)]
      ++ twoBytes (BitVec.ofNat 16 p.armed) ++ twoBytes (BitVec.ofNat 16 p.taken) ++ twoBytes (BitVec.ofNat 16 p.missed) := by
  obtain ⟨number, _ | t, state, _ | outcome, armed, taken, missed⟩ := p <;>
    simp [PassRecord.image, termsBytes, beBytes_two, oneByte_eq, positionBytes_eq] <;> rfl

theorem EventUnit.report_eq (e : EventUnit) :
    e.report = twoBytes (e.flags.zeroExtend 16) ++ twoBytes (e.enables.zeroExtend 16)
      ++ [e.groupMask, e.axisMask.zeroExtend 8]
      ++ twoBytes (BitVec.ofNat 16 e.counters.stray) ++ twoBytes (BitVec.ofNat 16 e.counters.unarmed)
      ++ twoBytes (BitVec.ofNat 16 e.counters.width) ++ twoBytes (BitVec.ofNat 16 e.counters.smear)
      ++ twoBytes (BitVec.ofNat 16 e.counters.unpassed) ++ twoBytes (BitVec.ofNat 16 e.counters.overrun)
      ++ [(if e.noticePending then 1 else 0) + (if e.noticeOn then 2 else 0), BitVec.ofNat 8 (linkFaultCode e.lastLinkFault)] := by
  have mask : e.groupMask.zeroExtend 8 = e.groupMask := BitVec.setWidth_eq _
  simp only [EventUnit.report, oneByte_word, mask]
  simp only [beBytes_two_word, oneByte_eq, ofNat_flags]
  simp only [beBytes_two, List.append_assoc, List.cons_append, List.nil_append]

/-! ### Requests without parameters -/

section
variable {s : State} (h : s.receives)
include h

theorem exec_readAxes : exec (.readAxes []) s = .next (s.answered s.axisReport) := by
  simp only [exec, execReadAxes, h.request_eq (len := 0) (params := []) rfl]
  rfl

theorem exec_readLines : exec (.readLines []) s = .next (s.answered s.lineReport) := by
  simp only [exec, execReadLines, h.request_eq (len := 0) (params := []) rfl]
  rfl

theorem exec_readPass : exec (.readPass []) s = .next (s.answered s.pass.image) := by
  simp only [exec, execReadPass, h.request_eq (len := 0) (params := []) rfl]
  rfl

theorem exec_readEvents (option : Byte) :
    exec (.readEvents [option]) s = .next ((s.responding .empty).readEventsRequest option.toNat) := by
  simp only [exec, execReadEvents, h.request_eq (len := 1) (params := [option]) rfl, byteField_head]

end

theorem State.readEventsRequest_other (s : State) {option : Nat} (h : 2 ≤ option) : s.readEventsRequest option = s.reject .range := by
  unfold State.readEventsRequest
  split
  · omega
  · omega
  · rfl

/-! ### The period of a sample event -/

/-- Whether a period that has just reached channel `k` still awaits a channel. -/
theorem State.awaits_after_reaching (s : State) (k : ChannelIx) (boundary : Vector Channel 6) (reached : Vector Bool 6) :
    (∃ j : ChannelIx, s.awaits ⟨boundary, reached.set k true⟩ j = true)
      ↔ ∃ j : ChannelIx, j ≠ k ∧ (s.channel j).state ≠ .off ∧ reached[j] = false := by
  refine exists_congr fun j => ?_
  rw [s.awaits_iff]
  by_cases hj : j = k
  · subst hj; simp
  · have : k.val ≠ j.val := fun e => hj (Fin.ext e.symm)
    simp [hj, this]

/-- A sample event within the period under way. -/
theorem State.enterPeriod_under_way (s : State) {k : ChannelIx} {p : ReferencePeriod} (h : s.period = some p) (hk : p.reached[k] = false) :
    (s.enterPeriod k).period =
      if ∃ j : ChannelIx, j ≠ k ∧ (s.channel j).state ≠ .off ∧ p.reached[j] = false then
        some ⟨p.boundary, p.reached.set k true⟩ else none := by
  rw [s.enterPeriod_period, s.periodReaching_under_way h hk]
  simp only [s.awaits_after_reaching]

/-- The first sample event of a period. -/
theorem State.enterPeriod_new (s : State) {k : ChannelIx} (h : ∀ p, s.period = some p → p.reached[k] = true) :
    (s.enterPeriod k).period =
      if ∃ j : ChannelIx, j ≠ k ∧ (s.channel j).state ≠ .off then
        some ⟨s.channels, (Vector.replicate 6 false).set k true⟩ else none := by
  rw [s.enterPeriod_period, s.periodReaching_new h]
  simp only [s.awaits_after_reaching]
  simp

/-- Settles O15: the reports spelled byte by byte, and the period that a sample event enters. -/
theorem reportsChangeNothing : Obligations.ReportsChangeNothing := by
  refine ⟨fun s h => ?_, fun s k increment amplitude first ho hm hs => ?_⟩
  · intro pair entry axes input terms pass counter events
    have pairs : ∀ x, pairBytes x = pair x := by
      intro x
      obtain _ | ⟨p, q⟩ := x
      · exact pairBytes_none
      · exact pairBytes_some p q
    have entries : Channel.report = entry := by
      funext c
      obtain ⟨state, _, _, _, _, _, reason, _⟩ := c
      rw [Channel.report_eq]
      cases state <;> cases reason <;> rfl
    have axisBytes : s.axisReport = axes := by
      rw [s.axisReport_eq, entries, pairs]
      rfl
    have inputs : ∀ l : LineInput, l.report = input l := by
      rintro ⟨enable, polarity, offset, span, phase, closing, level⟩
      obtain _ | ⟨_, _, _, axis, latched, ⟨n | ⟨p, st⟩, _⟩⟩ | o := phase
      case inLine.waiting =>
        rw [LineInput.report_inLine rfl, LineInput.reportHead_eq, pairs]
        simp [input, LinePhase.code, Snapshot.value]
      case inLine.completed =>
        rw [LineInput.report_inLine rfl, LineInput.reportHead_eq, pairs]
        simp [input, LinePhase.code, Snapshot.value]
      all_goals
        rw [LineInput.report_idle (by simp), LineInput.reportHead_eq]
        simp [input, LinePhase.code]
    have passBytes : s.pass.image = pass := by
      have passTerms : termsBytes s.pass.terms = terms := by
        simp only [terms]
        obtain _ | ⟨kind, direction, _, _, _⟩ := s.pass.terms
        · rfl
        · cases kind <;> cases direction <;> simp [termsBytes, PassKind.markField, PassKind.code, Direction.code, twoBytes_absent]
      rw [PassRecord.image_eq, passTerms]
      simp only [pass]
      congr 5
      · cases s.pass.state <;> rfl
      · obtain _ | _ | cause := s.pass.outcome
        · rfl
        · rfl
        · cases cause <;> rfl
    have eventBytes : s.events.report = events := by
      rw [EventUnit.report_eq]
      simp only [events, counter]
      congr 2
      obtain _ | _ | _ := s.events.lastLinkFault <;> rfl
    refine ⟨?_, ?_, ?_, ?_, ?_, fun option ho => ?_⟩
    · rw [exec_readAxes h, axisBytes]
    · rw [exec_readLines h, State.lineReport, inputs, inputs]
    · rw [exec_readPass h, passBytes]
    · rw [exec_readEvents h, ← eventBytes]
      rfl
    · rw [exec_readEvents h, ← eventBytes]
      rfl
    · rw [exec_readEvents h, State.readEventsRequest_other _ ho]
      rfl
  · obtain ⟨-, -, period, -⟩ := s.sampleChannel_frame k increment amplitude.val first
    refine ⟨_, exec_sampleEvent s k increment amplitude first ho hm hs, fun p hp hk => ?_, fun fresh => ?_⟩
    · rw [period, s.enterPeriod_under_way hp hk]
    · rw [period, s.enterPeriod_new fresh]

end Sys2Proof.Machine
end

