-- ==== Sys2Proof/Proofs/TableAnswers.lean ====
section
/-! SUPPORT. The record image byte by byte (Table 12-4), and the completions of the host operations that read, refuse, reopen a
record or store a match configuration (R22, R53, R61, R130 to R132, R141). -/

namespace Sys2Proof.Machine

/-! ### The record image -/

theorem ofNat_flagByte (b : Bool) (weight : Nat) :
    BitVec.ofNat 8 (flagByte b weight) = if b then BitVec.ofNat 8 weight else 0 := by
  cases b <;> rfl

/-- The optional value of a record's kind that is present, in the presence byte (R173). -/
def KindPart.presence : KindPart → Nat
  | .line l => flagByte l.centres.isSome 8
  | .datum d => flagByte d.lastTake.isSome 16
  | .keepout k => flagByte k.lastFlaw.isSome 32

theorem MarkRecord.presence_eq (r : MarkRecord) :
    BitVec.ofNat 8 r.presence = (if r.retiring then 1 else 0) + (if r.currentPart.isSome then 2 else 0)
      + (if r.staged.isSome then 4 else 0) + BitVec.ofNat 8 r.kind.presence
      + (if (r.currentPart.bind CurrentPart.abbe).isSome then 64 else 0) := by
  have spelled : r.presence = flagByte r.retiring 1 + flagByte r.currentPart.isSome 2 + flagByte r.staged.isSome 4
      + r.kind.presence + flagByte (r.currentPart.bind CurrentPart.abbe).isSome 64 := by
    unfold MarkRecord.presence
    cases r.currentPart <;> rfl
  rw [spelled]
  simp only [BitVec.ofNat_add, ofNat_flagByte]
  rfl

theorem MarkRecord.commonBlock_eq (r : MarkRecord) :
    r.commonBlock = twoBytes (BitVec.ofNat 16 r.mark) ++ [BitVec.ofNat 8 r.kind.code] ++ sixBytes r.nominal
      ++ (fourBytes (BitVec.ofNat 32 r.fields.half)).drop 1 ++ twoBytes (BitVec.ofNat 16 r.fields.minWidth)
      ++ twoBytes (BitVec.ofNat 16 r.fields.maxWidth)
      ++ [BitVec.ofNat 8 r.fields.accept.code, BitVec.ofNat 8 r.state.code, BitVec.ofNat 8 r.presence] := by
  simp only [MarkRecord.commonBlock, beBytes_two, beBytes_three, oneByte_eq, positionBytes_eq, List.append_assoc, List.cons_append,
    List.nil_append]

theorem MarkRecord.kindBlock_line {r : MarkRecord} {l : LinePart} (h : r.kind = .line l) :
    r.kindBlock = [BitVec.ofNat 8 l.plan.group.val, BitVec.ofNat 8 l.plan.passes, BitVec.ofNat 8 l.forwardCount,
        BitVec.ofNat 8 l.reverseCount]
      ++ (fourBytes (l.forwardSum.extractLsb' 32 32) ++ fourBytes (l.forwardSum.extractLsb' 0 32))
      ++ (fourBytes (l.reverseSum.extractLsb' 32 32) ++ fourBytes (l.reverseSum.extractLsb' 0 32))
      ++ sixBytes ((l.centres.map CentreSpan.least).getD 0) ++ sixBytes ((l.centres.map CentreSpan.greatest).getD 0)
      ++ [l.widthSum.extractLsb' 32 8] ++ fourBytes (l.widthSum.extractLsb' 0 32) ++ [BitVec.ofNat 8 l.abbeCount]
      ++ (fourBytes (l.abbeSum.extractLsb' 32 32) ++ fourBytes (l.abbeSum.extractLsb' 0 32))
      ++ [BitVec.ofNat 8 l.missed, BitVec.ofNat 8 l.widthFaults, BitVec.ofNat 8 l.duplicates] := by
  simp only [MarkRecord.kindBlock, h, oneByte_eq, beBytes_eight, beBytes_five, optionalPosition_eq, List.append_assoc,
    List.cons_append, List.nil_append]

theorem MarkRecord.kindBlock_datum {r : MarkRecord} {d : DatumPart} (h : r.kind = .datum d) :
    r.kindBlock = [BitVec.ofNat 8 d.takes, 0] ++ twoBytes (BitVec.ofNat 16 (d.lastTake.getD 0)) ++ [BitVec.ofNat 8 d.widthFaults]
      ++ List.replicate 44 0 := by
  simp [MarkRecord.kindBlock, h, padTo, oneByte_eq, beBytes_two, twoBytes]

theorem MarkRecord.kindBlock_keepout {r : MarkRecord} {k : KeepoutPart} (h : r.kind = .keepout k) :
    r.kindBlock = [BitVec.ofNat 8 k.flaws, 0, 0, 0] ++ sixBytes (k.lastFlaw.getD 0) ++ List.replicate 39 0 := by
  simp [MarkRecord.kindBlock, h, padTo, oneByte_eq, optionalPosition_eq, sixBytes]

/-- The bytes of a current-pass part. -/
def CurrentPart.bytes (c : CurrentPart) : List Byte :=
  sixBytes c.centre ++ twoBytes (BitVec.ofNat 16 c.width) ++ [BitVec.ofNat 8 (lineCode c.input)] ++ sixBytes (c.abbe.getD 0)
    ++ [if c.duplicate then 1 else 0]

theorem MarkRecord.currentBlock_eq (r : MarkRecord) :
    r.currentBlock = r.currentPart.elim (List.replicate 16 0) CurrentPart.bytes := by
  unfold MarkRecord.currentBlock
  cases r.currentPart with
  | none => rfl
  | some c =>
    simp only [Option.elim_some, CurrentPart.bytes, positionBytes_eq, beBytes_two, oneByte_eq, optionalPosition_eq, ofNat_flagByte]
    rfl

/-- The bytes of a staged amendment. -/
def Amendment.bytes (a : Amendment) : List Byte :=
  (fourBytes (BitVec.ofNat 32 a.fields.half)).drop 1 ++ twoBytes (BitVec.ofNat 16 a.fields.minWidth)
    ++ twoBytes (BitVec.ofNat 16 a.fields.maxWidth) ++ [BitVec.ofNat 8 a.fields.accept.code]
    ++ a.plan.elim [0, 0] fun plan => [BitVec.ofNat 8 plan.group.val, BitVec.ofNat 8 plan.passes]

theorem MarkRecord.stagedBlock_eq (r : MarkRecord) :
    r.stagedBlock = r.staged.elim (List.replicate 10 0) Amendment.bytes := by
  unfold MarkRecord.stagedBlock
  cases r.staged with
  | none => rfl
  | some a =>
    obtain ⟨fields, _ | plan⟩ := a <;>
      simp [Amendment.bytes, beBytes_three, beBytes_two, oneByte_eq]

/-! ### Completions -/

/-- A host operation that is completed, by what it makes of the machine and what it answers (R59, R61). -/
theorem exec_completes {s u : State} {op : HostOp} {status : Status} {bytes : List Byte} (h : s.operating = true)
    (ho : s.tableOp = some (.host op)) (completed : s.completeHostOp op = (u, status, bytes)) (link : u.link = s.link) :
    exec .tableOperationCompletion s = .next { u with link := s.handed status bytes, tableOp := none }.arbitrate := by
  have handed : u.handed status bytes = s.handed status bytes := by
    rw [State.handed, State.handed, link]
  rw [exec_tableOperationCompletion s op h ho, State.finishHostOp, completed]
  simp only [handOver_eq, handed]

theorem State.rangeBytes_eq (s : State) (p : Position) :
    s.rangeBytes p =
      (BitVec.ofNat 8 (min 4 (s.recordsFrom p).length) ||| if decide ((s.recordsFrom p).length ≤ 4) then 0x80 else 0)
        :: ((s.recordsFrom p).take 4).flatMap MarkRecord.image := by
  have count : ∀ n, n ≤ 4 → ∀ b : Bool,
      BitVec.ofNat 8 (n + flagByte b 128) = BitVec.ofNat 8 n ||| if b then 0x80 else 0 := by decide
  simp only [State.rangeBytes, oneByte_eq, List.length_take]
  rw [count _ (min_le_left _ _), List.singleton_append]

theorem State.groupReportBytes_eq (s : State) :
    s.groupReportBytes = (List.finRange 8).flatMap fun g =>
      twoBytes (BitVec.ofNat 16 (s.group g).members) ++ twoBytes (BitVec.ofNat 16 (s.group g).settled) := by
  simp only [State.groupReportBytes, beBytes_two]

/-- One report that takes the settled record of a group back (R135). -/
theorem State.group_groupReport_settled (s : State) (r : MarkRecord) {l : LinePart} (h : r.kind = .line l) (g : Fin 8) :
    (s.groupReport l.plan.group 0 (-r.settledCount)).group g
      = ⟨(s.group g).members, (s.group g).settled - r.settledOf g⟩ := by
  rw [State.groupReport, State.group_setGroup]
  have count : ∀ n : Nat, ((n : Int) + -r.settledCount).toNat = n - if r.state = .settled then 1 else 0 := by
    intro n
    simp only [MarkRecord.settledCount, MarkRecord.isSettled, decide_eq_true_eq]
    split <;> omega
  by_cases hg : g = l.plan.group
  · subst hg
    simp [MarkRecord.settledOf, MarkRecord.inGroup, h, count]
  · simp [hg, MarkRecord.settledOf, MarkRecord.inGroup, h, Ne.symm hg]

/-- Settles O36: each completion by its operation, with the bytes of its answer spelled out. -/
theorem hostOperationsAnswer : Obligations.HostOperationsAnswer := by
  intro s op h ho ends count marked position acceptCode threeBytes eightBytes part image
  have parts : ∀ r : MarkRecord, r.currentPart = part r := by
    rintro ⟨_, _, _, _ | _ | _, _, _, _⟩ <;> rfl
  have accepts : ∀ a : Accept, BitVec.ofNat 8 a.code = acceptCode a := by
    rintro (_ | _ | _) <;> rfl
  have images : MarkRecord.image = image := by
    funext r
    refine congrArg₂ (· ++ ·) (congrArg₂ (· ++ ·) (congrArg₂ (· ++ ·) ?common ?kind) ?current) ?staged
    case common =>
      rw [r.commonBlock_eq, r.presence_eq, accepts, parts]
      refine congrArg₂ (· ++ ·) ?_ ?_
      · cases r.kind <;> rfl
      · have kindBits : BitVec.ofNat 8 r.kind.presence = match r.kind with
            | .line l => marked l.centres.isSome 8
            | .datum d => marked d.lastTake.isSome 16
            | .keepout k => marked k.lastFlaw.isSome 32 := by
          cases r.kind <;> exact ofNat_flagByte _ _
        rw [kindBits]
        cases r.state <;> rfl
    case kind =>
      obtain ⟨_, _, _, l | d | k, _, _, _⟩ := r
      · exact MarkRecord.kindBlock_line rfl
      · exact MarkRecord.kindBlock_datum rfl
      · exact MarkRecord.kindBlock_keepout rfl
    case current =>
      rw [r.currentBlock_eq, parts]
      obtain _ | ⟨_, _, _ | _, _, _⟩ := part r <;> rfl
    case staged =>
      rw [r.stagedBlock_eq]
      obtain _ | ⟨_, _ | _⟩ := r.staged
      · rfl
      · simp only [Option.elim_some, Amendment.bytes, accepts]
        rfl
      · simp only [Option.elim_some, Amendment.bytes, accepts]
        rfl
  refine ⟨?_, ?_, ?_, ?_, ?_, ?_⟩
  · rintro code rfl
    exact exec_completes h ho rfl rfl
  · rintro mark r rfl found
    refine exec_completes h ho ?_ rfl
    simp only [State.completeHostOp, found, ← images]
  · rintro p rfl
    refine exec_completes h ho ?_ rfl
    simp only [State.completeHostOp, State.rangeBytes_eq, images]
    rfl
  · rintro rfl
    refine exec_completes h ho ?_ rfl
    simp only [State.completeHostOp, State.groupReportBytes_eq]
  · rintro m rfl
    exact exec_completes h ho rfl rfl
  · rintro mark r l rfl found rfl line unique
    have completed : s.completeHostOp (.reopen r.mark) = (s.reopenRecord r l, .done, []) := by
      simp only [State.completeHostOp, found, line]
    refine ⟨_, exec_completes h ho completed rfl, ?_, ?_, ?_, fun g => ?_⟩
    · simp
    · simp only [State.arbitrate_table, State.reopenRecord, State.groupReport_table, updateMark]
      refine List.map_congr_left fun x hx => ?_
      split
      · next e => rw [unique x hx e]; rfl
      · rfl
    · simp [State.reopenRecord]
    · rw [State.group, State.arbitrate_groups]
      exact State.group_groupReport_settled _ r line g

end Sys2Proof.Machine
end

