-- ==== Sys2Proof/Proofs/DatumTake.lean ====
section
/-! SUPPORT. A DATUM-pass MATCH and its offset claim (R20, R85 to R88). -/

namespace Sys2Proof.Machine

/-! ### The tests and the claim -/

theorem Accept.includes_iff (a : Accept) (i : LineId) :
    a.includes i = true ↔ a = .either ∨ (a = .l1 ∧ i = .l1) ∨ (a = .l2 ∧ i = .l2) := by
  cases a <;> cases i <;> simp [Accept.includes]

theorem Amendable.widthFits_iff (f : Amendable) (width : Nat) : f.widthFits width = true ↔ f.minWidth ≤ width ∧ width ≤ f.maxWidth := by
  simp [Amendable.widthFits]

theorem MarkRecord.datumOutcome_eq (r : MarkRecord) (x : Sighting) :
    r.datumOutcome x =
      if ¬(r.fields.accept = .either ∨ (r.fields.accept = .l1 ∧ x.input = .l1) ∨ (r.fields.accept = .l2 ∧ x.input = .l2)) then .unarmed
      else if ¬(r.fields.minWidth ≤ x.width ∧ x.width ≤ r.fields.maxWidth) then .width
      else .take := by
  simp only [MarkRecord.datumOutcome, ← Accept.includes_iff, ← Amendable.widthFits_iff, Bool.not_eq_true', Bool.not_eq_true]

/-- The measuring axis after a datum take: the sighting's centre reads as the nominal (R20, R86). -/
def Channel.takeOrigin (c : Channel) (centre nominal : Position) : Channel :=
  { c with offset := c.offset + (nominal - centre), referenced := true }

theorem Channel.takeOrigin_reads (c : Channel) (centre nominal : Position) :
    centre + ((c.takeOrigin centre nominal).offset - c.offset) = nominal := by
  simp only [Channel.takeOrigin]
  ring

/-- The update of the one record of a mark number. -/
theorem updateMark_unique {table : List MarkRecord} {mark : Nat} {r : MarkRecord} (f : MarkRecord → MarkRecord)
    (unique : ∀ y ∈ table, y.mark = mark → y = r) :
    updateMark table mark f = table.map fun y => if y.mark = mark then f r else y := by
  refine List.map_congr_left fun y hy => ?_
  split
  · next e => rw [unique y hy e]
  · rfl

/-- A claim that reaches an axis in TRACKING: the centre of the sighting comes to read as the nominal (R20, R86). -/
theorem State.makeClaim_applied {s : State} (m : MatchUnderWay) {r : MarkRecord} {d : DatumPart}
    (tracks : s.measuringAxis.state = .tracking) (datum : r.kind = .datum d) (unique : ∀ y ∈ s.table, y.mark = r.mark → y = r) :
    s.makeClaim m r =
      { s with
        channels := s.channels.set s.config.axis (s.measuringAxis.takeOrigin m.sighting.centre r.nominal)
        tableOp := some (.sightingMatch { m with claim := some .applied })
        table := s.table.map fun y => if y.mark = r.mark then
          { r with kind := .datum { d with takes := min 255 (d.takes + 1), lastTake := some s.pass.number } } else y } := by
  have claim : s.measuringAxis.claim (r.nominal - m.sighting.centre)
      = (s.measuringAxis.takeOrigin m.sighting.centre r.nominal, .applied) :=
    if_pos tracks
  simp only [State.makeClaim, claim, State.updateKind, updateMark_unique _ unique, datum]
  rfl

/-- A claim that finds the axis out of TRACKING changes nothing but the report (R20, R86). -/
theorem State.makeClaim_refused {s : State} (m : MatchUnderWay) (r : MarkRecord) (lost : s.measuringAxis.state ≠ .tracking) :
    s.makeClaim m r = { s with tableOp := some (.sightingMatch { m with claim := some .refused }) } := by
  have claim : s.measuringAxis.claim (r.nominal - m.sighting.centre) = (s.measuringAxis, .refused) := if_neg lost
  have same : s.channels.set s.config.axis s.measuringAxis = s.channels := s.set_channel_self s.config.axis
  simp only [State.makeClaim, claim, same]

theorem State.claimReport_eq (s : State) :
    s.claimReport = if s.measuringAxis.state = .tracking then .applied else .refused := by
  unfold State.claimReport Channel.claim
  split <;> rfl

/-! ### The commands -/

section
variable {s : State} {x : Sighting} {mark : Nat} {claim : Option ClaimReport} (ho : s.operating = true)
  (hop : s.tableOp = some (.sightingMatch ⟨x, claim⟩)) (hk : s.pass.terms.map PassTerms.kind = some (.datum mark))
include ho hop hk

theorem exec_datumOffsetClaim {r : MarkRecord} (unclaimed : claim = none) (found : findMark s.table mark = some r)
    (take : r.datumOutcome x = .take) : exec .datumOffsetClaim s = .next (s.makeClaim ⟨x, none⟩ r) := by
  subst unclaimed
  have due : s.claimDue ⟨x, none⟩ = some r := by
    simp only [State.claimDue, hk, found, Option.filter_some, take, decide_true, if_true]
  simp only [exec, execDatumOffsetClaim, s.whileOperating_of_operating _ ho, hop, due]

theorem exec_matchCompletion_datum :
    exec .matchCompletion s = .next { s.matchDatum mark ⟨x, claim⟩ with tableOp := none }.arbitrate := by
  simp only [exec, execMatchCompletion, s.whileOperating_of_operating _ ho, hop, State.matchSighting, hk]

end

theorem State.finishClaim_running (s : State) (h : s.pass.state = .running) :
    s.finishClaim .applied =
      { s with
        pass := { s.pass with state := .closing, outcome := some .done, taken := s.pass.taken + 1 }
        passTimer := false
        sweepClaim := some .close
        queue := []
        events := s.events.count .unpassed s.queue.length } := by
  simp [State.finishClaim, State.emptyQueue, State.claimClosing, State.closeLivePass, PassState.live, h]

theorem State.finishClaim_other (s : State) (h : s.pass.state ≠ .running) :
    s.finishClaim .applied =
      { s with
        pass := { s.pass with taken := s.pass.taken + 1 }
        queue := []
        events := s.events.count .unpassed s.queue.length } := by
  simp [State.finishClaim, State.emptyQueue, State.claimClosing, h]

theorem datumOutcome_take {r : MarkRecord} {x : Sighting}
    (accepted : r.fields.accept = .either ∨ (r.fields.accept = .l1 ∧ x.input = .l1) ∨ (r.fields.accept = .l2 ∧ x.input = .l2))
    (least : r.fields.minWidth ≤ x.width) (most : x.width ≤ r.fields.maxWidth) : r.datumOutcome x = .take := by
  rw [r.datumOutcome_eq, if_neg (not_not.mpr accepted), if_neg (not_not.mpr ⟨least, most⟩)]

/-! ### The completion -/

theorem State.matchDatum_reported (s : State) (mark : Nat) (x : Sighting) (report : ClaimReport) :
    s.matchDatum mark ⟨x, some report⟩ = s.finishClaim report := rfl

section
variable {s : State} {mark : Nat} {r : MarkRecord} (x : Sighting) (found : findMark s.table mark = some r)
include found

theorem State.matchDatum_unarmed (h : r.datumOutcome x = .unarmed) : s.matchDatum mark ⟨x, none⟩ = s.count .unarmed 1 := by
  simp only [State.matchDatum, found, h]

theorem State.matchDatum_width (h : r.datumOutcome x = .width) :
    s.matchDatum mark ⟨x, none⟩ = (s.updateKind mark KindPart.widthFault).count .width 1 := by
  simp only [State.matchDatum, found, h]

theorem State.matchDatum_take (h : r.datumOutcome x = .take) :
    s.matchDatum mark ⟨x, none⟩ = (s.makeClaim ⟨x, none⟩ r).finishClaim s.claimReport := by
  simp only [State.matchDatum, found, h]

end

/-- Settles O39: the claim, and then the completion by what the channel has reported. -/
theorem datumTakeSetsOrigin : Obligations.DatumTakeSetsOrigin := by
  refine ⟨fun s x mark r d ho hop hk found datum unique accepted least most => ?_, fun s x mark claim ho hop hk => ?_⟩
  · obtain ⟨-, rfl⟩ := findMark_mem found
    have run := exec_datumOffsetClaim ho hop hk rfl found (datumOutcome_take accepted least most)
    refine ⟨fun tracks => ⟨s.measuringAxis.takeOrigin x.centre r.nominal, rfl, Channel.takeOrigin_reads _ _ _, ?_⟩, fun lost => ?_⟩
    · rw [run, State.makeClaim_applied _ tracks datum unique]
    · rw [run, State.makeClaim_refused _ r lost]
  · have run := exec_matchCompletion_datum ho hop hk
    refine ⟨?_, ?_, ?_, ?_⟩
    · rintro rfl running
      rw [run, State.matchDatum_reported, s.finishClaim_running running]
    · rintro rfl aborting
      rw [run, State.matchDatum_reported, s.finishClaim_other (by simp [aborting])]
    · rintro rfl
      rw [run, State.matchDatum_reported, State.finishClaim]
    · rintro r d rfl found datum unique
      obtain ⟨-, rfl⟩ := findMark_mem found
      refine ⟨fun other => ?_, fun accepted unfit => ?_, fun accepted least most => ⟨fun lost => ?_, fun tracks =>
        ⟨s.measuringAxis.takeOrigin x.centre r.nominal, rfl, Channel.takeOrigin_reads _ _ _, fun running => ?_, fun aborting => ?_⟩⟩⟩
      · rw [run, State.matchDatum_unarmed x found (by rw [r.datumOutcome_eq, if_pos other])]
      · rw [run, State.matchDatum_width x found (by rw [r.datumOutcome_eq, if_neg (not_not.mpr accepted), if_pos unfit]),
          State.updateKind, updateMark_unique _ unique, datum]
        rfl
      · rw [run, State.matchDatum_take x found (datumOutcome_take accepted least most), s.claimReport_eq, if_neg lost,
          State.makeClaim_refused _ r lost]
        rfl
      · rw [run, State.matchDatum_take x found (datumOutcome_take accepted least most), s.claimReport_eq, if_pos tracks,
          State.makeClaim_applied _ tracks datum unique, State.finishClaim_running]
        exact running
      · rw [run, State.matchDatum_take x found (datumOutcome_take accepted least most), s.claimReport_eq, if_pos tracks,
          State.makeClaim_applied _ tracks datum unique, State.finishClaim_other]
        simp [aborting]

end Sys2Proof.Machine
end

