-- ==== Sys2Proof/Proofs/SetAxis.lean ====
section
/-! SUPPORT. SET AXIS (R4, R14, R17, R21): its checks, the channel it makes, and what a channel that enters OFF brings to the line
inputs and the pass. -/

namespace Sys2Proof.Machine

/-! ### Fields and checks -/

/-- The fields that the eight parameter bytes of SET AXIS carry. -/
def axisFieldsOf (channel flags acquire lose : Byte) (qualify rate : BitVec 16) : SetAxisFields :=
  ⟨channel.toNat, flags.toNat, acquire.toNat, lose.toNat, qualify.toNat, rate.toNat⟩

theorem exec_setAxis {s : State} (h : s.receives) (channel flags acquire lose : Byte) (qualify rate : BitVec 16) (first : MeetOrder) :
    exec (.setAxis ([channel, flags, acquire, lose] ++ twoBytes qualify ++ twoBytes rate) first) s
      = .next ((s.responding .empty).setAxisRequest (axisFieldsOf channel flags acquire lose qualify rate) first) := by
  have fields : setAxisFields ([channel, flags, acquire, lose] ++ twoBytes qualify ++ twoBytes rate)
      = axisFieldsOf channel flags acquire lose qualify rate := by
    have q : field ([channel, flags, acquire, lose] ++ twoBytes qualify ++ twoBytes rate) 4 2 = qualify.toNat :=
      beNat_two qualify
    have r : field ([channel, flags, acquire, lose] ++ twoBytes qualify ++ twoBytes rate) 6 2 = rate.toNat := beNat_two rate
    rw [setAxisFields, q, r, byteField_at _ 0 channel rfl, byteField_at _ 1 flags rfl, byteField_at _ 2 acquire rfl,
      byteField_at _ 3 lose rfl, axisFieldsOf]
  have length : ([channel, flags, acquire, lose] ++ twoBytes qualify ++ twoBytes rate).length = 8 := rfl
  rw [exec, execSetAxis, h.request_eq length, fields]

theorem axisFieldsOf_inRange {channel flags acquire lose : Byte} {qualify rate : BitVec 16} :
    (axisFieldsOf channel flags acquire lose qualify rate).inRange = true
      ↔ flags.toNat < 8 ∧ lose.toNat < acquire.toNat ∧ 16 ≤ qualify.toNat ∧ qualify.toNat ≤ 4096 ∧ 1 ≤ rate.toNat
        ∧ rate.toNat ≤ 511 := by
  have := acquire.isLt
  have := lose.isLt
  unfold SetAxisFields.inRange axisFieldsOf
  rw [decide_eq_true_iff]
  dsimp only
  omega

theorem State.setAxisRequest_no_channel (s : State) {f : SetAxisFields} (h : 6 ≤ f.channel) (first : MeetOrder) :
    s.setAxisRequest f first = s.reject .range := by
  simp only [State.setAxisRequest, channelOf_ge _ h]

/-- What a SET AXIS of channel `k` comes to, check by check. -/
theorem State.setAxisRequest_of_channel (s : State) {f : SetAxisFields} {k : ChannelIx} (h : f.channel = k.val) (first : MeetOrder) :
    s.setAxisRequest f first =
      if f.inRange = false then s.reject .range
      else if f.sense ≠ (s.channel k).sense ∧ (s.channel k).state ≠ .off then s.reject .state
      else (s.configureAxis k f first).answer .done [] := by
  simp only [State.setAxisRequest, h, channelOf_val, Bool.not_eq_true']

/-! ### The channel -/

theorem Channel.configured_eq (c : Channel) (f : SetAxisFields) :
    (c.configure f).applyEnable f.enable =
      let c : Channel :=
        { c with
          mode := f.mode
          sense := f.sense
          acquireLevel := f.acquire
          loseLevel := f.lose
          qualifyCount := f.qualify
          rateLimit := f.rate }
      if f.enable = false then { c with state := .off, referenced := false, qualCount := 0, qualified := false }
      else if c.state = .off then { c with state := .acquiring, qualCount := 0, qualified := false }
      else c := by
  cases h : f.enable <;> rfl

theorem State.configureAxis_enable (s : State) (k : ChannelIx) {f : SetAxisFields} (h : f.enable = true) (first : MeetOrder) :
    s.configureAxis k f first = s.putChannel k (((s.channel k).configure f).applyEnable f.enable) := by
  simp only [State.configureAxis, h, if_true]

/-! ### The line inputs and the pass -/

/-- News told to a machine that differs from `s` in its channels, its monitor, its period and its flags is told to `s`. -/
theorem State.TellsLines.of_signals {news : LineNews} {s w u : State} (h : w.TellsLines news u)
    (rest : w = { s with channels := w.channels, monitor := w.monitor, period := w.period, events := w.events })
    (counters : w.events.counters = s.events.counters) : s.TellsLines news u := by
  have line1 : w.line1 = s.line1 := by rw [rest]
  have line2 : w.line2 = s.line2 := by rw [rest]
  refine ⟨fun i => ?_, fun hs => ?_, ?_⟩
  · have hears := h.lines i
    cases i <;> simpa only [State.line, line1, line2] using hears
  · have counted := h.counters (by rw [counters]; exact hs)
    rwa [counters, line1, line2] at counted
  · have hrest := h.rest
    rw [rest] at hrest
    exact hrest

theorem State.abortLivePass_noticePending (s : State) (cause : AbortCause) :
    (s.abortLivePass cause).events.noticePending = s.events.noticePending := by
  unfold State.abortLivePass State.emptyQueue
  split
  · cases decide (cause ≠ .reset) <;> rfl
  · rfl

theorem State.tagSighting_noticePending (s : State) (i : LineId) (centre : Position) (width : Nat) (abbe : Option Position)
    (h : s.events.noticePending = true) : (s.tagSighting i centre width abbe).events.noticePending = true := by
  have enqueue : ∀ x, (s.enqueue x).events.noticePending = true := by
    intro x
    unfold State.enqueue
    split
    · exact h
    · simp [EventUnit.raise, EventUnit.count, h]
  have prefilter : ∀ x, (s.prefilter x).events.noticePending = true := by
    intro x
    unfold State.prefilter
    split
    · exact h
    · exact enqueue x
  unfold State.tagSighting
  split
  · simp only
    split
    · exact prefilter _
    · exact enqueue _
    · exact h
  · exact h

theorem State.formLine_noticePending (s : State) (i : LineId) (h : s.events.noticePending = true) :
    (s.formLine i).events.noticePending = true := by
  have removed : ∀ l, (s.setLine i l).events.noticePending = true := fun l => by simpa using h
  unfold State.formLine
  split
  · exact h
  · split
    · exact h
    · exact removed _
    · exact State.tagSighting_noticePending _ _ _ _ _ (removed _)

/-- What the forming of sightings and an abort of the pass leave alone at the end of an event. -/
structure State.SettledFrame (u t : State) : Prop where
  channels : t.channels = u.channels
  period : t.period = u.period
  monitor : t.monitor = u.monitor
  config : t.config = u.config
  table : t.table = u.table
  protection : t.protection = u.protection
  link : t.link = u.link
  events : u.events.SameButOverrun t.events
  pending : u.events.noticePending = true → t.events.noticePending = true

/-- The event ends with the abort of the pass where `acts` holds. -/
def State.abortsIf (acts : Prop) [Decidable acts] (cause : AbortCause) (s : State) : State := if acts then s.abortLivePass cause else s

theorem State.abortsIf_of {acts : Prop} [Decidable acts] (h : acts) (cause : AbortCause) (s : State) :
    s.abortsIf acts cause = s.abortLivePass cause := if_pos h

theorem State.abortsIf_frame (acts : Prop) [Decidable acts] (cause : AbortCause) (s : State) : s.SettledFrame (s.abortsIf acts cause) := by
  unfold State.abortsIf
  split
  · exact ⟨by simp, by simp, by simp, by simp, by simp, by simp, by simp, .abortLivePass s cause, fun h => by
      rw [s.abortLivePass_noticePending, h]⟩
  · exact ⟨rfl, rfl, rfl, rfl, rfl, rfl, rfl, .refl _, id⟩

theorem State.SettledFrame.trans {s t u : State} (h : s.SettledFrame t) (k : t.SettledFrame u) : s.SettledFrame u :=
  ⟨k.channels.trans h.channels, k.period.trans h.period, k.monitor.trans h.monitor, k.config.trans h.config, k.table.trans h.table,
    k.protection.trans h.protection, k.link.trans h.link, h.events.trans k.events, k.pending ∘ h.pending⟩

theorem State.formLine_frame (s : State) (i : LineId) : s.SettledFrame (s.formLine i) :=
  ⟨by simp, by simp, by simp, by simp, by simp, by simp, by simp, .formLine s i, s.formLine_noticePending i⟩

theorem State.arbitrate_frame (s : State) : s.SettledFrame s.arbitrate :=
  ⟨by simp, by simp, by simp, by simp, by simp, by simp, by simp, .arbitrate s, by simp⟩

theorem State.settleEvent_settles (s : State) (first : MeetOrder) {ends : State → State} (h : ∀ v : State, v.SettledFrame (ends v)) :
    s.SettledFrame (s.settleEvent first ends) := by
  have forms : ∀ v : State, v.SettledFrame v.formSightings := fun v => (v.formLine_frame _).trans (State.formLine_frame _ _)
  cases first
  case formationFirst => exact ((forms s).trans (h _)).trans (State.arbitrate_frame _)
  case passFirst => exact ((h s).trans (forms _)).trans (State.arbitrate_frame _)
  case passBetween => exact (((s.formLine_frame _).trans (h _)).trans (State.formLine_frame _ _)).trans (State.arbitrate_frame _)

theorem State.abortsIf_earlierClosing (acts : Prop) [Decidable acts] (cause : AbortCause) (s : State) :
    (s.abortsIf acts cause).earlierClosing = s.earlierClosing := by
  unfold State.abortsIf
  split <;> simp

/-- Such an end of an event, in the words of the statements. -/
theorem State.settleEvent_abortsIf (s : State) (first : MeetOrder) (acts : Prop) [Decidable acts] {cause : AbortCause}
    (h : cause ≠ .reset) :
    s.settleEvent first (State.abortsIf acts cause) = s.concludes first fun v => if acts then v.takesAbort cause else v := by
  rw [s.settleEvent_eq first _ (State.abortsIf_earlierClosing acts cause)]
  congr 1
  funext v
  rw [State.abortsIf, v.abortLivePass_eq cause h]

/-- Everything a SET AXIS with enable off does before a sighting is formed: its channel enters OFF, the reference period is judged
over, and both inputs hear of it. -/
theorem State.configureAxis_disable (s : State) (k : ChannelIx) {f : SetAxisFields} (h : f.enable = false) (first : MeetOrder) :
    let c := s.channel k
    let c' := (c.configure f).enterOff
    ∃ u, s.TellsLines (LineNews.only k (.ofStop c c')) u ∧ u.channels = s.channels.set k c' ∧ u.monitor = s.monitor
      ∧ u.period = (s.period.filter fun p => (List.finRange 6).any ((s.putChannel k c').awaits p))
      ∧ (s.events.transition k c.state .off).SameButOverrun u.events
      ∧ s.configureAxis k f first = u.settleEvent first (State.abortsIf (k = s.config.axis ∧ c.state = .tracking) .axis) := by
  intro c c'
  let w := (s.putChannel k c').settlePeriod
  let e := ChannelNews.ofStop c c'
  have tells := w.tellsLines_linesSee k e
  refine ⟨w.linesSee k e.edge e.state e.left e.sampled, tells.of_signals rfl (EventUnit.transition_counters _ _ _ _), ?_, ?_, ?_, ?_,
    ?_⟩
  · simp [w]
  · simp [w]
  · simp [w]
  · exact .linesSee w k _ _ _ _
  · have ends : (fun v : State => if k = s.config.axis ∧ e.left then v.abortLivePass .axis else v)
        = State.abortsIf (k = s.config.axis ∧ c.state = .tracking) .axis := by
      funext v
      simp [State.abortsIf, e, ChannelNews.ofStop, c', Channel.enterOff]
    rw [State.configureAxis, ← ends]
    simp only [h]
    rfl

/-! ### Reports -/

theorem EventUnit.transition_off_acquiring (e : EventUnit) (k : ChannelIx) : e.transition k .off .acquiring = e.downOnset k := rfl

theorem EventUnit.has_downOnset (e : EventUnit) (k : ChannelIx) (f : EventFlag) :
    (e.downOnset k).has f = (e.has f || decide (.axisDown = f)) := by
  rw [EventUnit.downOnset, EventUnit.has_raise]
  rfl

/-- The period once a channel has been disabled. -/
theorem State.settledPeriod_eq (s : State) (p : ReferencePeriod) :
    (some p).filter (fun p => (List.finRange 6).any (s.awaits p))
      = if ∃ j : ChannelIx, (s.channel j).state ≠ .off ∧ p.reached[j] = false then some p else none := by
  simp only [Option.filter_some, List.any_eq_true, List.mem_finRange, true_and, s.awaits_iff]

/-- What a channel that enters OFF leaves behind it once its event has ended: of the flags, only LOCK_CHANGE may have been raised by
it, and the pass of a measuring axis that tracked has been aborted (R4, R14, R103). -/
structure State.StopsChannel (s : State) (k : ChannelIx) (c' : Channel) (t : State) : Prop where
  channels : t.channels = s.channels.set k c'
  table : t.table = s.table
  config : t.config = s.config
  protection : t.protection = s.protection
  monitor : t.monitor = s.monitor
  axisMask : t.events.axisMask = s.events.axisMask
  flags : ∀ f, f ≠ .queueOverrun →
    t.events.has f = (s.events.has f || decide (.lockChange = f) && decide ((s.channel k).state = .tracking))
  aborts : k = s.config.axis → (s.channel k).state = .tracking → s.pass.state.live = true → State.AbortsTo .axis s t

theorem State.StopsChannel.of_settles {s u : State} {k : ChannelIx} {c' : Channel} {news : LineNews} (first : MeetOrder)
    (tells : s.TellsLines news u) (channels : u.channels = s.channels.set k c') (monitor : u.monitor = s.monitor)
    (events : (s.events.transition k (s.channel k).state .off).SameButOverrun u.events) :
    s.StopsChannel k c' (u.settleEvent first (State.abortsIf (k = s.config.axis ∧ (s.channel k).state = .tracking) .axis)) := by
  have frame := u.settleEvent_settles first
    (State.abortsIf_frame (k = s.config.axis ∧ (s.channel k).state = .tracking) AbortCause.axis)
  have same : u.table = s.table ∧ u.config = s.config ∧ u.protection = s.protection ∧ u.pass = s.pass ∧ u.tableOp = s.tableOp := by
    rw [tells.rest]
    exact ⟨rfl, rfl, rfl, rfl, rfl⟩
  obtain ⟨table, config, protection, pass, op⟩ := same
  have reports := events.trans frame.events
  refine ⟨frame.channels.trans channels, frame.table.trans table, frame.config.trans config, frame.protection.trans protection,
    frame.monitor.trans monitor, ?_, fun f hf => ?_, fun axis tracked live => ?_⟩
  · rw [reports.axisMask, EventUnit.axisMask_transition]
    simp [ChannelState.down]
  · rw [reports.flags f hf, EventUnit.has_transition]
    simp [ChannelState.down]
  · exact (State.settleEvent_aborts first (pass ▸ live) fun v _ => v.abortsIf_of ⟨axis, tracked⟩ .axis).of_same pass op

/-- The reports of a channel that SET AXIS leaves enabled: an OFF one that goes down, and none of another (R4, R151). -/
theorem EventUnit.transition_enabled (e : EventUnit) (k : ChannelIx) (c : Channel) {f : SetAxisFields} (h : f.enable = true) :
    e.transition k c.state ((c.configure f).applyEnable f.enable).state = if c.state = .off then e.downOnset k else e := by
  rw [c.configured_eq f, h]
  by_cases out : c.state = .off
  · simp [out, EventUnit.transition_off_acquiring]
  · simp [out, EventUnit.transition_same]

/-- Settles O11: the checks in their order; past them an enabled channel reports only its entry to ACQUIRING, and a disabled one
enters OFF with its news to the inputs and the pass. -/
theorem setAxisConfiguresChannel : Obligations.SetAxisConfiguresChannel := by
  constructor
  · intro s k flags acquire lose qualify rate first h hf hl hq hQ hr hR sense hs
    have small : (BitVec.ofNat 8 k.val).toNat = k.val := by
      rw [BitVec.toNat_ofNat]; omega
    let f := axisFieldsOf (BitVec.ofNat 8 k.val) flags acquire lose qualify rate
    let r := s.responding .empty
    have valid : ¬f.inRange = false := by
      rw [Bool.not_eq_false]
      exact axisFieldsOf_inRange.mpr ⟨hf, hl, hq, hQ, hr, hR⟩
    have allowed : ¬(f.sense ≠ (r.channel k).sense ∧ (r.channel k).state ≠ .off) := by
      rintro ⟨moved, on⟩
      exact hs.elim (fun same => moved same.symm) on
    have run := exec_setAxis h (BitVec.ofNat 8 k.val) flags acquire lose qualify rate first
    rw [State.setAxisRequest_of_channel _ (f := f) small, if_neg valid, if_neg allowed] at run
    have configured := (s.channel k).configured_eq f
    obtain on | off : flags.getLsbD 0 = true ∨ flags.getLsbD 0 = false := by cases flags.getLsbD 0 <;> simp
    · rw [r.configureAxis_enable k (f := f) on first] at run
      refine ⟨_, run, rfl, congrArg (s.channels.set k ·) configured, rfl, rfl, rfl, rfl,
        fun _ => ⟨rfl, rfl, rfl, rfl, rfl, rfl, rfl, EventUnit.transition_counters _ _ _ _⟩, fun _ out => ?_, fun _ inn => ?_,
        fun off => ?_, fun off => ?_, fun off => ?_⟩
      · have report := (r.events.transition_enabled k (s.channel k) (f := f) on).trans (if_pos out)
        refine ⟨?_, congrArg EventUnit.axisMask report, congrArg EventUnit.noticePending report, fun g hg => ?_⟩
        · refine (congrArg (EventUnit.has · .axisDown) report).trans ?_
          simp only [EventUnit.has_downOnset, decide_true, Bool.or_true]
        · refine (congrArg (EventUnit.has · g) report).trans ?_
          rw [EventUnit.has_downOnset, decide_eq_false (Ne.symm hg), Bool.or_false]
          rfl
      · exact (r.events.transition_enabled k (s.channel k) (f := f) on).trans (if_neg inn)
      all_goals
        rw [on] at off
        cases off
    · obtain ⟨u, tells, channels, monitor, period, events, settles⟩ := r.configureAxis_disable k (f := f) off first
      let t := u.settleEvent first (State.abortsIf (k = s.config.axis ∧ (s.channel k).state = .tracking) .axis)
      have stops : r.StopsChannel k ((s.channel k).configure f).enterOff t := .of_settles first tells channels monitor events
      have flags : ∀ g, g ≠ .queueOverrun →
          t.events.has g = (s.events.has g || decide (.lockChange = g) && decide ((s.channel k).state = .tracking)) := stops.flags
      rw [settles] at run
      have made : ((s.channel k).configure f).enterOff = ((s.channel k).configure f).applyEnable f.enable := by
        rw [show f.enable = false from off]
        rfl
      refine ⟨_, run, rfl, stops.channels.trans (congrArg (s.channels.set k ·) (made.trans configured)), stops.table, stops.config,
        stops.protection, stops.monitor, fun on => ?_, fun on => ?_, fun on => ?_, fun _ => ⟨stops.axisMask, fun tracked => ?_,
        fun untracked => ?_, fun g hg hq => ?_⟩, fun _ axis tracked live => ?_, fun _ => ?_⟩
      iterate 3
        rw [off] at on
        cases on
      · exact (flags .lockChange (by simp)).trans (by simp [tracked])
      · exact (flags .lockChange (by simp)).trans (by simp [untracked])
      · exact (flags g hq).trans (by simp [Ne.symm hg])
      · obtain ⟨pass, timer, queue, free, busy⟩ := stops.aborts axis tracked live
        exact ⟨pass, timer, queue, free, busy⟩
      · have stopped : t.channel k = ((s.channel k).configure f).enterOff := by
          rw [State.channel_set stops.channels, if_pos rfl]
        have put : ∀ j, (r.putChannel k ((r.channel k).configure f).enterOff).channel j = t.channel j :=
          State.channel_eq_of_channels stops.channels.symm
        refine ⟨u, t, ?_, channels.trans stops.channels.symm, monitor, fun idle => ?_, fun p underWay => ?_,
          u.settleEvent_abortsIf first _ (by simp), rfl⟩
        · have news : r.TellsLines (LineNews.only k (.ofStop (s.channel k) (t.channel k))) u := by
            rw [stopped]
            exact tells
          exact news
        · rw [period, show r.period = _ from idle]
          rfl
        · rw [period, show r.period = _ from underWay, State.settledPeriod_eq]
          simp only [put]
          rfl
  · intro s channel flags acquire lose qualify rate first h c inRange
    refine ⟨fun bad => ?_, fun k hk good moved on => ?_⟩
    · by_cases hc : channel.toNat < 6
      · rw [exec_setAxis h, State.setAxisRequest_of_channel _ (k := ⟨channel.toNat, hc⟩) rfl, if_pos]
        · rfl
        · rw [← Bool.not_eq_true, axisFieldsOf_inRange]
          exact fun fields => bad ⟨hc, fields⟩
      · rw [exec_setAxis h, State.setAxisRequest_no_channel _ (Nat.le_of_not_lt hc)]
        rfl
    · obtain ⟨-, fields⟩ := good
      rw [exec_setAxis h, State.setAxisRequest_of_channel _ (k := k) hk, if_neg, if_pos]
      · rfl
      · exact ⟨fun same => moved same.symm, on⟩
      · rw [Bool.not_eq_false]
        exact axisFieldsOf_inRange.mpr fields

end Sys2Proof.Machine
end

