-- ==== Sys2Proof/Proofs/ReferenceLoss.lean ====
section
/-! SUPPORT. The loss of the reference (R15, R16): what it reports of all six channels together, its news to the line inputs, and the
sample events that it stops. -/

namespace Sys2Proof.Machine

/-! ### Reports of several channels that lose the lock -/

/-- What the entries to LOST of the channels for which `lost` holds make of the event unit, each from TRACKING (R14, R151). -/
structure EventUnit.LosesLock (e : EventUnit) (lost : ChannelIx → Prop) (e' : EventUnit) : Prop where
  lockChange : e'.has .lockChange = true ↔ e.has .lockChange = true ∨ ∃ k, lost k
  axisDown : e'.has .axisDown = true ↔ e.has .axisDown = true ∨ ∃ k, lost k
  axisMask : ∀ k : ChannelIx, e'.axisMask.getLsbD k.val = true ↔ e.axisMask.getLsbD k.val = true ∨ lost k
  enables : e'.enables = e.enables
  counters : e'.counters = e.counters
  pending : e.noticePending = true → e'.noticePending = true
  notifies : (∃ k, lost k) → e.enabled .lockChange = true ∨ e.enabled .axisDown = true → e'.noticePending = true

namespace EventUnit.LosesLock

theorem none (e : EventUnit) {lost : ChannelIx → Prop} (h : ∀ k, ¬lost k) : e.LosesLock lost e :=
  ⟨by simp [h], by simp [h], by simp [h], rfl, rfl, id, by simp [h]⟩

theorem one (e : EventUnit) (k : ChannelIx) : e.LosesLock (· = k) ((e.raise .lockChange).downOnset k) := by
  refine ⟨?_, ?_, fun j => ?_, rfl, rfl, fun h => ?_, fun _ h => ?_⟩
  · simp [EventUnit.has_downOnset, EventUnit.has_raise]
  · simp [EventUnit.has_downOnset, EventUnit.has_raise]
  · change (e.axisMask ||| (1#6 <<< k.val)).getLsbD j.val = true ↔ _
    rw [BitVec.getLsbD_or, getLsbD_axisBit, Bool.or_eq_true, decide_eq_true_eq]
  · simp [EventUnit.downOnset, EventUnit.raise, h]
  · have enabled : (e.enabled .lockChange || e.enabled .axisDown) = true := by simpa using h
    change (e.noticePending || e.enabled .lockChange || e.enabled .axisDown) = true
    rw [Bool.or_assoc, enabled, Bool.or_true]

theorem trans {a b c : EventUnit} {p q : ChannelIx → Prop} (h : a.LosesLock p b) (k : b.LosesLock q c) :
    a.LosesLock (fun j => p j ∨ q j) c := by
  have enabled : ∀ f, b.enabled f = a.enabled f := fun f => by rw [EventUnit.enabled, EventUnit.enabled, h.enables]
  refine ⟨?_, ?_, fun j => ?_, k.enables.trans h.enables, k.counters.trans h.counters, k.pending ∘ h.pending, fun lost on => ?_⟩
  · rw [k.lockChange, h.lockChange, or_assoc, exists_or]
  · rw [k.axisDown, h.axisDown, or_assoc, exists_or]
  · rw [k.axisMask, h.axisMask, or_assoc]
  · obtain first | second := exists_or.mp lost
    · exact k.pending (h.notifies first on)
    · exact k.notifies second (by rwa [enabled, enabled])

theorem congr {a b : EventUnit} {p q : ChannelIx → Prop} (h : a.LosesLock p b) (hpq : ∀ k, p k ↔ q k) : a.LosesLock q b := by
  rwa [← funext fun k => propext (hpq k)]

/-- One channel at the loss of the reference. -/
theorem ofChannel (e : EventUnit) (k : ChannelIx) (c : Channel) :
    e.LosesLock (fun j => j = k ∧ c.state = .tracking) (e.transition k c.state c.loseReference.state) := by
  cases hs : c.state
  case tracking =>
    have lost : c.loseReference.state = .lost := by simp [Channel.loseReference, hs, Channel.enterLost]
    rw [lost]
    exact (one e k).congr (by simp)
  case acquiring =>
    have lost : c.loseReference.state = .lost := by simp [Channel.loseReference, hs, Channel.enterLost]
    rw [lost]
    exact none e (by simp)
  all_goals
    have same : c.loseReference.state = c.state := by simp [Channel.loseReference, hs]
    rw [same, hs, EventUnit.transition_same]
    exact none e (by simp)

end EventUnit.LosesLock

/-- All that the loss of the reference reports: each channel that was TRACKING reports itself (R15). -/
theorem State.loseReferences_events (s : State) :
    s.events.LosesLock (fun k => (s.channel k).state = .tracking) ((List.finRange 6).foldl State.loseReference s).events := by
  have fold : ∀ (ks : List ChannelIx) (u : State), ks.Nodup →
      u.events.LosesLock (fun k => k ∈ ks ∧ (u.channel k).state = .tracking) (ks.foldl State.loseReference u).events := by
    intro ks
    induction ks with
    | nil => exact fun u _ => .none _ (by simp)
    | cons k ks ih =>
      intro u nodup
      obtain ⟨fresh, nodup⟩ := List.nodup_cons.mp nodup
      have others : ∀ j ∈ ks, (u.loseReference k).channel j = u.channel j := by
        intro j hj
        have : j ≠ k := fun e => fresh (e ▸ hj)
        rw [u.loseReference_eq, State.channel_putChannel, if_neg this]
      have head : u.events.LosesLock (fun j => j = k ∧ (u.channel k).state = .tracking) (u.loseReference k).events := by
        rw [u.loseReference_eq]
        exact .ofChannel _ k _
      refine (head.trans (ih (u.loseReference k) nodup)).congr fun j => ?_
      rw [List.mem_cons]
      constructor
      · rintro (⟨rfl, tracked⟩ | ⟨hj, tracked⟩)
        · exact ⟨.inl rfl, tracked⟩
        · exact ⟨.inr hj, others j hj ▸ tracked⟩
      · rintro ⟨rfl | hj, tracked⟩
        · exact .inl ⟨rfl, tracked⟩
        · exact .inr ⟨hj, (others j hj).symm ▸ tracked⟩
  exact (fold _ s (List.nodup_finRange 6)).congr (by simp)

/-! ### The news to the line inputs -/

theorem State.linesSee_noticePending (s : State) (k : ChannelIx) (edge : Nat → Position) (st : ChannelState) (left : Bool)
    (sampled : Option Position) : (s.linesSee k edge st left sampled).events.noticePending = s.events.noticePending := by
  have guarded : ∀ (v : State) (i : LineId) (g : LineInput × Bool), (v.putGuarded i g).events.noticePending = v.events.noticePending := by
    rintro v i ⟨l, b⟩
    cases b <;> cases i <;> rfl
  rw [State.linesSee, State.lineSees, State.lineSees, guarded, guarded]

/-- What the news of the loss of the reference leaves alone: it only counts SMEAR. -/
theorem State.linesLoseReference_frame (s tracked : State) :
    let t := s.linesLoseReference tracked
    t.channels = s.channels ∧ t.monitor = s.monitor ∧ t.period = s.period ∧ s.events.SameButOverrun t.events
      ∧ t.events.noticePending = s.events.noticePending := by
  have fold : ∀ (ks : List ChannelIx) (u : State),
      let t := ks.foldl (fun t (k : ChannelIx) => t.linesSee k (fun _ => (s.channel k).position) (s.channel k).state
        (decide ((tracked.channel k).state = .tracking)) none) u
      t.channels = u.channels ∧ t.monitor = u.monitor ∧ t.period = u.period ∧ u.events.SameButOverrun t.events
        ∧ t.events.noticePending = u.events.noticePending := by
    intro ks
    induction ks with
    | nil => exact fun u => ⟨rfl, rfl, rfl, .refl _, rfl⟩
    | cons k ks ih =>
      intro u
      obtain ⟨channels, monitor, period, events, notice⟩ := ih (u.linesSee k (fun _ => (s.channel k).position) (s.channel k).state
        (decide ((tracked.channel k).state = .tracking)) none)
      exact ⟨channels.trans (by simp), monitor.trans (by simp), period.trans (by simp),
        (EventUnit.SameButOverrun.linesSee u k _ _ _ _).trans events, notice.trans (u.linesSee_noticePending k _ _ _ _)⟩
  exact fold _ s

/-- A channel leaves TRACKING at the loss of the reference where it was in it. -/
theorem Channel.loseReference_left (c : Channel) :
    decide (c.state = .tracking ∧ c.loseReference.state ≠ .tracking) = decide (c.state = .tracking) := by
  cases hs : c.state <;> simp [Channel.loseReference, hs, Channel.enterLost]

/-- The machine at the loss of the reference, before its news reaches the line inputs (R15). -/
def State.withoutReference (s : State) : State :=
  (List.finRange 6).foldl State.loseReference { s with monitor := .absent, period := none }

theorem State.withoutReference_spec (s : State) :
    (∀ k, s.withoutReference.channel k = (s.channel k).loseReference)
      ∧ s.withoutReference =
        { s with monitor := .absent, period := none, channels := s.withoutReference.channels, events := s.withoutReference.events }
      ∧ s.events.LosesLock (fun k => (s.channel k).state = .tracking) s.withoutReference.events := by
  obtain ⟨channels, rest, -⟩ := State.loseReferences_spec { s with monitor := .absent, period := none }
  exact ⟨channels, rest, State.loseReferences_events { s with monitor := .absent, period := none }⟩

/-- Everything the loss of the reference does before a sighting is formed. -/
theorem State.referenceLost_eq (s : State) (first : MeetOrder) :
    ∃ u, s.TellsLines (fun k => some (.ofStop (s.channel k) (s.channel k).loseReference)) u
      ∧ (∀ k, u.channel k = (s.channel k).loseReference) ∧ u.monitor = .absent ∧ u.period = none
      ∧ (∃ e, s.events.LosesLock (fun k => (s.channel k).state = .tracking) e ∧ e.SameButOverrun u.events
          ∧ u.events.noticePending = e.noticePending)
      ∧ s.referenceLost first = u.settleEvent first (State.abortsIf (s.measuringAxis.state = .tracking) .axis) := by
  obtain ⟨lost, rest, reports⟩ := s.withoutReference_spec
  obtain ⟨channels, monitor, period, events, notice⟩ := s.withoutReference.linesLoseReference_frame s
  have news : s.withoutReference.linesLoseReference s = (List.finRange 6).foldl (fun t (k : ChannelIx) =>
      let e := ChannelNews.ofStop (s.channel k) (s.channel k).loseReference
      t.linesSee k e.edge e.state e.left e.sampled) s.withoutReference := by
    simp only [State.linesLoseReference, ChannelNews.ofStop, lost, Channel.loseReference_left, Channel.position]
  have tells := s.withoutReference.tellsLines_all fun k => .ofStop (s.channel k) (s.channel k).loseReference
  rw [← news] at tells
  have absent : s.withoutReference.monitor = .absent := by rw [rest]
  have ended : s.withoutReference.period = none := by rw [rest]
  refine ⟨_, tells.of_signals ?_ reports.counters, fun k => ?_, ?_, ?_, ⟨_, reports, events, notice⟩, rfl⟩
  · rw [absent, ended]
    exact rest
  · rw [State.channel_eq_of_channels channels, lost]
  · rw [monitor, absent]
  · rw [period, ended]

/-- Settles O12: the channels and their reports, the news to the inputs, and the end of the event. -/
theorem referenceGatesSamples : Obligations.ReferenceGatesSamples := by
  refine ⟨fun s first ho hm => ?_, fun s k increment amplitude first gone => ?_, fun s ho => ?_⟩
  · obtain ⟨u, tells, channels, monitor, period, ⟨e, reports, events, notice⟩, settles⟩ := s.referenceLost_eq first
    let t := u.settleEvent first (State.abortsIf (s.measuringAxis.state = .tracking) .axis)
    have frame : u.SettledFrame t := u.settleEvent_settles first (State.abortsIf_frame (s.measuringAxis.state = .tracking) .axis)
    have run : exec (.referenceAbsenceTimeout first) s = .next t := by
      simp only [exec, execReferenceAbsenceTimeout, s.whileOperating_of_operating _ ho, if_pos hm, settles, t]
    have same : u.table = s.table ∧ u.config = s.config ∧ u.link = s.link ∧ u.pass = s.pass ∧ u.tableOp = s.tableOp := by
      rw [tells.rest]
      exact ⟨rfl, rfl, rfl, rfl, rfl⟩
    obtain ⟨table, config, link, pass, op⟩ := same
    have lost : ∀ k, t.channel k = (s.channel k).loseReference := fun k => by
      rw [State.channel_eq_of_channels frame.channels, channels]
    have reported : e.SameButOverrun t.events := events.trans frame.events
    have lockChange := reported.flags .lockChange (by simp)
    have axisDown := reported.flags .axisDown (by simp)
    refine ⟨t, run, frame.monitor.trans monitor, fun k => ?_, fun tracked live => ?_, ⟨fun tracked => ⟨?_, ?_⟩,
      fun untracked => ⟨?_, ?_⟩, fun tracked enabled => ?_⟩, fun k => ?_, ⟨u, ?_, frame.channels.symm, monitor, period, ?_⟩,
      frame.table.trans table, frame.config.trans config, frame.link.trans link⟩
    · rw [lost, Channel.loseReference]
      rfl
    · obtain ⟨aborted, timer, queue, free, busy⟩ :=
        (State.settleEvent_aborts first (pass ▸ live) fun v _ => v.abortsIf_of tracked .axis).of_same pass op
      exact ⟨aborted, timer, queue, free, busy⟩
    · rw [lockChange, reports.lockChange]
      exact .inr tracked
    · rw [axisDown, reports.axisDown]
      exact .inr tracked
    · rw [lockChange, Bool.eq_iff_iff, reports.lockChange]
      exact or_iff_left untracked
    · rw [axisDown, Bool.eq_iff_iff, reports.axisDown]
      exact or_iff_left untracked
    · exact frame.pending (notice.trans (reports.notifies tracked enabled))
    · rw [reported.axisMask, Bool.eq_iff_iff, reports.axisMask, Bool.or_eq_true, decide_eq_true_eq]
    · simpa only [lost] using tells
    · exact u.settleEvent_abortsIf first _ (by simp)
  · simp only [exec, execSampleEvent, State.whileOperating, if_pos gone, ite_self]
  · simp only [exec, execReferenceEdge, s.whileOperating_of_operating _ ho]

end Sys2Proof.Machine
end

