-- ==== Sys2Proof/Proofs/Edges.lean ====
section
/-! SUPPORT. Leading and trailing edges at a line input, and what a sample event makes of an open line (R21, R26, R29 to R35). -/

namespace Sys2Proof.Machine

/-! ### Leading edges (R26, R29) -/

section
variable {s : State} {i : LineId} (phase : Nat)

/-- The input once a leading edge has opened its line. -/
def State.opened (s : State) (i : LineId) (phase : Nat) : LineInput :=
  { s.line i with level := (s.line i).polarity.lineLevel, phase := .inLine (s.openedLine (s.line i) phase) }

theorem State.leadingEdge_enabled (quiet : (s.line i).phase = .quiet) (on : (s.line i).enable = true) :
    s.leadingEdge i phase = s.putGuarded i ((s.opened i phase).guardOpen s.config.axis false none) := by
  simp only [State.leadingEdge, quiet]
  exact if_pos on

theorem State.leadingEdge_disabled (quiet : (s.line i).phase = .quiet) (off : (s.line i).enable = false) :
    s.leadingEdge i phase = s.setLine i { s.line i with level := (s.line i).polarity.lineLevel } := by
  simp only [State.leadingEdge, quiet, off]
  rfl

theorem State.askSnapshot_waits {k : ChannelIx} (present : s.monitor = .present) (on : (s.channel k).state ≠ .off) :
    s.askSnapshot phase k = .waiting phase := by
  simp [State.askSnapshot, present, on]

theorem State.askSnapshot_returns {k : ChannelIx} (h : s.monitor = .absent ∨ (s.channel k).state = .off) :
    s.askSnapshot phase k = .completed ((s.channel k).raw + (s.channel k).offset) (s.channel k).state :=
  if_pos h.symm

/-- A leading snapshot that waits leaves the line open. -/
theorem State.guardOpen_opened_waits (present : s.monitor = .present) (on : s.measuringAxis.state ≠ .off) :
    (s.opened i phase).guardOpen s.config.axis false none = (s.opened i phase, false) := by
  have waits : (s.openedLine (s.line i) phase).leading.axis = .waiting phase := s.askSnapshot_waits phase present on
  simp only [LineInput.guardOpen, State.opened, OpenLine.spoiled, waits, Bool.or_false, Bool.and_false]
  rfl

/-- A leading snapshot that comes back at once in another state than TRACKING discards the line. -/
theorem State.guardOpen_opened_returns (h : s.monitor = .absent ∨ s.measuringAxis.state = .off)
    (untracked : s.measuringAxis.state ≠ .tracking) :
    (s.opened i phase).guardOpen s.config.axis false none
      = ({ s.opened i phase with phase := .discarding (s.openedLine (s.line i) phase) }, true) := by
  have returns : (s.openedLine (s.line i) phase).leading.axis
      = .completed (s.measuringAxis.raw + s.measuringAxis.offset) s.measuringAxis.state := s.askSnapshot_returns phase h
  have axis : (s.openedLine (s.line i) phase).axis = s.config.axis := rfl
  simp [LineInput.guardOpen, State.opened, OpenLine.spoiled, returns, axis, untracked]

end

theorem exec_leadingEdge {s : State} (ho : s.operating = true) (i : LineId) (phase : Fin 256) :
    exec (.leadingEdge i phase) s = .next (s.leadingEdge i phase.val) := by
  simp only [exec, execLeadingEdge, s.whileOperating_of_operating _ ho]

/-! ### A sample event and an open line (R29, R32) -/

section
variable {o : OpenLine} {k : ChannelIx} (c c' : Channel) (increment : Int) (amplitude : Nat)

theorem OpenLine.discardedBy_other (h : o.axis ≠ k) (e : ChannelNews) : ¬o.discardedBy (LineNews.only k e) := by
  rintro ⟨e', he, -⟩
  simp [LineNews.only, h] at he

theorem OpenLine.discardedBy_waiting (h : o.axis = k) {n : Nat} (hn : o.leading.axis = .waiting n) :
    let e := ChannelNews.ofSample c c' increment amplitude
    o.discardedBy (LineNews.only k e)
      ↔ c'.state ≠ .tracking ∨ o.span < ((c'.raw + c'.offset) - e.edge n).toInt.natAbs := by
  intro e
  simp only [OpenLine.discardedBy, LineNews.only, h, if_true, Option.some.injEq, exists_eq_left', hn, Snapshot.after,
    Snapshot.completed.injEq]
  simp only [e, ChannelNews.ofSample, decide_eq_true_eq, Option.some.injEq, exists_eq_left']
  constructor
  · rintro (⟨-, left⟩ | ⟨p, st, ⟨rfl, rfl⟩, spoils⟩)
    · exact .inl left
    · exact spoils
  · exact fun spoils => .inr ⟨_, _, ⟨rfl, rfl⟩, spoils⟩

theorem OpenLine.discardedBy_placed (h : o.axis = k) {p : Position} (hp : o.leading.axis = .completed p .tracking) :
    o.discardedBy (LineNews.only k (.ofSample c c' increment amplitude))
      ↔ (c.state = .tracking ∧ c'.state ≠ .tracking) ∨ o.span < ((c'.raw + c'.offset) - p).toInt.natAbs := by
  simp only [OpenLine.discardedBy, LineNews.only, h, if_true, Option.some.injEq, exists_eq_left', hp, Snapshot.after,
    Snapshot.completed.injEq]
  simp only [ChannelNews.ofSample, decide_eq_true_eq, Option.some.injEq, exists_eq_left']
  constructor
  · rintro (left | ⟨_, _, ⟨rfl, rfl⟩, untracked | long⟩)
    · exact .inl left
    · exact absurd rfl untracked
    · exact .inr long
  · rintro (left | long)
    · exact .inl left
    · exact .inr ⟨_, _, ⟨rfl, rfl⟩, .inr long⟩

end

theorem State.passSees_line (s : State) (k : ChannelIx) (left : Bool) (p : Position) (i : LineId) :
    (s.passSees k left p).line i = s.line i := by
  cases i <;> simp [State.line]

/-- What a sample event makes of an open line: it is discarded, or goes on with the snapshots that came back. -/
theorem State.sampleChannel_inLine {s : State} (k : ChannelIx) (increment : Int) (amplitude : Nat) (first : MeetOrder) {i : LineId}
    {o : OpenLine} (h : (s.line i).phase = .inLine o) :
    let t := s.sampleChannel k increment amplitude first
    let news := LineNews.only k (.ofSample (s.channel k) (t.channel k) increment amplitude)
    (o.discardedBy news → ∃ leading, (t.line i).phase = .discarding { o with leading := leading })
      ∧ (¬o.discardedBy news → (t.line i).phase = .inLine { o with leading := o.leading.after news o.axis o.pair }) := by
  intro t
  obtain ⟨u, tells, -, -, e⟩ := s.sampleChannel_eq k increment amplitude first
  obtain ⟨-, channels, -⟩ := s.sampleChannel_frame k increment amplitude first
  have after : t.channel k = ((s.channel k).sample increment amplitude).1 := by
    rw [State.channel_set channels, if_pos rfl]
  have phase : (t.line i).phase = (u.line i).phase := by
    simp only [t, e]
    rw [u.settleEvent_eq first _ fun v => by simp, u.concludes_phase first _ i fun v => v.passSees_line _ _ _ i]
  rw [after, phase]
  exact ⟨(tells.lines i).discarded o h, (tells.lines i).kept o h⟩

/-- Settles O17: the edge opens the line, or discards it at once; and a sample event of its axis places it, discards it or lets it go
on. -/
theorem leadingEdgeOpensLine : Obligations.LeadingEdgeOpensLine := by
  refine ⟨?_, ?_, ?_⟩
  · intro s i phase ho on quiet l ask o level
    have run := exec_leadingEdge ho i phase
    rw [State.leadingEdge_enabled _ quiet on] at run
    refine ⟨fun present inn => ⟨s.askSnapshot_waits _ present inn, ?_⟩, fun gone untracked => ?_⟩
    · rw [run, State.guardOpen_opened_waits _ present inn]
      rfl
    · rw [run, State.guardOpen_opened_returns _ gone untracked]
      rfl
  · intro s i phase ho off quiet
    exact ⟨_, (exec_leadingEdge ho i phase).trans (congrArg _ (State.leadingEdge_disabled _ quiet off))⟩
  · intro s k increment amplitude first i o ho hm on line
    refine ⟨_, exec_sampleEvent s k increment amplitude first ho hm on, ?_⟩
    intro c c' edge passes goesOn discarded
    obtain ⟨discards, keeps⟩ := State.sampleChannel_inLine k increment amplitude.val first line
    refine ⟨fun axis n waits => ⟨fun spoiled => ?_, fun tracks short => ?_⟩,
      fun axis p placed => ⟨fun spoiled => ?_, fun stays short => ?_⟩, fun other => ?_⟩
    · exact discards ((OpenLine.discardedBy_waiting _ _ _ _ axis waits).mpr spoiled)
    · have kept := keeps (mt (OpenLine.discardedBy_waiting _ _ _ _ axis waits).mp (not_or.mpr ⟨not_not.mpr tracks, short⟩))
      refine ⟨_, ?_, kept⟩
      simp only [EdgeSnapshots.after, axis, LineNews.only, if_true, waits, Snapshot.after]
      exact congrArg _ tracks
    · exact discards ((OpenLine.discardedBy_placed _ _ _ _ axis placed).mpr spoiled)
    · have kept := keeps (mt (OpenLine.discardedBy_placed _ _ _ _ axis placed).mp (not_or.mpr ⟨stays, short⟩))
      refine ⟨_, ?_, kept⟩
      simp only [EdgeSnapshots.after, placed, Snapshot.after]
    · have kept := keeps (OpenLine.discardedBy_other other _)
      refine ⟨_, ?_, kept⟩
      simp only [EdgeSnapshots.after, LineNews.only, if_neg other, Snapshot.after_none]

end Sys2Proof.Machine
end

