-- ==== Sys2Proof/Proofs/TrailingEdges.lean ====
section
/-! SUPPORT. Trailing edges, the forming of a closing line, and its centre and width (R31, R33 to R39). -/

namespace Sys2Proof.Machine

/-! ### Trailing edges (R26, R31, R33, R34) -/

theorem exec_trailingEdge {s : State} (ho : s.operating = true) (i : LineId) (phase : Fin 256) :
    exec (.trailingEdge i phase) s = .next (s.trailingEdge i phase.val) := by
  simp only [exec, execTrailingEdge, s.whileOperating_of_operating _ ho]

/-- The input once its trailing edge has passed, under the polarity that judges it. -/
def LineInput.passed (l : LineInput) (polarity : Polarity) : LineInput := { l with level := polarity.bareLevel, phase := .quiet }

section
variable {s : State} {i : LineId} (phase : Nat)

theorem State.trailingEdge_quiet (h : (s.line i).phase = .quiet) :
    s.trailingEdge i phase = s.setLine i ((s.line i).passed (s.line i).polarity) := by
  simp only [State.trailingEdge, LineInput.judging, LineInput.passed, h]

theorem State.trailingEdge_discarding {o : OpenLine} (h : (s.line i).phase = .discarding o) :
    s.trailingEdge i phase = s.setLine i ((s.line i).passed o.polarity) := by
  simp only [State.trailingEdge, LineInput.judging, LineInput.passed, h]

theorem State.trailingEdge_narrow {o : OpenLine} (h : (s.line i).phase = .inLine o)
    (narrow : (∃ n, o.leading.axis = .waiting n) ∨ (s.line i).closing ≠ none) :
    s.trailingEdge i phase = (s.setLine i ((s.line i).passed o.polarity)).count .smear 1 := by
  have tooNarrow : ∀ l : LineInput, l.closing = (s.line i).closing → l.tooNarrow o = true := by
    intro l hl
    rw [LineInput.tooNarrow, hl, Bool.or_eq_true]
    obtain ⟨n, waits⟩ | held := narrow
    · exact .inl (by simp [waits, Snapshot.value])
    · exact .inr (Option.isSome_iff_ne_none.mpr held)
  simp only [State.trailingEdge, h]
  refine (if_pos (tooNarrow _ (by rfl))).trans ?_
  simp only [LineInput.judging, LineInput.passed, h]

theorem State.trailingEdge_placed {o : OpenLine} (h : (s.line i).phase = .inLine o) {p : Position} {st : ChannelState}
    (placed : o.leading.axis = .completed p st) (free : (s.line i).closing = none) :
    s.trailingEdge i phase =
      ({ s with earlierClosing := s.closingOrder i }.setLine i
        { (s.line i).passed o.polarity with closing := some ⟨o, s.askEdge phase o.axis o.pair⟩ }).formSightings.arbitrate := by
  have wide : ∀ l : LineInput, l.closing = (s.line i).closing → ¬l.tooNarrow o = true := by
    intro l hl
    simp [LineInput.tooNarrow, hl, free, placed, Snapshot.value]
  simp only [State.trailingEdge, h]
  refine (if_neg (wide _ (by rfl))).trans ?_
  simp only [State.closeLine, LineInput.judging, LineInput.passed, h]

end

/-! ### Forming (R35) -/

/-- A closing line waits for the snapshot of its axis. -/
theorem ClosingLine.form_axis_waiting {c : ClosingLine} {n : Nat} (h : c.trailing.axis = .waiting n) : c.form = .waiting := by
  unfold ClosingLine.form
  rw [h]
  cases c.line.leading.axis <;> rfl

theorem ClosingLine.form_pair_waiting {c : ClosingLine} (h : c.pairReady = false) : c.form = .waiting := by
  unfold ClosingLine.form
  rw [h]
  cases c.line.leading.axis <;> cases c.trailing.axis <;> rfl

section
variable {s : State} {i : LineId} {c : ClosingLine} (h : (s.line i).closing = some c)
include h

theorem State.formLine_waiting (hf : c.form = .waiting) : s.formLine i = s := by
  simp only [State.formLine, h, hf]

theorem State.formLine_refused (hf : c.form = .refused) :
    s.formLine i = (s.setLine i { s.line i with closing := none }).count .smear 1 := by
  simp only [State.formLine, h, hf]

theorem State.formLine_formed {centre : Position} {width : Nat} {abbe : Option Position} (hf : c.form = .formed centre width abbe) :
    s.formLine i = (s.setLine i { s.line i with closing := none }).tagSighting i centre width abbe := by
  simp only [State.formLine, h, hf]

end

/-- Forming the closing line of one input leaves the other alone. -/
theorem State.formLine_line_other (s : State) {i j : LineId} (h : i ≠ j) : (s.formLine j).line i = s.line i := by
  have tagged : ∀ (v : State) c w a, (v.tagSighting j c w a).line i = v.line i := by
    intro v c w a
    cases i <;> simp [State.line]
  have put : ∀ l, (s.setLine j l).line i = s.line i := by
    intro l
    have other : i = otherLine j := by
      cases i <;> cases j <;> simp_all [otherLine]
    rw [other, s.line_setLine_other]
  unfold State.formLine
  split
  · rfl
  · split
    · rfl
    · exact put _
    · rw [tagged, put]

/-- An input whose closing line still waits is left alone when sightings are formed. -/
theorem State.formLine_line_waiting {s : State} {i : LineId} {c : ClosingLine} (h : (s.line i).closing = some c)
    (hf : c.form = .waiting) (j : LineId) : (s.formLine j).line i = s.line i := by
  by_cases hj : i = j
  · subst hj; rw [State.formLine_waiting h hf]
  · exact s.formLine_line_other hj

theorem State.formSightings_line_waiting {s : State} {i : LineId} {c : ClosingLine} (h : (s.line i).closing = some c)
    (hf : c.form = .waiting) : s.formSightings.line i = s.line i := by
  have once := State.formLine_line_waiting h hf s.earlierClosing
  rw [State.formSightings, State.formLine_line_waiting (by rw [once]; exact h) hf, once]

theorem State.line_arbitrate (s : State) (i : LineId) : s.arbitrate.line i = s.line i := by
  cases i <;> simp [State.line]

/-- Settles O18: the edge by the state of the input; a line that it closes is formed as far as its snapshots have come back. -/
theorem trailingEdgeByState : Obligations.TrailingEdgeByState := by
  intro s i phase ho runs bare passed
  have run := exec_trailingEdge ho i phase
  have spelled : ∀ polarity, passed polarity = (s.line i).passed polarity := by
    rintro (_ | _) <;> rfl
  refine ⟨fun quiet => ?_, fun o discarding => ?_, fun o line narrow => ?_, fun o p st line placed free => ?_⟩
  · rw [spelled]
    exact run.trans (congrArg _ (State.trailingEdge_quiet _ quiet))
  · rw [spelled]
    exact run.trans (congrArg _ (State.trailingEdge_discarding _ discarding))
  · rw [spelled]
    exact run.trans (congrArg _ (State.trailingEdge_narrow _ line narrow))
  · intro ask l other order closed t
    have ordered : order.1 = s.closingOrder i ∧ order.2 = otherLine order.1 := by
      have others : other = otherLine i := rfl
      have back : otherLine other = i := by cases i <;> rfl
      by_cases hc : (s.line other).closing = none
      · have horder : order = (i, other) := if_pos hc
        rw [horder, State.closingOrder, ← others, hc]
        exact ⟨rfl, others⟩
      · have horder : order = (other, i) := if_neg hc
        rw [horder, State.closingOrder, ← others, Option.isSome_iff_ne_none.mpr hc]
        exact ⟨rfl, back.symm⟩
    obtain ⟨earlier, later⟩ := ordered
    have earlierClosed : closed.earlierClosing = order.1 := by simp [closed]
    have formed : t = closed.formSightings.arbitrate := by
      simp only [t, State.formSightings, earlierClosed, later]
    refine ⟨?_, ?_, fun present on => ?_⟩
    · refine run.trans (congrArg _ ?_)
      rw [State.trailingEdge_placed _ line placed free, formed]
      simp only [closed, l, earlier, spelled]
      rfl
    · rw [formed]
      simpa using earlierClosed
    · have held : closed.line i = l := State.line_setLine _ i l
      have waits : ClosingLine.form ⟨o, s.askEdge phase.val o.axis o.pair⟩ = .waiting :=
        ClosingLine.form_axis_waiting (s.askSnapshot_waits phase.val present on)
      refine ⟨?_, ?_, ?_, ?_⟩
      · rw [formed, State.line_arbitrate, State.formSightings_line_waiting (by rw [held]; rfl) waits, held]
      · rw [formed]; simp [closed]
      · rw [formed]; simp [closed]
      · rw [formed]; simp [closed]

end Sys2Proof.Machine
end

