-- ==== Sys2Proof/Proofs/Sightings.lean ====
section
/-! SUPPORT. A sighting from its four edges: when a closing line is judged, its centre, width and Abbe value, and the end of a sample
event (R35 to R37, R100, R103). -/

namespace Sys2Proof.Machine

/-! ### The judging of a closing line (R35 to R37) -/

section
variable {c : ClosingLine}

theorem ClosingLine.form_complete {a b : Position} {sa sb : ChannelState} (leading : c.line.leading.axis = .completed a sa)
    (trailing : c.trailing.axis = .completed b sb) (ready : c.pairReady = true) :
    c.form = if sb ≠ .tracking ∨ c.line.span < widthOf a b then .refused
      else .formed (centreOf a b c.line.offset) (widthOf a b) c.abbe := by
  simp only [ClosingLine.form, leading, trailing, ready, Snapshot.value]

theorem ClosingLine.pairReady_none (h : c.trailing.pair = none) : c.pairReady = true := by
  simp only [ClosingLine.pairReady, h]

theorem ClosingLine.pairReady_some {x y : Snapshot} (h : c.trailing.pair = some (x, y)) :
    c.pairReady = (x.value.isSome && y.value.isSome) := by
  simp only [ClosingLine.pairReady, h]

theorem ClosingLine.abbe_none (h : c.trailing.pair = none) : c.abbe = none := by
  unfold ClosingLine.abbe
  rw [h]
  cases c.line.leading.pair <;> rfl

section
variable {pa qa pb qb : Position} {rp rq sp sq : ChannelState}
  (leading : c.line.leading.pair = some (.completed pa rp, .completed qa rq))
  (trailing : c.trailing.pair = some (.completed pb sp, .completed qb sq))
include leading trailing

theorem ClosingLine.abbe_tracking (h : rp = .tracking ∧ rq = .tracking ∧ sp = .tracking ∧ sq = .tracking) :
    c.abbe = some (BitVec.ofInt 48 (((pa - qa).toInt + (pb - qb).toInt) / 2)) := by
  obtain ⟨rfl, rfl, rfl, rfl⟩ := h
  simp only [ClosingLine.abbe, leading, trailing, Snapshot.value]

theorem ClosingLine.abbe_untracked (h : ¬(rp = .tracking ∧ rq = .tracking ∧ sp = .tracking ∧ sq = .tracking)) : c.abbe = none := by
  simp only [ClosingLine.abbe, leading, trailing, Snapshot.value]
  split
  next hp hq hp' hq' =>
    refine absurd ⟨?_, ?_, ?_, ?_⟩ h
    all_goals simp_all
  next => rfl

end
end

/-! ### Centre and width (R36) -/

theorem toInt_sub_of_range {a b : Position} (low : -(2 ^ 47) ≤ b.toInt - a.toInt) (high : b.toInt - a.toInt < 2 ^ 47) :
    (b - a).toInt = b.toInt - a.toInt := by
  rw [BitVec.toInt_sub]
  exact Int.bmod_eq_of_le (by omega) (by omega)

theorem toInt_centreOf {a b : Position} {offset : BitVec 32} (low : -(2 ^ 47) ≤ b.toInt - a.toInt) (high : b.toInt - a.toInt < 2 ^ 47)
    (least : -(2 ^ 47) ≤ (a.toInt + b.toInt) / 2 + offset.toInt) (most : (a.toInt + b.toInt) / 2 + offset.toInt < 2 ^ 47) :
    (centreOf a b offset).toInt = (a.toInt + b.toInt) / 2 + offset.toInt := by
  have middle : a.toInt + (b.toInt - a.toInt) / 2 = (a.toInt + b.toInt) / 2 := by omega
  have extended : (offset.signExtend 48).toInt = offset.toInt := BitVec.toInt_signExtend_of_le (by omega)
  rw [centreOf, toInt_sub_of_range low high, BitVec.toInt_add, BitVec.toInt_add, BitVec.toInt_ofInt, extended,
    Int.add_bmod_bmod, Int.bmod_add_bmod, middle]
  exact Int.bmod_eq_of_le (by omega) (by omega)

/-! ### The pass controller at a sample event (R100, R101, R103) -/

section
variable {s : State} {t : PassTerms} {p : Position} (terms : s.pass.terms = some t)
include terms

theorem State.testCrossing_stays (h : ¬(t.crossed p = true ∧ (s.pass.state = .arming ∨ s.pass.state = .running))) :
    s.testCrossing p = s := by
  have not : ¬(s.pass.state.live && t.crossed p) = true := by
    rw [Bool.and_eq_true, PassState.live_iff]
    exact fun hc => h hc.symm
  simp only [State.testCrossing, terms]
  rw [if_neg not]

section
variable (crossed : t.crossed p = true) (live : s.pass.state = .arming ∨ s.pass.state = .running)
include crossed live

theorem State.testCrossing_measure (kind : t.kind = .measure) :
    s.testCrossing p =
      { s with
        pass := { s.pass with state := .closing, outcome := some .done }
        passTimer := false
        sweepClaim := if s.pass.state = .running then some .close else s.sweepClaim } := by
  have hl := (PassState.live_iff _).mpr live
  rw [← s.closeLivePass_live hl]
  simp only [State.testCrossing, terms, hl, crossed, kind, Bool.and_self, if_true]

theorem State.testCrossing_datum {mark : Nat} (kind : t.kind = .datum mark) : s.testCrossing p = s.takesAbort .notFound := by
  have hl := (PassState.live_iff _).mpr live
  rw [← s.abortLivePass_eq .notFound (by simp)]
  simp only [State.testCrossing, terms, hl, crossed, kind, Bool.and_self, if_true]

end
end

/-- Settles O20: the closing line by its snapshots, its centre away from the wrap, and the sample event with its three parts. -/
theorem sightingIsFormedFromEdges : Obligations.SightingIsFormedFromEdges := by
  refine ⟨?_, ?_, ?_, ?_, ?_⟩
  · rintro c n (axis | ⟨y, pair⟩ | ⟨x, pair⟩)
    · exact ClosingLine.form_axis_waiting axis
    · exact ClosingLine.form_pair_waiting (by rw [ClosingLine.pairReady_some pair]; rfl)
    · exact ClosingLine.form_pair_waiting (by rw [ClosingLine.pairReady_some pair]; exact Bool.and_false _)
  · intro c a b sa sb leading trailing refused formed
    refine ⟨fun single => ?_, fun pb qb sp sq pair => ?_⟩
    · have form := ClosingLine.form_complete leading trailing (ClosingLine.pairReady_none single)
      rw [ClosingLine.abbe_none single] at form
      exact ⟨fun bad => form.trans (if_pos bad), fun good => form.trans (if_neg good)⟩
    · have form := ClosingLine.form_complete leading trailing (by rw [ClosingLine.pairReady_some pair]; rfl)
      refine ⟨fun bad => form.trans (if_pos bad), fun pa qa rp rq good latched => ⟨fun tracking => ?_, fun untracked => ?_⟩⟩
      · rw [ClosingLine.abbe_tracking latched pair tracking] at form
        exact form.trans (if_neg good)
      · rw [ClosingLine.abbe_untracked latched pair untracked] at form
        exact form.trans (if_neg good)
  · exact fun s i c closing => ⟨State.formLine_waiting closing, State.formLine_refused closing,
      fun centre width abbe => State.formLine_formed closing⟩
  · intro a b offset low high least most
    exact ⟨toInt_centreOf low high least most, by rw [widthOf, toInt_sub_of_range low high]⟩
  · intro s k increment amplitude first ho hm on c
    obtain ⟨u, tells, channels, monitor, settles⟩ := s.sampleChannel_eq k increment amplitude.val first
    refine ⟨u, _, tells, channels, monitor, ?_⟩
    rw [exec_sampleEvent s k increment amplitude first ho hm on, settles, u.settleEvent_eq first _ fun v => by simp]
    congr 2
    funext v
    by_cases axis : k = v.config.axis
    case neg => exact (if_neg axis).trans (if_pos axis).symm
    by_cases left : c.state = .tracking ∧ (c.sample increment amplitude.val).1.state ≠ .tracking
    case pos =>
      rw [State.passSees, if_pos axis, if_pos (decide_eq_true left), v.abortLivePass_eq .axis (by simp)]
      exact ((if_neg (not_not.mpr axis)).trans (if_pos left)).symm
    case neg =>
      rw [State.passSees, if_pos axis, if_neg (by simpa using left)]
      refine Eq.trans ?_ ((if_neg (not_not.mpr axis)).trans (if_neg left)).symm
      cases terms : v.pass.terms with
      | none => simp only [State.testCrossing, terms]
      | some t =>
        by_cases crossing : t.crossed (c.sample increment amplitude.val).1.position = true
            ∧ (v.pass.state = .arming ∨ v.pass.state = .running)
        case neg => exact (State.testCrossing_stays terms crossing).trans (if_neg crossing).symm
        case pos =>
          obtain ⟨crossed, live⟩ := crossing
          refine Eq.trans ?_ (if_pos ⟨crossed, live⟩).symm
          cases kind : t.kind with
          | measure => exact State.testCrossing_measure terms crossed live kind
          | datum mark => exact State.testCrossing_datum terms crossed live kind

end Sys2Proof.Machine
end

