-- ==== Sys2Proof/Proofs/Stops.lean ====
section
/-! SUPPORT. A STOP (R155, R161, R163) and the armed reset it brings about: the blocks a part reset leaves (R40, R170), and what an
interface reset leaves of the pass, the table unit and the event unit (R59, R63, R103, R116, R150, R159). -/

namespace Sys2Proof.Machine

/-! ### The event unit (R155, R157, R159) -/

/-- A notice of which every byte was acknowledged takes the pending flag with it, unless a later raise is marked (R155). -/
theorem EventUnit.stopNotice_eq (e : EventUnit) :
    e.stopNotice = { e with
      notice := none
      noticePending := e.noticePending && e.notice.all fun n => !n.acknowledged || n.laterRaise } := by
  obtain ⟨_, _, _, _, _, _, pending, _, _ | n⟩ := e <;> simp [EventUnit.stopNotice]

/-- The notice in progress is nothing to an interface reset: it keeps no part of it. -/
theorem EventUnit.interfaceReset_stopNotice (e : EventUnit) (down : BitVec 6) (full : Bool) :
    e.stopNotice.interfaceReset down full = e.interfaceReset down full := by
  rw [e.stopNotice_eq]
  rfl

/-- The report of a condition: its flag is raised where the condition holds. -/
def EventUnit.raiseWhere (e : EventUnit) (holds : Bool) (f : EventFlag) : EventUnit := if holds then e.raise f else e

section
variable (e : EventUnit) (holds : Bool) (f : EventFlag)

@[simp] theorem EventUnit.raiseWhere_enables : (e.raiseWhere holds f).enables = e.enables := by cases holds <;> rfl
@[simp] theorem EventUnit.raiseWhere_groupMask : (e.raiseWhere holds f).groupMask = e.groupMask := by cases holds <;> rfl
@[simp] theorem EventUnit.raiseWhere_axisMask : (e.raiseWhere holds f).axisMask = e.axisMask := by cases holds <;> rfl
@[simp] theorem EventUnit.raiseWhere_counters : (e.raiseWhere holds f).counters = e.counters := by cases holds <;> rfl
@[simp] theorem EventUnit.raiseWhere_lastLinkFault : (e.raiseWhere holds f).lastLinkFault = e.lastLinkFault := by cases holds <;> rfl
@[simp] theorem EventUnit.raiseWhere_noticeOn : (e.raiseWhere holds f).noticeOn = e.noticeOn := by cases holds <;> rfl

@[simp] theorem EventUnit.raiseWhere_enabled (g : EventFlag) : (e.raiseWhere holds f).enabled g = e.enabled g := by
  cases holds <;> rfl

@[simp] theorem EventUnit.raiseWhere_noticePending :
    (e.raiseWhere holds f).noticePending = (e.noticePending || e.enabled f && holds) := by
  cases holds <;> simp [EventUnit.raiseWhere, EventUnit.raise]

theorem EventUnit.raiseWhere_notice (h : e.notice = none) : (e.raiseWhere holds f).notice = none := by
  cases holds <;> simp [EventUnit.raiseWhere, EventUnit.raise, h]

@[simp] theorem EventUnit.has_raiseWhere (g : EventFlag) :
    (e.raiseWhere holds f).has g = (e.has g || decide (f = g) && holds) := by
  cases holds <;> simp [EventUnit.raiseWhere, EventUnit.has_raise]

end

theorem EventUnit.raiseConditions_eq (e : EventUnit) (down : BitVec 6) (full : Bool) :
    e.raiseConditions down full
      = (EventUnit.raiseWhere { e with axisMask := e.axisMask ||| down } (decide (down ≠ 0)) .axisDown).raiseWhere full .tableFull := by
  by_cases axis : down = 0#6
  · subst axis
    simp [EventUnit.raiseConditions, EventUnit.raiseWhere]
  · simp [EventUnit.raiseConditions, EventUnit.raiseWhere, axis]

/-- Everything an interface reset leaves of the event unit: its settings, and the conditions that hold raised again (R159). -/
structure EventUnit.ResetTo (e : EventUnit) (down : BitVec 6) (full : Bool) (t : EventUnit) : Prop where
  counters : t.counters = {}
  groupMask : t.groupMask = 0
  axisMask : t.axisMask = down
  notice : t.notice = none
  enables : t.enables = e.enables
  noticeOn : t.noticeOn = e.noticeOn
  lastLinkFault : t.lastLinkFault = e.lastLinkFault
  flags : ∀ f, t.has f = true ↔ (f = .axisDown ∧ down ≠ 0) ∨ (f = .tableFull ∧ full = true)
  pending : t.noticePending = true ↔ (e.enabled .axisDown = true ∧ down ≠ 0) ∨ (e.enabled .tableFull = true ∧ full = true)

theorem EventUnit.resetTo_interfaceReset (e : EventUnit) (down : BitVec 6) (full : Bool) :
    e.ResetTo down full (e.interfaceReset down full) := by
  let bare : EventUnit := { enables := e.enables, noticeOn := e.noticeOn, lastLinkFault := e.lastLinkFault, axisMask := down }
  have clear : ∀ f, bare.has f = false := fun f => BitVec.getLsbD_zero
  have raised : e.interfaceReset down full = (bare.raiseWhere (decide (down ≠ 0)) .axisDown).raiseWhere full .tableFull := by
    rw [EventUnit.interfaceReset, EventUnit.raiseConditions_eq]
    simp [bare]
  rw [raised]
  refine ⟨by simp [bare], by simp [bare], by simp [bare], ?_, by simp [bare], by simp [bare], by simp [bare], fun f => ?_, ?_⟩
  · exact EventUnit.raiseWhere_notice _ _ _ (EventUnit.raiseWhere_notice _ _ _ rfl)
  · simp [clear, eq_comm (b := f)]
  · simp [bare, EventUnit.enabled]

/-! ### The part reset (R40, R143, R170, R171) -/

theorem State.line_partReset (s : State) (straps : Straps) (i : LineId) :
    (s.partReset straps).line i = (s.line i).afterReset := by
  cases i <;> rfl

theorem State.channel_partReset (s : State) (straps : Straps) (k : ChannelIx) : (s.partReset straps).channel k = {} :=
  State.reset_channel k

theorem State.slot_partReset (s : State) (straps : Straps) (k : Fin 64) : (s.partReset straps).slot k = 0 := by
  simp [State.slot, State.partReset, State.blockReset, State.reset]

theorem State.group_partReset (s : State) (straps : Straps) (g : Fin 8) : (s.partReset straps).group g = {} := by
  simp [State.group, State.partReset, State.blockReset, State.reset]

/-! ### The interface reset (R59, R63, R103, R116, R159) -/

/-- The operation that a waiting sweep becomes when the table unit takes it up. -/
def SweepClaim.taken : SweepClaim → TableOp
  | .close => .closeSweep
  | .abort => .abortSweep

/-- What a free table unit picks while no sighting is queued. -/
theorem State.arbitrate_swept (s : State) (free : s.tableOp = none) (empty : s.queue = []) :
    s.arbitrate = { s with tableOp := s.sweepClaim.map SweepClaim.taken, sweepClaim := none } := by
  cases claim : s.sweepClaim with
  | none =>
    rw [s.arbitrate_none free claim empty]
    cases s; cases free; cases claim; rfl
  | some c =>
    cases c with
    | close => exact s.arbitrate_close free claim empty
    | abort => exact s.arbitrate_abort free claim

theorem State.arbitrate_unqueued (s : State) (empty : s.queue = []) : s.arbitrate.queue = [] := by
  cases op : s.tableOp with
  | none => rw [s.arbitrate_swept op empty]; exact empty
  | some _ => rw [s.arbitrate_busy op]; exact empty

/-- The machine that an interface reset leaves, before the table unit picks its next claim. -/
def State.interfaceCleared (s : State) : State :=
  { s with
    queue := []
    line1 := s.line1.dropLines
    line2 := s.line2.dropLines
    pass := if s.pass.state.live then { s.pass with state := .aborting, outcome := some (.aborted .reset) } else s.pass
    passTimer := if s.pass.state.live then false else s.passTimer
    sweepClaim := if s.pass.state.live then some .abort else s.sweepClaim
    events := s.events.interfaceReset s.downMask s.tableFull }

theorem State.interfaceReset_eq (s : State) : s.interfaceReset = s.interfaceCleared.arbitrate := by
  unfold State.interfaceReset State.interfaceCleared
  cases live : s.pass.state.live with
  | true => rw [s.abortLivePass_live .reset live]; rfl
  | false => rw [s.abortLivePass_not_live .reset live]; rfl

/-! ### The STOP -/

theorem State.linkStop_part (s : State) (straps : Straps) (h : s.link.armedPart = true) :
    s.linkStop straps = s.stopExchange.partReset straps := by
  simp only [State.linkStop, h, if_true]

theorem State.linkStop_interface (s : State) (straps : Straps) (hp : s.link.armedPart = false) (hi : s.link.armedInterface = true) :
    s.linkStop straps = s.stopExchange.interfaceReset := by
  simp [State.linkStop, hp, hi]

theorem State.linkStop_unarmed (s : State) (straps : Straps) (hp : s.link.armedPart = false) (hi : s.link.armedInterface = false) :
    s.linkStop straps = s.stopExchange := by
  simp [State.linkStop, hp, hi]

theorem exec_linkStop {s : State} (straps : Straps) (h : s.operating = true) :
    exec (.linkStop straps) s = .next (s.linkStop straps) := by
  rw [exec, execLinkStop, s.whileOperating_of_operating _ h]

/-- The link and the notice after a STOP, whatever the STOP brings about (R161, R163, R167, R170). -/
structure State.Stopped (t : State) : Prop where
  exchange : t.link.exchange = .idle
  response : t.link.response = .empty
  idleTimer : t.link.idleTimer = true
  armedPart : t.link.armedPart = false
  armedInterface : t.link.armedInterface = false
  notice : t.events.notice = none

theorem State.stopExchange_stopped (s : State) : s.stopExchange.Stopped :=
  ⟨rfl, rfl, rfl, rfl, rfl, by rw [s.stopExchange_events, EventUnit.stopNotice_eq]⟩

theorem State.partReset_stopped (s : State) (straps : Straps) : (s.partReset straps).Stopped := ⟨rfl, rfl, rfl, rfl, rfl, rfl⟩

theorem State.Stopped.interfaceReset {s : State} (h : s.Stopped) : s.interfaceReset.Stopped := by
  have link : s.interfaceReset.link = s.link := by rw [s.interfaceReset_eq, State.arbitrate_link]; rfl
  have notice : s.interfaceReset.events.notice = none := by
    rw [s.interfaceReset_eq, State.arbitrate_events]
    exact (EventUnit.resetTo_interfaceReset _ _ _).notice
  exact ⟨link ▸ h.exchange, link ▸ h.response, link ▸ h.idleTimer, link ▸ h.armedPart, link ▸ h.armedInterface, notice⟩

theorem State.linkStop_stopped (s : State) (straps : Straps) : (s.linkStop straps).Stopped := by
  unfold State.linkStop
  split
  · exact State.partReset_stopped _ _
  · split
    · exact s.stopExchange_stopped.interfaceReset
    · exact s.stopExchange_stopped

/-- Settles O45: the STOP by what is armed, each reset by what it leaves of its blocks. -/
theorem stopEndsExchange : Obligations.StopEndsExchange := by
  intro s straps ho
  have stopped := s.linkStop_stopped straps
  refine ⟨s.linkStop straps, exec_linkStop straps ho, stopped.exchange, stopped.response, stopped.idleTimer, stopped.armedPart,
    stopped.armedInterface, stopped.notice, fun part interface => ?_, fun part => ?_, fun part interface => ?_⟩
  · rw [s.linkStop_unarmed straps part interface]
    refine ⟨rfl, ?_⟩
    rw [State.stopExchange_events, EventUnit.stopNotice_eq]
    cases s.events.notice <;> simp
  · rw [s.linkStop_part straps part]
    refine ⟨rfl, rfl, rfl, rfl, rfl, rfl, rfl, rfl, State.channel_partReset _ _, State.slot_partReset _ _, State.group_partReset _ _,
      rfl, fun i => ?_, rfl, rfl, rfl⟩
    rw [State.line_partReset]
    cases i <;> rfl
  · rw [s.linkStop_interface straps part interface, State.interfaceReset_eq]
    let u := s.stopExchange.interfaceCleared
    have unqueued : u.queue = [] := rfl
    have events : s.events.ResetTo s.downMask s.tableFull u.arbitrate.events := by
      have same : u.events = s.events.interfaceReset s.downMask s.tableFull := s.events.interfaceReset_stopNotice _ _
      rw [u.arbitrate_events, same]
      exact s.events.resetTo_interfaceReset _ _
    have full : s.tableFull = true ↔ s.table.length = 2048 := by simp [State.tableFull, Config.tableCapacity]
    refine ⟨u.arbitrate_table, u.arbitrate_channels, u.arbitrate_config, u.arbitrate_monitor, u.arbitrate_occupancy,
      u.arbitrate_groups, u.arbitrate_protection, u.arbitrate_unqueued unqueued, by rw [u.arbitrate_link]; rfl,
      by rw [u.arbitrate_link]; rfl, u.arbitrate_pass, u.arbitrate_passTimer, fun busy => ?_, fun free => ?_, fun i => ?_,
      events.counters, events.groupMask, events.enables, events.noticeOn, events.lastLinkFault, fun f => ?_, fun k => ?_, ?_⟩
    · obtain ⟨op, hop⟩ := Option.ne_none_iff_exists'.mp busy
      rw [u.arbitrate_busy hop]
      exact ⟨rfl, rfl⟩
    · rw [u.arbitrate_swept free unqueued]
      refine ⟨rfl, ?_⟩
      have claim : u.sweepClaim = if s.pass.state.live then some .abort else s.sweepClaim := rfl
      cases live : s.pass.state.live with
      | true => simp [claim, live, SweepClaim.taken]
      | false => rcases waiting : s.sweepClaim with _ | (_ | _) <;> simp [claim, live, waiting, SweepClaim.taken]
    · rw [State.line_arbitrate]
      cases i <;> rfl
    · rw [events.flags, s.downMask_ne_zero, full]
    · rw [events.axisMask, s.getLsbD_downMask, Bool.eq_iff_iff, ChannelState.down_iff, decide_eq_true_iff]
    · rw [events.pending, s.downMask_ne_zero, full]

end Sys2Proof.Machine
end

