-- ==== Sys2Proof/Proofs/LineRequests.lean ====
section
/-! SUPPORT. What becomes of a sighting once it is formed: the prefilter, the queue and the UNPASSED count (R38, R39, R69, R71), and
SET LINE (R27, R28). -/

namespace Sys2Proof.Machine

/-! ### Tagging (R38, R39, R69) -/

theorem State.prefilter_stray (s : State) {x : Sighting} (h : s.slot (slotOf (bucketOf s.config.shift x.centre)) = 0) :
    s.prefilter x = s.count .stray 1 := if_pos h

theorem State.prefilter_passes (s : State) {x : Sighting} (h : s.slot (slotOf (bucketOf s.config.shift x.centre)) ≠ 0) :
    s.prefilter x = s.enqueue x := if_neg h

section
variable {s : State} (i : LineId) (centre : Position) (width : Nat) (abbe : Option Position)

theorem State.tagSighting_not_live (h : s.pass.state.live = false) : s.tagSighting i centre width abbe = s.count .unpassed 1 := by
  simp [State.tagSighting, h]

/-- Where the pass is live, its kind says which way the tagged sighting takes. -/
theorem State.tagSighting_live {terms : PassTerms} (record : s.pass.terms = some terms) (live : s.pass.state.live = true) :
    let x : Sighting := ⟨i, s.pass.number, centre, width, abbe⟩
    s.tagSighting i centre width abbe = if terms.kind = .measure then s.prefilter x else s.enqueue x := by
  cases kind : terms.kind <;> simp [State.tagSighting, live, record, kind]

/-- A sighting of a live pass that no slot at 0 drops goes to the queue. -/
theorem State.tagSighting_enqueues {terms : PassTerms} (record : s.pass.terms = some terms) (live : s.pass.state.live = true)
    (passes : terms.kind = .measure → s.slot (slotOf (bucketOf s.config.shift centre)) ≠ 0) :
    s.tagSighting i centre width abbe = s.enqueue ⟨i, s.pass.number, centre, width, abbe⟩ := by
  rw [State.tagSighting_live i centre width abbe record live]
  split
  next measure => exact s.prefilter_passes (passes measure)
  next => rfl

end

/-- Settles O19: the arithmetic of bucket and slot, and the way of a sighting by the state and the kind of its pass. -/
theorem sightingIsTaggedOrUnpassed : Obligations.SightingIsTaggedOrUnpassed := by
  refine ⟨toInt_bucketOf, fun b => by simpa using val_slotOf b, fun s i centre width abbe terms record => ?_⟩
  refine ⟨State.tagSighting_not_live i centre width abbe, fun live measure vacant => ?_, fun live passes room => ?_,
    fun live passes full => ?_⟩
  · rw [State.tagSighting_live i centre width abbe record live, if_pos measure]
    exact s.prefilter_stray vacant
  · rw [State.tagSighting_enqueues i centre width abbe record live passes, s.enqueue_room _ room]
  · rw [State.tagSighting_enqueues i centre width abbe record live passes, s.enqueue_full _ full]

/-! ### SET LINE (R27, R28) -/

/-- The fields that the ten parameter bytes of SET LINE carry. -/
def lineFieldsOf (input flags : Byte) (offset span : BitVec 32) : SetLineFields := ⟨input.toNat, flags.toNat, offset, span.toNat⟩

theorem exec_setLine {s : State} (h : s.receives) (input flags : Byte) (offset span : BitVec 32) :
    exec (.setLine ([input, flags] ++ fourBytes offset ++ fourBytes span)) s
      = .next ((s.responding .empty).setLineRequest (lineFieldsOf input flags offset span)) := by
  have fields : setLineFields ([input, flags] ++ fourBytes offset ++ fourBytes span) = lineFieldsOf input flags offset span := by
    have o : field ([input, flags] ++ fourBytes offset ++ fourBytes span) 2 4 = offset.toNat := beNat_four offset
    have p : field ([input, flags] ++ fourBytes offset ++ fourBytes span) 6 4 = span.toNat := beNat_four span
    rw [setLineFields, o, p, byteField_at _ 0 input rfl, byteField_at _ 1 flags rfl, BitVec.ofNat_toNat, BitVec.setWidth_eq,
      lineFieldsOf]
  have length : ([input, flags] ++ fourBytes offset ++ fourBytes span).length = 10 := rfl
  rw [exec, execSetLine, h.request_eq length, fields]

theorem lineFieldsOf_inRange {input flags : Byte} {offset span : BitVec 32} :
    (lineFieldsOf input flags offset span).inRange = true ↔ flags.toNat < 4 ∧ 1 ≤ span.toNat ∧ span.toNat ≤ 16777216 :=
  decide_eq_true_iff

theorem lineOfCode_none {input : Byte} (h : ¬(input = 1 ∨ input = 2)) : lineOfCode input.toNat = none := by
  unfold lineOfCode
  split
  next one => exact absurd (.inl (BitVec.eq_of_toNat_eq one)) h
  next two => exact absurd (.inr (BitVec.eq_of_toNat_eq two)) h
  next => rfl

theorem State.setLineRequest_no_line (s : State) {f : SetLineFields} (h : lineOfCode f.input = none) :
    s.setLineRequest f = s.reject .range := by
  simp only [State.setLineRequest, h]

theorem State.setLineRequest_of_line (s : State) {f : SetLineFields} {i : LineId} (h : lineOfCode f.input = some i) :
    s.setLineRequest f = if f.inRange = true then (s.setLine i ((s.line i).accept f)).answer .done [] else s.reject .range := by
  simp only [State.setLineRequest, h]
  cases f.inRange <;> rfl

/-- A line input set between the START of a request and its answer is set before both. -/
theorem State.answer_setLine_responding (s : State) (i : LineId) (l : LineInput) :
    ((s.responding .empty).setLine i l).answer .done [] = (s.setLine i l).answered [] := by
  cases i <;> rfl

theorem State.line_responding (s : State) (response : ResponseBuffer) (i : LineId) : (s.responding response).line i = s.line i := by
  cases i <;> rfl

/-- Settles O21: the two checks, and past them the stored fields, with the lines dropped where the enable is off. -/
theorem setLineStoresFields : Obligations.SetLineStoresFields := by
  intro s input flags offset span h c inRange
  have run : exec c s = _ := exec_setLine h input flags offset span
  refine ⟨fun bad => ?_, fun i good code => ?_⟩
  · refine run.trans (congrArg _ ?_)
    cases named : lineOfCode (lineFieldsOf input flags offset span).input with
    | none => exact State.setLineRequest_no_line _ named
    | some i =>
      have line : input = 1 ∨ input = 2 := by
        by_contra other
        cases (lineOfCode_none other).symm.trans named
      rw [State.setLineRequest_of_line _ named, if_neg fun fits => bad ⟨lineFieldsOf_inRange.mp fits, line⟩]
      rfl
  · intro stored
    have named : lineOfCode (lineFieldsOf input flags offset span).input = some i := by
      rw [code]
      cases i <;> rfl
    rw [State.setLineRequest_of_line _ named, if_pos (lineFieldsOf_inRange.mpr good), State.answer_setLine_responding,
      State.line_responding] at run
    refine ⟨fun on => ?_, fun off => ?_⟩
    · have accepted : (s.line i).accept (lineFieldsOf input flags offset span) = stored := if_pos on
      rwa [accepted] at run
    · have accepted : (s.line i).accept (lineFieldsOf input flags offset span) = stored.dropLines :=
        if_neg (Bool.eq_false_iff.mp off)
      rwa [accepted] at run

end Sys2Proof.Machine
end

