-- ==== Sys2Proof/Proofs/SweptRecords.lean ====
section
/-! SUPPORT. What a sweep makes of one record, step by step: the fold or the missed count, the staged amendment, and the state
(R43, R44, R108 to R113). -/

namespace Sys2Proof.Machine

/-! ### The first step: an ARMED record is resolved (R108, R113) -/

section
variable {r : MarkRecord} {l : LinePart}

theorem MarkRecord.resolveClose_unarmed (d : Direction) (h : r.state ≠ .armed) : r.resolveClose d = r := if_pos h

theorem MarkRecord.resolveAbort_unarmed (h : r.state ≠ .armed) : r.resolveAbort = r := if_pos h

theorem MarkRecord.resolveClose_fold (d : Direction) {c : CurrentPart} (armed : r.state = .armed) (line : r.kind = .line l)
    (part : l.current = some c) : r.resolveClose d = { r with kind := .line (l.fold d c) } := by
  simp only [MarkRecord.resolveClose, if_neg (not_not.mpr armed), line, part]

theorem MarkRecord.resolveClose_miss (d : Direction) (armed : r.state = .armed) (line : r.kind = .line l)
    (part : l.current = none) : r.resolveClose d = { r with kind := .line l.miss } := by
  simp only [MarkRecord.resolveClose, if_neg (not_not.mpr armed), line, part]

theorem MarkRecord.resolveAbort_line (armed : r.state = .armed) (line : r.kind = .line l) :
    r.resolveAbort = { r with kind := .line { l with current := none } } := by
  rw [MarkRecord.resolveAbort, if_neg (not_not.mpr armed), line]

theorem MarkRecord.resolveClose_other (d : Direction) (armed : r.state = .armed) (other : ∀ l, r.kind ≠ .line l) :
    r.resolveClose d = { r with state := .enrolled } := by
  rw [MarkRecord.resolveClose, if_neg (not_not.mpr armed)]
  cases k : r.kind with
  | line l => exact absurd k (other l)
  | datum d => rfl
  | keepout k => rfl

theorem MarkRecord.resolveAbort_other (armed : r.state = .armed) (other : ∀ l, r.kind ≠ .line l) :
    r.resolveAbort = { r with state := .enrolled } := by
  rw [MarkRecord.resolveAbort, if_neg (not_not.mpr armed)]
  cases k : r.kind with
  | line l => exact absurd k (other l)
  | datum d => rfl
  | keepout k => rfl

section
variable {d : Direction} {resolve : MarkRecord → MarkRecord} (step : resolve ∈ [MarkRecord.resolveClose d, MarkRecord.resolveAbort])
include step

/-- Either sweep makes an ARMED DATUM or KEEPOUT record ENROLLED again (R108, R113). -/
theorem MarkRecord.resolve_other (other : ∀ l, r.kind ≠ .line l) :
    resolve r = { r with state := if r.state = .armed then .enrolled else r.state } := by
  have either : resolve = MarkRecord.resolveClose d ∨ resolve = MarkRecord.resolveAbort := by simpa using step
  by_cases armed : r.state = .armed
  · rw [if_pos armed]
    obtain rfl | rfl := either
    · exact r.resolveClose_other d armed other
    · exact r.resolveAbort_other armed other
  · rw [if_neg armed]
    obtain rfl | rfl := either
    · exact r.resolveClose_unarmed d armed
    · exact r.resolveAbort_unarmed armed

/-- A LINE record that was not ARMED, or that the abort sweep resolves, keeps its results (R113). -/
theorem MarkRecord.resolve_kept (line : r.kind = .line l) (kept : r.state ≠ .armed ∨ resolve = MarkRecord.resolveAbort) :
    resolve r = { r with kind := .line { l with current := if r.state = .armed then none else l.current } } := by
  by_cases armed : r.state = .armed
  · rw [if_pos armed, kept.resolve_left (not_not.mpr armed)]
    exact r.resolveAbort_line armed line
  · have either : resolve = MarkRecord.resolveClose d ∨ resolve = MarkRecord.resolveAbort := by simpa using step
    rw [if_neg armed, ← line]
    obtain rfl | rfl := either
    · exact r.resolveClose_unarmed d armed
    · exact r.resolveAbort_unarmed armed

end
end

/-! ### The fold (R43, R108) -/

theorem widenCentres_least (e : CentreSpan) (c : Position) :
    (widenCentres (some e) c).least.toInt = min e.least.toInt c.toInt := by
  simp only [widenCentres]
  split <;> omega

theorem widenCentres_greatest (e : CentreSpan) (c : Position) :
    (widenCentres (some e) c).greatest.toInt = max e.greatest.toInt c.toInt := by
  simp only [widenCentres]
  split <;> omega

/-- What the fold of a part makes of the results, field by field; plan and staged amendment play no part in it. -/
structure LinePart.Folds (l : LinePart) (d : Direction) (c : CurrentPart) (l' : LinePart) : Prop where
  forward : d = .forward → l'.forwardCount = l.forwardCount + 1 ∧ l'.forwardSum = l.forwardSum + c.centre.signExtend 64
    ∧ l'.reverseCount = l.reverseCount ∧ l'.reverseSum = l.reverseSum
  reverse : d = .reverse → l'.reverseCount = l.reverseCount + 1 ∧ l'.reverseSum = l.reverseSum + c.centre.signExtend 64
    ∧ l'.forwardCount = l.forwardCount ∧ l'.forwardSum = l.forwardSum
  widthSum : l'.widthSum = l.widthSum + BitVec.ofNat 40 c.width
  centres : l'.centres = some (widenCentres l.centres c.centre)
  unpaired : c.abbe = none → l'.abbeCount = l.abbeCount ∧ l'.abbeSum = l.abbeSum
  paired : ∀ a, c.abbe = some a → l'.abbeCount = l.abbeCount + 1 ∧ l'.abbeSum = l.abbeSum + a.signExtend 64
  duplicates : l'.duplicates = if c.duplicate then min 255 (l.duplicates + 1) else l.duplicates
  faults : l'.missed = l.missed ∧ l'.widthFaults = l.widthFaults
  part : l'.current = none

theorem LinePart.folds_fold (l : LinePart) (d : Direction) (c : CurrentPart) (plan : LinePlan) :
    l.Folds d c { l.fold d c with plan := plan } := by
  obtain ⟨centre, width, input, abbe, duplicate⟩ := c
  constructor
  case forward => rintro rfl; cases abbe <;> exact ⟨rfl, rfl, rfl, rfl⟩
  case reverse => rintro rfl; cases abbe <;> exact ⟨rfl, rfl, rfl, rfl⟩
  case unpaired => rintro ⟨⟩; cases d <;> exact ⟨rfl, rfl⟩
  case paired => rintro a ⟨⟩; cases d <;> exact ⟨rfl, rfl⟩
  case faults => cases d <;> cases abbe <;> exact ⟨rfl, rfl⟩
  all_goals rfl

theorem LinePart.fold_plan (l : LinePart) (d : Direction) (c : CurrentPart) : (l.fold d c).plan = l.plan := by
  cases d <;> cases h : c.abbe <;> simp [LinePart.fold, LinePart.addCentre, LinePart.addAbbe, h]

/-! ### The staged amendment and the state (R44, R109, R111) -/

/-- The fields in force once a staged amendment is applied (R109). -/
def MarkRecord.stagedFields (r : MarkRecord) : Amendable :=
  match r.staged with
  | some a => a.fields
  | none => r.fields

/-- The plan in force once a staged amendment is applied, its passes needed raised to the counts (R109). -/
def MarkRecord.stagedPlan (r : MarkRecord) (l : LinePart) : LinePlan :=
  match r.staged.bind Amendment.plan with
  | some plan => { plan with passes := max plan.passes (max l.forwardCount l.reverseCount) }
  | none => l.plan

theorem LinePart.restState_eq (l : LinePart) :
    l.restState = if l.forwardCount = l.plan.passes ∧ l.reverseCount = l.plan.passes then .settled else .enrolled := by
  simp [LinePart.restState, LinePart.complete]

theorem LinePart.restState_ne_armed (l : LinePart) : l.restState ≠ .armed := by
  unfold LinePart.restState
  split <;> simp

theorem MarkRecord.restLine_other {r : MarkRecord} (other : ∀ l, r.kind ≠ .line l) : r.restLine = r := by
  unfold MarkRecord.restLine
  split
  next l k => exact absurd k (other l)
  all_goals rfl

theorem MarkRecord.restLine_line {r : MarkRecord} {l : LinePart} (line : r.kind = .line l) :
    r.restLine = { r with state := l.restState } := by
  rw [MarkRecord.restLine, line]

/-- The last two steps of a sweep on a LINE record. -/
theorem MarkRecord.applyStaged_line {r : MarkRecord} {l : LinePart} (line : r.kind = .line l) :
    r.applyStaged.restLine =
      { r with
        fields := r.stagedFields
        staged := none
        kind := .line { l with plan := r.stagedPlan l }
        state := LinePart.restState { l with plan := r.stagedPlan l } } := by
  obtain ⟨mark, nominal, fields, kind, state, retiring, staged⟩ := r
  obtain rfl : kind = .line l := line
  obtain _ | ⟨f, _ | plan⟩ := staged <;> rfl

/-- The last two steps of a sweep on a DATUM or KEEPOUT record. -/
theorem MarkRecord.applyStaged_other {r : MarkRecord} (other : ∀ l, r.kind ≠ .line l) :
    r.applyStaged.restLine = { r with fields := r.stagedFields, staged := none } := by
  have kept : r.applyStaged = { r with fields := r.stagedFields, staged := none } := by
    obtain ⟨mark, nominal, fields, kind, state, retiring, staged⟩ := r
    obtain l | d | k := kind
    · exact absurd rfl (other l)
    all_goals obtain _ | ⟨f, _ | plan⟩ := staged <;> rfl
  rw [kept]
  exact MarkRecord.restLine_other other

/-- Settles O42: the first step by the kind and state of the record, then its staged amendment and its state. -/
theorem closeSweepFoldsLine : Obligations.CloseSweepFoldsLine := by
  refine ⟨fun r l d line armed => ?_, fun r d resolve step => ⟨fun other => ?_, fun l line kept => ?_⟩⟩
  · obtain part | ⟨c, part⟩ := Option.eq_none_or_eq_some l.current
    · refine ⟨{ l.miss with plan := r.stagedPlan l.miss }, ?_, part, rfl, fun _ => rfl, fun c h => nomatch part.symm.trans h⟩
      rw [MarkRecord.amended, r.resolveClose_miss d armed line part, MarkRecord.applyStaged_line rfl, LinePart.restState_eq]
      rfl
    · obtain ⟨forward, reverse, widthSum, centres, unpaired, paired, duplicates, ⟨missed, widthFaults⟩, emptied⟩ :=
        l.folds_fold d c (r.stagedPlan (l.fold d c))
      refine ⟨{ l.fold d c with plan := r.stagedPlan (l.fold d c) }, ?_, emptied, ?_, fun h => (nomatch part.symm.trans h),
        fun c' h => ?_⟩
      · rw [MarkRecord.amended, r.resolveClose_fold d armed line part, MarkRecord.applyStaged_line rfl, LinePart.restState_eq]
        rfl
      · cases plan : r.staged.bind Amendment.plan <;> simp only [MarkRecord.stagedPlan, plan, l.fold_plan]
      · cases part.symm.trans h
        refine ⟨forward, reverse, widthSum, fun first => ?_, fun e more => ⟨_, centres, ?_, ?_⟩, unpaired, paired, duplicates,
          missed, widthFaults⟩
        · rw [centres, first]
          rfl
        · rw [more]
          exact widenCentres_least e c.centre
        · rw [more]
          exact widenCentres_greatest e c.centre
  · rw [MarkRecord.amended, MarkRecord.resolve_other step other]
    exact MarkRecord.applyStaged_other other
  · refine ⟨_, ?_, rfl⟩
    rw [MarkRecord.amended, MarkRecord.resolve_kept step line kept, MarkRecord.applyStaged_line rfl, LinePart.restState_eq]
    rfl

end Sys2Proof.Machine
end

