-- ==== Sys2Proof/Proofs/MeasureMatch.lean ====
section
/-! SUPPORT. A MEASURE-pass MATCH: the search, the outcome of the record found, and the effects of each (Table 5-1, R54, R76 to
R83). -/

namespace Sys2Proof.Machine

/-! ### The search (R54, R76) -/

theorem MarkRecord.inWindow_iff (r : MarkRecord) (p : Position) :
    r.inWindow p = true ↔ r.nominal.toInt - r.fields.half ≤ p.toInt ∧ p.toInt ≤ r.nominal.toInt + r.fields.half := by
  simp [MarkRecord.inWindow]

theorem State.findWindow_none {s : State} {p : Position} (h : ∀ r ∈ s.table, ¬r.inWindow p = true) : s.findWindow p = none :=
  List.find?_eq_none.mpr h

/-- The one record whose window holds the centre is found. -/
theorem State.findWindow_one {s : State} {p : Position} {r : MarkRecord} (hr : r ∈ s.table) (holds : r.inWindow p = true)
    (one : ∀ y ∈ s.table, y.inWindow p = true → y = r) : s.findWindow p = some r := by
  cases found : s.findWindow p with
  | none => exact absurd holds (List.find?_eq_none.mp found r hr)
  | some y =>
    have inside := List.find?_some found
    rw [one y (List.mem_of_find?_eq_some found) inside]

/-! ### The outcome (R77 to R82) -/

/-- The first test: the record is ARMED, of a kind that a MEASURE pass arms, and takes sightings of this input (R77, R78). -/
def MarkRecord.Accepts (r : MarkRecord) (x : Sighting) : Prop :=
  r.state = .armed ∧ (∀ datum, r.kind ≠ .datum datum)
    ∧ (r.fields.accept = .either ∨ (r.fields.accept = .l1 ∧ x.input = .l1) ∨ (r.fields.accept = .l2 ∧ x.input = .l2))

theorem MarkRecord.measurable_iff (r : MarkRecord) : r.measurable = true ↔ ∀ datum, r.kind ≠ .datum datum := by
  unfold MarkRecord.measurable
  cases r.kind <;> simp

section
variable {r : MarkRecord} {x : Sighting}

theorem MarkRecord.accepts_iff :
    (decide (r.state = .armed) && r.measurable && r.fields.accept.includes x.input) = true ↔ r.Accepts x := by
  rw [Bool.and_eq_true, Bool.and_eq_true, decide_eq_true_eq, MarkRecord.measurable_iff, Accept.includes_iff, and_assoc]
  rfl

theorem MarkRecord.outcome_unarmed (h : ¬r.Accepts x) : r.outcome x = .unarmed := by
  rw [← MarkRecord.accepts_iff, Bool.not_eq_true] at h
  rw [MarkRecord.outcome, h]
  rfl

section
variable (accepts : r.Accepts x)
include accepts

theorem MarkRecord.outcome_width (h : ¬(r.fields.minWidth ≤ x.width ∧ x.width ≤ r.fields.maxWidth)) : r.outcome x = .width := by
  rw [← Amendable.widthFits_iff, Bool.not_eq_true] at h
  rw [MarkRecord.outcome, MarkRecord.accepts_iff.mpr accepts, h]
  rfl

section
variable (fits : r.fields.minWidth ≤ x.width ∧ x.width ≤ r.fields.maxWidth)
include fits

theorem MarkRecord.outcome_flaw {k : KeepoutPart} (kind : r.kind = .keepout k) : r.outcome x = .flaw := by
  rw [MarkRecord.outcome, MarkRecord.accepts_iff.mpr accepts, (Amendable.widthFits_iff _ _).mpr fits, kind]
  rfl

theorem MarkRecord.outcome_duplicate {l : LinePart} {part : CurrentPart} (kind : r.kind = .line l) (held : l.current = some part) :
    r.outcome x = .duplicate := by
  rw [MarkRecord.outcome, MarkRecord.accepts_iff.mpr accepts, (Amendable.widthFits_iff _ _).mpr fits, kind]
  simp [held]

theorem MarkRecord.outcome_take {l : LinePart} (kind : r.kind = .line l) (empty : l.current = none) : r.outcome x = .take := by
  rw [MarkRecord.outcome, MarkRecord.accepts_iff.mpr accepts, (Amendable.widthFits_iff _ _).mpr fits, kind]
  simp [empty]

end
end
end

/-! ### The effects (Table 5-1) -/

/-- The machine with another kind-dependent part in the records of this one's mark number. -/
def State.withKind (s : State) (r : MarkRecord) (kind : KindPart) : State :=
  { s with table := s.table.map fun y => if y.mark = r.mark then { r with kind := kind } else y }

section
variable {s : State} {r : MarkRecord} (unique : ∀ y ∈ s.table, y.mark = r.mark → y = r)
include unique

theorem State.withKind_same : s.withKind r r.kind = s := by
  have same : s.table.map (fun y => if y.mark = r.mark then { r with kind := r.kind } else y) = s.table := by
    refine (List.map_congr_left fun y hy => ?_).trans s.table.map_id
    split
    · next e => exact (unique y hy e).symm
    · rfl
  rw [State.withKind, same]

theorem State.matchMeasure_found {x : Sighting} {o : MatchOutcome} (found : s.findWindow x.centre = some r)
    (outcome : r.outcome x = o) : s.matchMeasure x = (s.withKind r (r.kind.after x o)).reportOutcome o := by
  simp only [State.matchMeasure, found, outcome, State.updateKind, updateMark_unique _ unique]
  rfl

end

theorem exec_matchCompletion_measure {s : State} {x : Sighting} {claim : Option ClaimReport} (ho : s.operating = true)
    (hop : s.tableOp = some (.sightingMatch ⟨x, claim⟩)) (hk : s.pass.terms.map PassTerms.kind = some .measure) :
    exec .matchCompletion s = .next { s.matchMeasure x with tableOp := none }.arbitrate := by
  simp only [exec, execMatchCompletion, s.whileOperating_of_operating _ ho, hop, State.matchSighting, hk]

/-- Settles O38: the search finds no record or the one, and the record found gives its outcome. -/
theorem measureMatchOutcomes : Obligations.MeasureMatchOutcomes := by
  intro s x claim ho hop hk ends holds
  have run := exec_matchCompletion_measure ho hop hk
  refine ⟨fun stray => ?_, fun r hr held one => ?_⟩
  · have missed : s.findWindow x.centre = none := State.findWindow_none fun r hr h => stray r hr ((r.inWindow_iff _).mp h)
    have effect : s.matchMeasure x = s.count .stray 1 := by
      simp only [State.matchMeasure, missed]
      rfl
    exact run.trans (by rw [effect])
  · have unique : ∀ y ∈ s.table, y.mark = r.mark → y = r := fun y hy e => one y hy (.inr e)
    have found : s.findWindow x.centre = some r :=
      State.findWindow_one hr ((r.inWindow_iff _).mpr held) fun y hy h => one y hy (.inl ((y.inWindow_iff _).mp h))
    have effect : ∀ {o : MatchOutcome}, r.outcome x = o → ends ((s.withKind r (r.kind.after x o)).reportOutcome o) :=
      fun outcome => run.trans (by rw [State.matchMeasure_found unique found outcome])
    refine ⟨fun refused => ?_, fun l accepted unfit kind => ?_, fun k accepted unfit kind => ?_, fun k accepted fits kind => ?_,
      fun l part accepted fits kind part' => ?_, fun l accepted fits kind empty => ?_⟩
    · have ended := effect (MarkRecord.outcome_unarmed refused)
      rwa [show r.kind.after x .unarmed = r.kind from rfl, State.withKind_same unique] at ended
    · have ended := effect (MarkRecord.outcome_width accepted unfit)
      rwa [kind] at ended
    · have ended := effect (MarkRecord.outcome_width accepted unfit)
      have unchanged : r.kind.after x .width = r.kind := by rw [kind]; rfl
      rwa [unchanged, State.withKind_same unique] at ended
    · have ended := effect (MarkRecord.outcome_flaw accepted fits kind)
      rwa [kind] at ended
    · have ended := effect (MarkRecord.outcome_duplicate accepted fits kind part')
      have marked : r.kind.after x .duplicate = .line { l with current := some { part with duplicate := true } } := by
        simp only [kind, KindPart.after, KindPart.duplicate, part', Option.map_some]
      rwa [marked] at ended
    · have ended := effect (MarkRecord.outcome_take accepted fits kind empty)
      rwa [kind] at ended

end Sys2Proof.Machine
end

