-- ==== Sys2Proof/Proofs/Undisturbed.lean ====
section
/-! SUPPORT. The operations that leave the records alone: the table stands, no operation of the host's begins, and a pass that is not
open stays at rest (R50, R57, R71). -/

namespace Sys2Proof.Machine

/-- Between passes no sighting waits, and neither a MATCH nor an arm sweep is in progress (R71, R75, R99). -/
def State.Rests (s : State) : Prop :=
  s.pass.state = .idle → s.queue = [] ∧ (∀ m, s.tableOp ≠ some (.sightingMatch m)) ∧ s.tableOp ≠ some .armSweep

/-- The table stands, no operation of the host's has begun, and a pass is open exactly where it was, and at rest where it rested. -/
structure State.Undisturbed (s t : State) : Prop where
  table : t.table = s.table
  host : ∀ op, t.tableOp = some (.host op) → s.tableOp = some (.host op)
  idle : t.pass.state = .idle ↔ s.pass.state = .idle
  rests : s.Rests → t.Rests

namespace State.Undisturbed

theorem of_same {s t : State} (ht : t.table = s.table) (ho : t.tableOp = s.tableOp) (hp : t.pass.state = s.pass.state)
    (hq : t.queue = s.queue) : s.Undisturbed t :=
  ⟨ht, fun _ h => ho.symm.trans h, by rw [hp], fun h => by rw [State.Rests, hp, hq, ho]; exact h⟩

theorem refl (s : State) : s.Undisturbed s := of_same rfl rfl rfl rfl

theorem trans {s t u : State} (h : s.Undisturbed t) (k : t.Undisturbed u) : s.Undisturbed u :=
  ⟨k.table.trans h.table, fun op hu => h.host op (k.host op hu), k.idle.trans h.idle, fun hs => k.rests (h.rests hs)⟩

/-- What happens in an open pass that stays open leaves nothing at rest to disturb. -/
theorem of_open {s t : State} (ht : t.table = s.table) (ho : t.tableOp = s.tableOp) (hs : s.pass.state ≠ .idle)
    (hp : t.pass.state ≠ .idle) : s.Undisturbed t :=
  ⟨ht, fun _ h => ho.symm.trans h, iff_of_false hp hs, fun _ h => absurd h hp⟩

theorem live_open {x : PassState} (h : x.live = true) : x ≠ .idle := by
  rintro rfl
  cases h

/-! ### The shared operations -/

theorem answer (s : State) (status : Status) (bytes : List Byte) : s.Undisturbed (s.answer status bytes) := of_same rfl rfl rfl rfl

theorem reject (s : State) (code : RejectCode) : s.Undisturbed (s.reject code) := of_same rfl rfl rfl rfl

theorem handOver (s : State) (status : Status) (bytes : List Byte) : s.Undisturbed (s.handOver status bytes) :=
  of_same (by simp) (by simp) (by simp) (by simp)

theorem count (s : State) (k : Counter) (n : Nat) : s.Undisturbed (s.count k n) := of_same rfl rfl rfl rfl

theorem setLine (s : State) (i : LineId) (l : LineInput) : s.Undisturbed (s.setLine i l) :=
  of_same (by simp) (by simp) (by simp) (by simp)

theorem putGuarded (s : State) (i : LineId) (g : LineInput × Bool) : s.Undisturbed (s.putGuarded i g) :=
  of_same (by simp) (by simp) (by simp) (by simp)

theorem linesSee (s : State) (k : ChannelIx) (p : Nat → Position) (st : ChannelState) (left : Bool) (q : Option Position) :
    s.Undisturbed (s.linesSee k p st left q) := of_same (by simp) (by simp) (by simp) (by simp)

theorem putChannel (s : State) (k : ChannelIx) (c : Channel) : s.Undisturbed (s.putChannel k c) := of_same rfl rfl rfl rfl

/-- The arbiter takes up a sighting only where one waits, and so only in an open pass. -/
theorem arbitrate (s : State) : s.Undisturbed s.arbitrate := by
  refine ⟨by simp, fun op h => ?_, by simp, fun hr hi => ?_⟩
  · obtain e | ⟨-, -, e⟩ | ⟨-, -, x, rest, -, e⟩ | ⟨-, -, -, e⟩ := s.arbitrate_cases <;> rw [e] at h
    · exact h
    all_goals cases h
  · obtain ⟨queue, noMatch, noArm⟩ := hr (by simpa using hi)
    obtain e | ⟨-, -, e⟩ | ⟨-, -, x, rest, waits, -⟩ | ⟨-, -, -, e⟩ := s.arbitrate_cases
    · rw [e]; exact ⟨queue, noMatch, noArm⟩
    · rw [e]; exact ⟨queue, by simp, by simp⟩
    · cases queue.symm.trans waits
    · rw [e]; exact ⟨queue, by simp, by simp⟩

/-- A sighting is tagged for the queue only in a live pass (R38). -/
theorem tagSighting (s : State) (i : LineId) (centre : Position) (width : Nat) (abbe : Option Position) :
    s.Undisturbed (s.tagSighting i centre width abbe) := by
  by_cases live : s.pass.state.live = true
  · exact of_open (by simp) (by simp) (live_open live) (by simpa using live_open live)
  · rw [State.tagSighting, if_neg live]
    exact count s _ _

theorem formLine (s : State) (i : LineId) : s.Undisturbed (s.formLine i) := by
  unfold State.formLine
  split
  · exact refl s
  · split
    · exact refl s
    · exact (setLine s _ _).trans (count _ _ _)
    · exact (setLine s _ _).trans (tagSighting _ _ _ _ _)

theorem formSightings (s : State) : s.Undisturbed s.formSightings := (formLine s _).trans (formLine _ _)

theorem abortLivePass (s : State) (cause : AbortCause) : s.Undisturbed (s.abortLivePass cause) := by
  by_cases live : s.pass.state.live = true
  · refine of_open (by simp) (by simp) (live_open live) ?_
    rw [s.abortLivePass_live cause live]
    simp
  · rw [s.abortLivePass_not_live cause (by simpa using live)]
    exact refl s

theorem closeLivePass (s : State) : s.Undisturbed s.closeLivePass := by
  by_cases live : s.pass.state.live = true
  · refine of_open (by simp) (by simp) (live_open live) ?_
    rw [s.closeLivePass_live live]
    simp
  · rw [s.closeLivePass_not_live (by simpa using live)]
    exact refl s

theorem passSees (s : State) (k : ChannelIx) (left : Bool) (p : Position) : s.Undisturbed (s.passSees k left p) := by
  have crosses : s.Undisturbed (s.testCrossing p) := by
    unfold State.testCrossing
    split
    · exact refl s
    · split
      · split
        · exact closeLivePass s
        · exact abortLivePass s _
      · exact refl s
  unfold State.passSees
  split
  · split
    · exact abortLivePass s _
    · exact crosses
  · exact refl s

theorem settleEvent (s : State) (first : MeetOrder) {ends : State → State} (h : ∀ v : State, v.Undisturbed (ends v)) :
    s.Undisturbed (s.settleEvent first ends) := by
  cases first
  case formationFirst => exact ((formSightings s).trans (h _)).trans (arbitrate _)
  case passFirst => exact ((h s).trans (formSightings _)).trans (arbitrate _)
  case passBetween => exact (((formLine s _).trans (h _)).trans (formLine _ _)).trans (arbitrate _)

/-- The pass controller acts where a condition holds. -/
theorem ite {s t u : State} {p : Prop} [Decidable p] (ht : s.Undisturbed t) (hu : s.Undisturbed u) :
    s.Undisturbed (if p then t else u) := by
  split
  · exact ht
  · exact hu

/-! ### Signals -/

theorem sampleChannel (s : State) (k : ChannelIx) (increment : Int) (amplitude : Nat) (first : MeetOrder) :
    s.Undisturbed (s.sampleChannel k increment amplitude first) := by
  have entered : s.Undisturbed (s.enterPeriod k) := of_same rfl rfl rfl rfl
  exact ((entered.trans (putChannel _ _ _)).trans (linesSee _ _ _ _ _ _)).trans (settleEvent _ first fun v => passSees v _ _ _)

theorem linesLoseReference (s tracked : State) : s.Undisturbed (s.linesLoseReference tracked) := by
  have told : ∀ (ks : List ChannelIx) (u : State), u.Undisturbed (ks.foldl (fun t (k : ChannelIx) =>
      t.linesSee k (fun _ => (s.channel k).position) (s.channel k).state
        (decide ((tracked.channel k).state = .tracking)) none) u) := by
    intro ks
    induction ks with
    | nil => exact fun u => refl u
    | cons k ks ih => exact fun u => (linesSee u _ _ _ _ _).trans (ih _)
  exact told _ s

theorem referenceLost (s : State) (first : MeetOrder) : s.Undisturbed (s.referenceLost first) := by
  obtain ⟨-, rest, -⟩ := State.loseReferences_spec { s with monitor := .absent, period := none }
  have lost : s.Undisturbed ((List.finRange 6).foldl State.loseReference { s with monitor := .absent, period := none }) := by
    rw [rest]
    exact of_same rfl rfl rfl rfl
  unfold State.referenceLost
  simp only
  exact (lost.trans (linesLoseReference _ s)).trans (settleEvent _ first fun v => ite (abortLivePass v _) (refl v))

theorem leadingEdge (s : State) (i : LineId) (phase : Nat) : s.Undisturbed (s.leadingEdge i phase) := by
  unfold State.leadingEdge
  simp only
  split
  · exact refl s
  · exact refl s
  · exact ite (putGuarded s _ _) (setLine s _ _)

theorem trailingEdge (s : State) (i : LineId) (phase : Nat) : s.Undisturbed (s.trailingEdge i phase) := by
  have order : ∀ first, s.Undisturbed { s with earlierClosing := first } := fun _ => of_same rfl rfl rfl rfl
  unfold State.trailingEdge
  simp only
  split
  · exact setLine s _ _
  · exact setLine s _ _
  · exact ite ((setLine s _ _).trans (count _ _ _))
      ((((order _).trans (setLine _ _ _)).trans (formSightings _)).trans (arbitrate _))

/-! ### Requests that neither start an operation of the host's nor open a pass -/

theorem setAxisRequest (s : State) (f : SetAxisFields) (first : MeetOrder) : s.Undisturbed (s.setAxisRequest f first) := by
  have configured : ∀ k, s.Undisturbed (s.configureAxis k f first) := by
    intro k
    have settled : ∀ v : State, v.Undisturbed v.settlePeriod := fun v => of_same rfl rfl rfl rfl
    exact ite (putChannel s _ _) ((((putChannel s _ _).trans (settled _)).trans (linesSee _ _ _ _ _ _)).trans
      (settleEvent _ first fun v => ite (abortLivePass v _) (refl v)))
  unfold State.setAxisRequest
  split
  · exact reject s _
  · exact ite (reject s _) (ite (reject s _) ((configured _).trans (answer _ _ _)))

theorem trackRequest (s : State) (channel : Nat) : s.Undisturbed (s.trackRequest channel) := by
  unfold State.trackRequest
  split
  · exact reject s _
  · exact ite (reject s _) (ite (reject s _) (of_same rfl rfl rfl rfl))

theorem restartRequest (s : State) (channel : Nat) : s.Undisturbed (s.restartRequest channel) := by
  unfold State.restartRequest
  split
  · exact reject s _
  · exact ite (reject s _) (of_same rfl rfl rfl rfl)

theorem zeroRequest (s : State) (channel : Nat) (value : Position) : s.Undisturbed (s.zeroRequest channel value) := by
  unfold State.zeroRequest
  split
  · exact reject s _
  · exact ite (reject s _) (ite (reject s _) (of_same rfl rfl rfl rfl))

theorem setLineRequest (s : State) (f : SetLineFields) : s.Undisturbed (s.setLineRequest f) := by
  unfold State.setLineRequest
  split
  · exact reject s _
  · exact ite (reject s _) ((setLine s _ _).trans (answer _ _ _))

theorem abortPassRequest (s : State) (number : Nat) : s.Undisturbed (s.abortPassRequest number) :=
  ite (reject s _) (ite (reject s _) (((abortLivePass s _).trans (arbitrate _)).trans (answer _ _ _)))

theorem readEventsRequest (s : State) (option : Nat) : s.Undisturbed (s.readEventsRequest option) := by
  unfold State.readEventsRequest
  split <;> exact of_same rfl rfl rfl rfl

theorem clearEventsRequest (s : State) (word : Nat) : s.Undisturbed (s.clearEventsRequest word) := by
  unfold State.clearEventsRequest
  split <;> exact of_same rfl rfl rfl rfl

theorem setNoticeRequest (s : State) (setting word : Nat) : s.Undisturbed (s.setNoticeRequest setting word) := by
  unfold State.setNoticeRequest
  split <;> exact of_same rfl rfl rfl rfl

theorem unprotectRequest (s : State) (set : BitVec 32) : s.Undisturbed (s.unprotectRequest set) := by
  unfold State.unprotectRequest
  split <;> exact of_same rfl rfl rfl rfl

theorem resetRequest (s : State) (scope : Nat) : s.Undisturbed (s.resetRequest scope) := by
  unfold State.resetRequest
  split <;> exact of_same rfl rfl rfl rfl

/-! ### The link -/

theorem judgeAddress (s : State) (address : Byte) : s.Undisturbed (s.judgeAddress address) :=
  ite (of_same rfl rfl rfl rfl) (of_same rfl rfl rfl rfl)

theorem meetRival (s : State) (rival : Byte) : s.Undisturbed (s.meetRival rival) := ite (judgeAddress s rival) (refl s)

theorem linkStart (s : State) (address : Option Byte) : s.Undisturbed (s.linkStart address) := by
  unfold State.linkStart
  split
  · exact refl s
  · exact refl s
  · exact meetRival s _
  · exact of_same rfl rfl rfl rfl
  · exact ite (of_same rfl rfl rfl rfl) (judgeAddress s _)

theorem addressedForRead (s : State) (extent : ReadExtent) : s.Undisturbed (s.addressedForRead extent) := by
  have response : s.Undisturbed (s.readResponse extent) := by
    unfold State.readResponse
    split <;> exact of_same rfl rfl rfl rfl
  exact ite (of_same rfl rfl rfl rfl) (ite (of_same rfl rfl rfl rfl) response)

theorem startNotice (s : State) (rival : Option Byte) : s.Undisturbed (s.startNotice rival) := by
  have started : s.Undisturbed (s.startExchange .starting) := of_same rfl rfl rfl rfl
  unfold State.startNotice
  split
  · exact started
  · exact started.trans (meetRival _ _)

/-- An interface reset empties the queue, which leaves a pass at rest as it is (R74). -/
theorem interfaceReset (s : State) : s.Undisturbed s.interfaceReset := by
  have cleared : ∀ v : State, v.Undisturbed { v with
      queue := []
      line1 := v.line1.dropLines
      line2 := v.line2.dropLines
      events := v.events.interfaceReset v.downMask v.tableFull } := fun v =>
    ⟨rfl, fun _ h => h, Iff.rfl, fun h hi => ⟨rfl, (h hi).2⟩⟩
  exact ((abortLivePass s .reset).trans (cleared _)).trans (arbitrate _)

end State.Undisturbed

end Sys2Proof.Machine
end

