-- ==== Sys2Proof/Proofs/RecordLaws.lean ====
section
/-! SUPPORT. The order and the mark numbers of the table, and the optional parts of its records: what single records and the whole
table keep, and the checks that an operation of the host's has passed (R41, R47, R50, R51, R118). -/

namespace Sys2Proof.Machine

/-! ### One record -/

/-- Only an ARMED record holds a current-pass part (R47). -/
def MarkRecord.PartArmed (r : MarkRecord) : Prop := r.currentPart ≠ none → r.state = .armed

theorem MarkRecord.PartArmed.unarmed {r : MarkRecord} (h : r.PartArmed) (ha : r.state ≠ .armed) : r.currentPart = none := by
  by_contra hn
  exact ha (h hn)

theorem MarkRecord.restful.partArmed {r : MarkRecord} (h : r.restful) : r.PartArmed := by
  obtain ⟨-, -, part, -⟩ := h
  exact fun hn => absurd part hn

theorem MarkRecord.currentPart_line {r : MarkRecord} {l : LinePart} (line : r.kind = .line l) : r.currentPart = l.current := by
  rw [MarkRecord.currentPart, line]

theorem MarkRecord.currentPart_other {r : MarkRecord} (other : ∀ l, r.kind ≠ .line l) : r.currentPart = none := by
  unfold MarkRecord.currentPart
  split
  next l k => exact absurd k (other l)
  all_goals rfl

/-- What the fields of an ENROL make is a record as it stands between passes (R41, R119). -/
theorem EnrolFields.Makes.restful {f : EnrolFields} {mark : Nat} {nominal : Position} {r : MarkRecord} (h : f.Makes mark nominal r)
    (kinds : f.kindInRange) : r.restful := by
  refine ⟨h.retiring, h.staged, ?_, by rw [h.state]; decide⟩
  obtain ⟨k, -⟩ | k | k := kinds
  · obtain ⟨plan, -, -, kind⟩ := h.line k
    exact MarkRecord.currentPart_line kind
  · exact MarkRecord.currentPart_other fun l => by simp [h.datum k]
  · exact MarkRecord.currentPart_other fun l => by simp [h.keepout k]

theorem MarkRecord.replaceFields_rest (r : MarkRecord) (a : Amendment) :
    (r.replaceFields a).retiring = r.retiring ∧ (r.replaceFields a).staged = r.staged
      ∧ (r.replaceFields a).currentPart = r.currentPart ∧ (r.replaceFields a).state = r.state := by
  obtain ⟨_, _, _, _ | _ | _, _, _, _⟩ := r <;> obtain ⟨_, _ | _⟩ := a <;> exact ⟨rfl, rfl, rfl, rfl⟩

theorem MarkRecord.restful.restLine {r : MarkRecord} (h : r.restful) : r.restLine.restful := by
  obtain ⟨retiring, staged, part, unarmed⟩ := h
  by_cases line : ∃ l, r.kind = .line l
  · obtain ⟨l, line⟩ := line
    rw [MarkRecord.restLine_line line]
    exact ⟨retiring, staged, part, l.restState_ne_armed⟩
  · rw [MarkRecord.restLine_other fun l hl => line ⟨l, hl⟩]
    exact ⟨retiring, staged, part, unarmed⟩

/-- An amendment applied between passes leaves its record as it stands between passes (R125). -/
theorem MarkRecord.restful.amended {r : MarkRecord} (h : r.restful) (a : Amendment) : (r.replaceFields a).restLine.restful := by
  refine MarkRecord.restful.restLine ?_
  obtain ⟨h1, h2, h3, h4⟩ := r.replaceFields_rest a
  rwa [MarkRecord.restful, h1, h2, h3, h4]

theorem MarkRecord.amended_retiring (r : MarkRecord) {d : Direction} {resolve : MarkRecord → MarkRecord}
    (step : resolve ∈ [MarkRecord.resolveClose d, MarkRecord.resolveAbort]) : (r.amended resolve).retiring = r.retiring := by
  have staged : ∀ r : MarkRecord, r.applyStaged.retiring = r.retiring := by
    intro r
    unfold MarkRecord.applyStaged
    split <;> rfl
  have resolved : (resolve r).retiring = r.retiring := by
    by_cases line : ∃ l, r.kind = .line l
    · obtain ⟨l, line⟩ := line
      by_cases kept : r.state ≠ .armed ∨ resolve = MarkRecord.resolveAbort
      · rw [MarkRecord.resolve_kept step line kept]
      · obtain ⟨armed, notAbort⟩ := not_or.mp kept
        obtain rfl : resolve = MarkRecord.resolveClose d := by simpa [notAbort] using step
        obtain part | ⟨c, part⟩ := Option.eq_none_or_eq_some l.current
        · rw [r.resolveClose_miss d (not_not.mp armed) line part]
        · rw [r.resolveClose_fold d (not_not.mp armed) line part]
    · rw [MarkRecord.resolve_other step fun l hl => line ⟨l, hl⟩]
  exact (staged _).trans resolved

/-- Either sweep leaves a record that it keeps as it stands between passes (R50, R108 to R113). -/
theorem MarkRecord.PartArmed.swept {r : MarkRecord} (h : r.PartArmed) (stays : r.retiring = false) {d : Direction}
    {resolve : MarkRecord → MarkRecord} (step : resolve ∈ [MarkRecord.resolveClose d, MarkRecord.resolveAbort]) :
    (r.amended resolve).restLine.restful := by
  have unarmed : ∀ p : Prop, ∀ [Decidable p], (if p then RecordState.settled else .enrolled) ≠ .armed := by
    intro p _
    split <;> simp
  obtain ⟨armedClose, others⟩ := closeSweepFoldsLine
  by_cases line : ∃ l, r.kind = .line l
  case neg =>
    have other : ∀ l, r.kind ≠ .line l := fun l hl => line ⟨l, hl⟩
    rw [(others r d resolve step).1 other]
    refine ⟨stays, rfl, MarkRecord.currentPart_other other, ?_⟩
    simp only
    split
    · simp
    · assumption
  obtain ⟨l, line⟩ := line
  by_cases kept : r.state ≠ .armed ∨ resolve = MarkRecord.resolveAbort
  · obtain ⟨l', e, part⟩ := (others r d resolve step).2 l line kept
    rw [e]
    refine ⟨stays, rfl, ?_, unarmed _⟩
    rw [MarkRecord.currentPart_line rfl, part]
    by_cases ha : r.state = .armed
    · simp [ha]
    · simpa [ha] using (MarkRecord.currentPart_line line).symm.trans (h.unarmed ha)
  · obtain ⟨armed, notAbort⟩ := not_or.mp kept
    obtain rfl : resolve = MarkRecord.resolveClose d := by simpa [notAbort] using step
    obtain ⟨l', e, part, -⟩ := armedClose r l d line (not_not.mp armed)
    rw [e]
    exact ⟨stays, rfl, part, unarmed _⟩

/-! ### The order of the table (R51) -/

/-- The law of the table as it stands, apart from an operation in progress. -/
structure Ordered (table : List MarkRecord) : Prop where
  capacity : table.length ≤ 2048
  marks : (table.map MarkRecord.mark).Nodup
  numbers : ∀ r ∈ table, r.mark < 4096
  order : table.Pairwise fun a b => a.nominal.toInt < b.nominal.toInt

theorem Ordered.nil : Ordered [] := ⟨by simp, by simp, by simp, by simp⟩

/-- Where a record stands: its mark number and its nominal, which it never changes (R41). -/
def MarkRecord.place (r : MarkRecord) : Nat × Position := (r.mark, r.nominal)

theorem MarkRecord.StaysWithin.place {r r' : MarkRecord} (h : r.StaysWithin r') : r'.place = r.place :=
  Prod.ext h.mark h.nominal

theorem Ordered.iff_places (table : List MarkRecord) :
    Ordered table ↔ table.length ≤ 2048 ∧ ((table.map MarkRecord.place).map Prod.fst).Nodup
      ∧ (∀ p ∈ table.map MarkRecord.place, p.1 < 4096)
      ∧ (table.map MarkRecord.place).Pairwise fun a b => a.2.toInt < b.2.toInt := by
  simp only [List.map_map, List.pairwise_map, List.forall_mem_map]
  exact ⟨fun ⟨h1, h2, h3, h4⟩ => ⟨h1, h2, h3, h4⟩, fun ⟨h1, h2, h3, h4⟩ => ⟨h1, h2, h3, h4⟩⟩

/-- Taking records out and changing others where they stand keeps the order. -/
theorem Ordered.of_places {a b : List MarkRecord} (h : Ordered a)
    (places : (b.map MarkRecord.place).Sublist (a.map MarkRecord.place)) : Ordered b := by
  obtain ⟨h1, h2, h3, h4⟩ := (Ordered.iff_places a).mp h
  have shorter := places.length_le
  simp only [List.length_map] at shorter
  exact (Ordered.iff_places b).mpr ⟨shorter.trans h1, h2.sublist (places.map _), fun p hp => h3 p (places.subset hp), h4.sublist places⟩

theorem map_place_of_stays (table : List MarkRecord) {f : MarkRecord → MarkRecord} (h : ∀ r ∈ table, r.StaysWithin (f r)) :
    (table.map f).map MarkRecord.place = table.map MarkRecord.place := by
  rw [List.map_map]
  exact List.map_congr_left fun r hr => (h r hr).place

theorem updateMark_places (table : List MarkRecord) (mark : Nat) {f : MarkRecord → MarkRecord}
    (h : ∀ r ∈ table, r.mark = mark → (f r).mark = r.mark ∧ (f r).nominal = r.nominal) :
    (updateMark table mark f).map MarkRecord.place = table.map MarkRecord.place := by
  rw [updateMark, List.map_map]
  refine List.map_congr_left fun r hr => ?_
  simp only [Function.comp]
  split
  next hm => exact Prod.ext (h r hr hm).1 (h r hr hm).2
  next => rfl

theorem sweepTable_places (table : List MarkRecord) {resolve : MarkRecord → MarkRecord} (h : ∀ r : MarkRecord, r.StaysWithin (resolve r)) :
    ((sweepTable resolve table).map MarkRecord.place).Sublist (table.map MarkRecord.place) := by
  rw [sweepTable, map_place_of_stays _ fun r _ => MarkRecord.StaysWithin.restLine r]
  refine (List.filter_sublist.map _).trans ?_
  rw [map_place_of_stays (f := MarkRecord.amended resolve) _ fun r _ => (h r).trans (.applyStaged _)]

/-- The place of a new record: there is room for it, and neither its mark number nor its nominal is taken (R51, R118). -/
def MarkRecord.Fresh (r : MarkRecord) (table : List MarkRecord) : Prop :=
  table.length < 2048 ∧ r.mark < 4096 ∧ ∀ x ∈ table, x.mark ≠ r.mark ∧ x.nominal ≠ r.nominal

theorem Ordered.insertRecord {table : List MarkRecord} {r : MarkRecord} (h : Ordered table) (fresh : r.Fresh table) :
    Ordered (insertRecord r table) := by
  obtain ⟨room, number, free⟩ := fresh
  refine ⟨?_, ?_, fun x hx => ?_, insertRecord_sorted r table h.order fun x hx e => (free x hx).2 (BitVec.eq_of_toInt_eq e)⟩
  · rw [length_insertRecord]
    omega
  · rw [((insertRecord_perm r table).map MarkRecord.mark).nodup_iff, List.map_cons, List.nodup_cons]
    refine ⟨fun hm => ?_, h.marks⟩
    obtain ⟨x, hx, e⟩ := List.mem_map.mp hm
    exact (free x hx).1 e
  · obtain rfl | hx := mem_insertRecord.mp hx
    · exact number
    · exact h.numbers x hx

/-! ### The checks (R118, R121, R130) -/

/-- A record that passes its checks finds room and a free place, and stands as records stand between passes. -/
theorem judgeRecord_fresh {s : State} {f : EnrolFields} {mark : Nat} {nominal : Int} {r : MarkRecord} (hm : mark < 4096)
    (capacity : s.table.length ≤ 2048) (h : s.judgeRecord f mark nominal = .inr r) : r.Fresh s.table ∧ r.restful := by
  obtain ⟨passes, makes⟩ := (judgeRecord_spec s f mark nominal hm).2 r h
  have free : ∀ x ∈ s.table, x.mark ≠ mark := fun x hx e => passes .alreadyExists (.inr (.inl ⟨rfl, hm, x, hx, e⟩))
  have room : s.table.length ≠ 2048 := fun e => passes .full (.inr (.inr (.inl ⟨rfl, ⟨hm, free⟩, e⟩)))
  have values : f.inRange s.config.shift nominal := by
    by_contra out
    exact passes .range (.inr (.inr (.inr (.inl ⟨rfl, ⟨hm, free⟩, room, out⟩))))
  have ⟨kinds, _, _, _, _, _, _, _, low, high⟩ := values
  refine ⟨⟨by omega, makes.mark ▸ hm, fun x hx => ⟨makes.mark ▸ free x hx, fun e => ?_⟩⟩, makes.restful kinds⟩
  have place : x.nominal.toInt = nominal := by rw [e, makes.nominal, toInt_ofInt_of_bounds low high]
  exact passes .overlap (.inr (.inr (.inr (.inr ⟨rfl, ⟨hm, free⟩, room, values, x, hx, by omega, by omega⟩))))

theorem judgeRunRecord_fresh {s : State} {run : RunRequest} {i : Nat} {r : MarkRecord} (capacity : s.table.length ≤ 2048)
    (h : s.judgeRunRecord run i = .inr r) : r.Fresh s.table ∧ r.restful := by
  unfold State.judgeRunRecord at h
  split at h
  · cases h
  next hm => exact judgeRecord_fresh (Nat.lt_of_not_le hm) capacity h

/-- What the checks of an operation make sure of before it starts, as far as the order and the optional parts go. -/
def HostOp.Admitted (s : State) : HostOp → Prop
  | .enrol r => r.Fresh s.table ∧ r.restful
  | .reopen _ => s.pass.state = .idle
  | _ => True

theorem judgeEnrol_admitted {s : State} {mark : Nat} {nominal : Int} {f : EnrolFields} {op : HostOp}
    (capacity : s.table.length ≤ 2048) (h : s.judgeEnrol mark nominal f = .start op) : op.Admitted s := by
  unfold State.judgeEnrol at h
  split at h
  · cases h; trivial
  next hm =>
    split at h
    · cases h
    · split at h
      · cases h; trivial
      next r hr => cases h; exact judgeRecord_fresh (Nat.lt_of_not_le hm) capacity hr

theorem judgeRun_admitted {s : State} {run : RunRequest} {op : HostOp} (h : s.judgeRun run = .start op) : op.Admitted s := by
  unfold State.judgeRun at h
  split at h
  · cases h; trivial
  · split at h <;> cases h
    trivial

theorem judgeAmend_admitted {s : State} {f : AmendFields} {op : HostOp} (h : s.judgeAmend f = .start op) : op.Admitted s := by
  unfold State.judgeAmend at h
  repeat' split at h
  all_goals cases h
  all_goals trivial

theorem judgeRetire_admitted {s : State} {mark : Nat} {op : HostOp} (h : s.judgeRetire mark = .start op) : op.Admitted s := by
  unfold State.judgeRetire at h
  repeat' split at h
  all_goals cases h
  all_goals trivial

theorem judgeReopen_admitted (s : State) (mark : Nat) : (s.judgeReopen mark).Admitted s := by
  unfold State.judgeReopen
  split
  · trivial
  next idle =>
    split
    · trivial
    · split
      · trivial
      · split
        · exact not_not.mp idle
        all_goals trivial

theorem judgeLookup_admitted (s : State) (mark : Nat) : (s.judgeLookup mark).Admitted s := by
  unfold State.judgeLookup
  repeat' split
  all_goals trivial

end Sys2Proof.Machine
end

