-- ==== Sys2Proof/Proofs/TableLaws.lean ====
section
/-! SUPPORT. Every command keeps the order of the table and the law of its optional parts, and the proofs of TableLawIsKept and
OptionalPartLawIsKept (R47, R50, R51). -/

namespace Sys2Proof.Machine

/-! ### The laws between two states -/

theorem State.TableLaw.ordered {s : State} (h : s.TableLaw) : Ordered s.table := ⟨h.capacity, h.marks, h.numbers, h.order⟩

/-- The law of the table is kept, and so is that of the optional parts, where the queue's law holds. -/
structure State.KeepsRecordLaws (s t : State) : Prop where
  order : s.TableLaw → t.TableLaw
  parts : s.TableLaw → s.QueueLaw → s.OptionalPartLaw → t.OptionalPartLaw ∧ t.Rests

theorem State.TableLaw.of_undisturbed {s t : State} (w : s.TableLaw) (h : s.Undisturbed t) : t.TableLaw := by
  obtain ⟨capacity, marks, numbers, order⟩ : Ordered t.table := h.table ▸ w.ordered
  exact ⟨capacity, marks, numbers, order, fun r hr => h.table ▸ w.enrolling r (h.host _ hr)⟩

theorem State.rests_of_laws {s : State} (q : s.QueueLaw) (p : s.OptionalPartLaw) : s.Rests := fun hi =>
  ⟨q.idle hi, fun m hm => p.matching m hm hi, fun ha => p.arming ha hi⟩

theorem State.OptionalPartLaw.of_undisturbed {s t : State} (w : s.OptionalPartLaw) (rests : s.Rests) (h : s.Undisturbed t) :
    t.OptionalPartLaw where
  idle hi := h.table ▸ w.idle (h.idle.mp hi)
  parts := h.table ▸ w.parts
  matching m hm hi := (h.rests rests hi).2.1 m hm
  arming ha hi := (h.rests rests hi).2.2 ha
  reopening mark hr := h.idle.mpr (w.reopening mark (h.host _ hr))
  enrolling r hr := w.enrolling r (h.host _ hr)

namespace State.KeepsRecordLaws

theorem of_undisturbed {s t : State} (h : s.Undisturbed t) : s.KeepsRecordLaws t :=
  ⟨fun w => w.of_undisturbed h, fun _ q p => ⟨p.of_undisturbed (s.rests_of_laws q p) h, h.rests (s.rests_of_laws q p)⟩⟩

theorem refl (s : State) : s.KeepsRecordLaws s := of_undisturbed (.refl s)

theorem trans_undisturbed {s t u : State} (h : s.KeepsRecordLaws t) (k : t.Undisturbed u) : s.KeepsRecordLaws u := by
  refine ⟨fun w => (h.order w).of_undisturbed k, fun w q p => ?_⟩
  obtain ⟨law, rests⟩ := h.parts w q p
  exact ⟨law.of_undisturbed rests k, k.rests rests⟩

/-- What the laws speak of stands, and the queue's law with it. -/
theorem of_same {s t u : State} (h : s.Undisturbed t) (hq : s.QueueLaw → t.QueueLaw) (k : t.KeepsRecordLaws u) :
    s.KeepsRecordLaws u :=
  ⟨fun w => k.order (w.of_undisturbed h), fun w q p =>
    k.parts (w.of_undisturbed h) (hq q) (p.of_undisturbed (s.rests_of_laws q p) h)⟩

/-- The start of an operation whose checks have been made. -/
theorem startHostOp {s : State} {op : HostOp} (h : s.TableLaw → op.Admitted s) : s.KeepsRecordLaws (s.startHostOp op) := by
  have inProgress : ∀ {op'}, (s.startHostOp op).tableOp = some (.host op') → op = op' := fun e => by
    simpa [State.startHostOp] using e
  refine ⟨fun w => ⟨w.capacity, w.marks, w.numbers, w.order, fun r e => ?_⟩, fun w q p =>
    ⟨⟨p.idle, p.parts, fun m e => (nomatch e), fun e => (nomatch e), fun mark e => ?_, fun r e => ?_⟩,
      fun hi => ⟨q.idle hi, by simp, by simp⟩⟩⟩
  all_goals
    obtain rfl := inProgress e
    have admitted := h w
  · exact admitted.1
  · exact admitted
  · exact admitted.2

theorem hostTable {s : State} {judge : State → HostOp} (h : (judge s).Admitted s) : s.KeepsRecordLaws (s.hostTable judge) := by
  unfold State.hostTable
  split
  · exact startHostOp fun _ => h
  · exact of_undisturbed (.reject s _)

theorem hostTableGuarded {s : State} {judge : State → Verdict} {shielded : State → State}
    (h : s.TableLaw → ∀ op, judge s = .start op → op.Admitted s) (hs : ∀ u : State, u.Undisturbed (shielded u)) :
    s.KeepsRecordLaws (s.hostTableGuarded judge shielded) := by
  unfold State.hostTableGuarded
  split
  · split
    next op e => exact startHostOp fun w => h w op e
    next mark _ =>
      have fault : s.Undisturbed (s.protectionFault mark) := .of_same rfl rfl rfl rfl
      exact of_undisturbed (fault.trans (hs _))
  · exact of_undisturbed (.reject s _)

theorem setMatchRequest (s : State) (f : SetMatchFields) : s.KeepsRecordLaws (s.setMatchRequest f) := by
  unfold State.setMatchRequest
  split
  · exact of_undisturbed (.reject s _)
  · split
    · exact of_undisturbed (.reject s _)
    · split
      · exact of_undisturbed (.of_same rfl rfl rfl rfl)
      · split
        · exact of_undisturbed (.reject s _)
        · split <;> exact startHostOp fun _ => trivial

/-- An accepted BEGIN PASS opens a pass, and its arm sweep is in progress (R96). -/
theorem beginPassRequest (s : State) (f : BeginPassFields) : s.KeepsRecordLaws (s.beginPassRequest f) := by
  have opened : ∀ terms, s.KeepsRecordLaws (s.openPass terms) := by
    intro terms
    refine ⟨fun w => ⟨w.capacity, w.marks, w.numbers, w.order, fun r e => (nomatch e)⟩, fun _ _ p =>
      ⟨⟨fun hi => (nomatch hi), p.parts, fun m e => (nomatch e), fun _ hi => (nomatch hi), fun mark e => (nomatch e),
        fun r e => (nomatch e)⟩, fun hi => (nomatch hi)⟩⟩
  unfold State.beginPassRequest
  split
  · exact of_undisturbed (.reject s _)
  · split
    · exact of_undisturbed (.reject s _)
    · split
      · exact of_undisturbed (.reject s _)
      · split
        · exact of_undisturbed (.reject s _)
        · exact opened _

end State.KeepsRecordLaws

/-! ### The pass and the queue under the operations of the host -/

theorem insertNew_rest (s : State) (r : MarkRecord) :
    s.insertNew r = { s with
      table := insertRecord r s.table
      occupancy := addClaims s.occupancy (r.slots s.config.shift)
      groups := (s.insertNew r).groups
      events := (s.insertNew r).events } := by
  simp only [State.insertNew]
  cases r.kind <;> simp only <;> split <;> rfl

theorem insertNew_pass (s : State) (r : MarkRecord) : (s.insertNew r).pass = s.pass := by rw [insertNew_rest]

theorem insertNew_queue (s : State) (r : MarkRecord) : (s.insertNew r).queue = s.queue := by rw [insertNew_rest]

theorem reportAmended_rest (s : State) (before after : MarkRecord) :
    s.reportAmended before after = { s with
      groups := (s.reportAmended before after).groups
      events := (s.reportAmended before after).events } := by
  unfold State.reportAmended
  repeat' split
  all_goals rfl

theorem reportAmended_pass (s : State) (before after : MarkRecord) : (s.reportAmended before after).pass = s.pass := by
  rw [reportAmended_rest]

theorem reportAmended_queue (s : State) (before after : MarkRecord) : (s.reportAmended before after).queue = s.queue := by
  rw [reportAmended_rest]

theorem completeHostOp_pass_queue (s : State) (op : HostOp) :
    (s.completeHostOp op).1.pass = s.pass ∧ (s.completeHostOp op).1.queue = s.queue := by
  cases op
  case enrol r => exact ⟨insertNew_pass s r, insertNew_queue s r⟩
  case enrolRun run =>
    exact State.runFrom_of (P := fun v => v.pass = s.pass ∧ v.queue = s.queue)
      (fun v _ r hv _ => ⟨(insertNew_pass v r).trans hv.1, (insertNew_queue v r).trans hv.2⟩) _ _ s ⟨rfl, rfl⟩
  case amend mark a =>
    simp only [State.completeHostOp]
    split
    · exact ⟨rfl, rfl⟩
    · split
      · exact ⟨reportAmended_pass _ _ _, reportAmended_queue _ _ _⟩
      · exact ⟨rfl, rfl⟩
  case retire mark =>
    simp only [State.completeHostOp]
    split
    · exact ⟨rfl, rfl⟩
    next r _ =>
      split
      · simp only [State.removeRecord]
        cases r.kind <;> exact ⟨rfl, rfl⟩
      · exact ⟨rfl, rfl⟩
  case reopen mark =>
    simp only [State.completeHostOp]
    repeat' split
    all_goals exact ⟨rfl, rfl⟩
  case lookup mark =>
    simp only [State.completeHostOp]
    split <;> exact ⟨rfl, rfl⟩
  all_goals exact ⟨rfl, rfl⟩

/-! ### What changes records -/

/-- A record as the law of the optional parts asks for it, while the pass is in a state (R47, R50). -/
structure MarkRecord.SoundIn (r : MarkRecord) (p : PassState) : Prop where
  part : r.PartArmed
  rest : p = .idle → r.restful

theorem MarkRecord.restful.soundIn {r : MarkRecord} (h : r.restful) (p : PassState) : r.SoundIn p := ⟨h.partArmed, fun _ => h⟩

theorem State.OptionalPartLaw.sound {s : State} (h : s.OptionalPartLaw) : ∀ r ∈ s.table, r.SoundIn s.pass.state :=
  fun r hr => ⟨h.parts r hr, fun hi => h.idle hi r hr⟩

theorem sound_updateMark {table : List MarkRecord} {mark : Nat} {f : MarkRecord → MarkRecord} {p : PassState}
    (h : ∀ r ∈ table, r.SoundIn p) (hf : ∀ r ∈ table, r.mark = mark → r.SoundIn p → (f r).SoundIn p) :
    ∀ r ∈ updateMark table mark f, r.SoundIn p := by
  intro r' hr'
  obtain ⟨r, hr, rfl⟩ := List.mem_map.mp hr'
  split
  next hm => exact hf r hr hm (h r hr)
  next => exact h r hr

theorem sound_insertRecord {table : List MarkRecord} {r : MarkRecord} {p : PassState} (h : ∀ x ∈ table, x.SoundIn p)
    (hr : r.restful) : ∀ x ∈ insertRecord r table, x.SoundIn p := by
  intro x hx
  obtain rfl | hx := mem_insertRecord.mp hx
  · exact hr.soundIn p
  · exact h x hx

/-- The table that an operation leaves is ordered, and its records are sound in the pass that it leaves. -/
structure State.KeepsRecords (s t : State) : Prop where
  order : s.TableLaw → Ordered t.table
  sound : s.TableLaw → s.OptionalPartLaw → ∀ r ∈ t.table, r.SoundIn t.pass.state

/-- With no operation of the host's in progress, and between passes at rest, sound records are all that the laws ask for. -/
theorem State.KeepsRecordLaws.of_records {s t : State} (h : s.KeepsRecords t) (noHost : ∀ op, t.tableOp ≠ some (.host op))
    (rests : s.QueueLaw → s.OptionalPartLaw → t.Rests) : s.KeepsRecordLaws t := by
  refine ⟨fun w => ?_, fun w q p => ⟨⟨fun hi r hr => (h.sound w p r hr).rest hi, fun r hr => (h.sound w p r hr).part,
    fun m hm hi => (rests q p hi).2.1 m hm, fun ha hi => (rests q p hi).2.2 ha, fun mark e => absurd e (noHost _),
    fun r e => absurd e (noHost _)⟩, rests q p⟩⟩
  obtain ⟨capacity, marks, numbers, order⟩ := h.order w
  exact ⟨capacity, marks, numbers, order, fun r e => absurd e (noHost _)⟩

namespace State.KeepsRecords

/-- The table and the state of the pass are all that counts. -/
theorem congr {s t u : State} (h : s.KeepsRecords t) (ht : u.table = t.table) (hp : u.pass.state = t.pass.state) :
    s.KeepsRecords u :=
  ⟨fun w => ht ▸ h.order w, fun w p => ht ▸ hp ▸ h.sound w p⟩

theorem refl (s : State) : s.KeepsRecords s := ⟨fun w => w.ordered, fun _ p => p.sound⟩

theorem of_same {s t : State} (ht : t.table = s.table) (hp : t.pass.state = s.pass.state) : s.KeepsRecords t := (refl s).congr ht hp

/-- Records are changed where they stand, the pass staying as it is. -/
theorem update {s : State} {mark : Nat} {f : MarkRecord → MarkRecord}
    (hf : s.TableLaw → ∀ r ∈ s.table, r.mark = mark → (f r).mark = r.mark ∧ (f r).nominal = r.nominal)
    (sound : s.TableLaw → s.OptionalPartLaw → ∀ r ∈ s.table, r.mark = mark → (f r).SoundIn s.pass.state) :
    s.KeepsRecords { s with table := updateMark s.table mark f } :=
  ⟨fun w => w.ordered.of_places (by rw [updateMark_places _ _ (hf w)]),
    fun w p => sound_updateMark p.sound fun r hr hm _ => sound w p r hr hm⟩

/-! ### The operations of the host -/

theorem enrol {s : State} {r : MarkRecord} (ho : s.tableOp = some (.host (.enrol r))) : s.KeepsRecords (s.insertNew r) := by
  refine ⟨fun w => ?_, fun _ p => ?_⟩
  · rw [insertNew_table]
    exact w.ordered.insertRecord (w.enrolling r ho)
  · rw [insertNew_table, insertNew_pass]
    exact sound_insertRecord p.sound (p.enrolling r ho)

/-- Each record of a run is judged against the table that holds those before it (R121). -/
theorem enrolRun (s : State) (run : RunRequest) (left i : Nat) : s.KeepsRecords (State.runFrom run left i s).1 := by
  refine ⟨fun w => ?_, fun w p => ?_⟩
  · refine State.runFrom_of (P := fun v => Ordered v.table) (fun v _ r hv hr => ?_) left i s w.ordered
    rw [insertNew_table]
    exact hv.insertRecord (judgeRunRecord_fresh hv.capacity hr).1
  · refine (State.runFrom_of (P := fun v => Ordered v.table ∧ ∀ r ∈ v.table, r.SoundIn v.pass.state) (fun v _ r hv hr => ?_) left i s
      ⟨w.ordered, p.sound⟩).2
    obtain ⟨ordered, sound⟩ := hv
    obtain ⟨fresh, rest⟩ := judgeRunRecord_fresh ordered.capacity hr
    rw [insertNew_table, insertNew_pass]
    exact ⟨ordered.insertRecord fresh, sound_insertRecord sound rest⟩

theorem applyAmend {s : State} {mark : Nat} {r : MarkRecord} (hr : findMark s.table mark = some r) (a : Amendment)
    (idle : s.pass.state = .idle) : s.KeepsRecords (s.applyAmend r a) := by
  obtain ⟨hmem, hmark⟩ := findMark_mem hr
  have stays := MarkRecord.StaysWithin.restLine (r.replaceFields a)
  have amended : s.KeepsRecords { s with table := updateMark s.table r.mark fun _ => (r.replaceFields a).restLine } := by
    refine update (fun w r' hr' hm => ?_) fun _ p _ _ _ => ((p.idle idle r hmem).amended a).soundIn _
    obtain rfl := w.eq_of_mark hr' hmem hm
    exact ⟨stays.mark, stays.nominal⟩
  exact amended.congr (by rw [State.applyAmend, reportAmended_table]) (by rw [State.applyAmend, reportAmended_pass])

theorem stageAmend {s : State} (mark : Nat) (a : Amendment) (opened : s.pass.state ≠ .idle) : s.KeepsRecords (s.stageAmend mark a) :=
  update (fun _ _ _ _ => ⟨rfl, rfl⟩) fun _ p r hr _ => ⟨p.parts r hr, fun hi => absurd hi opened⟩

theorem markRetiring {s : State} (mark : Nat) (opened : s.pass.state ≠ .idle) : s.KeepsRecords (s.markRetiring mark) :=
  update (fun _ _ _ _ => ⟨rfl, rfl⟩) fun _ p r hr _ => ⟨p.parts r hr, fun hi => absurd hi opened⟩

theorem removeRecord (s : State) (r : MarkRecord) : s.KeepsRecords (s.removeRecord r) := by
  have removed : s.KeepsRecords { s with table := removeMark s.table r.mark } :=
    ⟨fun w => w.ordered.of_places (List.filter_sublist.map _), fun _ p x hx => p.sound x (List.mem_of_mem_filter hx)⟩
  unfold State.removeRecord
  cases r.kind <;> exact removed.congr rfl rfl

theorem reopenRecord {s : State} {r : MarkRecord} {l : LinePart} (ho : s.tableOp = some (.host (.reopen r.mark))) (hr : r ∈ s.table)
    (line : r.kind = .line l) : s.KeepsRecords (s.reopenRecord r l) := by
  have reopened : s.KeepsRecords { s with
      table := updateMark s.table r.mark fun r => { r with kind := .line l.reopened, state := .enrolled } } := by
    refine update (fun _ _ _ _ => ⟨rfl, rfl⟩) fun _ p x hx _ => MarkRecord.restful.soundIn ?_ _
    have idle := p.reopening _ ho
    obtain ⟨-, -, part, -⟩ := p.idle idle r hr
    obtain ⟨retiring, staged, -, -⟩ := p.idle idle x hx
    exact ⟨retiring, staged, (MarkRecord.currentPart_line line).symm.trans part, by simp⟩
  exact reopened.congr rfl rfl

theorem completeHostOp {s : State} {op : HostOp} (ho : s.tableOp = some (.host op)) : s.KeepsRecords (s.completeHostOp op).1 := by
  cases op
  case refuse code => exact refl s
  case enrol r => exact enrol ho
  case enrolRun run => exact enrolRun s run _ _
  case amend mark a =>
    simp only [State.completeHostOp]
    split
    · exact refl s
    next hr =>
      split
      next idle => exact applyAmend hr a idle
      next opened => exact stageAmend mark a opened
  case retire mark =>
    simp only [State.completeHostOp]
    split
    · exact refl s
    · split
      · exact removeRecord s _
      next opened => exact markRetiring mark opened
  case reopen mark =>
    simp only [State.completeHostOp]
    split
    · exact refl s
    next r hr =>
      obtain ⟨hmem, rfl⟩ := findMark_mem hr
      split
      next l line => exact reopenRecord ho hmem line
      · exact refl s
      · exact refl s
  case lookup mark =>
    simp only [State.completeHostOp]
    split <;> exact refl s
  case readRange p => exact refl s
  case readGroups => exact refl s
  case setMatch m => exact of_same rfl rfl

end State.KeepsRecords

theorem State.KeepsRecordLaws.finishHostOp {s : State} {op : HostOp} (ho : s.tableOp = some (.host op)) :
    s.KeepsRecordLaws (s.finishHostOp op) := by
  obtain ⟨pass, queue⟩ := completeHostOp_pass_queue s op
  have freed : s.KeepsRecordLaws
      { (s.completeHostOp op).1.handOver (s.completeHostOp op).2.1 (s.completeHostOp op).2.2 with tableOp := none } := by
    refine .of_records ((State.KeepsRecords.completeHostOp ho).congr (by simp) (by simp)) (by simp) fun q _ hi => ?_
    have idle : s.pass.state = .idle := by simpa [pass] using hi
    exact ⟨by simp [queue, q.idle idle], by simp, by simp⟩
  exact freed.trans_undisturbed (.arbitrate _)

/-! ### Matching -/

/-- A width fault, a flaw and a datum take leave the current-pass part alone (R79, R80, R87). -/
theorem MarkRecord.currentPart_withKind {r : MarkRecord} {kind : KindPart}
    (h : kind = r.kind.widthFault ∨ (∃ c, kind = r.kind.flaw c) ∨ ∃ n, kind = r.kind.datumTake n) :
    ({ r with kind := kind } : MarkRecord).currentPart = r.currentPart := by
  obtain ⟨_, _, _, _ | _ | _, _, _, _⟩ := r <;> obtain rfl | ⟨c, rfl⟩ | ⟨n, rfl⟩ := h <;> rfl

/-- No outcome gives a part to a record that is not ARMED (R77, R81, R82). -/
theorem MarkRecord.PartArmed.after {r : MarkRecord} (h : r.PartArmed) (x : Sighting) :
    MarkRecord.PartArmed { r with kind := r.kind.after x (r.outcome x) } := by
  by_cases accepts : r.Accepts x
  · exact fun _ => accepts.1
  · rw [MarkRecord.outcome_unarmed accepts]
    exact h

theorem State.Undisturbed.reportOutcome (s : State) (o : MatchOutcome) : s.Undisturbed (s.reportOutcome o) := by
  cases o <;> exact of_same rfl rfl rfl rfl

/-- The end of a datum take empties the queue, and closes at most an open pass (R87, R88). -/
theorem State.Undisturbed.finishClaim (s : State) (report : ClaimReport) : s.Undisturbed (s.finishClaim report) := by
  cases report
  case refused => exact count s _ _
  case applied =>
    have taken : s.Undisturbed (({ s with pass := { s.pass with taken := s.pass.taken + 1 } } : State).emptyQueue true) :=
      ⟨rfl, fun _ h => h, Iff.rfl, fun h hi => ⟨rfl, (h hi).2⟩⟩
    exact taken.trans (ite (closeLivePass _) (refl _))

namespace State.KeepsRecords

theorem trans_undisturbed {s t u : State} (h : s.KeepsRecords t) (k : t.Undisturbed u) : s.KeepsRecords u := by
  refine ⟨fun w => k.table ▸ h.order w, fun w p r hr => ?_⟩
  have sound := h.sound w p r (k.table ▸ hr)
  exact ⟨sound.part, fun hi => sound.rest (k.idle.mp hi)⟩

section
variable {s : State} (opened : s.OptionalPartLaw → s.pass.state ≠ .idle)
include opened

/-- A MATCH changes the kind-dependent part of records, within an open pass. -/
theorem updateKind {mark : Nat} {f : KindPart → KindPart}
    (hf : s.TableLaw → ∀ r ∈ s.table, r.mark = mark → r.PartArmed → MarkRecord.PartArmed { r with kind := f r.kind }) :
    s.KeepsRecords (s.updateKind mark f) :=
  update (fun _ _ _ _ => ⟨rfl, rfl⟩) fun w p r hr hm => ⟨hf w r hr hm (p.parts r hr), fun hi => absurd hi (opened p)⟩

theorem matchMeasure (x : Sighting) : s.KeepsRecords (s.matchMeasure x) := by
  unfold State.matchMeasure
  split
  · exact (refl s).trans_undisturbed (.reportOutcome s _)
  next r found =>
    refine (updateKind opened fun w y hy hm part => ?_).trans_undisturbed (.reportOutcome _ _)
    obtain rfl := w.eq_of_mark hy (List.mem_of_find?_eq_some found) hm
    exact part.after x

theorem makeClaim (m : MatchUnderWay) (r : MarkRecord) : s.KeepsRecords (s.makeClaim m r) := by
  unfold State.makeClaim
  simp only
  split
  · refine (updateKind (mark := r.mark) (f := KindPart.datumTake s.pass.number) opened fun _ y _ _ part => ?_).congr rfl rfl
    rwa [MarkRecord.PartArmed, MarkRecord.currentPart_withKind (.inr (.inr ⟨_, rfl⟩))]
  · exact of_same rfl rfl

theorem matchSighting (m : MatchUnderWay) : s.KeepsRecords (s.matchSighting m) := by
  unfold State.matchSighting
  split
  · exact matchMeasure opened _
  · unfold State.matchDatum
    split
    · exact (refl s).trans_undisturbed (.finishClaim s _)
    · exact refl s
    · split
      · exact of_same rfl rfl
      · refine (updateKind opened fun _ y _ _ part => ?_).congr rfl rfl
        rwa [MarkRecord.PartArmed, MarkRecord.currentPart_withKind (.inl rfl)]
      · exact (makeClaim opened m _).trans_undisturbed (.finishClaim _ _)
      · exact refl s
      · exact refl s
      · exact refl s
  · exact refl s

end
end State.KeepsRecords

/-- A MATCH closes no pass altogether. -/
theorem matchSighting_idle {s : State} {m : MatchUnderWay} (h : (s.matchSighting m).pass.state = .idle) : s.pass.state = .idle := by
  have claimed : ∀ r, (s.makeClaim m r).pass = s.pass := by
    intro r
    unfold State.makeClaim
    simp only
    split <;> rfl
  unfold State.matchSighting at h
  split at h
  · unfold State.matchMeasure at h
    split at h
    · exact (State.Undisturbed.reportOutcome _ _).idle.mp h
    · exact (State.Undisturbed.reportOutcome (s.updateKind _ _) _).idle.mp h
  · unfold State.matchDatum at h
    split at h
    · exact (State.Undisturbed.finishClaim _ _).idle.mp h
    · exact h
    · split at h
      · exact h
      · exact h
      · exact claimed _ ▸ (State.Undisturbed.finishClaim _ _).idle.mp h
      all_goals exact h
  · exact h

namespace State.KeepsRecordLaws

theorem finishMatch {s : State} {m : MatchUnderWay} (ho : s.tableOp = some (.sightingMatch m)) :
    s.KeepsRecordLaws ({ s.matchSighting m with tableOp := none } : State).arbitrate := by
  have opened : s.OptionalPartLaw → s.pass.state ≠ .idle := fun p => p.matching m ho
  have freed : s.KeepsRecordLaws { s.matchSighting m with tableOp := none } :=
    .of_records ((State.KeepsRecords.matchSighting opened m).congr rfl rfl) (by simp) fun _ p hi =>
      absurd (matchSighting_idle hi) (opened p)
  exact freed.trans_undisturbed (.arbitrate _)

theorem makeClaim {s : State} {m : MatchUnderWay} (ho : s.tableOp = some (.sightingMatch m)) (r : MarkRecord) :
    s.KeepsRecordLaws (s.makeClaim m r) := by
  have opened : s.OptionalPartLaw → s.pass.state ≠ .idle := fun p => p.matching m ho
  have claimed : (∀ op, (s.makeClaim m r).tableOp ≠ some (.host op)) ∧ (s.makeClaim m r).pass = s.pass := by
    unfold State.makeClaim
    simp only
    split <;> exact ⟨fun op e => (nomatch e), rfl⟩
  obtain ⟨noHost, pass⟩ := claimed
  exact .of_records (.makeClaim opened m r) noHost fun _ p hi => absurd (pass ▸ hi) (opened p)

/-! ### Sweeps -/

/-- The arm sweep makes records ARMED, in an open pass that stays open (R97 to R99). -/
theorem finishArmSweep {s : State} (ho : s.tableOp = some .armSweep) : s.KeepsRecordLaws s.finishArmSweep := by
  have opened : s.OptionalPartLaw → s.pass.state ≠ .idle := fun p => p.arming ho
  have armed : s.KeepsRecords s.armRecords ∧ s.armRecords.pass.state = s.pass.state := by
    unfold State.armRecords
    split
    · exact ⟨.refl s, rfl⟩
    next terms _ =>
      have stays : ∀ r ∈ s.table, r.StaysWithin (if terms.arms r then { r with state := .armed } else r) := by
        intro r _
        split
        · exact .of_same rfl rfl rfl rfl
        · exact .refl r
      refine ⟨⟨fun w => w.ordered.of_places (by rw [map_place_of_stays _ stays]), fun _ p r' hr' => ?_⟩, rfl⟩
      obtain ⟨r, hr, rfl⟩ := List.mem_map.mp hr'
      refine ⟨?_, fun hi => absurd hi (opened p)⟩
      split
      · exact fun _ => rfl
      · exact p.parts r hr
  obtain ⟨records, pass⟩ := armed
  have arrives : ∀ v : State, v.afterArming.table = v.table ∧ (v.afterArming.pass.state = .idle → v.pass.state = .idle) := by
    intro v
    unfold State.afterArming
    split
    · exact ⟨rfl, fun h => (nomatch h)⟩
    all_goals exact ⟨rfl, id⟩
  have freed : ∀ bytes, s.KeepsRecordLaws { (s.armRecords.handOver .done bytes).afterArming with tableOp := none } := by
    intro bytes
    obtain ⟨table, idle⟩ := arrives (s.armRecords.handOver .done bytes)
    have closed : (s.armRecords.handOver .done bytes).afterArming.pass.state = .idle → s.pass.state = .idle := fun hi => by
      simpa [pass] using idle hi
    refine .of_records ⟨fun w => ?_, fun w p r hr => ?_⟩ (by simp) fun _ p hi => absurd (closed hi) (opened p)
    · simpa [table] using records.order w
    · exact ⟨(records.sound w p r (by simpa [table] using hr)).part, fun hi => absurd (closed hi) (opened p)⟩
  exact (freed _).trans_undisturbed (.arbitrate _)

/-- A close or abort sweep ends the pass, and leaves its records as they stand between passes (R50, R108 to R113). -/
theorem finishSweep {s : State} {d : Direction} {resolve : MarkRecord → MarkRecord}
    (step : resolve ∈ [MarkRecord.resolveClose d, MarkRecord.resolveAbort]) (empty : s.QueueLaw → s.queue = []) (missed : Nat) :
    s.KeepsRecordLaws ((s.sweepRecords resolve).endPass missed) := by
  have within : ∀ r : MarkRecord, r.StaysWithin (resolve r) := by
    obtain rfl | rfl : resolve = MarkRecord.resolveClose d ∨ resolve = MarkRecord.resolveAbort := by simpa using step
    · exact .resolveClose d
    · exact .resolveAbort
  have swept : (s.sweepRecords resolve).table = sweepTable resolve s.table ∧ (s.sweepRecords resolve).queue = s.queue := by
    obtain ⟨-, rest, -⟩ := State.reportSweep_spec ({ s with
      table := sweepTable resolve s.table
      occupancy := sweepOccupancy s.config.shift resolve s.table s.occupancy } : State) s.table (sweepTable resolve s.table)
    rw [State.sweepRecords, rest]
    exact ⟨rfl, rfl⟩
  obtain ⟨table, queue⟩ := swept
  refine trans_undisturbed (.of_records ⟨fun w => ?_, fun _ p r' hr' => ?_⟩ (by simp) fun q _ _ => ?_) (.arbitrate _)
  · simp only [State.raise_table, table]
    exact w.ordered.of_places (sweepTable_places _ within)
  · simp only [State.raise_table, table, sweepTable] at hr'
    obtain ⟨r'', hr'', rfl⟩ := List.mem_map.mp hr'
    obtain ⟨mem, stays⟩ := List.mem_filter.mp hr''
    obtain ⟨r, hr, rfl⟩ := List.mem_map.mp mem
    rw [r.amended_retiring step] at stays
    exact (MarkRecord.PartArmed.swept (p.parts r hr) (by simpa using stays) step).soundIn _
  · exact ⟨by simp [queue, empty q], by simp, by simp⟩

/-! ### Every command -/

/-- After a reset the table is empty, the table unit free and no pass open (R62, R74, R116). -/
theorem of_reset (s : State) {t : State} (ht : t.table = []) (ho : t.tableOp = none) (hq : t.queue = []) : s.KeepsRecordLaws t :=
  .of_records ⟨fun _ => ht ▸ .nil, fun _ _ => by simp [ht]⟩ (by simp [ho]) fun _ _ _ => ⟨hq, by simp [ho], by simp [ho]⟩

/-- A request keeps the laws where its owner's execution does. -/
theorem request {s : State} {len : Nat} {params : List Byte} {owner : State → State} (h : ∀ u : State, u.KeepsRecordLaws (owner u)) :
    s.KeepsRecordLaws (s.request len params owner) := by
  have taken : s.Undisturbed (s.addressedForWrite .taken) := .of_same rfl rfl rfl rfl
  have queue : s.QueueLaw → (s.addressedForWrite .taken).QueueLaw := fun ⟨h1, h2, h3, h4, h5, h6, h7, h8, h9⟩ =>
    ⟨h1, h2, h3, h4, h5, h6, h7, h8, h9⟩
  exact s.request_of len params owner (refl s) (of_undisturbed (taken.trans (.reject _ _))) (of_same taken queue (h _))

/-- A request whose owner's execution leaves the records alone. -/
theorem sameRequest {s : State} {len : Nat} {params : List Byte} {owner : State → State} (h : ∀ u : State, u.Undisturbed (owner u)) :
    s.KeepsRecordLaws (s.request len params owner) := request fun u => of_undisturbed (h u)

theorem whileOperating {s : State} {f : State → State} (h : s.KeepsRecordLaws (f s)) : s.KeepsRecordLaws (s.whileOperating f) :=
  s.whileOperating_of f (refl s) h

/-- A command that leaves the records alone where it is carried out. -/
theorem sameOperating {s : State} {f : State → State} (h : s.Undisturbed (f s)) : s.KeepsRecordLaws (s.whileOperating f) :=
  whileOperating (of_undisturbed h)

end State.KeepsRecordLaws

open State.KeepsRecordLaws in
/-- Every command keeps the law of the table and that of the optional parts. -/
theorem exec_keepsRecordLaws (c : Instr) (s t : State) (h : exec c s = .next t) : s.KeepsRecordLaws t := by
  have same := State.Undisturbed.refl s
  cases c <;> obtain rfl := Host.Outcome.next.inj h
  case sampleEvent k increment amplitude first => exact sameOperating (.ite same (.sampleChannel s _ _ _ _))
  case referenceAbsenceTimeout first => exact sameOperating (.ite (.referenceLost s first) same)
  case referenceEdge => exact sameOperating (.of_same rfl rfl rfl rfl)
  case leadingEdge i phase => exact sameOperating (.leadingEdge s i _)
  case trailingEdge i phase => exact sameOperating (.trailingEdge s i _)
  case matchCompletion =>
    refine whileOperating ?_
    split
    next ho => exact finishMatch ho
    all_goals exact refl s
  case datumOffsetClaim =>
    refine whileOperating ?_
    split
    next ho =>
      split
      · exact makeClaim ho _
      · exact refl s
    all_goals exact refl s
  case armSweepCompletion =>
    refine whileOperating ?_
    split
    next ho => exact finishArmSweep ho
    next => exact refl s
  case closeSweepCompletion =>
    refine whileOperating ?_
    split
    next ho => exact finishSweep (d := s.pass.direction) (by simp) (fun q => (q.closeSweep ho).2.1) _
    next => exact refl s
  case abortSweepCompletion =>
    refine whileOperating ?_
    split
    next ho => exact finishSweep (d := .forward) (by simp) (fun q => q.aborting (q.abortSweep ho).1) _
    next => exact refl s
  case tableOperationCompletion =>
    refine whileOperating ?_
    split
    next ho => exact finishHostOp ho
    all_goals exact refl s
  case passTimerExpiry =>
    have stopped : s.Undisturbed { s with passTimer := false } := .of_same rfl rfl rfl rfl
    exact sameOperating (.ite ((stopped.trans (.abortLivePass _ _)).trans (.arbitrate _)) same)
  case setAxis params first => exact sameRequest fun u => .setAxisRequest u _ _
  case trackAxis params => exact sameRequest fun u => .trackRequest u _
  case restartAxis params => exact sameRequest fun u => .restartRequest u _
  case zeroAxis params => exact sameRequest fun u => .zeroRequest u _ _
  case readAxes params => exact sameRequest fun u => .answer u _ _
  case setMatch params => exact request fun u => setMatchRequest u _
  case setLine params => exact sameRequest fun u => .setLineRequest u _
  case readLines params => exact sameRequest fun u => .answer u _ _
  case enrol params =>
    exact request fun u => hostTableGuarded (fun w _ h => judgeEnrol_admitted w.capacity h) fun v => .reject v _
  case enrolRun params => exact request fun u => hostTableGuarded (fun _ _ h => judgeRun_admitted h) fun v => .answer v _ _
  case amend params => exact request fun u => hostTableGuarded (fun _ _ h => judgeAmend_admitted h) fun v => .reject v _
  case retire params => exact request fun u => hostTableGuarded (fun _ _ h => judgeRetire_admitted h) fun v => .reject v _
  case reopen params => exact request fun u => hostTable (judgeReopen_admitted u _)
  case lookup params => exact request fun u => hostTable (judgeLookup_admitted u _)
  case readRange params => exact request fun u => hostTable trivial
  case beginPass params => exact request fun u => beginPassRequest u _
  case abortPass params => exact sameRequest fun u => .abortPassRequest u _
  case readPass params => exact sameRequest fun u => .answer u _ _
  case readGroups params => exact request fun u => hostTable trivial
  case protect params => exact sameRequest fun u => .of_same rfl rfl rfl rfl
  case unprotect params => exact sameRequest fun u => .unprotectRequest u _
  case readProtect params => exact sameRequest fun u => .answer u _ _
  case readEvents params => exact sameRequest fun u => .readEventsRequest u _
  case clearEvents params => exact sameRequest fun u => .clearEventsRequest u _
  case setNotice params => exact sameRequest fun u => .setNoticeRequest u _ _
  case identify params => exact sameRequest fun u => .of_same rfl rfl rfl rfl
  case reset params => exact sameRequest fun u => .resetRequest u _
  case unknownRequest code params => exact sameRequest fun u => .reject u _
  case linkFault cause => exact of_undisturbed (.ite same (.of_same rfl rfl rfl rfl))
  case linkStart address => exact sameOperating (.linkStart s _)
  case linkStop straps =>
    have stopped : s.Undisturbed s.stopExchange := .of_same rfl rfl rfl rfl
    refine whileOperating ?_
    unfold State.linkStop
    split
    · exact of_reset s rfl rfl rfl
    · exact of_undisturbed (.ite (stopped.trans (.interfaceReset _)) stopped)
  case responseRead extent => exact sameOperating (.addressedForRead s _)
  case poll extent => exact sameOperating (.addressedForRead s _)
  case noticeStart rival => exact sameOperating (.ite (.startNotice s _) same)
  case noticeWithdraw => exact sameOperating (.ite (.of_same rfl rfl rfl rfl) same)
  case powerOnReset => exact of_reset s rfl rfl rfl
  case powerOnHoldEnd straps => exact of_undisturbed (.ite (.of_same rfl rfl rfl rfl) same)
  case pinResetAssert =>
    split
    · exact of_undisturbed (.of_same rfl rfl rfl rfl)
    · exact of_reset s rfl rfl rfl
  case pinResetRelease straps =>
    exact of_undisturbed (.ite same (.ite (.of_same rfl rfl rfl rfl) (.of_same rfl rfl rfl rfl)))
  case supplyFailure => exact of_undisturbed (.of_same rfl rfl rfl rfl)

/-- A step keeps both laws: it carries out the front command on the state with the queue's rest, or idles. -/
theorem step_keepsRecordLaws (s t : State) (h : step s = .next t) : s.KeepsRecordLaws t := by
  unfold step at h
  split at h
  · obtain rfl := Host.Outcome.next.inj h
    exact .refl s
  next c rest _ =>
    refine .of_same (t := { s with pending := rest }) (.of_same rfl rfl rfl rfl) ?_ (exec_keepsRecordLaws c _ t h)
    exact fun ⟨h1, h2, h3, h4, h5, h6, h7, h8, h9⟩ => ⟨h1, h2, h3, h4, h5, h6, h7, h8, h9⟩

/-- Settles O54: records are inserted at free places, change where they stand, and are taken out. -/
theorem tableLawIsKept : Obligations.TableLawIsKept := fun s t w h => (step_keepsRecordLaws s t h).order w

/-- Settles O58: the arm sweep and the MATCH belong to an open pass, and the sweep that ends it leaves its records at rest. -/
theorem optionalPartLawIsKept : Obligations.OptionalPartLawIsKept := fun s t w q p h =>
  ((step_keepsRecordLaws s t h).parts w q p).1

end Sys2Proof.Machine
end

