-- ==== Sys2Proof/Proofs/Prefilter.lean ====
section
/-! SUPPORT. The buckets that a window touches, and why the prefilter never drops a sighting whose centre lies in one (R42, R54, R64 to
R66, R69). -/

namespace Sys2Proof.Machine

/-! ### The ends of a window (R42, R54) -/

section
variable {f : Amendable} {shift : Nat} {nominal : Position} (h : f.InRange shift nominal)
include h

theorem Amendable.InRange.toInt_half : (BitVec.ofNat 48 f.half).toInt = f.half := by
  have low := h.low
  have high := h.high
  rw [← BitVec.ofInt_natCast]
  exact BitVec.toInt_ofInt_eq_self (by omega) (by omega) (by omega)

/-- Within the values of R42 the lower end of a window does not wrap. -/
theorem Amendable.InRange.toInt_low : (nominal - BitVec.ofNat 48 f.half).toInt = nominal.toInt - f.half := by
  have low := h.low
  have top := nominal.toInt_lt
  rw [BitVec.toInt_sub, h.toInt_half]
  exact Int.bmod_eq_of_le (by omega) (by omega)

/-- Nor does the upper end. -/
theorem Amendable.InRange.toInt_high : (nominal + BitVec.ofNat 48 f.half).toInt = nominal.toInt + f.half := by
  have high := h.high
  have bottom := nominal.le_toInt
  rw [BitVec.toInt_add, h.toInt_half]
  exact Int.bmod_eq_of_le (by omega) (by omega)

/-- A window is narrower than a bucket (R42). -/
theorem Amendable.InRange.two_half_lt (shift_pos : 1 ≤ shift) : 2 * f.half < 2 ^ shift := by
  have ceiling := h.ceiling
  have double : 2 ^ shift = 2 * 2 ^ (shift - 1) := by rw [← Nat.pow_succ', Nat.succ_eq_add_one, Nat.sub_add_cancel shift_pos]
  have pos : 0 < 2 ^ (shift - 1) := Nat.two_pow_pos _
  omega

end

/-! ### Buckets (R64, R66) -/

/-- A window narrower than a bucket touches no bucket but those of its two ends. -/
theorem bucketOf_within {shift : Nat} {lo p hi : Position} (low : lo.toInt ≤ p.toInt) (high : p.toInt ≤ hi.toInt)
    (narrow : hi.toInt - lo.toInt < 2 ^ shift) : bucketOf shift p = bucketOf shift lo ∨ bucketOf shift p = bucketOf shift hi := by
  have pos : (0 : Int) < 2 ^ shift := by positivity
  have above : lo.toInt / 2 ^ shift ≤ p.toInt / 2 ^ shift := Int.ediv_le_ediv pos low
  have below : p.toInt / 2 ^ shift ≤ hi.toInt / 2 ^ shift := Int.ediv_le_ediv pos high
  have step : (lo.toInt + 2 ^ shift) / 2 ^ shift = lo.toInt / 2 ^ shift + 1 := by
    rw [Int.add_ediv_of_dvd_right (dvd_refl _), Int.ediv_self pos.ne']
  have next : hi.toInt / 2 ^ shift ≤ (lo.toInt + 2 ^ shift) / 2 ^ shift := Int.ediv_le_ediv pos (by omega)
  have either : p.toInt / 2 ^ shift = lo.toInt / 2 ^ shift ∨ p.toInt / 2 ^ shift = hi.toInt / 2 ^ shift := by omega
  refine either.imp ?_ ?_ <;> exact fun e => BitVec.eq_of_toInt_eq (by rw [toInt_bucketOf, toInt_bucketOf, e])

theorem MarkRecord.slots_eq (shift : Nat) (r : MarkRecord) :
    let lo := bucketOf shift (r.nominal - BitVec.ofNat 48 r.fields.half)
    let hi := bucketOf shift (r.nominal + BitVec.ofNat 48 r.fields.half)
    r.slots shift = if lo = hi then [slotOf lo] else [slotOf lo, slotOf hi] := rfl

/-- The bucket of a position in the window has a slot among those that the record claims. -/
theorem MarkRecord.slot_mem_slots {shift : Nat} {r : MarkRecord} {p : Position} (pos : 1 ≤ shift) (h : r.fields.InRange shift r.nominal)
    (low : r.nominal.toInt - r.fields.half ≤ p.toInt) (high : p.toInt ≤ r.nominal.toInt + r.fields.half) :
    slotOf (bucketOf shift p) ∈ r.slots shift := by
  have narrow : ((2 * r.fields.half : Nat) : Int) < ((2 ^ shift : Nat) : Int) := Int.ofNat_lt.mpr (h.two_half_lt pos)
  push_cast at narrow
  have ends := bucketOf_within (shift := shift) (p := p) (h.toInt_low.trans_le low) (high.trans_eq h.toInt_high.symm)
    (by rw [h.toInt_low, h.toInt_high]; omega)
  rw [r.slots_eq shift]
  obtain e | e := ends <;> rw [e] <;> split
  · simp
  · simp
  · next same => simp [same]
  · simp

/-- Settles O60: the occupancy counts the claims of every record, and the centre's bucket is one of an end of the window. -/
theorem prefilterPassesEveryWindow : Obligations.PrefilterPassesEveryWindow := by
  refine ⟨fun s x r occupancy ranges hr low high => ?_, fun s r lo hi ranges hr low high => ?_⟩
  · have claimed := MarkRecord.slot_mem_slots (by have := ranges.shift; omega) (ranges.records r hr) low high
    refine s.prefilter_passes ?_
    rw [occupancy.counts]
    exact (List.count_pos_iff.mpr (List.mem_flatMap.mpr ⟨r, hr, claimed⟩)).ne'
  · have within := ranges.records r hr
    obtain rfl : lo = r.nominal - BitVec.ofNat 48 r.fields.half := BitVec.eq_of_toInt_eq (low.trans within.toInt_low.symm)
    obtain rfl : hi = r.nominal + BitVec.ofNat 48 r.fields.half := BitVec.eq_of_toInt_eq (high.trans within.toInt_high.symm)
    exact r.slots_eq s.config.shift

end Sys2Proof.Machine
end

