-- ==== Sys2Proof/Proofs/TableRequests.lean ====
section
/-! SUPPORT. The arbiter's choice, and how a table request meets it: BUSY from an occupied table unit, and otherwise the operation that
the checks of the request decide on, request by request (R58, R61, R117 to R131). -/

namespace Sys2Proof.Machine

/-! ### The arbiter (R58) -/

/-- Settles O30: the arbiter's own rules, one per candidate. -/
theorem arbiterPicksByPreference : Obligations.ArbiterPicksByPreference := by
  refine fun s => ⟨fun busy => ?_, fun idle abort => s.arbitrate_abort idle abort,
    fun x rest idle noAbort queued => s.arbitrate_sighting idle noAbort queued,
    fun idle close empty => s.arbitrate_close idle close empty,
    fun idle unclaimed empty => s.arbitrate_none idle unclaimed empty⟩
  obtain ⟨op, running⟩ := Option.ne_none_iff_exists'.mp busy
  exact s.arbitrate_busy running

/-! ### A request and the table unit (R58, R61) -/

/-- The request starts the host operation `op`, and its response is awaited. -/
def State.Starts (s : State) (c : Instr) (op : HostOp) : Prop :=
  exec c s = .next ({ s with tableOp := some (.host op) }.responding .pending)

section
variable {s : State} (received : s.receives) {len : Nat} {params : List Byte} (sized : params.length = len)
include received sized

theorem request_hostTable_busy (busy : s.tableFree = false) (judge : State → HostOp) :
    s.request len params (fun u => u.hostTable judge) = s.refused .busy := by
  have occupied : (s.responding .empty).tableFree = false := busy
  rw [received.request_eq sized, State.hostTable, occupied]
  rfl

theorem request_hostTableGuarded_busy (busy : s.tableFree = false) (judge : State → Verdict) (shielded : State → State) :
    s.request len params (fun u => u.hostTableGuarded judge shielded) = s.refused .busy := by
  have occupied : (s.responding .empty).tableFree = false := busy
  rw [received.request_eq sized, State.hostTableGuarded, occupied]
  rfl

theorem request_hostTable_free (free : s.tableFree = true) {judge : State → HostOp} {op : HostOp}
    (judged : judge (s.responding .empty) = op) :
    s.request len params (fun u => u.hostTable judge) = { s with tableOp := some (.host op) }.responding .pending := by
  have ready : (s.responding .empty).tableFree = true := free
  rw [received.request_eq sized, State.hostTable, ready, if_pos rfl, judged]
  rfl

theorem request_hostTableGuarded_free (free : s.tableFree = true) {judge : State → Verdict} {op : HostOp}
    (judged : judge (s.responding .empty) = .start op) (shielded : State → State) :
    s.request len params (fun u => u.hostTableGuarded judge shielded)
      = { s with tableOp := some (.host op) }.responding .pending := by
  have ready : (s.responding .empty).tableFree = true := free
  rw [received.request_eq sized, State.hostTableGuarded, ready, if_pos rfl, judged]
  rfl

end

/-! ### The requests to a free table unit -/

section
variable {s : State} (received : s.receives) (free : s.tableFree = true) {params : List Byte} {op : HostOp}
include received free

theorem lookup_starts (sized : params.length = 2) (judged : s.judgeLookup (field params 0 2) = op) :
    s.Starts (.lookup params) op :=
  congrArg Host.Outcome.next (request_hostTable_free received sized free judged)

theorem reopen_starts (sized : params.length = 2) (judged : s.judgeReopen (field params 0 2) = op) :
    s.Starts (.reopen params) op :=
  congrArg Host.Outcome.next (request_hostTable_free received sized free judged)

theorem retire_starts (sized : params.length = 2) (judged : s.judgeRetire (field params 0 2) = .start op) :
    s.Starts (.retire params) op :=
  congrArg Host.Outcome.next (request_hostTableGuarded_free received sized free judged _)

theorem enrolRun_starts (sized : params.length = 26) (judged : s.judgeRun (runRequest params) = .start op) :
    s.Starts (.enrolRun params) op :=
  congrArg Host.Outcome.next (request_hostTableGuarded_free received sized free judged _)

theorem amend_starts (sized : params.length = 12) (judged : s.judgeAmend (amendFields params) = .start op) :
    s.Starts (.amend params) op :=
  congrArg Host.Outcome.next (request_hostTableGuarded_free received sized free judged _)

theorem readRange_starts (sized : params.length = 6) : s.Starts (.readRange params) (.readRange (positionField params 0)) :=
  congrArg Host.Outcome.next (request_hostTable_free received sized free rfl)

theorem readGroups_starts (sized : params.length = 0) : s.Starts (.readGroups params) .readGroups :=
  congrArg Host.Outcome.next (request_hostTable_free received sized free rfl)

end

/-! ### What the checks of LOOKUP, RETIRE and REOPEN decide (R128, R130, R131) -/

section
variable {s : State} {mark : Nat}

theorem judgeLookup_beyond (beyond : 4096 ≤ mark) : s.judgeLookup mark = .refuse .range := by
  rw [State.judgeLookup, Config.markLimit, if_pos beyond]

theorem judgeRetire_beyond (beyond : 4096 ≤ mark) : s.judgeRetire mark = .start (.refuse .range) := by
  rw [State.judgeRetire, Config.markLimit, if_pos beyond]

theorem judgeReopen_inPass (inPass : s.pass.state ≠ .idle) : s.judgeReopen mark = .refuse .state := by
  rw [State.judgeReopen, if_pos inPass]

theorem judgeReopen_beyond (idle : s.pass.state = .idle) (beyond : 4096 ≤ mark) : s.judgeReopen mark = .refuse .range := by
  rw [State.judgeReopen, if_neg (not_not_intro idle), Config.markLimit, if_pos beyond]

variable (within : mark < 4096)
include within

theorem judgeLookup_unknown (unknown : findMark s.table mark = none) : s.judgeLookup mark = .refuse .noRecord := by
  simp [State.judgeLookup, Config.markLimit, Nat.not_le.mpr within, unknown]

theorem judgeLookup_known {r : MarkRecord} (known : findMark s.table mark = some r) : s.judgeLookup mark = .lookup mark := by
  simp [State.judgeLookup, Config.markLimit, Nat.not_le.mpr within, known]

theorem judgeRetire_unknown (bare : s.protection.covers mark = false) (unknown : findMark s.table mark = none) :
    s.judgeRetire mark = .start (.refuse .noRecord) := by
  simp [State.judgeRetire, Config.markLimit, Nat.not_le.mpr within, bare, unknown]

theorem judgeRetire_known (bare : s.protection.covers mark = false) {r : MarkRecord} (known : findMark s.table mark = some r) :
    s.judgeRetire mark = .start (if r.retiring then .refuse .state else .retire mark) := by
  simp only [State.judgeRetire, Config.markLimit, if_neg (Nat.not_le.mpr within), bare, known]
  cases r.retiring <;> rfl

theorem judgeReopen_unknown (idle : s.pass.state = .idle) (unknown : findMark s.table mark = none) :
    s.judgeReopen mark = .refuse .noRecord := by
  simp [State.judgeReopen, idle, Config.markLimit, Nat.not_le.mpr within, unknown]

variable (idle : s.pass.state = .idle) {r : MarkRecord} (known : findMark s.table mark = some r)
include idle known

theorem judgeReopen_line {l : LinePart} (line : r.kind = .line l) : s.judgeReopen mark = .reopen mark := by
  simp [State.judgeReopen, idle, Config.markLimit, Nat.not_le.mpr within, known, line]

theorem judgeReopen_datum {d : DatumPart} (datum : r.kind = .datum d) : s.judgeReopen mark = .refuse .range := by
  simp [State.judgeReopen, idle, Config.markLimit, Nat.not_le.mpr within, known, datum]

theorem judgeReopen_keepout {k : KeepoutPart} (keepout : r.kind = .keepout k) : s.judgeReopen mark = .refuse .range := by
  simp [State.judgeReopen, idle, Config.markLimit, Nat.not_le.mpr within, known, keepout]

end

section
variable {s : State} (received : s.receives) {params : List Byte}
include received

/-- Every table request sent to an occupied table unit is refused BUSY. -/
theorem exec_refuses_busy (busy : s.tableFree = false) (c : Instr)
    (table : (c = .lookup params ∨ c = .retire params ∨ c = .reopen params) ∧ params.length = 2
      ∨ c = .readRange params ∧ params.length = 6 ∨ c = .readGroups params ∧ params.length = 0
      ∨ c = .enrol params ∧ params.length = 19 ∨ c = .enrolRun params ∧ params.length = 26
      ∨ c = .amend params ∧ params.length = 12) :
    exec c s = .next (s.refused .busy) := by
  have plain {len : Nat} (sized : params.length = len) := request_hostTable_busy received sized busy
  have guarded {len : Nat} (sized : params.length = len) := request_hostTableGuarded_busy received sized busy
  obtain ⟨rfl | rfl | rfl, sized⟩ | ⟨rfl, sized⟩ | ⟨rfl, sized⟩ | ⟨rfl, sized⟩ | ⟨rfl, sized⟩ | ⟨rfl, sized⟩ := table
  · exact congrArg Host.Outcome.next (plain sized _)
  · exact congrArg Host.Outcome.next (guarded sized _ _)
  · exact congrArg Host.Outcome.next (plain sized _)
  · exact congrArg Host.Outcome.next (plain sized _)
  · exact congrArg Host.Outcome.next (plain sized _)
  · exact congrArg Host.Outcome.next (guarded sized _ _)
  · exact congrArg Host.Outcome.next (guarded sized _ _)
  · exact congrArg Host.Outcome.next (guarded sized _ _)

end

/-- Settles O31: the busy arbiter refuses each request alike, and a free one starts what the request's checks decide on. -/
theorem tableRequestsMeetArbiter : Obligations.TableRequestsMeetArbiter := by
  intro s params received
  refine ⟨exec_refuses_busy received, fun free sized => readRange_starts received free sized,
    fun free sized => readGroups_starts received free sized, fun free sized => ?_⟩
  refine ⟨fun beyond => ⟨lookup_starts received free sized (judgeLookup_beyond beyond),
      retire_starts received free sized (judgeRetire_beyond beyond)⟩,
    fun inPass => reopen_starts received free sized (judgeReopen_inPass inPass),
    fun idle beyond => reopen_starts received free sized (judgeReopen_beyond idle beyond),
    fun within unknown => ⟨lookup_starts received free sized (judgeLookup_unknown within unknown),
      fun bare => retire_starts received free sized (judgeRetire_unknown within bare unknown),
      fun idle => reopen_starts received free sized (judgeReopen_unknown within idle unknown)⟩,
    fun r within known => ⟨lookup_starts received free sized (judgeLookup_known within known),
      fun bare => retire_starts received free sized (judgeRetire_known within bare known),
      fun idle => reopen_starts received free sized ?_⟩⟩
  cases kind : r.kind with
  | line l => exact judgeReopen_line within idle known kind
  | datum d => exact judgeReopen_datum within idle known kind
  | keepout k => exact judgeReopen_keepout within idle known kind

/-! ### What the checks of ENROL RUN and AMEND decide (R121, R124, R126) -/

theorem judgeRun_wellFormed {s : State} {run : RunRequest} (bare : s.protection.covers run.firstMark = false)
    (formed : 1 ≤ run.count ∧ run.count ≤ 16 ∧ run.pitch ≠ 0) : s.judgeRun run = .start (.enrolRun run) := by
  have sound : ¬(run.count < 1 ∨ 16 < run.count ∨ run.pitch = 0) := by omega
  rw [State.judgeRun, if_neg sound, bare, Bool.and_false]
  rfl

theorem judgeRun_malformed {s : State} {run : RunRequest} (malformed : ¬(1 ≤ run.count ∧ run.count ≤ 16 ∧ run.pitch ≠ 0)) :
    s.judgeRun run = .start (.refuse .range) := by
  have unsound : run.count < 1 ∨ 16 < run.count ∨ run.pitch = 0 := by omega
  rw [State.judgeRun, if_pos unsound]

theorem judgePlan_inRange {group passes : Nat} (h : group < 8) (low : 1 ≤ passes) (high : passes ≤ 15) :
    judgePlan group passes = some ⟨⟨group, h⟩, passes⟩ := by simp [judgePlan, h, low, high]

theorem judgePlan_outOfRange {group passes : Nat} (h : ¬(group < 8 ∧ 1 ≤ passes ∧ passes ≤ 15)) :
    judgePlan group passes = none := by
  unfold judgePlan
  split
  next known => exact if_neg fun inRange => h ⟨known, inRange⟩
  next => rfl

/-- Group and passes needed that an amendment of `r` may name: passes needed not below a count of a LINE record (R124). -/
def AmendFields.PlanInRange (f : AmendFields) (r : MarkRecord) : Prop :=
  ∀ l, r.kind = .line l →
    (f.group < 8 ∧ 1 ≤ f.passes ∧ f.passes ≤ 15) ∧ l.forwardCount ≤ f.passes ∧ l.reverseCount ≤ f.passes

/-- The fields that `a` carries of a request to amend `r` (R41, R126). -/
def AmendFields.Carried (f : AmendFields) (r : MarkRecord) (a : Amendment) : Prop :=
  a.fields.half = f.half ∧ a.fields.minWidth = f.minWidth ∧ a.fields.maxWidth = f.maxWidth ∧ a.fields.accept.code = f.accept
    ∧ (∀ l, r.kind = .line l → ∃ plan : LinePlan, a.plan = some plan ∧ plan.group.val = f.group ∧ plan.passes = f.passes)
    ∧ ((∀ l, r.kind ≠ .line l) → a.plan = none)

section
variable {f : AmendFields} {shift : Nat} {r : MarkRecord}

/-- Fields within their values make an amendment that carries them. -/
theorem amendment_inRange (plan : f.PlanInRange r)
    (values : amendableInRange shift r.nominal.toInt f.half f.minWidth f.maxWidth f.accept) :
    ∃ a, f.amendment shift r = some a ∧ f.Carried r a := by
  obtain ⟨accept, judged, code⟩ := judgeAmendable_inRange values
  cases kind : r.kind with
  | line l =>
    obtain ⟨⟨group, low, high⟩, counts⟩ := plan l kind
    refine ⟨⟨⟨f.half, f.minWidth, f.maxWidth, accept⟩, some ⟨⟨f.group, group⟩, f.passes⟩⟩, ?_, rfl, rfl, rfl, code,
      fun _ _ => ⟨_, rfl, rfl, rfl⟩, fun other => absurd kind (other l)⟩
    simp only [AmendFields.amendment, judged, kind, judgePlan_inRange group low high, if_pos counts]
  | datum d =>
    exact ⟨⟨⟨f.half, f.minWidth, f.maxWidth, accept⟩, none⟩, by simp only [AmendFields.amendment, judged, kind], rfl, rfl, rfl, code,
      fun l line => by simp [kind] at line, fun _ => rfl⟩
  | keepout k =>
    exact ⟨⟨⟨f.half, f.minWidth, f.maxWidth, accept⟩, none⟩, by simp only [AmendFields.amendment, judged, kind], rfl, rfl, rfl, code,
      fun l line => by simp [kind] at line, fun _ => rfl⟩

theorem amendment_outOfRange
    (h : ¬(f.PlanInRange r ∧ amendableInRange shift r.nominal.toInt f.half f.minWidth f.maxWidth f.accept)) :
    f.amendment shift r = none := by
  by_cases values : amendableInRange shift r.nominal.toInt f.half f.minWidth f.maxWidth f.accept
  · have noPlan : ¬f.PlanInRange r := fun plan => h ⟨plan, values⟩
    obtain ⟨accept, judged, -⟩ := judgeAmendable_inRange values
    cases kind : r.kind with
    | line l =>
      have refused : ¬((f.group < 8 ∧ 1 ≤ f.passes ∧ f.passes ≤ 15) ∧ l.forwardCount ≤ f.passes ∧ l.reverseCount ≤ f.passes) :=
        fun inRange => noPlan fun l' line => by
          rw [kind] at line
          cases line
          exact inRange
      by_cases inRange : f.group < 8 ∧ 1 ≤ f.passes ∧ f.passes ≤ 15
      · have counts : ¬(l.forwardCount ≤ f.passes ∧ l.reverseCount ≤ f.passes) := fun counts => refused ⟨inRange, counts⟩
        simp only [AmendFields.amendment, judged, kind, judgePlan_inRange inRange.1 inRange.2.1 inRange.2.2, if_neg counts]
      · simp only [AmendFields.amendment, judged, kind, judgePlan_outOfRange inRange]
    | datum d => exact absurd (fun l line => by simp [kind] at line) noPlan
    | keepout k => exact absurd (fun l line => by simp [kind] at line) noPlan
  · simp only [AmendFields.amendment, judgeAmendable_outOfRange values]

end

/-- A record other than `mark` whose widened window meets the amended one (R124, check 4). -/
def State.amendmentOverlaps (s : State) (mark : Nat) (nominal : Int) (half : Nat) : Prop :=
  ∃ x ∈ s.table, x.mark ≠ mark ∧ nominal - half ≤ x.nominal.toInt + x.reach ∧ x.nominal.toInt - x.reach ≤ nominal + half

theorem any_overlaps_iff {s : State} {mark : Nat} {nominal : Int} {half : Nat} :
    (s.table.any fun x => x.mark != mark && x.overlaps nominal half) = true ↔ s.amendmentOverlaps mark nominal half := by
  simp [State.amendmentOverlaps, overlaps_iff]

section
variable {s : State} {f : AmendFields}

theorem judgeAmend_beyond (beyond : 4096 ≤ f.mark) : s.judgeAmend f = .start (.refuse .range) := by
  rw [State.judgeAmend, Config.markLimit, if_pos beyond]

variable (within : f.mark < 4096) (bare : s.protection.covers f.mark = false)
include within bare

theorem judgeAmend_unknown (unknown : findMark s.table f.mark = none) : s.judgeAmend f = .start (.refuse .noRecord) := by
  simp [State.judgeAmend, Config.markLimit, Nat.not_le.mpr within, bare, unknown]

variable {r : MarkRecord} (known : findMark s.table f.mark = some r)
include known

theorem judgeAmend_outOfRange (refused : f.amendment s.config.shift r = none) : s.judgeAmend f = .start (.refuse .range) := by
  simp [State.judgeAmend, Config.markLimit, Nat.not_le.mpr within, bare, known, refused]

variable {a : Amendment} (made : f.amendment s.config.shift r = some a)
include made

theorem judgeAmend_overlapped (overlapped : s.amendmentOverlaps f.mark r.nominal.toInt f.half) :
    s.judgeAmend f = .start (.refuse .overlap) := by
  simp only [State.judgeAmend, Config.markLimit, if_neg (Nat.not_le.mpr within), bare, known, made, any_overlaps_iff.mpr overlapped]
  rfl

theorem judgeAmend_clear (clear : ¬s.amendmentOverlaps f.mark r.nominal.toInt f.half) :
    s.judgeAmend f = .start (if r.retiring then .refuse .state else .amend f.mark a) := by
  simp only [State.judgeAmend, Config.markLimit, if_neg (Nat.not_le.mpr within), bare, known, made,
    eq_false_of_ne_true fun found => clear (any_overlaps_iff.mp found)]
  cases r.retiring <;> rfl

end

/-- Settles O33: a run by its count and pitch; an amendment by its record, its fields, the other windows and RETIRING. -/
theorem runAndAmendmentStart : Obligations.RunAndAmendmentStart := by
  intro s params received free starts mark bare
  refine ⟨fun sized => ⟨fun formed => enrolRun_starts received free sized (judgeRun_wellFormed bare formed),
      fun malformed => enrolRun_starts received free sized (judgeRun_malformed malformed)⟩, fun sized => ?_⟩
  have amends {op : HostOp} (judged : s.judgeAmend (amendFields params) = .start op) : starts (.amend params) op :=
    amend_starts received free sized judged
  refine ⟨fun beyond => amends (judgeAmend_beyond beyond),
    fun within unknown => amends (judgeAmend_unknown within bare unknown), fun r within known => ?_⟩
  intro counted inRange overlapped
  have values : inRange ↔ (amendFields params).PlanInRange r ∧ amendableInRange s.config.shift r.nominal.toInt
      (amendFields params).half (amendFields params).minWidth (amendFields params).maxWidth (amendFields params).accept := by
    have plan : counted ↔ (amendFields params).PlanInRange r := by
      unfold counted AmendFields.PlanInRange
      cases r.kind <;> simp [and_assoc]
    simp only [inRange, plan, amendableInRange]
  refine ⟨fun refused => amends (judgeAmend_outOfRange within bare known (amendment_outOfRange (mt values.mpr refused))),
    fun fits => ?_, fun fits => ?_, fun fits => ?_⟩
  all_goals
    obtain ⟨plan, amendable⟩ := values.mp fits
    obtain ⟨a, made, carried⟩ := amendment_inRange plan amendable
  · exact fun overlap => amends (judgeAmend_overlapped within bare known made overlap)
  · intro clear retiring
    have judged := judgeAmend_clear (f := amendFields params) within bare known made clear
    rw [retiring] at judged
    exact amends judged
  · intro clear standing
    have judged := judgeAmend_clear (f := amendFields params) within bare known made clear
    rw [standing] at judged
    exact ⟨a, amends judged, carried⟩

end Sys2Proof.Machine
end

