-- ==== Sys2Proof/Proofs/EndCrossing.lean ====
section
/-! SUPPORT. The crossing test at a sample event of the measuring axis: what of the pass, the queue and the sweep claim comes before it,
what it makes of them, and what the arbiter then picks (R58, R60, R100, R101, R104). -/

namespace Sys2Proof.Machine

/-! ### The parts of an event before and after the pass controller acts -/

/-- No input has a closing line that could still form a sighting. -/
def State.NoneClosing (s : State) : Prop := ∀ i, (s.line i).closing = none

/-- From `s` to `t` channels, line inputs and closing lines may have acted, but neither the pass controller nor the arbiter: the queue
changes only by a sighting formed in a live pass (R38). -/
structure State.Gathers (s t : State) : Prop where
  pass : t.pass = s.pass
  passTimer : t.passTimer = s.passTimer
  config : t.config = s.config
  tableOp : t.tableOp = s.tableOp
  sweepClaim : t.sweepClaim = s.sweepClaim
  dead : s.pass.state.live = false → t.queue = s.queue
  still : s.NoneClosing → t.queue = s.queue ∧ t.NoneClosing

namespace State.Gathers

protected theorem refl (s : State) : s.Gathers s := ⟨rfl, rfl, rfl, rfl, rfl, fun _ => rfl, fun none => ⟨rfl, none⟩⟩

protected theorem trans {s t u : State} (h : s.Gathers t) (g : t.Gathers u) : s.Gathers u where
  pass := g.pass.trans h.pass
  passTimer := g.passTimer.trans h.passTimer
  config := g.config.trans h.config
  tableOp := g.tableOp.trans h.tableOp
  sweepClaim := g.sweepClaim.trans h.sweepClaim
  dead := fun dead => (g.dead (h.pass ▸ dead)).trans (h.dead dead)
  still := fun none =>
    have ⟨same, none'⟩ := h.still none
    have ⟨same', none''⟩ := g.still none'
    ⟨same'.trans same, none''⟩

theorem formLine (s : State) (i : LineId) : s.Gathers (s.formLine i) where
  pass := by simp
  passTimer := by simp
  config := by simp
  tableOp := by simp
  sweepClaim := by simp
  dead := s.formLine_queue i
  still := fun none => by
    have unformed : s.formLine i = s := by simp only [State.formLine, none i]
    rw [unformed]
    exact ⟨rfl, none⟩

theorem formSightings (s : State) : s.Gathers s.formSightings := (formLine s _).trans (formLine _ _)

theorem tellsLines {s u : State} {news : LineNews} (h : s.TellsLines news u) : s.Gathers u := by
  have rest := h.rest
  have quiet (none : s.NoneClosing) : u.NoneClosing := fun i => by rw [(h.lines i).closing, none i, Option.map_none]
  exact ⟨by rw [rest], by rw [rest], by rw [rest], by rw [rest], by rw [rest], fun _ => by rw [rest],
    fun none => ⟨by rw [rest], quiet none⟩⟩

end State.Gathers

/-- Wherever the command places the pass controller among the formations, the event is cut in two by it, and the arbiter ends it. -/
theorem State.settleEvent_gathers (u : State) (first : MeetOrder) (ends : State → State) :
    ∃ v w, u.Gathers v ∧ (ends v).Gathers w ∧ u.settleEvent first ends = w.arbitrate := by
  cases first with
  | formationFirst => exact ⟨_, _, .formSightings u, .refl _, rfl⟩
  | passFirst => exact ⟨_, _, .refl u, .formSightings _, rfl⟩
  | passBetween => exact ⟨_, _, .formLine u _, .formLine _ _, rfl⟩

/-! ### What the arbiter makes of a sweep claim (R58, R59) -/

section
variable {s : State}

theorem State.arbitrate_claimed_busy (busy : s.tableOp ≠ none) : s.arbitrate = s := by
  obtain ⟨op, running⟩ := Option.ne_none_iff_exists'.mp busy
  exact s.arbitrate_busy running

variable (idle : s.tableOp = none) (claim : s.sweepClaim = some .close)
include idle claim

theorem State.arbitrate_closing_empty (empty : s.queue = []) :
    s.arbitrate.tableOp = some .closeSweep ∧ s.arbitrate.sweepClaim = none ∧ s.arbitrate.queue = [] := by
  rw [s.arbitrate_close idle claim empty]
  exact ⟨rfl, rfl, empty⟩

/-- The queued sightings are matched before the close sweep. -/
theorem State.arbitrate_closing_queued {x : Sighting} {rest : List Sighting} (queued : s.queue = x :: rest) :
    s.arbitrate.tableOp = some (.sightingMatch ⟨x, none⟩) ∧ s.arbitrate.sweepClaim = some .close ∧ s.arbitrate.queue = rest := by
  rw [s.arbitrate_sighting idle (by simp [claim]) queued]
  exact ⟨rfl, claim, rfl⟩

theorem State.arbitrate_closing :
    (s.arbitrate.tableOp = some .closeSweep ∧ s.arbitrate.sweepClaim = none ∧ s.arbitrate.queue = [])
      ∨ ∃ x, s.arbitrate.tableOp = some (.sightingMatch ⟨x, none⟩) ∧ s.arbitrate.sweepClaim = some .close := by
  cases queued : s.queue with
  | nil => exact .inl (State.arbitrate_closing_empty idle claim queued)
  | cons x rest =>
    have ⟨op, kept, _⟩ := State.arbitrate_closing_queued idle claim queued
    exact .inr ⟨x, op, kept⟩

end

/-! ### The crossing test -/

/-- The comparison of the end crossing by the position, without wrap (R100). -/
theorem PassTerms.crossed_iff (t : PassTerms) (p : Position) :
    t.crossed p = true ↔
      match t.direction with
      | .forward => t.endLimit.toInt ≤ p.toInt
      | .reverse => p.toInt ≤ t.endLimit.toInt := by
  unfold PassTerms.crossed
  cases t.direction <;> exact decide_eq_true_iff

/-- A sample event that leaves the measuring axis in TRACKING: the crossing test with its new position, after what the event brings
before it and before what the event brings after it. -/
theorem State.sampleChannel_tests {s : State} {increment : Int} {amplitude : Nat} (first : MeetOrder)
    (tracking : s.measuringAxis.state = .tracking) (loud : s.measuringAxis.loseLevel ≤ amplitude)
    (slow : increment.natAbs ≤ s.measuringAxis.rateLimit) :
    let t := s.sampleChannel s.config.axis increment amplitude first
    ∃ v w, s.Gathers v ∧ (v.testCrossing t.measuringAxis.position).Gathers w ∧ t = w.arbitrate := by
  intro t
  let c' := (s.measuringAxis.sample increment amplitude).1
  have stays : c'.state = .tracking := by
    rw [show c' = _ from Channel.sample_tracking tracking loud slow]
    exact tracking
  have position : t.measuringAxis.position = c'.position := by
    obtain ⟨-, channels, -, -, config, -⟩ := s.sampleChannel_frame s.config.axis increment amplitude first
    rw [State.measuringAxis, show t.config = s.config from config, State.channel_set channels, if_pos rfl]
    rfl
  obtain ⟨u, tells, -, -, settles⟩ := s.sampleChannel_eq s.config.axis increment amplitude first
  obtain ⟨v, w, before, after, ends⟩ := u.settleEvent_gathers first fun t => t.passSees s.config.axis
    (decide (s.measuringAxis.state = .tracking ∧ c'.state ≠ .tracking)) c'.position
  have gathered : s.Gathers v := (State.Gathers.tellsLines tells).trans before
  have test (p : Position) : v.passSees s.config.axis (decide (s.measuringAxis.state = .tracking ∧ c'.state ≠ .tracking)) p
      = v.testCrossing p := by
    rw [State.passSees, if_pos (by rw [gathered.config]), if_neg (by simp [stays])]
  refine ⟨v, w, gathered, ?_, settles.trans ends⟩
  rw [position, ← test]
  exact after

/-- Settles O9: the crossing test by its three outcomes, none, a close and an abort, and the arbiter's choice after each. -/
theorem endCrossingEndsPass : Obligations.EndCrossingEndsPass := by
  intro s increment amplitude first terms operating present tracking loud slow live hasTerms
  have on : (s.channel s.config.axis).state ≠ .off := fun off => by
    rw [show (s.channel s.config.axis).state = .tracking from tracking] at off
    cases off
  refine ⟨_, exec_sampleEvent s s.config.axis increment amplitude first operating present on, ?_⟩
  obtain ⟨v, w, before, after, ends⟩ := s.sampleChannel_tests first tracking loud slow
  generalize s.sampleChannel s.config.axis increment amplitude.val first = t at after ends ⊢
  intro p crossed noneClosing
  have isCrossed : terms.crossed t.measuringAxis.position = true ↔ crossed := terms.crossed_iff _
  have vTerms : v.pass.terms = some terms := by rw [before.pass, hasTerms]
  have vLive : v.pass.state = .arming ∨ v.pass.state = .running := by
    rw [before.pass]
    exact (PassState.live_iff _).mp live
  have quiet (none : noneClosing) : s.NoneClosing := fun i => by
    cases i with
    | l1 => exact none.1
    | l2 => exact none.2
  have tPass : t.pass = w.pass := by simp [ends]
  have tTimer : t.passTimer = w.passTimer := by simp [ends]
  have closes (h : crossed) (kind : terms.kind = .measure) := State.testCrossing_measure vTerms (isCrossed.mpr h) vLive kind
  have aborts (h : crossed) {mark : Nat} (kind : terms.kind = .datum mark) :=
    (State.testCrossing_datum vTerms (isCrossed.mpr h) vLive kind).trans (if_pos vLive)
  refine ⟨fun h => ?_, fun h => ?_, fun h kind running => ?_, fun h kind arming busy => ?_, fun ⟨mark, h, kind⟩ => ?_⟩
  · rw [State.testCrossing_stays vTerms fun hc => h (isCrossed.mp hc.1)] at after
    exact ⟨by rw [tPass, after.pass, before.pass], by rw [tTimer, after.passTimer, before.passTimer]⟩
  · cases kind : terms.kind with
    | measure =>
      rw [closes h kind] at after
      exact ⟨by rw [tTimer, after.passTimer], by rw [tPass, after.pass, before.pass]⟩
    | datum mark =>
      rw [aborts h kind] at after
      exact ⟨by rw [tTimer, after.passTimer], by rw [tPass, after.pass, before.pass]⟩
  · rw [closes h kind] at after
    have op : w.tableOp = s.tableOp := after.tableOp.trans before.tableOp
    have claim : w.sweepClaim = some .close := after.sweepClaim.trans (if_pos (before.pass ▸ running))
    have queue (none : noneClosing) : w.queue = s.queue := (after.dead rfl).trans (before.still (quiet none)).1
    subst ends
    refine ⟨fun busy => ?_, fun idle => State.arbitrate_closing (op.trans idle) claim, fun idle none empty => ?_,
      fun x rest idle none queued => ?_⟩
    · rw [State.arbitrate_claimed_busy (op ▸ busy)]
      exact ⟨op, claim⟩
    · exact (State.arbitrate_closing_empty (op.trans idle) claim ((queue none).trans empty)).1
    · have ⟨picked, _, rest⟩ := State.arbitrate_closing_queued (op.trans idle) claim ((queue none).trans queued)
      exact ⟨picked, rest⟩
  · rw [closes h kind] at after
    have op : w.tableOp = s.tableOp := after.tableOp.trans before.tableOp
    have unclaimed : w.sweepClaim = v.sweepClaim := after.sweepClaim.trans (if_neg (by simp [before.pass, arming]))
    rw [ends, State.arbitrate_claimed_busy (op ▸ busy)]
    exact ⟨op, unclaimed.trans before.sweepClaim⟩
  · rw [aborts h kind] at after
    have op : w.tableOp = s.tableOp := after.tableOp.trans before.tableOp
    have claim : w.sweepClaim = some .abort := after.sweepClaim
    have empty : w.queue = [] := after.dead rfl
    subst ends
    refine ⟨?_, fun idle => ?_, fun busy => ?_⟩
    · by_cases busy : w.tableOp = none
      · rw [w.arbitrate_abort busy claim]
        exact empty
      · rw [State.arbitrate_claimed_busy busy]
        exact empty
    · rw [w.arbitrate_abort (op.trans idle) claim]
      exact ⟨rfl, rfl⟩
    · rw [State.arbitrate_claimed_busy (op ▸ busy)]
      exact ⟨op, claim⟩

end Sys2Proof.Machine
end

