-- ==== Sys2Proof/Proofs/EnrolRun.lean ====
section
/-! SUPPORT. The run of an ENROL RUN as a derivation, one step per record: what it enrols, and where and why it stops (R119, R121,
R122). -/

namespace Sys2Proof.Machine

/-- Record `i` of the run, not its first, begins a segment (R122). -/
def RunRequest.BeginsSegment (run : RunRequest) (i : Nat) : Prop := i ≠ 0 ∧ run.mark i % Config.segmentSize = 0

/-- From `s`, at record `i` and with `left` records of its count remaining, the run enrols these records and stops for this reason. -/
inductive RunRequest.Enrols (run : RunRequest) : (left i : Nat) → State → List MarkRecord → StopReason → Prop
  | complete (i : Nat) (s : State) : run.Enrols 0 i s [] .complete
  | segment {left i : Nat} {s : State} (segment : run.BeginsSegment i) : run.Enrols (left + 1) i s [] .segment
  | refused {left i : Nat} {s : State} {code : RejectCode} (inside : ¬run.BeginsSegment i)
      (judged : s.judgeRunRecord run i = .inl code) : run.Enrols (left + 1) i s [] (.refused code)
  | enrolled {left i : Nat} {s : State} {r : MarkRecord} {records : List MarkRecord} {reason : StopReason}
      (inside : ¬run.BeginsSegment i) (judged : s.judgeRunRecord run i = .inr r)
      (rest : run.Enrols left (i + 1) (s.insertNew r) records reason) : run.Enrols (left + 1) i s (r :: records) reason

/-- The model's run is such a derivation. -/
theorem RunRequest.enrols_runFrom (run : RunRequest) (left i : Nat) (s : State) :
    ∃ records reason, run.Enrols left i s records reason
      ∧ State.runFrom run left i s = (records.foldl State.insertNew s, i + records.length, reason) := by
  induction left generalizing i s with
  | zero => exact ⟨[], _, .complete i s, rfl⟩
  | succ left ih =>
    by_cases segment : i ≠ 0 ∧ run.mark i % Config.segmentSize = 0
    · exact ⟨[], _, .segment segment, by rw [State.runFrom, if_pos segment]; rfl⟩
    · rw [State.runFrom, if_neg segment]
      cases judged : s.judgeRunRecord run i with
      | inl code => exact ⟨[], _, .refused segment judged, rfl⟩
      | inr r =>
        obtain ⟨records, reason, rest, e⟩ := ih (i + 1) (s.insertNew r)
        refine ⟨r :: records, reason, .enrolled segment judged rest, ?_⟩
        simp only [e, List.foldl_cons, List.length_cons, Nat.add_assoc, Nat.add_comm 1]

namespace RunRequest.Enrols

variable {run : RunRequest} {left i : Nat} {s : State} {records : List MarkRecord} {reason : StopReason}

theorem length_le (h : run.Enrols left i s records reason) : records.length ≤ left := by
  induction h with
  | complete | segment | refused => simp
  | enrolled _ _ _ ih => simpa using ih

/-- Each record enrolled was judged by the table that holds those before it, and none begins a segment. -/
theorem judged (h : run.Enrols left i s records reason) {j : Nat} {r : MarkRecord} (at_j : records[j]? = some r) :
    ¬run.BeginsSegment (i + j) ∧ ((records.take j).foldl State.insertNew s).judgeRunRecord run (i + j) = .inr r := by
  induction h generalizing j with
  | complete | segment | refused => simp at at_j
  | enrolled inside judged rest ih =>
    cases j with
    | zero =>
      cases at_j
      exact ⟨inside, judged⟩
    | succ j =>
      have later := ih at_j
      rwa [Nat.add_assoc, Nat.add_comm 1] at later

/-- The run stops at its count, before a record that begins a segment, or before one that is refused, in this order. -/
theorem stops (h : run.Enrols left i s records reason) :
    (records.length = left ∧ reason = .complete)
      ∨ (records.length < left ∧ run.BeginsSegment (i + records.length) ∧ reason = .segment)
      ∨ (records.length < left ∧ ¬run.BeginsSegment (i + records.length)
          ∧ ∃ code, (records.foldl State.insertNew s).judgeRunRecord run (i + records.length) = .inl code
            ∧ reason = .refused code) := by
  induction h with
  | complete => exact .inl ⟨rfl, rfl⟩
  | segment segment => exact .inr (.inl ⟨Nat.succ_pos _, segment, rfl⟩)
  | refused inside judged => exact .inr (.inr ⟨Nat.succ_pos _, inside, _, judged, rfl⟩)
  | enrolled _ _ _ ih =>
    simpa only [List.length_cons, List.foldl_cons, Nat.add_right_cancel_iff, Nat.add_lt_add_iff_right, Nat.add_assoc,
      Nat.add_comm 1] using ih

end RunRequest.Enrols

/-! ### The judging of one record of the run (R121, R122) -/

section
variable {s : State} {run : RunRequest} {i : Nat}

theorem judgeRunRecord_inl {code : RejectCode} (judged : s.judgeRunRecord run i = .inl code) :
    s.failsFirst run.fields (run.firstMark + i) (run.start + i * run.pitch) code := by
  unfold State.judgeRunRecord at judged
  split at judged
  next beyond =>
    cases judged
    exact .inl ⟨rfl, beyond⟩
  next within => exact (judgeRecord_spec s run.fields _ _ (Nat.lt_of_not_le within)).1 code judged

theorem judgeRunRecord_inr {r : MarkRecord} (judged : s.judgeRunRecord run i = .inr r) :
    (∀ code, ¬s.failsFirst run.fields (run.firstMark + i) (run.start + i * run.pitch) code)
      ∧ run.fields.Makes (run.firstMark + i) (BitVec.ofInt 48 (run.start + i * run.pitch)) r := by
  unfold State.judgeRunRecord at judged
  split at judged
  next => cases judged
  next within => exact (judgeRecord_spec s run.fields _ _ (Nat.lt_of_not_le within)).2 r judged

end

theorem link_foldl_insertNew (records : List MarkRecord) (s : State) : (records.foldl State.insertNew s).link = s.link := by
  induction records generalizing s with
  | nil => rfl
  | cons r records ih => rw [List.foldl_cons, ih, insertNew_link]

/-- A run of mark numbers none of which, after the first, begins a segment lies within one segment. -/
theorem RunRequest.segment_eq {run : RunRequest} {i : Nat} (inside : ∀ j ≤ i, ¬run.BeginsSegment j) :
    (run.firstMark + i) / 128 = run.firstMark / 128 := by
  induction i with
  | zero => rfl
  | succ i ih =>
    have before := ih fun j hj => inside j (Nat.le_succ_of_le hj)
    have next : ¬(run.firstMark + (i + 1)) % 128 = 0 := fun multiple => inside (i + 1) le_rfl ⟨Nat.succ_ne_zero i, multiple⟩
    omega

/-- Settles O37: the records and the stop of the run's derivation, record by record. -/
theorem enrolRunStopsAtFirstObstacle : Obligations.EnrolRunStopsAtFirstObstacle := by
  intro s run operating running
  obtain ⟨records, reason, enrols, runs⟩ := run.enrols_runFrom run.count 0 s
  refine ⟨records, reason.code, ?_⟩
  intro n after fails segmentEnds
  have all : after n = records.foldl State.insertNew s := congrArg (List.foldl State.insertNew s) List.take_length
  have begins : run.BeginsSegment (0 + records.length) ↔ segmentEnds := by
    rw [Nat.zero_add]
    exact and_congr_left' Nat.pos_iff_ne_zero.symm
  refine ⟨?_, enrols.length_le, fun i r at_i => ?_, ?_⟩
  · rw [all]
    refine exec_completes operating running ?_ (link_foldl_insertNew records s)
    simp only [State.completeHostOp, runs, oneByte_eq, Nat.zero_add]
    rfl
  · have judged := (enrols.judged at_i).2
    rw [Nat.zero_add] at judged
    have inside (j : Nat) (le : j ≤ i) : ¬run.BeginsSegment j := by
      have within : j < records.length := Nat.lt_of_le_of_lt le (List.getElem?_eq_some_iff.mp at_i).1
      have at_j := (enrols.judged (List.getElem?_eq_getElem within)).1
      rwa [Nat.zero_add] at at_j
    exact ⟨RunRequest.segment_eq inside, judgeRunRecord_inr judged⟩
  · obtain ⟨full, rfl⟩ | ⟨short, segment, rfl⟩ | ⟨short, inside, code, judged, rfl⟩ := enrols.stops
    · exact ⟨fun _ => rfl, fun short => absurd full short.ne, fun short => absurd full short.ne⟩
    · exact ⟨fun full => absurd full short.ne, fun _ _ => rfl, fun _ inside => absurd (begins.mp segment) inside⟩
    · rw [Nat.zero_add, ← all] at judged
      exact ⟨fun full => absurd full short.ne, fun _ segment => absurd (begins.mpr segment) inside,
        fun _ _ => ⟨code, judgeRunRecord_inl judged, rfl⟩⟩

end Sys2Proof.Machine
end

