-- ==== Sys2Proof/Proofs/AmendRetire.lean ====
section
/-! SUPPORT. The completions of AMEND and RETIRE: the reports that they make to the tally groups, the claims that they move, and the
record that an amendment applied at once leaves (R68, R125, R126, R128, R129, R135, R137). -/

namespace Sys2Proof.Machine

/-! ### Reports to one or two groups (R135, R137) -/

/-- From `s` to `t` the group counts have changed, and every group that the change completes is reported (R137). -/
def State.Regroups (s t : State) : Prop :=
  s.events.Completes (fun g => (s.group g).complete = false ∧ (t.group g).complete = true) t.events

namespace State.Regroups

protected theorem refl (s : State) : s.Regroups s :=
  .none _ fun _ ⟨before, after⟩ => by rw [before] at after; cases after

/-- Changes to different groups add up. -/
protected theorem trans {s t u : State} (h : s.Regroups t) (k : t.Regroups u)
    (apart : ∀ g, t.group g = s.group g ∨ u.group g = t.group g) : s.Regroups u := by
  refine (EventUnit.Completes.trans h k).congr fun g => ?_
  obtain same | same := apart g
  · rw [same]
    cases (s.group g).complete <;> simp
  · rw [same]
    cases (t.group g).complete <;> simp

theorem groupReport (s : State) (g : Fin 8) (members settled : Int) : s.Regroups (s.groupReport g members settled) := by
  refine (s.setGroup_completes g _).congr fun j => ?_
  rw [State.groupReport, State.group_setGroup]
  by_cases same : j = g
  · subst same
    simp
  · rw [if_neg same]
    cases (s.group j).complete <;> simp [same]

end State.Regroups

theorem State.group_groupReport (s : State) (g j : Fin 8) (members settled : Int) :
    (s.groupReport g members settled).group j =
      if j = g then ⟨((s.group j).members + members).toNat, ((s.group j).settled + settled).toNat⟩ else s.group j := by
  rw [State.groupReport, State.group_setGroup]
  by_cases same : j = g
  · subst same
    simp
  · rw [if_neg same, if_neg same]

theorem MarkRecord.memberOf_line {r : MarkRecord} {l : LinePart} (line : r.kind = .line l) (g : Fin 8) :
    r.memberOf g = if g = l.plan.group then 1 else 0 := by
  simp [MarkRecord.memberOf, MarkRecord.inGroup, line, eq_comm]

theorem MarkRecord.settledOf_line {r : MarkRecord} {l : LinePart} (line : r.kind = .line l) (g : Fin 8) :
    (r.settledOf g : Int) = if g = l.plan.group then r.settledCount else 0 := by
  simp only [MarkRecord.settledOf, MarkRecord.inGroup, line, MarkRecord.settledCount, MarkRecord.isSettled, decide_eq_true_eq,
    eq_comm (a := g)]
  by_cases same : l.plan.group = g <;> simp [same]

section
variable {r : MarkRecord} (other : ∀ l, r.kind ≠ .line l) (g : Fin 8)
include other

theorem MarkRecord.inGroup_other : r.inGroup g = false := by
  unfold MarkRecord.inGroup
  split
  next l line => exact absurd line (other l)
  all_goals rfl

theorem MarkRecord.memberOf_other : r.memberOf g = 0 := by simp [MarkRecord.memberOf, r.inGroup_other other]

theorem MarkRecord.settledOf_other : r.settledOf g = 0 := by simp [MarkRecord.settledOf, r.inGroup_other other]

end

/-- The counts of a group once `before` has given way to `after` in it. -/
def GroupCounts.exchange (c : GroupCounts) (before after : MarkRecord) (g : Fin 8) : GroupCounts :=
  ⟨c.members + after.memberOf g - before.memberOf g, c.settled + after.settledOf g - before.settledOf g⟩

/-- The counts of a group once `r` has left it. -/
def GroupCounts.without (c : GroupCounts) (r : MarkRecord) (g : Fin 8) : GroupCounts :=
  ⟨c.members - r.memberOf g, c.settled - r.settledOf g⟩

section
variable (s : State) {before after : MarkRecord} {l l' : LinePart} (from_line : before.kind = .line l)
  (to_line : after.kind = .line l')

section
include from_line

theorem State.group_leaves (g : Fin 8) :
    (s.groupReport l.plan.group (-1) (-before.settledCount)).group g = (s.group g).without before g := by
  have member := MarkRecord.memberOf_line from_line g
  have settled := MarkRecord.settledOf_line from_line g
  rw [State.group_groupReport, GroupCounts.without]
  by_cases own : g = l.plan.group
  · rw [if_pos own] at member settled ⊢
    congr 1 <;> omega
  · rw [if_neg own] at member settled ⊢
    rw [member, Int.natCast_eq_zero.mp settled]
    rfl

end

include from_line to_line

/-- The reports of an amendment of a LINE record move it from its group to its new one, which may be the same. -/
theorem State.group_reportAmended_line (g : Fin 8) :
    (s.reportAmended before after).group g = (s.group g).exchange before after g := by
  have member := MarkRecord.memberOf_line from_line g
  have member' := MarkRecord.memberOf_line to_line g
  have settled := MarkRecord.settledOf_line from_line g
  have settled' := MarkRecord.settledOf_line to_line g
  simp only [State.reportAmended, from_line, to_line]
  by_cases stays : l.plan.group = l'.plan.group
  · rw [if_pos stays, State.group_groupReport, GroupCounts.exchange]
    rw [← stays] at member' settled'
    by_cases own : g = l.plan.group
    · rw [if_pos own] at member member' settled settled' ⊢
      congr 1 <;> omega
    · rw [if_neg own] at member member' settled settled' ⊢
      rw [member, member', Int.natCast_eq_zero.mp settled, Int.natCast_eq_zero.mp settled']
      rfl
  · rw [if_neg stays, State.group_groupReport, State.group_leaves s from_line, GroupCounts.without, GroupCounts.exchange]
    by_cases new : g = l'.plan.group
    · have left : g ≠ l.plan.group := fun own => stays (own.symm.trans new)
      rw [if_neg left] at member settled
      rw [if_pos new] at member' settled' ⊢
      dsimp only
      congr 1 <;> omega
    · rw [if_neg new] at member' settled' ⊢
      rw [member', Int.natCast_eq_zero.mp settled']
      rfl

theorem State.regroups_reportAmended_line : s.Regroups (s.reportAmended before after) := by
  simp only [State.reportAmended, from_line, to_line]
  by_cases stays : l.plan.group = l'.plan.group
  · rw [if_pos stays]
    exact .groupReport s _ _ _
  · rw [if_neg stays]
    refine State.Regroups.trans (.groupReport s _ _ _) (.groupReport _ _ _ _) fun g => ?_
    by_cases own : g = l.plan.group
    · refine .inr ?_
      rw [State.group_groupReport, if_neg fun new => stays (own.symm.trans new)]
    · refine .inl ?_
      rw [State.group_groupReport, if_neg own]

end

section
variable (s : State) {before after : MarkRecord} (from_other : ∀ l, before.kind ≠ .line l)
include from_other

theorem State.reportAmended_other : s.reportAmended before after = s := by
  unfold State.reportAmended
  split
  next l _ line _ => exact absurd line (from_other l)
  next => rfl

end

/-! ### The claims of a record (R67, R68) -/

theorem getElem_moveClaims (shift : Nat) (occupancy : Vector Nat 64) (before after : MarkRecord) (k : Fin 64) :
    (moveClaims shift occupancy before after)[k] =
      if after.fields.half = before.fields.half then occupancy[k]
      else occupancy[k] - (before.slots shift).count k + (after.slots shift).count k := by
  unfold moveClaims
  by_cases same : before.fields.half = after.fields.half
  · rw [if_pos same, if_pos same.symm]
  · rw [if_neg same, if_neg (Ne.symm same), getElem_addClaims, getElem_removeClaims]

/-! ### A record amended at once (R125) -/

/-- The record that an amendment applied at once leaves. -/
def MarkRecord.amendedAtOnce (r : MarkRecord) (a : Amendment) : MarkRecord := (r.replaceFields a).restLine

section
variable {r : MarkRecord} (a : Amendment)

theorem MarkRecord.replaceFields_line {l : LinePart} (line : r.kind = .line l) :
    r.replaceFields a = { r with fields := a.fields, kind := .line { l with plan := a.plan.getD l.plan } } := by
  rw [MarkRecord.replaceFields, line]
  cases a.plan <;> rfl

theorem MarkRecord.replaceFields_other (other : ∀ l, r.kind ≠ .line l) : r.replaceFields a = { r with fields := a.fields } := by
  cases kind : r.kind with
  | line l => exact absurd kind (other l)
  | datum | keepout => rw [MarkRecord.replaceFields, kind]

theorem MarkRecord.amendedAtOnce_line {l : LinePart} (line : r.kind = .line l) :
    r.amendedAtOnce a = { r with
      fields := a.fields
      kind := .line { l with plan := a.plan.getD l.plan }
      state := if l.forwardCount = (a.plan.getD l.plan).passes ∧ l.reverseCount = (a.plan.getD l.plan).passes
        then .settled else .enrolled } := by
  rw [MarkRecord.amendedAtOnce, MarkRecord.replaceFields_line a line, MarkRecord.restLine_line rfl, LinePart.restState_eq]

theorem MarkRecord.amendedAtOnce_other (other : ∀ l, r.kind ≠ .line l) : r.amendedAtOnce a = { r with fields := a.fields } := by
  rw [MarkRecord.amendedAtOnce, MarkRecord.replaceFields_other a other]
  exact MarkRecord.restLine_other other

/-- An amendment replaces the fields, the plan of a LINE record, and the state. -/
theorem MarkRecord.amendedAtOnce_rest :
    r.amendedAtOnce a = { r with fields := a.fields, kind := (r.amendedAtOnce a).kind, state := (r.amendedAtOnce a).state } := by
  by_cases line : ∃ l, r.kind = .line l
  · obtain ⟨l, line⟩ := line
    rw [MarkRecord.amendedAtOnce_line a line]
  · rw [MarkRecord.amendedAtOnce_other a (not_exists.mp line)]

end

/-! ### AMEND and RETIRE in IDLE (R125, R128) -/

section
variable (s : State) (r : MarkRecord)

/-- The table and the claims once an amendment is applied, before its reports. -/
def State.replaced (a : Amendment) : State :=
  { s with
    table := updateMark s.table r.mark fun _ => r.amendedAtOnce a
    occupancy := moveClaims s.config.shift s.occupancy r (r.amendedAtOnce a) }

theorem State.applyAmend_eq (a : Amendment) :
    s.applyAmend r a = (s.replaced r a).reportAmended r (r.amendedAtOnce a) := rfl

theorem State.group_applyAmend (a : Amendment) (g : Fin 8) :
    (s.applyAmend r a).group g = (s.group g).exchange r (r.amendedAtOnce a) g := by
  rw [State.applyAmend_eq]
  by_cases line : ∃ l, r.kind = .line l
  · obtain ⟨l, line⟩ := line
    exact State.group_reportAmended_line _ line (by rw [MarkRecord.amendedAtOnce_line a line]) g
  · have other := not_exists.mp line
    have other' : ∀ l, (r.amendedAtOnce a).kind ≠ .line l := by rwa [MarkRecord.amendedAtOnce_other a other]
    rw [State.reportAmended_other _ other, GroupCounts.exchange, MarkRecord.memberOf_other other, MarkRecord.settledOf_other other,
      MarkRecord.memberOf_other other', MarkRecord.settledOf_other other']
    rfl

theorem State.regroups_applyAmend (a : Amendment) : s.Regroups (s.applyAmend r a) := by
  rw [State.applyAmend_eq]
  by_cases line : ∃ l, r.kind = .line l
  · obtain ⟨l, line⟩ := line
    exact State.regroups_reportAmended_line (s.replaced r a) line (by rw [MarkRecord.amendedAtOnce_line a line])
  · rw [State.reportAmended_other _ (not_exists.mp line)]
    exact .refl s

/-- The table and the claims without the record, before the report. -/
def State.dropped : State :=
  { s with table := removeMark s.table r.mark, occupancy := removeClaims s.occupancy (r.slots s.config.shift) }

theorem State.removeRecord_line {l : LinePart} (line : r.kind = .line l) :
    s.removeRecord r = (s.dropped r).groupReport l.plan.group (-1) (-r.settledCount) := by
  rw [State.removeRecord, line]
  rfl

theorem State.removeRecord_other (other : ∀ l, r.kind ≠ .line l) : s.removeRecord r = s.dropped r := by
  cases kind : r.kind with
  | line l => exact absurd kind (other l)
  | datum | keepout =>
    rw [State.removeRecord, kind]
    rfl

theorem State.removeRecord_rest :
    s.removeRecord r = { s.dropped r with groups := (s.removeRecord r).groups, events := (s.removeRecord r).events } := by
  by_cases line : ∃ l, r.kind = .line l
  · obtain ⟨l, line⟩ := line
    rw [s.removeRecord_line r line]
    rfl
  · rw [s.removeRecord_other r (not_exists.mp line)]

theorem State.group_removeRecord (g : Fin 8) : (s.removeRecord r).group g = (s.group g).without r g := by
  by_cases line : ∃ l, r.kind = .line l
  · obtain ⟨l, line⟩ := line
    rw [s.removeRecord_line r line]
    exact State.group_leaves (s.dropped r) line g
  · have other := not_exists.mp line
    rw [s.removeRecord_other r other, GroupCounts.without, MarkRecord.memberOf_other other, MarkRecord.settledOf_other other]
    rfl

theorem State.regroups_removeRecord : s.Regroups (s.removeRecord r) := by
  by_cases line : ∃ l, r.kind = .line l
  · obtain ⟨l, line⟩ := line
    rw [s.removeRecord_line r line]
    exact .groupReport (s.dropped r) _ _ _
  · rw [s.removeRecord_other r (not_exists.mp line)]
    exact .refl s

end

/-! ### The completions -/

/-- What the completion of a host operation leaves of the state `u` that its effects make: the hand-over and the arbiter change
neither the table, nor the claims, nor the groups, nor the event unit. -/
theorem exec_completes_keeping {s u : State} {op : HostOp} {bytes : List Byte} (operating : s.operating = true)
    (running : s.tableOp = some (.host op)) (completed : s.completeHostOp op = (u, .done, bytes)) (link : u.link = s.link) :
    ∃ t, (exec .tableOperationCompletion s = .next t ∧ t.link = s.handed .done bytes) ∧ t.table = u.table
      ∧ t.occupancy = u.occupancy ∧ t.groups = u.groups ∧ t.events = u.events :=
  ⟨_, ⟨exec_completes operating running completed link, by simp⟩, by simp, by simp, by simp, by simp⟩

/-- The groups that complete, in the words of the statement. -/
theorem State.Regroups.iff_complete {s t : State} (h : s.Regroups t) :
    let complete (c : GroupCounts) : Prop := c.settled = c.members ∧ 0 < c.members
    (∀ g : Fin 8, t.events.groupMask.getLsbD g.val = true ↔
        s.events.groupMask.getLsbD g.val = true ∨ (¬complete (s.group g) ∧ complete (t.group g)))
      ∧ ∀ g : Fin 8, ¬complete (s.group g) → complete (t.group g) → t.events.has .groupDone = true := by
  intro complete
  have isComplete (c : GroupCounts) : complete c ↔ c.complete = true := c.complete_iff.symm
  simp only [isComplete, Bool.not_eq_true]
  exact ⟨h.mask, fun g before after => h.flag.mpr (.inr ⟨g, before, after⟩)⟩

theorem State.Regroups.congr {s u t : State} (h : s.Regroups u) (groups : t.groups = u.groups) (events : t.events = u.events) :
    s.Regroups t := by
  unfold State.Regroups State.group
  rw [groups, events]
  exact h

/-- Settles O35: the four completions, applied and removed at once in IDLE, staged and marked in a pass. -/
theorem amendRetireByPassState : Obligations.AmendRetireByPassState := by
  intro s r operating found unique completes complete completing
  refine ⟨fun a running idle => ?_, fun a running inPass => ?_, fun running idle => ?_, fun running inPass => ?_⟩
  · have completed : s.completeHostOp (.amend r.mark a) = (s.applyAmend r a, .done, oneByte 1) := by
      simp only [State.completeHostOp, found, if_pos idle]
    have rest : s.applyAmend r a = { s.replaced r a with
        groups := (s.applyAmend r a).groups, events := (s.applyAmend r a).events } := reportAmended_rest _ _ _
    obtain ⟨t, done, table, occupancy, groups, events⟩ :=
      exec_completes_keeping operating running completed (by rw [rest]; rfl)
    refine ⟨t, r.amendedAtOnce a, done, ?_, MarkRecord.amendedAtOnce_rest a, fun l line => ?_, fun other => ?_, fun k => ?_,
      fun g => ?_, ((s.regroups_applyAmend r a).congr groups events).iff_complete⟩
    · rw [table, rest]
      rfl
    · rw [MarkRecord.amendedAtOnce_line a line]
      exact ⟨rfl, rfl⟩
    · rw [MarkRecord.amendedAtOnce_other a other]
      exact ⟨rfl, rfl⟩
    · have fields : (r.amendedAtOnce a).fields = a.fields := by rw [MarkRecord.amendedAtOnce_rest]
      rw [State.slot, occupancy, rest, ← fields]
      exact getElem_moveClaims _ _ _ _ k
    · rw [State.group, groups]
      exact s.group_applyAmend r a g
  · have completed : s.completeHostOp (.amend r.mark a) = (s.stageAmend r.mark a, .done, oneByte 2) := by
      simp only [State.completeHostOp, found, if_neg inPass]
    obtain ⟨t, done, table, occupancy, groups, events⟩ := exec_completes_keeping operating running completed rfl
    exact ⟨t, done, table.trans (updateMark_unique _ unique), occupancy, groups, events⟩
  · have completed : s.completeHostOp (.retire r.mark) = (s.removeRecord r, .done, oneByte 1) := by
      simp only [State.completeHostOp, found, if_pos idle]
    have rest := s.removeRecord_rest r
    obtain ⟨t, done, table, occupancy, groups, events⟩ :=
      exec_completes_keeping operating running completed (by rw [rest]; rfl)
    refine ⟨t, done, ?_, fun k => ?_, fun g => ?_, ((s.regroups_removeRecord r).congr groups events).iff_complete⟩
    · rw [table, rest]
      exact List.filter_congr fun x _ => by rw [bne, beq_eq_decide, ← decide_not]
    · rw [State.slot, occupancy, rest]
      exact getElem_removeClaims _ _ k
    · rw [State.group, groups]
      exact s.group_removeRecord r g
  · have completed : s.completeHostOp (.retire r.mark) = (s.markRetiring r.mark, .done, oneByte 2) := by
      simp only [State.completeHostOp, found, if_neg inPass]
    obtain ⟨t, done, table, occupancy, groups, events⟩ := exec_completes_keeping operating running completed rfl
    exact ⟨t, done, table.trans (updateMark_unique _ unique), occupancy, groups, events⟩

end Sys2Proof.Machine
end

