-- ==== Sys2Proof/Proofs/Occupancy.lean ====
section
/-! SUPPORT. The occupancy counts against the windows of the table: what adding, removing and moving claims does to counts that agree
with a list of slots, and what a sweep does to the counts of a whole table (R66 to R68). -/

namespace Sys2Proof.Machine

/-! ### Counts that agree with a list of slots (R66, R67) -/

/-- Each slot's count is the number of its claims in the list (R66). -/
def CountsOf (occupancy : Vector Nat 64) (slots : List (Fin 64)) : Prop := ∀ k : Fin 64, occupancy[k] = slots.count k

namespace CountsOf

variable {occupancy : Vector Nat 64} {slots claimed : List (Fin 64)}

theorem perm (h : CountsOf occupancy slots) (same : slots.Perm claimed) : CountsOf occupancy claimed :=
  fun k => (h k).trans (same.count_eq k)

theorem add (h : CountsOf occupancy slots) : CountsOf (addClaims occupancy claimed) (claimed ++ slots) := fun k => by
  rw [getElem_addClaims, h k, List.count_append, Nat.add_comm]

theorem remove (h : CountsOf occupancy (claimed ++ slots)) : CountsOf (removeClaims occupancy claimed) slots := fun k => by
  rw [getElem_removeClaims, h k, List.count_append, Nat.add_sub_cancel_left]

end CountsOf

/-! ### The claims of records (R66, R68) -/

/-- The claims of a record are decided by its nominal and its current half-width. -/
theorem MarkRecord.slots_congr {r r' : MarkRecord} (shift : Nat) (nominal : r'.nominal = r.nominal)
    (half : r'.fields.half = r.fields.half) : r'.slots shift = r.slots shift := by
  rw [MarkRecord.slots, MarkRecord.slots, nominal, half]

@[simp] theorem MarkRecord.slots_restLine (shift : Nat) (r : MarkRecord) : r.restLine.slots shift = r.slots shift := by
  unfold MarkRecord.restLine
  split <;> rfl

/-- Where a record stays at its nominal, its claims move with its half-width. -/
theorem CountsOf.move {occupancy : Vector Nat 64} {slots : List (Fin 64)} {shift : Nat} {before after : MarkRecord}
    (stays : after.nominal = before.nominal) (h : CountsOf occupancy (before.slots shift ++ slots)) :
    CountsOf (moveClaims shift occupancy before after) (after.slots shift ++ slots) := by
  unfold moveClaims
  split
  next same => rwa [MarkRecord.slots_congr shift stays same.symm]
  next => exact h.remove.add

/-! ### The claims of a table (R66) -/

/-- The claims of the records of a table, record by record. -/
def tableSlots (shift : Nat) (table : List MarkRecord) : List (Fin 64) := table.flatMap (MarkRecord.slots shift)

theorem tableSlots_congr {shift shift' : Nat} {table table' : List MarkRecord}
    (h : table'.map (MarkRecord.slots shift') = table.map (MarkRecord.slots shift)) :
    tableSlots shift' table' = tableSlots shift table := by
  rw [tableSlots, tableSlots, List.flatMap_def, List.flatMap_def, h]

/-- A change of records that moves no window moves no claim. -/
theorem map_slots_updateMark {shift mark : Nat} {table : List MarkRecord} {f : MarkRecord → MarkRecord}
    (h : ∀ r : MarkRecord, (f r).slots shift = r.slots shift) :
    (updateMark table mark f).map (MarkRecord.slots shift) = table.map (MarkRecord.slots shift) := by
  rw [updateMark, List.map_map]
  refine List.map_congr_left fun r _ => ?_
  simp only [Function.comp]
  split
  · exact h r
  · rfl

theorem tableSlots_insertRecord (shift : Nat) (r : MarkRecord) (table : List MarkRecord) :
    (r.slots shift ++ tableSlots shift table).Perm (tableSlots shift (insertRecord r table)) :=
  ((insertRecord_perm r table).flatMap_right _).symm

/-- A record stands alone under its mark number (R51): a removal takes it out from between its neighbours, and an update changes it
there. -/
theorem State.TableLaw.split_at {s : State} (w : s.TableLaw) {r : MarkRecord} (hr : r ∈ s.table) :
    ∃ low high, s.table = low ++ r :: high ∧ removeMark s.table r.mark = low ++ high
      ∧ ∀ f, updateMark s.table r.mark f = low ++ f r :: high := by
  obtain ⟨low, high, split⟩ := List.append_of_mem hr
  have others : ∀ x ∈ low ++ high, x.mark ≠ r.mark := fun x hx same => by
    have marks := w.marks
    rw [split, (List.perm_middle.map MarkRecord.mark).nodup_iff, List.map_cons, List.nodup_cons] at marks
    exact marks.1 (List.mem_map.mpr ⟨x, hx, same⟩)
  have kept (part : List MarkRecord) (h : part ⊆ low ++ high) (f : MarkRecord → MarkRecord) :
      part.map (fun x => if x.mark = r.mark then f x else x) = part :=
    (List.map_congr_left fun x hx => if_neg (others x (h hx))).trans (List.map_id' part)
  refine ⟨low, high, split, ?_, fun f => ?_⟩
  · rw [removeMark, split, List.filter_append, List.filter_cons_of_neg (by simp), ← List.filter_append, List.filter_eq_self]
    exact fun x hx => by simpa using others x hx
  · rw [updateMark, split, List.map_append, List.map_cons, if_pos rfl, kept low (List.subset_append_left _ _),
      kept high (List.subset_append_right _ _)]

section
variable {s : State} {r : MarkRecord} {shift : Nat} {occupancy : Vector Nat 64} (w : s.TableLaw) (hr : r ∈ s.table)
  (h : CountsOf occupancy (tableSlots shift s.table))
include w hr h

/-- The removal of a record takes its claims with it (R67). -/
theorem CountsOf.removeRecord :
    CountsOf (removeClaims occupancy (r.slots shift)) (tableSlots shift (removeMark s.table r.mark)) := by
  obtain ⟨low, high, split, removed, -⟩ := w.split_at hr
  rw [removed]
  rw [split] at h
  exact (h.perm (List.perm_middle.flatMap_right _)).remove

/-- A record that gives way to one at its nominal hands its claims over to it (R68). -/
theorem CountsOf.replaceRecord {r' : MarkRecord} (stays : r'.nominal = r.nominal) :
    CountsOf (moveClaims shift occupancy r r')
      (tableSlots shift (updateMark s.table r.mark fun _ => r')) := by
  obtain ⟨low, high, split, -, updated⟩ := w.split_at hr
  rw [updated]
  rw [split] at h
  have moved : CountsOf (moveClaims shift occupancy r r') (tableSlots shift (r' :: (low ++ high))) :=
    .move stays (h.perm (List.perm_middle.flatMap_right _))
  exact moved.perm (List.perm_middle.symm.flatMap_right _)

end

/-! ### The claims of a sweep (R109, R110) -/

/-- A sweep keeps each record that is not retiring, and takes the others out. -/
theorem sweepTable_cons (resolve : MarkRecord → MarkRecord) (r : MarkRecord) (rest : List MarkRecord) :
    sweepTable resolve (r :: rest) =
      if (r.amended resolve).retiring = true then sweepTable resolve rest
      else (r.amended resolve).restLine :: sweepTable resolve rest := by
  unfold sweepTable
  rw [List.map_cons]
  split
  next retiring => rw [List.filter_cons_of_neg (by simp [retiring])]
  next stays => rw [List.filter_cons_of_pos (by simpa using stays), List.map_cons]

/-- The claims of a sweep, record by record, lead from the windows before it to those after it; `done` are the claims of the records
that it has already passed. -/
theorem CountsOf.sweep {shift : Nat} {resolve : MarkRecord → MarkRecord}
    (stays : ∀ r : MarkRecord, (r.amended resolve).nominal = r.nominal) {table : List MarkRecord} {occupancy : Vector Nat 64}
    {done : List (Fin 64)} (h : CountsOf occupancy (tableSlots shift table ++ done)) :
    CountsOf (sweepOccupancy shift resolve table occupancy) (tableSlots shift (sweepTable resolve table) ++ done) := by
  induction table generalizing occupancy done with
  | nil => exact h
  | cons r rest ih =>
    have moved : CountsOf (moveClaims shift occupancy r (r.amended resolve))
        ((r.amended resolve).slots shift ++ (tableSlots shift rest ++ done)) :=
      .move (stays r) (by simpa [tableSlots] using h)
    rw [sweepTable_cons]
    simp only [sweepOccupancy, List.foldl_cons]
    by_cases retiring : (r.amended resolve).retiring = true
    · rw [if_pos retiring, if_pos retiring]
      exact ih moved.remove
    · rw [if_neg retiring, if_neg retiring]
      have passed := ih (moved.perm (List.perm_append_comm_assoc _ _ _))
      refine passed.perm ?_
      simp only [tableSlots, List.flatMap_cons, MarkRecord.slots_restLine, List.append_assoc]
      exact List.perm_append_comm_assoc _ _ _

end Sys2Proof.Machine
end

