-- ==== Sys2Proof/Proofs/QueueLaw.lean ====
section
/-! SUPPORT. What the shared operations make of the law of the queue: the queue itself, the end of a pass, and the arbiter (R57, R59,
R71 to R73, R102). -/

namespace Sys2Proof.Machine

/-- All of a state that the law of the queue speaks of. -/
def State.queueView (s : State) : List Sighting × PassState × Nat × Bool × Option TableOp × Option SweepClaim :=
  (s.queue, s.pass.state, s.pass.number, s.passTimer, s.tableOp, s.sweepClaim)

/-- A live pass is in neither of the states that are not live. -/
theorem PassState.ne_of_live {x y : PassState} (live : x.live = true) (dead : y.live = false) : x ≠ y := by
  rintro rfl
  cases live.symm.trans dead

theorem State.tableOp_of_queueView {s t : State} (same : t.queueView = s.queueView) : t.tableOp = s.tableOp := by
  simp only [State.queueView, Prod.mk.injEq] at same
  obtain ⟨-, -, -, -, op, -⟩ := same
  exact op

namespace State.QueueLaw

variable {s : State}

theorem congr {t : State} (q : s.QueueLaw) (same : t.queueView = s.queueView) : t.QueueLaw := by
  simp only [State.queueView, Prod.mk.injEq] at same
  obtain ⟨queue, state, number, timer, op, claim⟩ := same
  obtain ⟨q1, q2, q3, q4, q5, q6, q7, q8, q9⟩ := q
  constructor <;> simpa only [queue, state, number, timer, op, claim]

/-- No sweep is in progress or claimed while the pass is live. -/
theorem no_sweep (q : s.QueueLaw) (live : s.pass.state.live = true) :
    s.tableOp ≠ some .closeSweep ∧ s.tableOp ≠ some .abortSweep ∧ s.sweepClaim = none := by
  have notIn {x : PassState} (dead : x.live = false) : s.pass.state ≠ x := PassState.ne_of_live live dead
  refine ⟨fun op => notIn rfl (q.closeSweep op).1, fun op => notIn rfl (q.abortSweep op).1, ?_⟩
  match claim : s.sweepClaim with
  | none => rfl
  | some .close => exact absurd (q.closeClaim claim) (notIn rfl)
  | some .abort => exact absurd (q.abortClaim claim) (notIn rfl)

/-- An operation other than the two sweeps that end a pass is in progress, or none is. -/
theorem withOp (q : s.QueueLaw) {op : Option TableOp} (close : op ≠ some .closeSweep) (abort : op ≠ some .abortSweep) :
    ({ s with tableOp := op } : State).QueueLaw :=
  { q with closeSweep := fun h => absurd h close, abortSweep := fun h => absurd h abort }

/-- The queue is emptied as a whole (R73). -/
theorem emptied (q : s.QueueLaw) : ({ s with queue := [] } : State).QueueLaw where
  depth := Nat.zero_le _
  number := by simp
  idle _ := rfl
  aborting _ := rfl
  closeSweep op :=
    have ⟨closing, _, claim⟩ := q.closeSweep op
    ⟨closing, rfl, claim⟩
  abortSweep := q.abortSweep
  closeClaim := q.closeClaim
  abortClaim := q.abortClaim
  timer := q.timer

/-- The pass timer stops (R102). -/
theorem stopTimer (q : s.QueueLaw) : ({ s with passTimer := false } : State).QueueLaw := { q with timer := by simp }

/-- A sighting of the open pass reaches the queue while the pass is live: it is appended, or lost (R71, R72). -/
theorem enqueue (q : s.QueueLaw) (live : s.pass.state.live = true) {x : Sighting} (own : x.pass = s.pass.number) :
    (s.enqueue x).QueueLaw := by
  obtain ⟨noClose, -, -⟩ := q.no_sweep live
  by_cases room : s.queue.length < 6
  · rw [s.enqueue_room x room]
    exact { q with
      depth := by simpa using room
      number := by simpa [or_imp, forall_and, own] using q.number
      idle := fun idle => absurd idle (PassState.ne_of_live live rfl)
      aborting := fun aborting => absurd aborting (PassState.ne_of_live live rfl)
      closeSweep := fun op => absurd op noClose }
  · rw [s.enqueue_full x (Nat.le_of_not_lt room)]
    exact q.congr rfl

/-- Tagging hands a sighting on in a live pass alone, under the number of that pass (R38). -/
theorem tagSighting (q : s.QueueLaw) (i : LineId) (centre : Position) (width : Nat) (abbe : Option Position) :
    (s.tagSighting i centre width abbe).QueueLaw := by
  have counted (k : Counter) : (s.count k 1).QueueLaw := q.congr rfl
  unfold State.tagSighting
  split
  next live =>
    have handedOn : (s.enqueue ⟨i, s.pass.number, centre, width, abbe⟩).QueueLaw := q.enqueue live rfl
    have filtered : (s.prefilter ⟨i, s.pass.number, centre, width, abbe⟩).QueueLaw := by
      unfold State.prefilter
      split
      · exact counted _
      · exact handedOn
    simp only
    split
    · exact filtered
    · exact handedOn
    · exact counted _
  · exact counted _

theorem formLine (q : s.QueueLaw) (i : LineId) : (s.formLine i).QueueLaw := by
  have dropped : (s.setLine i { s.line i with closing := none }).QueueLaw := q.congr (by simp [State.queueView])
  unfold State.formLine
  split
  · exact q
  · split
    · exact q
    · exact dropped.congr rfl
    · exact dropped.tagSighting _ _ _ _

/-- A live pass becomes ABORTING with its queue emptied, its timer stopped and its sweep claimed (R73, R103). -/
theorem abortLivePass (q : s.QueueLaw) (cause : AbortCause) : (s.abortLivePass cause).QueueLaw := by
  by_cases live : s.pass.state.live = true
  · obtain ⟨noClose, noAbort, -⟩ := q.no_sweep live
    rw [s.abortLivePass_live cause live]
    exact {
      depth := Nat.zero_le _
      number := by simp
      idle := fun _ => rfl
      aborting := fun _ => rfl
      closeSweep := fun op => absurd op noClose
      abortSweep := fun op => absurd op noAbort
      closeClaim := by simp
      abortClaim := fun _ => rfl
      timer := by simp }
  · rwa [s.abortLivePass_not_live cause (by simpa using live)]

/-- A live pass becomes CLOSING with its timer stopped; its sightings still wait for the close sweep (R101). -/
theorem closeLivePass (q : s.QueueLaw) : s.closeLivePass.QueueLaw := by
  by_cases live : s.pass.state.live = true
  · obtain ⟨noClose, noAbort, noClaim⟩ := q.no_sweep live
    rw [s.closeLivePass_live live]
    exact {
      depth := q.depth
      number := q.number
      idle := by simp
      aborting := by simp
      closeSweep := fun op => absurd op noClose
      abortSweep := fun op => absurd op noAbort
      closeClaim := fun _ => rfl
      abortClaim := by simp [noClaim]
      timer := by simp }
  · rwa [s.closeLivePass_not_live (by simpa using live)]

/-- The arbiter takes up an abort sweep in ABORTING, the oldest sighting where one waits, and a close sweep in CLOSING once none
does (R59). -/
theorem arbitrate (q : s.QueueLaw) : s.arbitrate.QueueLaw := by
  obtain e | ⟨-, claim, e⟩ | ⟨-, -, x, rest, waits, e⟩ | ⟨-, claim, empty, e⟩ := s.arbitrate_cases <;> rw [e]
  · exact q
  · exact { q with
      closeSweep := by simp
      abortSweep := fun _ => ⟨q.abortClaim claim, rfl⟩
      closeClaim := by simp
      abortClaim := by simp }
  · have waiting : s.queue ≠ [] := by simp [waits]
    have taken : ({ s with queue := rest } : State).QueueLaw := by
      refine { q with depth := ?_, number := ?_, idle := ?_, aborting := ?_, closeSweep := ?_ }
      · exact (Nat.le_succ _).trans (by simpa [waits] using q.depth)
      · exact fun y hy => q.number y (by simp [waits, show y ∈ rest from hy])
      · exact fun idle => absurd (q.idle idle) waiting
      · exact fun aborting => absurd (q.aborting aborting) waiting
      · intro op
        obtain ⟨-, empty, -⟩ := q.closeSweep op
        exact absurd empty waiting
    exact taken.withOp (by simp) (by simp)
  · exact { q with
      closeSweep := fun _ => ⟨q.closeClaim claim, empty, rfl⟩
      abortSweep := by simp
      closeClaim := by simp
      abortClaim := by simp }

/-- A pass opens with an empty queue and an arm sweep in progress, no sweep being claimed (R96). -/
theorem openPass (q : s.QueueLaw) (idle : s.pass.state = .idle) (terms : PassTerms) : (s.openPass terms).QueueLaw := by
  have noClaim {c : SweepClaim} : s.sweepClaim ≠ some c := fun claim => by
    cases c with
    | close => cases (q.closeClaim claim).symm.trans idle
    | abort => cases (q.abortClaim claim).symm.trans idle
  have empty : (s.openPass terms).queue = [] := q.idle idle
  exact {
    depth := q.depth
    number := by simp [empty]
    idle := fun _ => empty
    aborting := fun _ => empty
    closeSweep := fun op => (nomatch op)
    abortSweep := fun op => (nomatch op)
    closeClaim := fun claim => absurd claim noClaim
    abortClaim := fun claim => absurd claim noClaim
    timer := fun _ => rfl }

/-- The pass at the completion of its arm sweep: RUNNING from ARMING, and the close sweep claimed where the crossing came first (R99,
R101). -/
theorem afterArming (q : s.QueueLaw) (sweeping : s.tableOp = some .armSweep) : s.afterArming.QueueLaw := by
  have noClose : s.tableOp ≠ some .closeSweep := by simp [sweeping]
  have noAbort : s.tableOp ≠ some .abortSweep := by simp [sweeping]
  unfold State.afterArming
  split
  next arming =>
    obtain ⟨-, -, noClaim⟩ := q.no_sweep (by rw [arming]; rfl)
    exact {
      depth := q.depth
      number := q.number
      idle := by simp
      aborting := by simp
      closeSweep := fun op => absurd op noClose
      abortSweep := fun op => absurd op noAbort
      closeClaim := by simp [noClaim]
      abortClaim := by simp [noClaim]
      timer := fun _ => rfl }
  next closing =>
    exact { q with
      closeSweep := fun op => absurd op noClose
      abortSweep := fun op => absurd op noAbort
      closeClaim := fun _ => closing
      abortClaim := by simp }
  all_goals exact q

/-- A sweep ends its pass with no sighting waiting, no sweep claimed and the timer stopped (R112, R113). -/
theorem endPass (q : s.QueueLaw) (sweeping : s.tableOp = some .closeSweep ∨ s.tableOp = some .abortSweep) (missed : Nat) :
    (s.endPass missed).QueueLaw := by
  have ending : s.queue = [] ∧ s.sweepClaim = none ∧ s.pass.state.live = false := by
    obtain op | op := sweeping
    · obtain ⟨closing, empty, noClaim⟩ := q.closeSweep op
      exact ⟨empty, noClaim, by rw [closing]; rfl⟩
    · obtain ⟨aborting, noClaim⟩ := q.abortSweep op
      exact ⟨q.aborting aborting, noClaim, by rw [aborting]; rfl⟩
  obtain ⟨empty, noClaim, dead⟩ := ending
  have ended : (({ s with pass := { s.pass with state := .idle, missed := missed }, tableOp := none } : State).raise
      .passEnd).QueueLaw := {
    depth := q.depth
    number := q.number
    idle := fun _ => empty
    aborting := fun _ => empty
    closeSweep := by simp
    abortSweep := by simp
    closeClaim := by simp [noClaim]
    abortClaim := by simp [noClaim]
    timer := fun timer => by cases (q.timer timer).symm.trans dead }
  exact ended.arbitrate

/-- The completion of a datum take leaves an empty queue, and a RUNNING pass CLOSING (R87, R88). -/
theorem finishClaim (q : s.QueueLaw) (report : ClaimReport) : (s.finishClaim report).QueueLaw := by
  cases report with
  | refused => exact q.congr rfl
  | applied =>
    have emptied : (({ s with pass := { s.pass with taken := s.pass.taken + 1 } } : State).emptyQueue true).QueueLaw :=
      q.emptied.congr rfl
    simp only [State.finishClaim, State.claimClosing]
    split
    · exact emptied.closeLivePass
    · exact emptied

end State.QueueLaw

end Sys2Proof.Machine
end

