-- ==== Sys2Proof/Proofs/QueueSteps.lean ====
section
/-! SUPPORT. The operations that keep the law of the queue and move no claim of the prefilter (R67, R71 to R74). -/

namespace Sys2Proof.Machine

/-- The law of the queue is kept, the claims of the records and the counts stand, and no SET MATCH has begun. -/
structure State.MovesNoClaim (s t : State) : Prop where
  queue : s.QueueLaw → t.QueueLaw
  slots : t.table.map (MarkRecord.slots t.config.shift) = s.table.map (MarkRecord.slots s.config.shift)
  occupancy : t.occupancy = s.occupancy
  settingMatch : ∀ m, t.tableOp = some (.host (.setMatch m)) → s.tableOp = some (.host (.setMatch m))

namespace State.MovesNoClaim

theorem refl (s : State) : s.MovesNoClaim s := ⟨id, rfl, rfl, fun _ => id⟩

theorem trans {s t u : State} (h : s.MovesNoClaim t) (k : t.MovesNoClaim u) : s.MovesNoClaim u :=
  ⟨k.queue ∘ h.queue, k.slots.trans h.slots, k.occupancy.trans h.occupancy, fun m hm => h.settingMatch m (k.settingMatch m hm)⟩

theorem ite {s t u : State} {p : Prop} [Decidable p] (ht : s.MovesNoClaim t) (hu : s.MovesNoClaim u) :
    s.MovesNoClaim (if p then t else u) := by
  split
  · exact ht
  · exact hu

/-- What the law of the queue speaks of stands, and so do the claims. -/
theorem of_view {s t : State} (view : t.queueView = s.queueView)
    (slots : t.table.map (MarkRecord.slots t.config.shift) = s.table.map (MarkRecord.slots s.config.shift))
    (occupancy : t.occupancy = s.occupancy) : s.MovesNoClaim t :=
  ⟨fun q => q.congr view, slots, occupancy, fun _ hm => (State.tableOp_of_queueView view).symm.trans hm⟩

/-- The queue, the pass and the table unit act, while the table stands. -/
theorem of_queue {s t : State} (queue : s.QueueLaw → t.QueueLaw) (table : t.table = s.table) (config : t.config = s.config)
    (occupancy : t.occupancy = s.occupancy) (op : t.tableOp = s.tableOp) : s.MovesNoClaim t :=
  ⟨queue, by rw [table, config], occupancy, fun _ hm => op.symm.trans hm⟩

/-! ### The shared operations -/

theorem answer (s : State) (status : Status) (bytes : List Byte) : s.MovesNoClaim (s.answer status bytes) := of_view rfl rfl rfl

theorem reject (s : State) (code : RejectCode) : s.MovesNoClaim (s.reject code) := of_view rfl rfl rfl

theorem handOver (s : State) (status : Status) (bytes : List Byte) : s.MovesNoClaim (s.handOver status bytes) :=
  of_view (by simp [State.queueView]) (by simp) (by simp)

theorem count (s : State) (k : Counter) (n : Nat) : s.MovesNoClaim (s.count k n) := of_view rfl rfl rfl

theorem setLine (s : State) (i : LineId) (l : LineInput) : s.MovesNoClaim (s.setLine i l) :=
  of_view (by simp [State.queueView]) (by simp) (by simp)

theorem putGuarded (s : State) (i : LineId) (g : LineInput × Bool) : s.MovesNoClaim (s.putGuarded i g) :=
  of_view (by simp [State.queueView]) (by simp) (by simp)

theorem linesSee (s : State) (k : ChannelIx) (p : Nat → Position) (st : ChannelState) (left : Bool) (q : Option Position) :
    s.MovesNoClaim (s.linesSee k p st left q) := of_view (by simp [State.queueView]) (by simp) (by simp)

theorem putChannel (s : State) (k : ChannelIx) (c : Channel) : s.MovesNoClaim (s.putChannel k c) := of_view rfl rfl rfl

/-- The operation in progress is over. -/
theorem free (s : State) : s.MovesNoClaim { s with tableOp := none } := ⟨fun q => q.withOp (by simp) (by simp), rfl, rfl, by simp⟩

theorem arbitrate (s : State) : s.MovesNoClaim s.arbitrate := by
  refine ⟨fun q => q.arbitrate, by simp, by simp, fun m hm => ?_⟩
  obtain e | ⟨-, -, e⟩ | ⟨-, -, x, rest, -, e⟩ | ⟨-, -, -, e⟩ := s.arbitrate_cases <;> rw [e] at hm
  · exact hm
  all_goals cases hm

theorem formLine (s : State) (i : LineId) : s.MovesNoClaim (s.formLine i) :=
  of_queue (fun q => q.formLine i) (by simp) (by simp) (by simp) (by simp)

theorem formSightings (s : State) : s.MovesNoClaim s.formSightings := (formLine s _).trans (formLine _ _)

theorem abortLivePass (s : State) (cause : AbortCause) : s.MovesNoClaim (s.abortLivePass cause) :=
  of_queue (fun q => q.abortLivePass cause) (by simp) (by simp) (by simp) (by simp)

theorem closeLivePass (s : State) : s.MovesNoClaim s.closeLivePass :=
  of_queue (fun q => q.closeLivePass) (by simp) (by simp) (by simp) (by simp)

theorem passSees (s : State) (k : ChannelIx) (left : Bool) (p : Position) : s.MovesNoClaim (s.passSees k left p) := by
  have crosses : s.MovesNoClaim (s.testCrossing p) := by
    unfold State.testCrossing
    split
    · exact refl s
    · refine ite ?_ (refl s)
      split
      · exact closeLivePass s
      · exact abortLivePass s _
  exact ite (ite (abortLivePass s _) crosses) (refl s)

theorem settleEvent (s : State) (first : MeetOrder) {ends : State → State} (h : ∀ v : State, v.MovesNoClaim (ends v)) :
    s.MovesNoClaim (s.settleEvent first ends) := by
  cases first
  case formationFirst => exact ((formSightings s).trans (h _)).trans (arbitrate _)
  case passFirst => exact ((h s).trans (formSightings _)).trans (arbitrate _)
  case passBetween => exact (((formLine s _).trans (h _)).trans (formLine _ _)).trans (arbitrate _)

/-! ### Signals -/

theorem sampleChannel (s : State) (k : ChannelIx) (increment : Int) (amplitude : Nat) (first : MeetOrder) :
    s.MovesNoClaim (s.sampleChannel k increment amplitude first) := by
  have entered : s.MovesNoClaim (s.enterPeriod k) := of_view rfl rfl rfl
  exact ((entered.trans (putChannel _ _ _)).trans (linesSee _ _ _ _ _ _)).trans (settleEvent _ first fun v => passSees v _ _ _)

theorem linesLoseReference (s tracked : State) : s.MovesNoClaim (s.linesLoseReference tracked) := by
  have told (ks : List ChannelIx) : ∀ u : State, u.MovesNoClaim (ks.foldl (fun t (k : ChannelIx) =>
      t.linesSee k (fun _ => (s.channel k).position) (s.channel k).state
        (decide ((tracked.channel k).state = .tracking)) none) u) := by
    induction ks with
    | nil => exact refl
    | cons k ks ih => exact fun u => (linesSee u _ _ _ _ _).trans (ih _)
  exact told _ s

theorem referenceLost (s : State) (first : MeetOrder) : s.MovesNoClaim (s.referenceLost first) := by
  have lost : s.MovesNoClaim ((List.finRange 6).foldl State.loseReference { s with monitor := .absent, period := none }) := by
    obtain ⟨-, rest, -⟩ := State.loseReferences_spec { s with monitor := .absent, period := none }
    rw [rest]
    exact of_view rfl rfl rfl
  unfold State.referenceLost
  simp only
  exact (lost.trans (linesLoseReference _ s)).trans (settleEvent _ first fun v => ite (abortLivePass v _) (refl v))

theorem leadingEdge (s : State) (i : LineId) (phase : Nat) : s.MovesNoClaim (s.leadingEdge i phase) := by
  unfold State.leadingEdge
  simp only
  split
  · exact refl s
  · exact refl s
  · exact ite (putGuarded s _ _) (setLine s _ _)

theorem trailingEdge (s : State) (i : LineId) (phase : Nat) : s.MovesNoClaim (s.trailingEdge i phase) := by
  have order : ∀ first, s.MovesNoClaim { s with earlierClosing := first } := fun _ => of_view rfl rfl rfl
  unfold State.trailingEdge
  simp only
  split
  · exact setLine s _ _
  · exact setLine s _ _
  · exact ite ((setLine s _ _).trans (count _ _ _))
      ((((order _).trans (setLine _ _ _)).trans (formSightings _)).trans (arbitrate _))

/-! ### Requests that leave the table unit alone -/

theorem setAxisRequest (s : State) (f : SetAxisFields) (first : MeetOrder) : s.MovesNoClaim (s.setAxisRequest f first) := by
  have settled (v : State) : v.MovesNoClaim v.settlePeriod := of_view rfl rfl rfl
  have configured (k : ChannelIx) : s.MovesNoClaim (s.configureAxis k f first) :=
    ite (putChannel s _ _) ((((putChannel s _ _).trans (settled _)).trans (linesSee _ _ _ _ _ _)).trans
      (settleEvent _ first fun v => ite (abortLivePass v _) (refl v)))
  unfold State.setAxisRequest
  split
  · exact reject s _
  · exact ite (reject s _) (ite (reject s _) ((configured _).trans (answer _ _ _)))

theorem trackRequest (s : State) (channel : Nat) : s.MovesNoClaim (s.trackRequest channel) := by
  unfold State.trackRequest
  split
  · exact reject s _
  · exact ite (reject s _) (ite (reject s _) ((putChannel s _ _).trans (answer _ _ _)))

theorem restartRequest (s : State) (channel : Nat) : s.MovesNoClaim (s.restartRequest channel) := by
  unfold State.restartRequest
  split
  · exact reject s _
  · exact ite (reject s _) ((putChannel s _ _).trans (answer _ _ _))

theorem zeroRequest (s : State) (channel : Nat) (value : Position) : s.MovesNoClaim (s.zeroRequest channel value) := by
  unfold State.zeroRequest
  split
  · exact reject s _
  · exact ite (reject s _) (ite (reject s _) ((putChannel s _ _).trans (answer _ _ _)))

theorem setLineRequest (s : State) (f : SetLineFields) : s.MovesNoClaim (s.setLineRequest f) := by
  unfold State.setLineRequest
  split
  · exact reject s _
  · exact ite (reject s _) ((setLine s _ _).trans (answer _ _ _))

theorem abortPassRequest (s : State) (number : Nat) : s.MovesNoClaim (s.abortPassRequest number) :=
  ite (reject s _) (ite (reject s _) (((abortLivePass s _).trans (arbitrate _)).trans (answer _ _ _)))

/-- An accepted BEGIN PASS opens its pass from IDLE (R94, R96). -/
theorem beginPassRequest (s : State) (f : BeginPassFields) : s.MovesNoClaim (s.beginPassRequest f) := by
  unfold State.beginPassRequest
  split
  · exact reject s _
  next idle =>
    refine ite (reject s _) ?_
    split
    · exact reject s _
    next terms _ =>
      split
      · exact reject s _
      · exact ⟨fun q => q.openPass (not_not.mp idle) terms, rfl, rfl, fun m hm => (nomatch hm)⟩

theorem readEventsRequest (s : State) (option : Nat) : s.MovesNoClaim (s.readEventsRequest option) := by
  unfold State.readEventsRequest
  split <;> exact of_view rfl rfl rfl

theorem clearEventsRequest (s : State) (word : Nat) : s.MovesNoClaim (s.clearEventsRequest word) := by
  unfold State.clearEventsRequest
  split <;> exact of_view rfl rfl rfl

theorem setNoticeRequest (s : State) (setting word : Nat) : s.MovesNoClaim (s.setNoticeRequest setting word) := by
  unfold State.setNoticeRequest
  split <;> exact of_view rfl rfl rfl

theorem unprotectRequest (s : State) (set : BitVec 32) : s.MovesNoClaim (s.unprotectRequest set) := by
  unfold State.unprotectRequest
  split <;> exact of_view rfl rfl rfl

theorem resetRequest (s : State) (scope : Nat) : s.MovesNoClaim (s.resetRequest scope) := by
  unfold State.resetRequest
  split <;> exact of_view rfl rfl rfl

/-! ### The link -/

theorem judgeAddress (s : State) (address : Byte) : s.MovesNoClaim (s.judgeAddress address) :=
  ite (of_view rfl rfl rfl) (of_view rfl rfl rfl)

theorem meetRival (s : State) (rival : Byte) : s.MovesNoClaim (s.meetRival rival) := ite (judgeAddress s rival) (refl s)

theorem linkStart (s : State) (address : Option Byte) : s.MovesNoClaim (s.linkStart address) := by
  unfold State.linkStart
  split
  · exact refl s
  · exact refl s
  · exact meetRival s _
  · exact of_view rfl rfl rfl
  · exact ite (of_view rfl rfl rfl) (judgeAddress s _)

theorem addressedForRead (s : State) (extent : ReadExtent) : s.MovesNoClaim (s.addressedForRead extent) := by
  have response : s.MovesNoClaim (s.readResponse extent) := by
    unfold State.readResponse
    split <;> exact of_view rfl rfl rfl
  exact ite (of_view rfl rfl rfl) (ite (of_view rfl rfl rfl) response)

theorem startNotice (s : State) (rival : Option Byte) : s.MovesNoClaim (s.startNotice rival) := by
  have started : s.MovesNoClaim (s.startExchange .starting) := of_view rfl rfl rfl
  unfold State.startNotice
  split
  · exact started
  · exact started.trans (meetRival _ _)

/-- An interface reset empties the queue whatever the pass does (R74). -/
theorem interfaceReset (s : State) : s.MovesNoClaim s.interfaceReset := by
  have cleared (v : State) : v.MovesNoClaim { v with
      queue := []
      line1 := v.line1.dropLines
      line2 := v.line2.dropLines
      events := v.events.interfaceReset v.downMask v.tableFull } := of_queue (fun q => q.emptied.congr rfl) rfl rfl rfl rfl
  exact ((abortLivePass s .reset).trans (cleared _)).trans (arbitrate _)

/-! ### Matching and the arm sweep -/

theorem updateKind (s : State) (mark : Nat) (f : KindPart → KindPart) : s.MovesNoClaim (s.updateKind mark f) :=
  of_view rfl (map_slots_updateMark fun _ => rfl) rfl

theorem reportOutcome (s : State) (o : MatchOutcome) : s.MovesNoClaim (s.reportOutcome o) := by
  cases o <;> exact of_view rfl rfl rfl

theorem finishClaim (s : State) (report : ClaimReport) : s.MovesNoClaim (s.finishClaim report) := by
  cases report with
  | refused => exact count s _ _
  | applied =>
    have closed (v : State) : v.claimClosing.table = v.table ∧ v.claimClosing.config = v.config
        ∧ v.claimClosing.occupancy = v.occupancy ∧ v.claimClosing.tableOp = v.tableOp := by
      unfold State.claimClosing
      split <;> simp
    obtain ⟨table, config, occupancy, op⟩ := closed _
    exact of_queue (fun q => q.finishClaim .applied) table config occupancy op

theorem makeClaim (s : State) (m : MatchUnderWay) (r : MarkRecord) : s.MovesNoClaim (s.makeClaim m r) := by
  have claimed (c : Channel) (m' : MatchUnderWay) : s.MovesNoClaim
      { s with channels := s.channels.set s.config.axis c, tableOp := some (.sightingMatch m') } :=
    ⟨fun q => (q.withOp (op := some (.sightingMatch m')) (by simp) (by simp)).congr rfl, rfl, rfl, by simp⟩
  unfold State.makeClaim
  simp only
  split
  · exact (claimed _ _).trans (updateKind _ _ _)
  · exact claimed _ _

theorem matchSighting (s : State) (m : MatchUnderWay) : s.MovesNoClaim (s.matchSighting m) := by
  have measured (x : Sighting) : s.MovesNoClaim (s.matchMeasure x) := by
    unfold State.matchMeasure
    split
    · exact reportOutcome s _
    · exact (updateKind s _ _).trans (reportOutcome _ _)
  have datum (mark : Nat) : s.MovesNoClaim (s.matchDatum mark m) := by
    unfold State.matchDatum
    split
    · exact finishClaim s _
    · exact refl s
    · split
      · exact count s _ _
      · exact (updateKind s _ _).trans (count _ _ _)
      · exact (makeClaim s m _).trans (finishClaim _ _)
      all_goals exact refl s
  unfold State.matchSighting
  split
  · exact measured _
  · exact datum _
  · exact refl s

/-- The arm sweep changes states of records, and no window (R67, R97 to R99). -/
theorem finishArmSweep (s : State) (sweeping : s.tableOp = some .armSweep) : s.MovesNoClaim s.finishArmSweep := by
  have armed : s.MovesNoClaim s.armRecords ∧ s.armRecords.tableOp = s.tableOp := by
    unfold State.armRecords
    split
    · exact ⟨refl s, rfl⟩
    next terms _ =>
      refine ⟨of_view rfl ?_ rfl, rfl⟩
      rw [List.map_map]
      refine List.map_congr_left fun r _ => ?_
      simp only [Function.comp]
      split <;> rfl
  obtain ⟨records, op⟩ := armed
  have stands (v : State) : v.afterArming.table = v.table ∧ v.afterArming.config = v.config
      ∧ v.afterArming.occupancy = v.occupancy ∧ v.afterArming.tableOp = v.tableOp := by
    unfold State.afterArming
    split <;> exact ⟨rfl, rfl, rfl, rfl⟩
  have arrives (v : State) (h : v.tableOp = some .armSweep) : v.MovesNoClaim v.afterArming :=
    have ⟨table, config, occupancy, op⟩ := stands v
    of_queue (fun q => q.afterArming h) table config occupancy op
  exact (((records.trans (handOver _ _ _)).trans (arrives _ (by simp [op, sweeping]))).trans (free _)).trans (arbitrate _)

end State.MovesNoClaim

end Sys2Proof.Machine
end

