-- ==== Sys2Proof/Proofs/QueueAndOccupancy.lean ====
section
/-! SUPPORT. Every command keeps the law of the queue and that of the occupancy, and the proofs of QueueLawIsKept and
OccupancyLawIsKept (R66 to R68, R71 to R74). -/

namespace Sys2Proof.Machine

/-! ### The laws between two states -/

/-- The counts of the prefilter agree with the windows of the table (R66). -/
def State.Counted (s : State) : Prop := CountsOf s.occupancy (tableSlots s.config.shift s.table)

/-- The law of the queue is kept, and that of the occupancy, where mark numbers are unique. -/
structure State.KeepsSightingLaws (s t : State) : Prop where
  queue : s.QueueLaw → t.QueueLaw
  occupancy : s.TableLaw → s.OccupancyLaw → t.OccupancyLaw

theorem State.OccupancyLaw.of_moves {s t : State} (o : s.OccupancyLaw) (h : s.MovesNoClaim t) : t.OccupancyLaw := by
  refine ⟨fun k => ?_, fun m hm => ?_⟩
  · rw [State.slot, h.occupancy]
    exact (o.counts k).trans (congrArg (List.count k) (tableSlots_congr h.slots).symm)
  · have empty := h.slots
    rwa [o.settingMatch m (h.settingMatch m hm), List.map_nil, List.map_eq_nil_iff] at empty

/-- Counts that agree are all that the law asks for while no SET MATCH is in progress. -/
theorem State.Counted.law {s : State} (h : s.Counted) (noSetMatch : ∀ m, s.tableOp ≠ some (.host (.setMatch m))) :
    s.OccupancyLaw :=
  ⟨h, fun m hm => absurd hm (noSetMatch m)⟩

theorem State.Counted.congr {s t : State} (h : s.Counted) (table : t.table = s.table) (config : t.config = s.config)
    (occupancy : t.occupancy = s.occupancy) : t.Counted := by
  rwa [State.Counted, table, config, occupancy]

/-- The arbiter takes up no operation of the host's at the end of a pass. -/
theorem State.Counted.endPass {s : State} (h : s.Counted) (missed : Nat) : (s.endPass missed).OccupancyLaw := by
  have ended : (({ s with pass := { s.pass with state := .idle, missed := missed }, tableOp := none } : State).raise
      .passEnd).OccupancyLaw := State.Counted.law h (by simp)
  exact ended.of_moves (.arbitrate _)

theorem HostOp.Fits.emptyTable {op : HostOp} {shift : Nat} {table : List MarkRecord} (h : op.Fits shift table) :
    ∀ m, op = .setMatch m → table = [] := by
  rintro m rfl
  obtain ⟨-, -, empty⟩ := h
  exact empty

namespace State.KeepsSightingLaws

theorem of_moves {s t : State} (h : s.MovesNoClaim t) : s.KeepsSightingLaws t := ⟨h.queue, fun _ o => o.of_moves h⟩

theorem refl (s : State) : s.KeepsSightingLaws s := of_moves (.refl s)

theorem trans_moves {s t u : State} (h : s.KeepsSightingLaws t) (k : t.MovesNoClaim u) : s.KeepsSightingLaws u :=
  ⟨k.queue ∘ h.queue, fun w o => (h.occupancy w o).of_moves k⟩

/-- Nothing that the laws speak of has changed yet. -/
theorem of_same {s t u : State} (table : s.SameTable t) (h : s.MovesNoClaim t) (k : t.KeepsSightingLaws u) : s.KeepsSightingLaws u :=
  ⟨k.queue ∘ h.queue, fun w o => k.occupancy (w.of_same table) (o.of_moves h)⟩

/-! ### The start of an operation of the host's -/

/-- A SET MATCH has found the table empty (R22); every other operation leaves the prefilter alone until its completion. -/
theorem startHostOp {s : State} {op : HostOp} (h : s.TableLaw → ∀ m, op = .setMatch m → s.table = []) :
    s.KeepsSightingLaws (s.startHostOp op) := by
  refine ⟨fun q => (q.withOp (op := some (.host op)) (by simp) (by simp)).congr rfl, fun w o => ⟨o.counts, fun m hm => ?_⟩⟩
  exact h w m (by simpa [State.startHostOp] using hm)

theorem hostTable {s : State} {judge : State → HostOp} (h : (judge s).Fits s.config.shift s.table) :
    s.KeepsSightingLaws (s.hostTable judge) := by
  unfold State.hostTable
  split
  · exact startHostOp fun _ => h.emptyTable
  · exact of_moves (.reject s _)

theorem hostTableGuarded {s : State} {judge : State → Verdict} {shielded : State → State}
    (h : s.TableLaw → ∀ op, judge s = .start op → op.Fits s.config.shift s.table)
    (hs : ∀ u : State, u.MovesNoClaim (shielded u)) : s.KeepsSightingLaws (s.hostTableGuarded judge shielded) := by
  unfold State.hostTableGuarded
  split
  · split
    next op e => exact startHostOp fun w => (h w op e).emptyTable
    next mark _ =>
      have fault : s.MovesNoClaim (s.protectionFault mark) := .of_view rfl rfl rfl
      exact of_moves (fault.trans (hs _))
  · exact of_moves (.reject s _)

/-- A SET MATCH that keeps the bucket shift keeps every claim; one that changes it starts an operation (R22, R67). -/
theorem setMatchRequest (s : State) (f : SetMatchFields) : s.KeepsSightingLaws (s.setMatchRequest f) := by
  unfold State.setMatchRequest
  split
  · exact of_moves (.reject s _)
  next m _ =>
    split
    · exact of_moves (.reject s _)
    · split
      next same =>
        have stored : s.MovesNoClaim { s with config := m } := .of_view rfl (by rw [same]) rfl
        exact of_moves (stored.trans (.answer _ _ _))
      · split
        · exact of_moves (.reject s _)
        · split
          · exact startHostOp fun _ _ refuses => (nomatch refuses)
          next empty => exact startHostOp fun _ _ _ => not_not.mp empty

end State.KeepsSightingLaws

/-! ### The effects of the operations of the host and of the sweeps -/

theorem insertNew_queueView (s : State) (r : MarkRecord) : (s.insertNew r).queueView = s.queueView := by
  rw [insertNew_rest]
  rfl

theorem applyAmend_queueView (s : State) (r : MarkRecord) (a : Amendment) : (s.applyAmend r a).queueView = s.queueView := by
  rw [State.applyAmend_eq, reportAmended_rest]
  rfl

theorem removeRecord_queueView (s : State) (r : MarkRecord) : (s.removeRecord r).queueView = s.queueView := by
  rw [State.removeRecord_rest]
  rfl

/-- The queue, the pass and the sweeps take no part in an operation of the host's. -/
theorem completeHostOp_queueView (s : State) (op : HostOp) : (s.completeHostOp op).1.queueView = s.queueView := by
  cases op
  case enrol r => exact insertNew_queueView s r
  case enrolRun run =>
    exact State.runFrom_of (P := fun v => v.queueView = s.queueView)
      (fun v _ r hv _ => (insertNew_queueView v r).trans hv) _ _ s rfl
  case amend mark a =>
    simp only [State.completeHostOp]
    split
    · rfl
    · split
      · exact applyAmend_queueView s _ a
      · rfl
  case retire mark =>
    simp only [State.completeHostOp]
    split
    · rfl
    · split
      · exact removeRecord_queueView s _
      · rfl
  case reopen mark =>
    simp only [State.completeHostOp]
    repeat' split
    all_goals rfl
  case lookup mark =>
    simp only [State.completeHostOp]
    split <;> rfl
  all_goals rfl

/-- A sweep changes records and claims, and reports to the groups. -/
theorem sweepRecords_rest (s : State) (resolve : MarkRecord → MarkRecord) :
    s.sweepRecords resolve = { s with
      table := sweepTable resolve s.table
      occupancy := sweepOccupancy s.config.shift resolve s.table s.occupancy
      groups := (s.sweepRecords resolve).groups
      events := (s.sweepRecords resolve).events } := by
  obtain ⟨-, rest, -⟩ := State.reportSweep_spec ({ s with
    table := sweepTable resolve s.table
    occupancy := sweepOccupancy s.config.shift resolve s.table s.occupancy } : State) s.table (sweepTable resolve s.table)
  exact rest

theorem sweepRecords_queueView (s : State) (resolve : MarkRecord → MarkRecord) :
    (s.sweepRecords resolve).queueView = s.queueView := by
  rw [sweepRecords_rest]
  rfl

namespace State.Counted

theorem insertNew {s : State} (h : s.Counted) (r : MarkRecord) : (s.insertNew r).Counted := by
  rw [State.Counted, insertNew_occupancy, insertNew_table, insertNew_config]
  exact h.add.perm (tableSlots_insertRecord _ r s.table)

/-- One claim per record that a run enrols (R67). -/
theorem runFrom {s : State} (h : s.Counted) (run : RunRequest) (left i : Nat) : (State.runFrom run left i s).1.Counted :=
  State.runFrom_of (P := State.Counted) (fun _ _ r hv _ => hv.insertNew r) left i s h

theorem applyAmend {s : State} (h : s.Counted) (w : s.TableLaw) {r : MarkRecord} (hr : r ∈ s.table) (a : Amendment) :
    (s.applyAmend r a).Counted := by
  have replaced : (s.replaced r a).Counted := h.replaceRecord w hr (by rw [MarkRecord.amendedAtOnce_rest])
  rw [State.applyAmend_eq, reportAmended_rest]
  exact replaced

theorem removeRecord {s : State} (h : s.Counted) (w : s.TableLaw) {r : MarkRecord} (hr : r ∈ s.table) :
    (s.removeRecord r).Counted := by
  have dropped : (s.dropped r).Counted := CountsOf.removeRecord w hr h
  rw [State.removeRecord_rest]
  exact dropped

/-- A change of records that moves no window. -/
theorem update {s : State} (h : s.Counted) (mark : Nat) {f : MarkRecord → MarkRecord}
    (kept : ∀ r : MarkRecord, (f r).slots s.config.shift = r.slots s.config.shift) :
    ({ s with table := updateMark s.table mark f } : State).Counted := by
  rw [State.Counted, tableSlots_congr (map_slots_updateMark kept)]
  exact h

theorem completeHostOp {s : State} (h : s.Counted) (w : s.TableLaw) (o : s.OccupancyLaw) {op : HostOp}
    (ho : s.tableOp = some (.host op)) : (s.completeHostOp op).1.Counted := by
  cases op
  case enrol r => exact h.insertNew r
  case enrolRun run => exact h.runFrom run _ _
  case amend mark a =>
    simp only [State.completeHostOp]
    split
    · exact h
    next found =>
      split
      · exact h.applyAmend w (findMark_mem found).1 a
      · exact h.update mark fun _ => rfl
  case retire mark =>
    simp only [State.completeHostOp]
    split
    · exact h
    next found =>
      split
      · exact h.removeRecord w (findMark_mem found).1
      · exact h.update mark fun _ => rfl
  case reopen mark =>
    simp only [State.completeHostOp]
    split
    · exact h
    next r _ =>
      split
      next l _ =>
        have reopened := h.update r.mark (f := fun r => { r with kind := .line l.reopened, state := .enrolled }) fun _ => rfl
        exact reopened.congr rfl rfl rfl
      · exact h
      · exact h
  case lookup mark =>
    simp only [State.completeHostOp]
    split <;> exact h
  case setMatch m =>
    have empty : s.table = [] := o.settingMatch m ho
    rw [State.Counted, empty] at h
    change CountsOf s.occupancy (tableSlots m.shift s.table)
    rw [empty]
    exact h
  all_goals exact h

/-- A sweep whose steps leave every record at its nominal (R109, R110). -/
theorem sweepRecords {s : State} (h : s.Counted) {resolve : MarkRecord → MarkRecord}
    (stays : ∀ r : MarkRecord, r.StaysWithin (resolve r)) : (s.sweepRecords resolve).Counted := by
  have nominal (r : MarkRecord) : (r.amended resolve).nominal = r.nominal := ((stays r).trans (.applyStaged _)).nominal
  have swept := CountsOf.sweep (done := []) nominal (by simpa [State.Counted] using h)
  rw [sweepRecords_rest]
  simpa [State.Counted] using swept

end State.Counted

/-! ### The completions -/

namespace State.KeepsSightingLaws

theorem finishHostOp {s : State} {op : HostOp} (ho : s.tableOp = some (.host op)) : s.KeepsSightingLaws (s.finishHostOp op) := by
  have completed (status : Status) (bytes : List Byte) : s.KeepsSightingLaws
      { (s.completeHostOp op).1.handOver status bytes with tableOp := none } := by
    have handed := State.MovesNoClaim.handOver (s.completeHostOp op).1 status bytes
    refine ⟨fun q => ?_, fun w o => ?_⟩
    · exact (handed.queue (q.congr (completeHostOp_queueView s op))).withOp (by simp) (by simp)
    · have counted := State.Counted.completeHostOp o.counts w o ho
      exact (counted.congr (by simp) (by simp) (by simp)).law (by simp)
  exact (completed _ _).trans_moves (.arbitrate _)

theorem finishMatch (s : State) (m : MatchUnderWay) :
    s.KeepsSightingLaws ({ s.matchSighting m with tableOp := none } : State).arbitrate :=
  of_moves (((State.MovesNoClaim.matchSighting s m).trans (.free _)).trans (.arbitrate _))

/-- The sweep that ends a pass (R108 to R113). -/
theorem finishSweep {s : State} (sweeping : s.tableOp = some .closeSweep ∨ s.tableOp = some .abortSweep)
    {resolve : MarkRecord → MarkRecord} (stays : ∀ r : MarkRecord, r.StaysWithin (resolve r)) (missed : Nat) :
    s.KeepsSightingLaws ((s.sweepRecords resolve).endPass missed) := by
  have view := sweepRecords_queueView s resolve
  have op := State.tableOp_of_queueView view
  refine ⟨fun q => (q.congr view).endPass (by rwa [op]) missed, fun _ o => ?_⟩
  exact (State.Counted.sweepRecords o.counts stays).endPass missed

/-! ### Every command -/

/-- After a reset no sighting waits, no pass is open, the table is empty and every count is 0 (R62, R74, R116). -/
theorem of_reset (s : State) {t : State} (view : t.queueView = State.reset.queueView) (table : t.table = [])
    (occupancy : t.occupancy = Vector.replicate 64 0) : s.KeepsSightingLaws t := by
  have reset : State.reset.QueueLaw := by constructor <;> simp [State.reset]
  have free : t.tableOp = none := State.tableOp_of_queueView view
  have counted : t.Counted := fun k => by simp [table, occupancy, tableSlots]
  exact ⟨fun _ => reset.congr view, fun _ _ => counted.law (by simp [free])⟩

/-- A request keeps the laws where its owner's execution does. -/
theorem request {s : State} {len : Nat} {params : List Byte} {owner : State → State}
    (h : ∀ u : State, u.KeepsSightingLaws (owner u)) : s.KeepsSightingLaws (s.request len params owner) := by
  have taken : s.MovesNoClaim (s.addressedForWrite .taken) := .of_view rfl rfl rfl
  exact s.request_of len params owner (refl s) (of_moves (taken.trans (.reject _ _)))
    (of_same (.addressedForWrite s .taken) taken (h _))

/-- A request whose owner's execution moves no claim. -/
theorem plainRequest {s : State} {len : Nat} {params : List Byte} {owner : State → State}
    (h : ∀ u : State, u.MovesNoClaim (owner u)) : s.KeepsSightingLaws (s.request len params owner) := request fun u => of_moves (h u)

theorem whileOperating {s : State} {f : State → State} (h : s.KeepsSightingLaws (f s)) : s.KeepsSightingLaws (s.whileOperating f) :=
  s.whileOperating_of f (refl s) h

/-- A command that moves no claim where it is carried out. -/
theorem plainOperating {s : State} {f : State → State} (h : s.MovesNoClaim (f s)) : s.KeepsSightingLaws (s.whileOperating f) :=
  whileOperating (of_moves h)

end State.KeepsSightingLaws

open State.KeepsSightingLaws in
/-- Every command keeps the law of the queue and that of the occupancy. -/
theorem exec_keepsSightingLaws (c : Instr) (s t : State) (h : exec c s = .next t) : s.KeepsSightingLaws t := by
  have same := State.MovesNoClaim.refl s
  cases c <;> obtain rfl := Host.Outcome.next.inj h
  case sampleEvent k increment amplitude first => exact plainOperating (.ite same (.sampleChannel s _ _ _ _))
  case referenceAbsenceTimeout first => exact plainOperating (.ite (.referenceLost s first) same)
  case referenceEdge => exact plainOperating (.of_view rfl rfl rfl)
  case leadingEdge i phase => exact plainOperating (.leadingEdge s i _)
  case trailingEdge i phase => exact plainOperating (.trailingEdge s i _)
  case matchCompletion =>
    refine whileOperating ?_
    split
    · exact finishMatch s _
    all_goals exact refl s
  case datumOffsetClaim =>
    refine plainOperating ?_
    split
    · split
      · exact .makeClaim s _ _
      · exact same
    all_goals exact same
  case armSweepCompletion =>
    refine plainOperating ?_
    split
    next ho => exact .finishArmSweep s ho
    next => exact same
  case closeSweepCompletion =>
    refine whileOperating ?_
    split
    next ho => exact finishSweep (.inl ho) (fun r => .resolveClose _ r) _
    next => exact refl s
  case abortSweepCompletion =>
    refine whileOperating ?_
    split
    next ho => exact finishSweep (.inr ho) (fun r => .resolveAbort r) _
    next => exact refl s
  case tableOperationCompletion =>
    refine whileOperating ?_
    split
    next ho => exact finishHostOp ho
    all_goals exact refl s
  case passTimerExpiry =>
    have stopped : s.MovesNoClaim { s with passTimer := false } := .of_queue (fun q => q.stopTimer) rfl rfl rfl rfl
    exact plainOperating (.ite ((stopped.trans (.abortLivePass _ _)).trans (.arbitrate _)) same)
  case setAxis params first => exact plainRequest fun u => .setAxisRequest u _ _
  case trackAxis params => exact plainRequest fun u => .trackRequest u _
  case restartAxis params => exact plainRequest fun u => .restartRequest u _
  case zeroAxis params => exact plainRequest fun u => .zeroRequest u _ _
  case readAxes params => exact plainRequest fun u => .answer u _ _
  case setMatch params => exact request fun u => setMatchRequest u _
  case setLine params => exact plainRequest fun u => .setLineRequest u _
  case readLines params => exact plainRequest fun u => .answer u _ _
  case enrol params => exact request fun u => hostTableGuarded (fun _ _ h => judgeEnrol_fits h) fun v => .reject v _
  case enrolRun params => exact request fun u => hostTableGuarded (fun _ _ h => judgeRun_fits h) fun v => .answer v _ _
  case amend params => exact request fun u => hostTableGuarded (fun w _ h => judgeAmend_fits w h) fun v => .reject v _
  case retire params => exact request fun u => hostTableGuarded (fun _ _ h => judgeRetire_fits h) fun v => .reject v _
  case reopen params => exact request fun u => hostTable (judgeReopen_fits u _)
  case lookup params => exact request fun u => hostTable (judgeLookup_fits u _)
  case readRange params => exact request fun u => hostTable trivial
  case beginPass params => exact plainRequest fun u => .beginPassRequest u _
  case abortPass params => exact plainRequest fun u => .abortPassRequest u _
  case readPass params => exact plainRequest fun u => .answer u _ _
  case readGroups params => exact request fun u => hostTable trivial
  case protect params => exact plainRequest fun u => .of_view rfl rfl rfl
  case unprotect params => exact plainRequest fun u => .unprotectRequest u _
  case readProtect params => exact plainRequest fun u => .answer u _ _
  case readEvents params => exact plainRequest fun u => .readEventsRequest u _
  case clearEvents params => exact plainRequest fun u => .clearEventsRequest u _
  case setNotice params => exact plainRequest fun u => .setNoticeRequest u _ _
  case identify params => exact plainRequest fun u => .of_view rfl rfl rfl
  case reset params => exact plainRequest fun u => .resetRequest u _
  case unknownRequest code params => exact plainRequest fun u => .reject u _
  case linkFault cause => exact of_moves (.ite same (.of_view rfl rfl rfl))
  case linkStart address => exact plainOperating (.linkStart s _)
  case linkStop straps =>
    have stopped : s.MovesNoClaim s.stopExchange := .of_view rfl rfl rfl
    refine whileOperating ?_
    unfold State.linkStop
    split
    · exact of_reset s rfl rfl rfl
    · exact of_moves (.ite (stopped.trans (.interfaceReset _)) stopped)
  case responseRead extent => exact plainOperating (.addressedForRead s _)
  case poll extent => exact plainOperating (.addressedForRead s _)
  case noticeStart rival => exact plainOperating (.ite (.startNotice s _) same)
  case noticeWithdraw => exact plainOperating (.ite (.of_view rfl rfl rfl) same)
  case powerOnReset => exact of_reset s rfl rfl rfl
  case powerOnHoldEnd straps => exact of_moves (.ite (.of_view rfl rfl rfl) same)
  case pinResetAssert =>
    split
    · exact of_moves (.of_view rfl rfl rfl)
    · exact of_reset s rfl rfl rfl
  case pinResetRelease straps =>
    exact of_moves (.ite same (.ite (.of_view rfl rfl rfl) (.of_view rfl rfl rfl)))
  case supplyFailure => exact of_moves (.of_view rfl rfl rfl)

/-- A step keeps both laws: it carries out the front command on the state with the queue's rest, or idles. -/
theorem step_keepsSightingLaws (s t : State) (h : step s = .next t) : s.KeepsSightingLaws t := by
  unfold step at h
  split at h
  · obtain rfl := Host.Outcome.next.inj h
    exact .refl s
  next c rest _ =>
    exact .of_same (t := { s with pending := rest }) ⟨rfl, rfl, rfl⟩ (.of_view rfl rfl rfl) (exec_keepsSightingLaws c _ t h)

/-- Settles O53: sightings join the queue in a live pass alone, and the sweep that ends the pass finds none. -/
theorem queueLawIsKept : Obligations.QueueLawIsKept := fun s t q h => (step_keepsSightingLaws s t h).queue q

/-- Settles O56: the claims move where windows come, change and go, and nowhere else. -/
theorem occupancyLawIsKept : Obligations.OccupancyLawIsKept := fun s t w o h => (step_keepsSightingLaws s t h).occupancy w o

end Sys2Proof.Machine
end

