-- ==== Sys2Proof/Proofs/LivePass.lean ====
section
/-! SUPPORT. The measuring axis while a pass is live: what opens no pass and touches no channel, what the events of a channel make of the
pass that its axis serves, and the proof of LivePassLawIsKept (R22, R94, R95, R103, R105). -/

namespace Sys2Proof.Machine

/-! ### What opens no pass -/

/-- All of a state that the law of a live pass speaks of. -/
def State.passView (s : State) : Vector Channel 6 × MatchConfig × PassRecord × Option TableOp :=
  (s.channels, s.config, s.pass, s.tableOp)

/-- Channels, match configuration and terms stand; the pass is live only where it was, and IDLE where it was; and no SET MATCH has
begun. -/
structure State.OpensNoPass (s t : State) : Prop where
  channels : t.channels = s.channels
  config : t.config = s.config
  terms : t.pass.terms = s.pass.terms
  live : t.pass.state.live = true → s.pass.state.live = true
  idle : s.pass.state = .idle → t.pass.state = .idle
  settingMatch : ∀ m, t.tableOp = some (.host (.setMatch m)) → s.tableOp = some (.host (.setMatch m))

namespace State.OpensNoPass

theorem of_view {s t : State} (same : t.passView = s.passView) : s.OpensNoPass t := by
  simp only [State.passView, Prod.mk.injEq] at same
  obtain ⟨channels, config, pass, op⟩ := same
  exact ⟨channels, config, by rw [pass], by rw [pass]; exact id, by rw [pass]; exact id, by rw [op]; exact fun _ => id⟩

theorem refl (s : State) : s.OpensNoPass s := of_view rfl

theorem trans {s t u : State} (h : s.OpensNoPass t) (k : t.OpensNoPass u) : s.OpensNoPass u where
  channels := k.channels.trans h.channels
  config := k.config.trans h.config
  terms := k.terms.trans h.terms
  live := h.live ∘ k.live
  idle := k.idle ∘ h.idle
  settingMatch m := h.settingMatch m ∘ k.settingMatch m

theorem ite {s t u : State} {p : Prop} [Decidable p] (ht : s.OpensNoPass t) (hu : s.OpensNoPass u) :
    s.OpensNoPass (if p then t else u) := by
  split
  · exact ht
  · exact hu

/-! ### The shared operations -/

theorem answer (s : State) (status : Status) (bytes : List Byte) : s.OpensNoPass (s.answer status bytes) := of_view rfl

theorem reject (s : State) (code : RejectCode) : s.OpensNoPass (s.reject code) := of_view rfl

theorem setLine (s : State) (i : LineId) (l : LineInput) : s.OpensNoPass (s.setLine i l) := of_view (by simp [State.passView])

theorem putGuarded (s : State) (i : LineId) (g : LineInput × Bool) : s.OpensNoPass (s.putGuarded i g) :=
  of_view (by simp [State.passView])

theorem handOver (s : State) (status : Status) (bytes : List Byte) : s.OpensNoPass (s.handOver status bytes) :=
  of_view (by simp [State.passView])

theorem formLine (s : State) (i : LineId) : s.OpensNoPass (s.formLine i) := of_view (by simp [State.passView])

theorem formSightings (s : State) : s.OpensNoPass s.formSightings := of_view (by simp [State.passView])

/-- The operation in progress is over. -/
theorem free (s : State) : s.OpensNoPass { s with tableOp := none } := ⟨rfl, rfl, rfl, id, id, fun _ h => nomatch h⟩

/-- The arbiter takes up sightings and sweeps alone. -/
theorem arbitrate (s : State) : s.OpensNoPass s.arbitrate := by
  refine ⟨by simp, by simp, by simp, by simp, by simp, fun m hm => ?_⟩
  obtain e | ⟨-, -, e⟩ | ⟨-, -, x, rest, -, e⟩ | ⟨-, -, -, e⟩ := s.arbitrate_cases <;> rw [e] at hm
  · exact hm
  all_goals cases hm

/-- A live pass ends. -/
theorem of_ended {s t : State} (was : s.pass.state.live = true) (channels : t.channels = s.channels) (config : t.config = s.config)
    (terms : t.pass.terms = s.pass.terms) (op : t.tableOp = s.tableOp) : s.OpensNoPass t :=
  ⟨channels, config, terms, fun _ => was, fun h => absurd h (Undisturbed.live_open was), fun _ h => op.symm.trans h⟩

theorem abortLivePass (s : State) (cause : AbortCause) : s.OpensNoPass (s.abortLivePass cause) := by
  by_cases live : s.pass.state.live = true
  · exact of_ended live (by simp) (by simp) (by rw [s.abortLivePass_live cause live]) (by simp)
  · rw [s.abortLivePass_not_live cause (by simpa using live)]
    exact refl s

theorem closeLivePass (s : State) : s.OpensNoPass s.closeLivePass := by
  by_cases live : s.pass.state.live = true
  · exact of_ended live (by simp) (by simp) (by rw [s.closeLivePass_live live]) (by simp)
  · rw [s.closeLivePass_not_live (by simpa using live)]
    exact refl s

theorem passSees (s : State) (k : ChannelIx) (left : Bool) (p : Position) : s.OpensNoPass (s.passSees k left p) := by
  have crosses : s.OpensNoPass (s.testCrossing p) := by
    unfold State.testCrossing
    split
    · exact refl s
    · refine ite ?_ (refl s)
      split
      · exact closeLivePass s
      · exact abortLivePass s _
  exact ite (ite (abortLivePass s _) crosses) (refl s)

theorem settleEvent (s : State) (first : MeetOrder) {ends : State → State} (h : ∀ v : State, v.OpensNoPass (ends v)) :
    s.OpensNoPass (s.settleEvent first ends) := by
  cases first
  case formationFirst => exact ((formSightings s).trans (h _)).trans (arbitrate _)
  case passFirst => exact ((h s).trans (formSightings _)).trans (arbitrate _)
  case passBetween => exact (((formLine s _).trans (h _)).trans (formLine _ _)).trans (arbitrate _)

/-! ### Edges -/

theorem leadingEdge (s : State) (i : LineId) (phase : Nat) : s.OpensNoPass (s.leadingEdge i phase) := by
  unfold State.leadingEdge
  simp only
  split
  · exact refl s
  · exact refl s
  · exact ite (putGuarded s _ _) (setLine s _ _)

theorem trailingEdge (s : State) (i : LineId) (phase : Nat) : s.OpensNoPass (s.trailingEdge i phase) := by
  have closed (first : LineId) (l : LineInput) :
      s.OpensNoPass ({ s with earlierClosing := first }.setLine i l).formSightings.arbitrate :=
    (of_view (by simp [State.passView])).trans (arbitrate _)
  unfold State.trailingEdge
  simp only
  split
  · exact setLine s _ _
  · exact setLine s _ _
  · exact ite ((setLine s _ _).trans (of_view rfl)) (closed _ _)

/-! ### Requests and the link -/

theorem setLineRequest (s : State) (f : SetLineFields) : s.OpensNoPass (s.setLineRequest f) := by
  unfold State.setLineRequest
  split
  · exact of_view rfl
  · exact ite (of_view rfl) ((setLine s _ _).trans (of_view rfl))

theorem abortPassRequest (s : State) (number : Nat) : s.OpensNoPass (s.abortPassRequest number) :=
  ite (of_view rfl) (ite (of_view rfl) (((abortLivePass s _).trans (arbitrate _)).trans (of_view rfl)))

theorem readEventsRequest (s : State) (option : Nat) : s.OpensNoPass (s.readEventsRequest option) := by
  unfold State.readEventsRequest
  split <;> exact of_view rfl

theorem clearEventsRequest (s : State) (word : Nat) : s.OpensNoPass (s.clearEventsRequest word) := by
  unfold State.clearEventsRequest
  split <;> exact of_view rfl

theorem setNoticeRequest (s : State) (setting word : Nat) : s.OpensNoPass (s.setNoticeRequest setting word) := by
  unfold State.setNoticeRequest
  split <;> exact of_view rfl

theorem unprotectRequest (s : State) (set : BitVec 32) : s.OpensNoPass (s.unprotectRequest set) := by
  unfold State.unprotectRequest
  split <;> exact of_view rfl

theorem resetRequest (s : State) (scope : Nat) : s.OpensNoPass (s.resetRequest scope) := by
  unfold State.resetRequest
  split <;> exact of_view rfl

theorem meetRival (s : State) (rival : Byte) : s.OpensNoPass (s.meetRival rival) :=
  ite (ite (of_view rfl) (of_view rfl)) (refl s)

theorem linkStart (s : State) (address : Option Byte) : s.OpensNoPass (s.linkStart address) := by
  unfold State.linkStart
  split
  · exact refl s
  · exact refl s
  · exact meetRival s _
  · exact of_view rfl
  · exact ite (of_view rfl) (ite (of_view rfl) (of_view rfl))

theorem addressedForRead (s : State) (extent : ReadExtent) : s.OpensNoPass (s.addressedForRead extent) := by
  have response : s.OpensNoPass (s.readResponse extent) := by
    unfold State.readResponse
    split <;> exact of_view rfl
  exact ite (of_view rfl) (ite (of_view rfl) response)

theorem startNotice (s : State) (rival : Option Byte) : s.OpensNoPass (s.startNotice rival) := by
  have started : s.OpensNoPass (s.startExchange .starting) := of_view rfl
  unfold State.startNotice
  split
  · exact started
  · exact started.trans (meetRival _ _)

theorem interfaceReset (s : State) : s.OpensNoPass s.interfaceReset := by
  have cleared (v : State) : v.OpensNoPass { v with
      queue := []
      line1 := v.line1.dropLines
      line2 := v.line2.dropLines
      events := v.events.interfaceReset v.downMask v.tableFull } := of_view rfl
  exact ((abortLivePass s .reset).trans (cleared _)).trans (arbitrate _)

/-! ### Matching and the sweeps -/

theorem reportOutcome (s : State) (o : MatchOutcome) : s.OpensNoPass (s.reportOutcome o) := by
  cases o
  case take => exact ⟨rfl, rfl, rfl, id, id, fun _ => id⟩
  all_goals exact of_view rfl

theorem matchMeasure (s : State) (x : Sighting) : s.OpensNoPass (s.matchMeasure x) := by
  have changed (mark : Nat) (f : KindPart → KindPart) : s.OpensNoPass (s.updateKind mark f) := of_view rfl
  unfold State.matchMeasure
  split
  · exact reportOutcome s _
  · exact (changed _ _).trans (reportOutcome _ _)

theorem finishClaim (s : State) (report : ClaimReport) : s.OpensNoPass (s.finishClaim report) := by
  cases report with
  | refused => exact of_view rfl
  | applied =>
    have taken : s.OpensNoPass (({ s with pass := { s.pass with taken := s.pass.taken + 1 } } : State).emptyQueue true) :=
      ⟨rfl, rfl, rfl, id, id, fun _ => id⟩
    exact taken.trans (ite (closeLivePass _) (refl _))

/-- The arm sweep makes an ARMING pass RUNNING: both are live (R99). -/
theorem finishArmSweep (s : State) : s.OpensNoPass s.finishArmSweep := by
  have armed : s.OpensNoPass s.armRecords := by
    unfold State.armRecords
    split
    · exact refl s
    · exact ⟨rfl, rfl, rfl, id, id, fun _ => id⟩
  have arrives (v : State) : v.OpensNoPass v.afterArming := by
    unfold State.afterArming
    split
    next arming => exact of_ended (by rw [arming]; rfl) rfl rfl rfl rfl
    all_goals exact of_view rfl
  exact (((armed.trans (handOver _ _ _)).trans (arrives _)).trans (free _)).trans (arbitrate _)

/-- The sweep that ends a pass. -/
theorem finishSweep (s : State) (resolve : MarkRecord → MarkRecord) (missed : Nat) :
    s.OpensNoPass ((s.sweepRecords resolve).endPass missed) := by
  have swept : s.OpensNoPass (s.sweepRecords resolve) := by
    rw [sweepRecords_rest]
    exact of_view rfl
  have ended (v : State) : v.OpensNoPass
      (({ v with pass := { v.pass with state := .idle, missed := missed }, tableOp := none } : State).raise .passEnd) :=
    ⟨rfl, rfl, rfl, fun h => (nomatch h), fun _ => rfl, fun _ h => (nomatch h)⟩
  exact (swept.trans (ended _)).trans (arbitrate _)

end State.OpensNoPass

/-! ### The channel of the measuring axis -/

/-- A channel that tracks goes on tracking, and referenced where it was. -/
structure Channel.Serves (c c' : Channel) : Prop where
  tracking : c.state = .tracking → c'.state = .tracking
  referenced : c.state = .tracking → c.referenced = true → c'.referenced = true

theorem Channel.Serves.refl (c : Channel) : c.Serves c := ⟨id, fun _ => id⟩

/-- A sample event that does not lose the lock (R2, R8). -/
theorem Channel.Serves.sample {c : Channel} {increment : Int} {amplitude : Nat}
    (stays : ¬(c.state = .tracking ∧ (c.sample increment amplitude).1.state ≠ .tracking)) :
    c.Serves (c.sample increment amplitude).1 := by
  refine ⟨fun tracks => by_contra fun lost => stays ⟨tracks, lost⟩, fun tracks referenced => ?_⟩
  by_cases holds : c.loseLevel ≤ amplitude ∧ increment.natAbs ≤ c.rateLimit
  · rw [Channel.sample_tracking tracks holds.1 holds.2]
    exact referenced
  · refine absurd ⟨tracks, ?_⟩ stays
    rw [Channel.sample_loses tracks (by omega)]
    exact fun h => nomatch h

theorem Channel.Serves.configured (c : Channel) (f : SetAxisFields) : c.Serves ((c.configure f).applyEnable true) := by
  have kept (tracks : c.state = .tracking) : (c.configure f).applyEnable true = c.configure f := by
    have on : (c.configure f).state ≠ .off := fun off => nomatch tracks.symm.trans off
    rw [Channel.applyEnable, if_pos rfl, if_neg on]
  exact ⟨fun tracks => by rw [kept tracks]; exact tracks, fun tracks referenced => by rw [kept tracks]; exact referenced⟩

theorem Channel.Serves.enterTracking (c : Channel) : c.Serves c.enterTracking := ⟨fun _ => rfl, fun _ => id⟩

theorem Channel.Serves.zeroAt (c : Channel) (value : Position) : c.Serves (c.zeroAt value) := ⟨id, fun _ _ => rfl⟩

theorem Channel.Serves.claim (c : Channel) (shift : Position) : c.Serves (c.claim shift).1 := by
  unfold Channel.claim
  split
  next tracks => exact ⟨fun _ => tracks, fun _ _ => rfl⟩
  next => exact .refl c

theorem State.abortLivePass_ended (s : State) (cause : AbortCause) : (s.abortLivePass cause).pass.state.live = false := by
  by_cases live : s.pass.state.live = true
  · rw [s.abortLivePass_live cause live]
    rfl
  · rw [s.abortLivePass_not_live cause (by simpa using live)]
    simpa using live

/-- Wherever the command places an abort among the formations, no pass is live after the event. -/
theorem State.settleEvent_ended {u : State} {cause : AbortCause} (first : MeetOrder) {ends : State → State}
    (aborts : ∀ v : State, v.config = u.config → ends v = v.abortLivePass cause) :
    (u.settleEvent first ends).pass.state.live ≠ true := by
  obtain ⟨v, w, before, after, settles⟩ := u.settleEvent_gathers first ends
  rw [settles, State.arbitrate_pass, after.pass, aborts v before.config, v.abortLivePass_ended]
  exact Bool.false_ne_true

theorem State.passSees_lost (s : State) {k : ChannelIx} {left : Bool} (axis : k = s.config.axis) (lost : left = true) (p : Position) :
    s.passSees k left p = s.abortLivePass .axis := by
  rw [State.passSees, if_pos axis, if_pos lost]

/-! ### The law from one state to another -/

namespace State.LivePassLaw

/-- The channels may have moved first, while match configuration, pass and operation stood, and then opened no pass: what the law
then asks is that the measuring axis of a pass still live serves it (R105). -/
theorem of_event {s u t : State} (law : s.LivePassLaw) (same : u.passView = (u.channels, s.config, s.pass, s.tableOp))
    (ends : u.OpensNoPass t) (serves : t.pass.state.live = true → s.measuringAxis.Serves u.measuringAxis) : t.LivePassLaw := by
  simp only [State.passView, Prod.mk.injEq, true_and] at same
  obtain ⟨config, pass, op⟩ := same
  have axis : t.measuringAxis = u.measuringAxis := by
    rw [State.measuringAxis, ends.config, State.channel_eq_of_channels ends.channels]
    rfl
  have was (live : t.pass.state.live = true) : s.pass.state.live = true := pass ▸ ends.live live
  refine ⟨fun live => ?_, fun live measure => ?_, fun m hm => ?_⟩
  · rw [axis]
    exact (serves live).tracking (law.tracking (was live))
  · rw [axis]
    rw [ends.terms, pass] at measure
    exact (serves live).referenced (law.tracking (was live)) (law.referenced (was live) measure)
  · rw [ends.config, config]
    refine (law.settingMatch m (op.symm.trans (ends.settingMatch m hm))).imp_right fun idle => ends.idle ?_
    rw [pass]
    exact idle

theorem of_opensNoPass {s t : State} (law : s.LivePassLaw) (h : s.OpensNoPass t) : t.LivePassLaw :=
  law.of_event rfl h fun _ => .refl _

/-- One channel moves; what counts of it is whether it is the measuring axis. -/
theorem of_channel {s u t : State} {k : ChannelIx} {c : Channel} (law : s.LivePassLaw)
    (same : u.passView = (s.channels.set k c, s.config, s.pass, s.tableOp)) (ends : u.OpensNoPass t)
    (serves : t.pass.state.live = true → k = s.config.axis → (s.channel k).Serves c) : t.LivePassLaw := by
  have channels : u.channels = s.channels.set k c := congrArg Prod.fst same
  have config : u.config = s.config := congrArg (·.2.1) same
  refine law.of_event (by rw [same, channels]) ends fun live => ?_
  rw [State.measuringAxis, State.measuringAxis, config]
  exact State.channel_set_cases (P := fun j c => j = s.config.axis → (s.channel j).Serves c) channels (serves live)
    (fun j _ _ => .refl _) _ rfl

/-- Where no pass is live and no SET MATCH in progress, the law asks nothing. -/
theorem of_ended {t : State} (ended : t.pass.state.live = false) (noSetMatch : ∀ m, t.tableOp ≠ some (.host (.setMatch m))) :
    t.LivePassLaw :=
  ⟨fun live => (nomatch live.symm.trans ended), fun live => (nomatch live.symm.trans ended), fun m hm => absurd hm (noSetMatch m)⟩

end State.LivePassLaw

/-- The law of a live pass is kept from one state to another. -/
def State.KeepsLivePass (s t : State) : Prop := s.LivePassLaw → t.LivePassLaw

namespace State.KeepsLivePass

theorem opensNoPass {s t : State} (h : s.OpensNoPass t) : s.KeepsLivePass t := fun law => law.of_opensNoPass h

theorem refl (s : State) : s.KeepsLivePass s := id

theorem then_opensNoPass {s t u : State} (h : s.KeepsLivePass t) (k : t.OpensNoPass u) : s.KeepsLivePass u :=
  fun law => (h law).of_opensNoPass k

/-- A channel is stored; what counts of it is whether it is the measuring axis. -/
theorem putChannel {s : State} {k : ChannelIx} {c : Channel} (serves : k = s.config.axis → (s.channel k).Serves c) :
    s.KeepsLivePass (s.putChannel k c) := fun law => law.of_channel rfl (.refl _) fun _ => serves

/-! ### The events of a channel -/

/-- The loss of the lock of a live pass's axis aborts the pass (R103, R105). -/
theorem sampleChannel (s : State) (k : ChannelIx) (increment : Int) (amplitude : Nat) (first : MeetOrder) :
    s.KeepsLivePass (s.sampleChannel k increment amplitude first) := by
  obtain ⟨u, tells, channels, -, settles⟩ := s.sampleChannel_eq k increment amplitude first
  have same : u.passView = (s.channels.set k ((s.channel k).sample increment amplitude).1, s.config, s.pass, s.tableOp) := by
    rw [State.passView, channels, tells.rest]
  have config : u.config = s.config := congrArg (·.2.1) same
  rw [settles]
  refine fun law => law.of_channel same (.settleEvent u first fun v => .passSees v _ _ _) fun live axis => .sample fun left => ?_
  exact u.settleEvent_ended first (fun v same => v.passSees_lost (by rw [same, config, axis]) (decide_eq_true left) _) live

/-- The loss of the reference aborts a pass whose axis tracks (R15, R103). -/
theorem referenceLost (s : State) (first : MeetOrder) : s.KeepsLivePass (s.referenceLost first) := by
  obtain ⟨u, tells, -, -, -, -, settles⟩ := s.referenceLost_eq first
  have same : u.passView = (u.channels, s.config, s.pass, s.tableOp) := by
    rw [State.passView, tells.rest]
  have ends : u.OpensNoPass (s.referenceLost first) := by
    rw [settles]
    exact .settleEvent u first fun v => .ite (.abortLivePass v _) (.refl v)
  refine fun law => law.of_event same ends fun live => ?_
  have was : s.pass.state.live = true := (congrArg (·.2.2.1) same : u.pass = s.pass) ▸ ends.live live
  rw [settles] at live
  exact absurd live (u.settleEvent_ended first fun v _ => v.abortsIf_of (law.tracking was) .axis)

/-- A measuring axis that enters OFF aborts its pass (R4, R103). -/
theorem configureAxis (s : State) (k : ChannelIx) (f : SetAxisFields) (first : MeetOrder) :
    s.KeepsLivePass (s.configureAxis k f first) := by
  cases enable : f.enable with
  | true =>
    rw [s.configureAxis_enable k enable first, enable]
    exact putChannel fun _ => .configured _ f
  | false =>
    obtain ⟨u, tells, channels, -, -, -, settles⟩ := s.configureAxis_disable k enable first
    have same : u.passView = (s.channels.set k ((s.channel k).configure f).enterOff, s.config, s.pass, s.tableOp) := by
      rw [State.passView, channels, tells.rest]
    have ends : u.OpensNoPass (s.configureAxis k f first) := by
      rw [settles]
      exact .settleEvent u first fun v => .ite (.abortLivePass v _) (.refl v)
    refine fun law => law.of_channel same ends fun live axis => ?_
    have was : s.pass.state.live = true := (congrArg (·.2.2.1) same : u.pass = s.pass) ▸ ends.live live
    have tracks : (s.channel k).state = .tracking := axis ▸ law.tracking was
    rw [settles] at live
    exact absurd live (u.settleEvent_ended first fun v _ => v.abortsIf_of (And.intro axis tracks) .axis)

/-! ### Requests of the fringe channels (R7, R10, R13, R17, R22) -/

theorem setAxisRequest (s : State) (f : SetAxisFields) (first : MeetOrder) : s.KeepsLivePass (s.setAxisRequest f first) := by
  unfold State.setAxisRequest
  split
  · exact opensNoPass (.reject s _)
  · split
    · exact opensNoPass (.reject s _)
    · split
      · exact opensNoPass (.reject s _)
      · exact (configureAxis s _ f first).then_opensNoPass (.answer _ _ _)

theorem trackRequest (s : State) (channel : Nat) : s.KeepsLivePass (s.trackRequest channel) := by
  unfold State.trackRequest
  split
  · exact opensNoPass (.reject s _)
  · simp only
    split
    · exact opensNoPass (.reject s _)
    · split
      · exact opensNoPass (.reject s _)
      · exact (putChannel fun _ => .enterTracking _).then_opensNoPass (.answer _ _ _)

theorem restartRequest (s : State) (channel : Nat) : s.KeepsLivePass (s.restartRequest channel) := by
  unfold State.restartRequest
  split
  · exact opensNoPass (.reject s _)
  · simp only
    split
    · exact opensNoPass (.reject s _)
    next k _ lost =>
      have untracked : (s.channel k).state ≠ .tracking := fun tracks => lost (tracks ▸ nofun)
      exact (putChannel fun _ => ⟨fun h => absurd h untracked, fun h => absurd h untracked⟩).then_opensNoPass (.answer _ _ _)

theorem zeroRequest (s : State) (channel : Nat) (value : Position) : s.KeepsLivePass (s.zeroRequest channel value) := by
  unfold State.zeroRequest
  split
  · exact opensNoPass (.reject s _)
  · simp only
    split
    · exact opensNoPass (.reject s _)
    · split
      · exact opensNoPass (.reject s _)
      · exact (putChannel fun _ => .zeroAt _ value).then_opensNoPass (.answer _ _ _)

/-! ### The operations of the host -/

end State.KeepsLivePass

/-! ### The operations of the host -/

/-- The operation stores no match configuration. -/
def HostOp.KeepsMatch : HostOp → Prop
  | .setMatch _ => False
  | _ => True

/-- The operation that a verdict starts, if any, stores no match configuration. -/
def Verdict.KeepsMatch : Verdict → Prop
  | .start op => op.KeepsMatch
  | .shielded _ => True

theorem judgeEnrol_keepsMatch (s : State) (mark : Nat) (nominal : Int) (f : EnrolFields) :
    (s.judgeEnrol mark nominal f).KeepsMatch := by
  unfold State.judgeEnrol
  repeat' split
  all_goals trivial

theorem judgeRun_keepsMatch (s : State) (run : RunRequest) : (s.judgeRun run).KeepsMatch := by
  unfold State.judgeRun
  repeat' split
  all_goals trivial

theorem judgeAmend_keepsMatch (s : State) (f : AmendFields) : (s.judgeAmend f).KeepsMatch := by
  unfold State.judgeAmend
  repeat' split
  all_goals trivial

theorem judgeRetire_keepsMatch (s : State) (mark : Nat) : (s.judgeRetire mark).KeepsMatch := by
  unfold State.judgeRetire
  repeat' split
  all_goals trivial

theorem judgeReopen_keepsMatch (s : State) (mark : Nat) : (s.judgeReopen mark).KeepsMatch := by
  unfold State.judgeReopen
  repeat' split
  all_goals trivial

theorem judgeLookup_keepsMatch (s : State) (mark : Nat) : (s.judgeLookup mark).KeepsMatch := by
  unfold State.judgeLookup
  repeat' split
  all_goals trivial

namespace State.OpensNoPass

theorem startHostOp (s : State) {op : HostOp} (h : op.KeepsMatch) : s.OpensNoPass (s.startHostOp op) := by
  refine ⟨rfl, rfl, rfl, id, id, fun m hm => ?_⟩
  obtain rfl : op = .setMatch m := by simpa [State.startHostOp] using hm
  exact h.elim

theorem hostTable (s : State) {judge : State → HostOp} (h : (judge s).KeepsMatch) : s.OpensNoPass (s.hostTable judge) :=
  ite (startHostOp s h) (reject s _)

theorem hostTableGuarded (s : State) {judge : State → Verdict} {shielded : State → State} (h : (judge s).KeepsMatch)
    (hs : ∀ u : State, u.OpensNoPass (shielded u)) : s.OpensNoPass (s.hostTableGuarded judge shielded) := by
  unfold State.hostTableGuarded
  split
  · split
    next op e => exact startHostOp s (e ▸ h : (Verdict.start op).KeepsMatch)
    next mark _ =>
      have fault : s.OpensNoPass (s.protectionFault mark) := of_view rfl
      exact fault.trans (hs _)
  · exact reject s _

end State.OpensNoPass

/-- Of the operations of the host, SET MATCH alone changes the match configuration (R22). -/
theorem completeHostOp_config (s : State) {op : HostOp} (h : op.KeepsMatch) : (s.completeHostOp op).1.config = s.config := by
  cases op
  case enrol r => exact insertNew_config s r
  case enrolRun run =>
    exact State.runFrom_of (P := fun v => v.config = s.config) (fun v _ r hv _ => (insertNew_config v r).trans hv) _ _ s rfl
  case amend mark a =>
    simp only [State.completeHostOp]
    split
    · rfl
    · split
      · exact reportAmended_config _ _ _
      · rfl
  case retire mark =>
    simp only [State.completeHostOp]
    split
    · rfl
    · split
      · rw [State.removeRecord_rest]
        rfl
      · rfl
  case reopen mark =>
    simp only [State.completeHostOp]
    repeat' split
    all_goals rfl
  case lookup mark =>
    simp only [State.completeHostOp]
    split <;> rfl
  case setMatch m => exact h.elim
  all_goals rfl

theorem State.OpensNoPass.completeHostOp (s : State) {op : HostOp} (h : op.KeepsMatch) :
    s.OpensNoPass (s.completeHostOp op).1 := by
  refine .of_view ?_
  rw [State.passView, (State.Quiet.completeHostOp s op).channels, completeHostOp_config s h, (completeHostOp_pass_queue s op).1,
    State.tableOp_of_queueView (completeHostOp_queueView s op)]
  rfl

/-! ### The checks of BEGIN PASS on the measuring axis and the datum record (R95) -/

section
variable (s : State) (terms : PassTerms)

theorem State.passObstacle_untracked (untracked : s.measuringAxis.state ≠ .tracking) :
    s.passObstacle terms = some .notTracking := if_pos untracked

variable {terms} (tracks : s.measuringAxis.state = .tracking)
include tracks

theorem State.passObstacle_measure (kind : terms.kind = .measure) :
    s.passObstacle terms = if s.measuringAxis.referenced = true then none else some .unreferenced := by
  simp only [State.passObstacle, if_neg (not_not.mpr tracks), kind]

theorem State.passObstacle_no_record {mark : Nat} (kind : terms.kind = .datum mark) (none : findMark s.table mark = none) :
    s.passObstacle terms = some .noRecord := by
  simp only [State.passObstacle, if_neg (not_not.mpr tracks), kind, none]

theorem State.passObstacle_datum {mark : Nat} (kind : terms.kind = .datum mark) {r : MarkRecord}
    (found : findMark s.table mark = some r) {d : DatumPart} (datum : r.kind = .datum d) : s.passObstacle terms = Option.none := by
  simp only [State.passObstacle, if_neg (not_not.mpr tracks), kind, found, datum]

theorem State.passObstacle_no_datum {mark : Nat} (kind : terms.kind = .datum mark) {r : MarkRecord}
    (found : findMark s.table mark = some r) (other : ∀ d, r.kind ≠ .datum d) : s.passObstacle terms = some .range := by
  simp only [State.passObstacle, if_neg (not_not.mpr tracks), kind, found]
  split
  next d datum => exact absurd datum (other d)
  all_goals rfl

end

namespace State.KeepsLivePass

/-- A SET MATCH that names another measuring axis is refused while a pass is open, and so is none in progress then (R22, R105). -/
theorem storesMatch {s : State} {m : MatchConfig} (allowed : s.LivePassLaw → m.axis = s.config.axis ∨ s.pass.state = .idle) :
    s.KeepsLivePass { s with config := m } := by
  intro law
  obtain same | idle := allowed law
  · have axis : ({ s with config := m } : State).measuringAxis = s.measuringAxis := congrArg s.channel same
    refine ⟨fun live => ?_, fun live measure => ?_, fun m' hm => ?_⟩
    · rw [axis]
      exact law.tracking live
    · rw [axis]
      exact law.referenced live measure
    · exact (law.settingMatch m' hm).imp_left fun h => h.trans same.symm
  · have dead (live : s.pass.state.live = true) : s.pass.state ≠ .idle := State.Undisturbed.live_open live
    exact ⟨fun live => absurd idle (dead live), fun live => absurd idle (dead live), fun _ _ => .inr idle⟩

theorem setMatchRequest (s : State) (f : SetMatchFields) : s.KeepsLivePass (s.setMatchRequest f) := by
  unfold State.setMatchRequest
  split
  · exact opensNoPass (.reject s _)
  next m _ =>
    split
    · exact opensNoPass (.reject s _)
    next allowed =>
      have stands : m.axis = s.config.axis ∨ s.pass.state = .idle := by
        by_contra h
        push Not at h
        exact allowed ⟨.inl h.1, h.2⟩
      split
      · exact (storesMatch fun _ => stands).then_opensNoPass (.answer _ _ _)
      · split
        · exact opensNoPass (.reject s _)
        · split
          · exact opensNoPass (.startHostOp s trivial)
          · refine fun law => ⟨law.tracking, law.referenced, fun m' hm => ?_⟩
            obtain rfl : m = m' := by simpa [State.startHostOp] using hm
            exact stands

theorem finishHostOp {s : State} {op : HostOp} (ho : s.tableOp = some (.host op)) : s.KeepsLivePass (s.finishHostOp op) := by
  have completed : s.KeepsLivePass (s.completeHostOp op).1 := by
    by_cases keeps : op.KeepsMatch
    · exact opensNoPass (.completeHostOp s keeps)
    · obtain ⟨m, rfl⟩ : ∃ m, op = .setMatch m := by
        cases op
        case setMatch m => exact ⟨m, rfl⟩
        all_goals exact absurd trivial keeps
      exact storesMatch fun law => law.settingMatch m ho
  exact ((completed.then_opensNoPass (.handOver _ _ _)).then_opensNoPass (.free _)).then_opensNoPass (.arbitrate _)

/-! ### The opening of a pass, and the offset claim -/

/-- BEGIN PASS asks for what the law asks for (R95). -/
theorem beginPassRequest (s : State) (f : BeginPassFields) : s.KeepsLivePass (s.beginPassRequest f) := by
  unfold State.beginPassRequest
  split
  · exact opensNoPass (.reject s _)
  · split
    · exact opensNoPass (.reject s _)
    · split
      · exact opensNoPass (.reject s _)
      next terms _ =>
        split
        · exact opensNoPass (.reject s _)
        next clear =>
          have tracks : s.measuringAxis.state = .tracking :=
            by_contra fun untracked => nomatch clear.symm.trans (s.passObstacle_untracked terms untracked)
          have referenced (measure : terms.kind = .measure) : s.measuringAxis.referenced = true := by
            by_contra unreferenced
            rw [s.passObstacle_measure tracks measure, if_neg unreferenced] at clear
            cases clear
          exact fun _ => ⟨fun _ => tracks, fun _ measure => referenced (Option.some.inj measure), fun _ h => (nomatch h)⟩

theorem makeClaim (s : State) (m : MatchUnderWay) (r : MarkRecord) : s.KeepsLivePass (s.makeClaim m r) := by
  have claimed (m' : MatchUnderWay) : s.KeepsLivePass { s with
      channels := s.channels.set s.config.axis (s.measuringAxis.claim (r.nominal - m.sighting.centre)).1
      tableOp := some (.sightingMatch m') } := fun law =>
    law.of_channel (u := { s with channels := s.channels.set s.config.axis _ }) rfl
      ⟨rfl, rfl, rfl, id, id, fun _ h => (nomatch h)⟩ fun _ _ => .claim _ _
  unfold State.makeClaim
  simp only
  split
  · exact (claimed _).then_opensNoPass (.of_view rfl)
  · exact claimed _

theorem matchSighting (s : State) (m : MatchUnderWay) : s.KeepsLivePass (s.matchSighting m) := by
  unfold State.matchSighting
  split
  · exact opensNoPass (.matchMeasure s _)
  · unfold State.matchDatum
    split
    · exact opensNoPass (.finishClaim s _)
    · exact refl s
    · split
      · exact opensNoPass (.of_view rfl)
      · exact opensNoPass (.of_view rfl)
      · exact (makeClaim s m _).then_opensNoPass (.finishClaim _ _)
      all_goals exact refl s
  · exact refl s

/-! ### Every command -/

/-- After a reset no pass is open and the table unit is free (R62, R116). -/
theorem of_reset (s : State) {t : State} (pass : t.pass = {}) (free : t.tableOp = none) : s.KeepsLivePass t := fun _ =>
  .of_ended (by rw [pass]; rfl) (by simp [free])

/-- A request keeps the law where its owner's execution does. -/
theorem request {s : State} {len : Nat} {params : List Byte} {owner : State → State}
    (h : ∀ u : State, u.KeepsLivePass (owner u)) : s.KeepsLivePass (s.request len params owner) := by
  have taken : s.OpensNoPass (s.addressedForWrite .taken) := .of_view rfl
  exact s.request_of len params owner (refl s) (opensNoPass (taken.trans (.reject _ _)))
    fun law => h _ (law.of_opensNoPass taken)

/-- A request whose owner's execution opens no pass. -/
theorem plainRequest {s : State} {len : Nat} {params : List Byte} {owner : State → State}
    (h : ∀ u : State, u.OpensNoPass (owner u)) : s.KeepsLivePass (s.request len params owner) := request fun u => opensNoPass (h u)

theorem whileOperating {s : State} {f : State → State} (h : s.KeepsLivePass (f s)) : s.KeepsLivePass (s.whileOperating f) :=
  s.whileOperating_of f (refl s) h

/-- A command that opens no pass where it is carried out. -/
theorem plainOperating {s : State} {f : State → State} (h : s.OpensNoPass (f s)) : s.KeepsLivePass (s.whileOperating f) :=
  whileOperating (opensNoPass h)

end State.KeepsLivePass

open State.KeepsLivePass in
/-- Every command keeps the law of a live pass. -/
theorem exec_keepsLivePass (c : Instr) (s t : State) (h : exec c s = .next t) : s.KeepsLivePass t := by
  have same := State.OpensNoPass.refl s
  cases c <;> obtain rfl := Host.Outcome.next.inj h
  case sampleEvent k increment amplitude first =>
    refine whileOperating ?_
    split
    · exact refl s
    · exact sampleChannel s k increment _ first
  case referenceAbsenceTimeout first =>
    refine whileOperating ?_
    split
    · exact referenceLost s first
    · exact refl s
  case referenceEdge => exact plainOperating (.of_view rfl)
  case leadingEdge i phase => exact plainOperating (.leadingEdge s i _)
  case trailingEdge i phase => exact plainOperating (.trailingEdge s i _)
  case matchCompletion =>
    refine whileOperating ?_
    split
    · exact ((matchSighting s _).then_opensNoPass (.free _)).then_opensNoPass (.arbitrate _)
    all_goals exact refl s
  case datumOffsetClaim =>
    refine whileOperating ?_
    split
    · split
      · exact makeClaim s _ _
      · exact refl s
    all_goals exact refl s
  case armSweepCompletion => exact plainOperating (.ite (.finishArmSweep s) same)
  case closeSweepCompletion => exact plainOperating (.ite (.finishSweep s _ _) same)
  case abortSweepCompletion => exact plainOperating (.ite (.finishSweep s _ _) same)
  case tableOperationCompletion =>
    refine whileOperating ?_
    split
    next ho => exact finishHostOp ho
    all_goals exact refl s
  case passTimerExpiry =>
    have stopped : s.OpensNoPass { s with passTimer := false } := .of_view rfl
    exact plainOperating (.ite ((stopped.trans (.abortLivePass _ _)).trans (.arbitrate _)) same)
  case setAxis params first => exact request fun u => setAxisRequest u _ _
  case trackAxis params => exact request fun u => trackRequest u _
  case restartAxis params => exact request fun u => restartRequest u _
  case zeroAxis params => exact request fun u => zeroRequest u _ _
  case readAxes params => exact plainRequest fun u => .answer u _ _
  case setMatch params => exact request fun u => setMatchRequest u _
  case setLine params => exact plainRequest fun u => .setLineRequest u _
  case readLines params => exact plainRequest fun u => .answer u _ _
  case enrol params =>
    exact plainRequest fun u => .hostTableGuarded u (judgeEnrol_keepsMatch _ _ _ _) fun v => .reject v _
  case enrolRun params => exact plainRequest fun u => .hostTableGuarded u (judgeRun_keepsMatch _ _) fun v => .answer v _ _
  case amend params => exact plainRequest fun u => .hostTableGuarded u (judgeAmend_keepsMatch _ _) fun v => .reject v _
  case retire params => exact plainRequest fun u => .hostTableGuarded u (judgeRetire_keepsMatch _ _) fun v => .reject v _
  case reopen params => exact plainRequest fun u => .hostTable u (judgeReopen_keepsMatch _ _)
  case lookup params => exact plainRequest fun u => .hostTable u (judgeLookup_keepsMatch _ _)
  case readRange params => exact plainRequest fun u => .hostTable u trivial
  case beginPass params => exact request fun u => beginPassRequest u _
  case abortPass params => exact plainRequest fun u => .abortPassRequest u _
  case readPass params => exact plainRequest fun u => .answer u _ _
  case readGroups params => exact plainRequest fun u => .hostTable u trivial
  case protect params => exact plainRequest fun u => .of_view rfl
  case unprotect params => exact plainRequest fun u => .unprotectRequest u _
  case readProtect params => exact plainRequest fun u => .answer u _ _
  case readEvents params => exact plainRequest fun u => .readEventsRequest u _
  case clearEvents params => exact plainRequest fun u => .clearEventsRequest u _
  case setNotice params => exact plainRequest fun u => .setNoticeRequest u _ _
  case identify params => exact plainRequest fun u => .of_view rfl
  case reset params => exact plainRequest fun u => .resetRequest u _
  case unknownRequest code params => exact plainRequest fun u => .reject u _
  case linkFault cause => exact opensNoPass (.ite same (.of_view rfl))
  case linkStart address => exact plainOperating (.linkStart s _)
  case linkStop straps =>
    have stopped : s.OpensNoPass s.stopExchange := .of_view rfl
    refine whileOperating ?_
    unfold State.linkStop
    split
    · exact of_reset s rfl rfl
    · exact opensNoPass (.ite (stopped.trans (.interfaceReset _)) stopped)
  case responseRead extent => exact plainOperating (.addressedForRead s _)
  case poll extent => exact plainOperating (.addressedForRead s _)
  case noticeStart rival => exact plainOperating (.ite (.startNotice s _) same)
  case noticeWithdraw => exact plainOperating (.ite (.of_view rfl) same)
  case powerOnReset => exact of_reset s rfl rfl
  case powerOnHoldEnd straps => exact opensNoPass (.ite (.of_view rfl) same)
  case pinResetAssert =>
    split
    · exact opensNoPass (.of_view rfl)
    · exact of_reset s rfl rfl
  case pinResetRelease straps => exact opensNoPass (.ite same (.ite (.of_view rfl) (.of_view rfl)))
  case supplyFailure => exact opensNoPass (.of_view rfl)

/-- Settles O52: a step carries out the front command on the state with the queue's rest, or idles. -/
theorem livePassLawIsKept : Obligations.LivePassLawIsKept := by
  intro s t law h
  unfold step at h
  split at h
  · obtain rfl := Host.Outcome.next.inj h
    exact law
  next c rest _ =>
    have taken : s.OpensNoPass { s with pending := rest } := .of_view rfl
    exact exec_keepsLivePass c _ t h (law.of_opensNoPass taken)

end Sys2Proof.Machine
end

