-- ==== Sys2Proof/Proofs/BeginPass.lean ====
section
/-! SUPPORT. BEGIN PASS: the terms its parameter bytes name, its checks in their order, and the pass it opens (R93 to R96). -/

namespace Sys2Proof.Machine

/-! ### The terms (R95, first check) -/

/-- The fields that the eighteen parameter bytes of BEGIN PASS carry. -/
def passFieldsOf (kind direction : Byte) (start finish : Position) (limit mark : BitVec 16) : BeginPassFields :=
  ⟨kind.toNat, direction.toNat, start, finish, limit.toNat, mark.toNat⟩

theorem exec_beginPass {s : State} (h : s.receives) (kind direction : Byte) (start finish : Position) (limit mark : BitVec 16) :
    exec (.beginPass ([kind, direction] ++ sixBytes start ++ sixBytes finish ++ twoBytes limit ++ twoBytes mark)) s
      = .next ((s.responding .empty).beginPassRequest (passFieldsOf kind direction start finish limit mark)) := by
  let params := [kind, direction] ++ sixBytes start ++ sixBytes finish ++ twoBytes limit ++ twoBytes mark
  have position (p : Position) : BitVec.ofNat 48 (beNat (sixBytes p)) = p := by rw [beNat_six, BitVec.ofNat_toNat, BitVec.setWidth_eq]
  have fields : beginPassFields params = passFieldsOf kind direction start finish limit mark := by
    have first : positionField params 2 = start := position start
    have last : positionField params 8 = finish := position finish
    have time : field params 14 2 = limit.toNat := beNat_two limit
    have datum : field params 16 2 = mark.toNat := beNat_two mark
    rw [beginPassFields, first, last, time, datum, byteField_at params 0 kind rfl, byteField_at params 1 direction rfl, passFieldsOf]
  have length : params.length = 18 := rfl
  rw [exec, execBeginPass, h.request_eq length, fields]

theorem BeginPassFields.terms_iff (f : BeginPassFields) {t : PassTerms} :
    f.terms = some t ↔
      ∃ k d, f.passKind = some k ∧ Direction.ofCode f.direction = some d ∧ limitsOrdered d f.startLimit f.endLimit = true
        ∧ t = ⟨k, d, f.startLimit, f.endLimit, f.timeLimit⟩ := by
  unfold BeginPassFields.terms
  cases f.passKind with
  | none => simp
  | some k =>
    cases Direction.ofCode f.direction with
    | none => simp
    | some d => simp only [Option.ite_none_right_eq_some, Option.some.injEq, exists_eq_left', exists_and_left, eq_comm (b := t)]

/-- The kind that the kind byte and the datum mark name. -/
def NamesKind (kind : Byte) (mark : BitVec 16) (k : PassKind) : Prop :=
  kind = 1 ∧ k = .measure ∨ kind = 2 ∧ k = .datum mark.toNat ∧ mark.toNat < 4096

/-- The direction that the direction byte names, by which the limits are ordered. -/
def NamesDirection (direction : Byte) (start finish : Position) (d : Direction) : Prop :=
  direction = 1 ∧ d = .forward ∧ start.toInt < finish.toInt ∨ direction = 2 ∧ d = .reverse ∧ finish.toInt < start.toInt

section
variable {kind direction : Byte} {start finish : Position} {limit mark : BitVec 16}

theorem passKind_eq_some {k : PassKind} :
    (passFieldsOf kind direction start finish limit mark).passKind = some k ↔ NamesKind kind mark k := by
  by_cases measure : kind = 1
  · subst measure
    simp [NamesKind, BeginPassFields.passKind, passFieldsOf, eq_comm]
  · by_cases datum : kind = 2
    · subst datum
      simp [NamesKind, BeginPassFields.passKind, passFieldsOf, Config.markLimit, eq_comm, and_comm]
    · have unlisted : (passFieldsOf kind direction start finish limit mark).passKind = none := by
        unfold BeginPassFields.passKind
        split
        next one => exact absurd (BitVec.toNat_inj.mp (show kind.toNat = (1 : Byte).toNat from one)) measure
        next two => exact absurd (BitVec.toNat_inj.mp (show kind.toNat = (2 : Byte).toNat from two)) datum
        next => rfl
      rw [unlisted, NamesKind, or_iff_right fun h => measure h.1]
      exact ⟨fun h => (nomatch h), fun h => absurd h.1 datum⟩

theorem direction_ordered {d : Direction} :
    (Direction.ofCode direction.toNat = some d ∧ limitsOrdered d start finish = true) ↔ NamesDirection direction start finish d := by
  by_cases forward : direction = 1
  · subst forward
    cases d <;> simp [NamesDirection, Direction.ofCode, limitsOrdered]
  · by_cases reverse : direction = 2
    · subst reverse
      cases d <;> simp [NamesDirection, Direction.ofCode, limitsOrdered]
    · have unlisted : Direction.ofCode direction.toNat = none := by
        unfold Direction.ofCode
        split
        next one => exact absurd (BitVec.toNat_inj.mp (show direction.toNat = (1 : Byte).toNat from one)) forward
        next two => exact absurd (BitVec.toNat_inj.mp (show direction.toNat = (2 : Byte).toNat from two)) reverse
        next => rfl
      rw [unlisted, NamesDirection, or_iff_right fun h => forward h.1]
      exact ⟨fun h => (nomatch h.1), fun h => absurd h.1 reverse⟩

theorem NamesKind.of_one {k : PassKind} (h : NamesKind kind mark k) (one : kind = 1) : k = .measure := by
  obtain ⟨-, measure⟩ | ⟨two, -⟩ := h
  · exact measure
  · cases one.symm.trans two

theorem NamesKind.of_two {k : PassKind} (h : NamesKind kind mark k) (two : kind = 2) : k = .datum mark.toNat := by
  obtain ⟨one, -⟩ | ⟨-, datum, -⟩ := h
  · cases one.symm.trans two
  · exact datum

/-- The first check of R95 passes where kind and direction are named, and its terms are those of the request. -/
theorem terms_eq_some {t : PassTerms} :
    (passFieldsOf kind direction start finish limit mark).terms = some t ↔
      ∃ k d, NamesKind kind mark k ∧ NamesDirection direction start finish d ∧ t = ⟨k, d, start, finish, limit.toNat⟩ := by
  rw [BeginPassFields.terms_iff]
  refine exists_congr fun k => exists_congr fun d => ?_
  rw [passKind_eq_some, ← direction_ordered, and_assoc]
  rfl

theorem inRange_of_terms {t : PassTerms} (named : (passFieldsOf kind direction start finish limit mark).terms = some t) :
    (kind = 1 ∨ kind = 2 ∧ mark.toNat < 4096)
      ∧ (direction = 1 ∧ start.toInt < finish.toInt ∨ direction = 2 ∧ finish.toInt < start.toInt) := by
  obtain ⟨k, d, kinds, directions, -⟩ := terms_eq_some.mp named
  exact ⟨kinds.imp And.left fun ⟨two, _, low⟩ => ⟨two, low⟩,
    directions.imp (fun ⟨one, _, ordered⟩ => ⟨one, ordered⟩) fun ⟨two, _, ordered⟩ => ⟨two, ordered⟩⟩

theorem exists_terms_of_inRange (range : (kind = 1 ∨ kind = 2 ∧ mark.toNat < 4096)
      ∧ (direction = 1 ∧ start.toInt < finish.toInt ∨ direction = 2 ∧ finish.toInt < start.toInt)) :
    ∃ t, (passFieldsOf kind direction start finish limit mark).terms = some t ∧ NamesKind kind mark t.kind := by
  obtain ⟨kinds, directions⟩ := range
  obtain ⟨k, names⟩ : ∃ k, NamesKind kind mark k :=
    kinds.elim (fun one => ⟨_, .inl ⟨one, rfl⟩⟩) fun ⟨two, low⟩ => ⟨_, .inr ⟨two, rfl, low⟩⟩
  obtain ⟨d, ordered⟩ : ∃ d, NamesDirection direction start finish d :=
    directions.elim (fun ⟨one, h⟩ => ⟨_, .inl ⟨one, rfl, h⟩⟩) fun ⟨two, h⟩ => ⟨_, .inr ⟨two, rfl, h⟩⟩
  exact ⟨_, terms_eq_some.mpr ⟨k, d, names, ordered, rfl⟩, names⟩

end

/-! ### The checks in order (R94, R95) -/

section
variable {s : State} {f : BeginPassFields}

theorem State.beginPassRequest_open (opened : s.pass.state ≠ .idle) : s.beginPassRequest f = s.reject .state := if_pos opened

variable (idle : s.pass.state = .idle)
include idle

theorem State.beginPassRequest_busy (busy : s.tableFree = false) : s.beginPassRequest f = s.reject .busy := by
  simp only [State.beginPassRequest, if_neg (not_not.mpr idle), busy, Bool.not_false, if_true]

variable (free : s.tableFree = true)
include free

theorem State.beginPassRequest_out_of_range (out : f.terms = none) : s.beginPassRequest f = s.reject .range := by
  simp only [State.beginPassRequest, if_neg (not_not.mpr idle), free, out]
  rfl

theorem State.beginPassRequest_in_range {t : PassTerms} (named : f.terms = some t) :
    s.beginPassRequest f = (s.passObstacle t).elim (s.openPass t) s.reject := by
  simp only [State.beginPassRequest, if_neg (not_not.mpr idle), free, named]
  cases s.passObstacle t <;> rfl

end

/-- The pass that an accepted BEGIN PASS opens, in the words of R96. -/
theorem State.openPass_responding (s : State) (t : PassTerms) :
    (s.responding .empty).openPass t =
      { s with
        pass :=
          { number := if s.pass.number = 65535 then 1 else s.pass.number + 1
            terms := some t
            state := .arming
            outcome := none
            armed := 0
            taken := 0
            missed := 0 }
        passTimer := t.timeLimit != 0
        tableOp := some .armSweep }.responding .pending := by
  have timer : decide (t.timeLimit ≠ 0) = (t.timeLimit != 0) := by simp [bne, beq_eq_decide]
  rw [State.openPass, timer]
  rfl

/-- Settles O28: the checks of R94 and R95 in their order, each by the answer it brings. -/
theorem beginPassOpensOrRefuses : Obligations.BeginPassOpensOrRefuses := by
  refine ⟨fun s kind direction start finish limit mark k d receives idle free named ordered tracks => ?_,
    fun s kind direction start finish limit mark receives => ?_⟩
  · have names : NamesKind kind mark k :=
      named.imp (fun ⟨one, measure, _⟩ => ⟨one, measure⟩) fun ⟨two, datum, low, _⟩ => ⟨two, datum, low⟩
    have terms := terms_eq_some (limit := limit).mpr ⟨k, d, names, ordered, rfl⟩
    have clear : s.passObstacle ⟨k, d, start, finish, limit.toNat⟩ = none := by
      obtain ⟨-, rfl, referenced⟩ | ⟨-, rfl, -, r, datum, found, isDatum⟩ := named
      · rw [s.passObstacle_measure tracks rfl, if_pos referenced]
      · exact s.passObstacle_datum tracks rfl found isDatum
    rw [exec_beginPass receives, State.beginPassRequest_in_range (s := s.responding .empty) idle free terms,
      show (s.responding .empty).passObstacle _ = none from clear, Option.elim_none, State.openPass_responding]
  · intro c inRange
    have refused {code : RejectCode} (h : (s.responding .empty).beginPassRequest
        (passFieldsOf kind direction start finish limit mark) = (s.responding .empty).reject code) :
        exec c s = .next (s.refused code) := by
      rw [exec_beginPass receives, h]
      rfl
    refine ⟨fun opened => refused (State.beginPassRequest_open opened), fun idle busy =>
      refused (State.beginPassRequest_busy idle busy), fun idle free => ⟨fun out => ?_, ?_⟩⟩
    · refine refused (State.beginPassRequest_out_of_range idle free (Option.eq_none_iff_forall_ne_some.mpr fun t named => out ?_))
      exact inRange_of_terms named
    have obstructed (range : inRange) {code : RejectCode} (h : ∀ t : PassTerms, NamesKind kind mark t.kind → s.passObstacle t = some code) :
        exec c s = .next (s.refused code) := by
      obtain ⟨t, named, names⟩ := exists_terms_of_inRange (limit := limit) range
      refine refused ?_
      rw [State.beginPassRequest_in_range (s := s.responding .empty) idle free named,
        show (s.responding .empty).passObstacle t = some code from h t names, Option.elim_some]
    refine ⟨fun range untracked => obstructed range fun t _ => s.passObstacle_untracked t untracked,
      fun range tracks one unreferenced => obstructed range fun t names => ?_,
      fun range tracks two none => obstructed range fun t names => s.passObstacle_no_record tracks (names.of_two two) none,
      fun range tracks two r found other => obstructed range fun t names =>
        s.passObstacle_no_datum tracks (names.of_two two) found other⟩
    rw [s.passObstacle_measure tracks (names.of_one one), if_neg (by simp [unreferenced])]

end Sys2Proof.Machine
end

