-- ==== Sys2Proof/Proofs/AbortPass.lean ====
section
/-! SUPPORT. ABORT PASS and the pass timer: the end of a live pass and the arbiter's pick after it (R59, R102, R103, R106). -/

namespace Sys2Proof.Machine

/-- An abort and the arbiter after it: a free table unit takes up the abort sweep at once, another leaves its claim waiting (R59,
R103). -/
theorem State.abortLivePass_arbitrate (s : State) {cause : AbortCause} (counted : cause ≠ .reset) (live : s.pass.state.live = true) :
    (s.abortLivePass cause).arbitrate =
      { s with
        pass := { s.pass with state := .aborting, outcome := some (.aborted cause) }
        passTimer := false
        queue := []
        events := s.events.count .unpassed s.queue.length
        tableOp := if s.tableOp = none then some .abortSweep else s.tableOp
        sweepClaim := if s.tableOp = none then none else some .abort } := by
  have op : (s.abortLivePass cause).tableOp = s.tableOp := by simp
  rw [s.abortLivePass_live cause live, decide_eq_true counted] at op ⊢
  by_cases free : s.tableOp = none
  · rw [if_pos free, if_pos free, State.arbitrate_abort _ (op.trans free) rfl]
    rfl
  · rw [if_neg free, if_neg free, State.arbitrate_claimed_busy (op ▸ free)]
    rfl

theorem exec_abortPass {s : State} (h : s.receives) (number : BitVec 16) :
    exec (.abortPass (twoBytes number)) s = .next ((s.responding .empty).abortPassRequest number.toNat) := by
  have named : field (twoBytes number) 0 2 = number.toNat := beNat_two number
  rw [exec, execAbortPass, h.request_eq (len := 2) (params := twoBytes number) rfl, named]

section
variable {s : State} {number : Nat}

theorem State.abortPassRequest_refused (h : ¬(s.pass.state.live = true ∧ (number = 0 ∨ number = s.pass.number))) :
    s.abortPassRequest number = s.reject .state := by
  unfold State.abortPassRequest
  split
  · rfl
  next live =>
    refine if_pos ?_
    rw [← not_or]
    exact fun named => h ⟨by simpa using live, named⟩

theorem State.abortPassRequest_accepted (live : s.pass.state.live = true) (named : number = 0 ∨ number = s.pass.number) :
    s.abortPassRequest number = (s.abortLivePass .host).arbitrate.answer .done (twoBytes (BitVec.ofNat 16 s.pass.number)) := by
  have other : ¬(number ≠ 0 ∧ number ≠ s.pass.number) := by rwa [← not_or, not_not]
  simp only [State.abortPassRequest, live, Bool.not_true, Bool.false_eq_true, if_false, if_neg other, beBytes_two]

end

theorem exec_passTimerExpiry {s : State} (h : s.operating = true) :
    exec .passTimerExpiry s = .next
      (if s.passTimer then (({ s with passTimer := false } : State).abortLivePass .timeout).arbitrate else s) := by
  rw [exec, execPassTimerExpiry, s.whileOperating_of_operating _ h]

/-- Settles O29: the request by its two checks, the expiry by the timer, and one abort for both. -/
theorem abortAndTimeoutEndLivePass : Obligations.AbortAndTimeoutEndLivePass := by
  refine ⟨fun s number receives => ⟨fun refused => ?_, fun live named => ?_⟩, fun s operating => ⟨fun stopped => ?_,
    fun running live => ?_⟩⟩
  · rw [exec_abortPass receives, State.abortPassRequest_refused (s := s.responding .empty) refused]
    rfl
  · rw [exec_abortPass receives, State.abortPassRequest_accepted (s := s.responding .empty) live named,
      State.abortLivePass_arbitrate (s.responding .empty) (cause := .host) nofun live]
    rfl
  · rw [exec_passTimerExpiry operating, stopped]
    rfl
  · rw [exec_passTimerExpiry operating, if_pos running, State.abortLivePass_arbitrate { s with passTimer := false } (cause := .timeout) nofun live]

end Sys2Proof.Machine
end

