-- ==== Sys2Proof/Proofs/ArmSweep.lean ====
section
/-! SUPPORT. The completion of the arm sweep: the records it arms, the tally and response it brings, and where it takes the pass (R61,
R97 to R99, R101). -/

namespace Sys2Proof.Machine

/-! ### The records (R97, R98) -/

theorem PassTerms.spans_iff (t : PassTerms) (p : Position) :
    t.spans p = true ↔ min t.startLimit.toInt t.endLimit.toInt ≤ p.toInt ∧ p.toInt ≤ max t.startLimit.toInt t.endLimit.toInt :=
  decide_eq_true_iff

section
variable {t : PassTerms} {r : MarkRecord}

theorem PassTerms.arms_line (kind : t.kind = .measure) {l : LinePart} (line : r.kind = .line l) :
    t.arms r = true ↔ t.spans r.nominal = true ∧ l.count t.direction < l.plan.passes := by
  simp only [PassTerms.arms, kind, line, Bool.and_eq_true, decide_eq_true_eq]

theorem PassTerms.arms_keepout (kind : t.kind = .measure) {k : KeepoutPart} (keepout : r.kind = .keepout k) :
    t.arms r = true ↔ t.spans r.nominal = true := by
  simp only [PassTerms.arms, kind, keepout, Bool.and_true]

theorem PassTerms.arms_measure_datum (kind : t.kind = .measure) {d : DatumPart} (datum : r.kind = .datum d) :
    t.arms r = false := by
  simp only [PassTerms.arms, kind, datum, Bool.and_false]

theorem PassTerms.arms_datum {mark : Nat} (kind : t.kind = .datum mark) {d : DatumPart} (datum : r.kind = .datum d) :
    t.arms r = true ↔ r.mark = mark := by
  simp only [PassTerms.arms, kind, datum, decide_eq_true_eq]

theorem PassTerms.arms_other {mark : Nat} (kind : t.kind = .datum mark) (other : ∀ d, r.kind ≠ .datum d) : t.arms r = false := by
  simp only [PassTerms.arms, kind]
  split
  next d datum => exact absurd datum (other d)
  all_goals rfl

end

theorem LinePart.count_eq (l : LinePart) (d : Direction) :
    l.count d = match d with | .forward => l.forwardCount | .reverse => l.reverseCount := by
  cases d <;> rfl

theorem PassTerms.armedTally_measure {t : PassTerms} (kind : t.kind = .measure) (table : List MarkRecord) :
    t.armedTally table = (table.filter t.arms).length := by
  simp only [PassTerms.armedTally, kind, List.countP_eq_length_filter]

theorem PassTerms.armedTally_datum {t : PassTerms} {mark : Nat} (kind : t.kind = .datum mark) (table : List MarkRecord) :
    t.armedTally table = 1 := by
  simp only [PassTerms.armedTally, kind]

/-! ### The machine -/

/-- A pass still ARMING is RUNNING, and one that an end crossing closed claims its close sweep (R99, R101). -/
theorem State.afterArming_eq (s : State) :
    s.afterArming = { s with
      pass := { s.pass with state := if s.pass.state = .arming then .running else s.pass.state }
      sweepClaim := if s.pass.state = .closing then some .close else s.sweepClaim } := by
  obtain ⟨_, _, _, _, _, _, _, _, _, _, _, _, _, ⟨_, _, state, _, _, _, _⟩, _, _, _, _, _, _, _⟩ := s
  cases state <;> rfl

/-- The machine at the end of an arm sweep, before the arbiter picks. -/
def State.armed (s : State) (t : PassTerms) : State :=
  { s with
    table := s.table.map fun r => if t.arms r then { r with state := .armed } else r
    pass := { s.pass with
      armed := t.armedTally s.table
      state := if s.pass.state = .arming then .running else s.pass.state }
    link := s.handed .done (twoBytes (BitVec.ofNat 16 s.pass.number) ++ twoBytes (BitVec.ofNat 16 (t.armedTally s.table)))
    sweepClaim := if s.pass.state = .closing then some .close else s.sweepClaim
    tableOp := none }

theorem State.armRecords_eq {s : State} {t : PassTerms} (terms : s.pass.terms = some t) :
    s.armRecords = { s with
      table := s.table.map fun r => if t.arms r then { r with state := .armed } else r
      pass := { s.pass with armed := t.armedTally s.table } } := by
  rw [State.armRecords, terms]

theorem exec_armSweepCompletion {s : State} {t : PassTerms} (operating : s.operating = true) (sweeping : s.tableOp = some .armSweep)
    (terms : s.pass.terms = some t) : exec .armSweepCompletion s = .next (s.armed t).arbitrate := by
  rw [exec, execArmSweepCompletion, s.whileOperating_of_operating _ operating, if_pos sweeping, State.finishArmSweep,
    State.armRecords_eq terms]
  simp only [handOver_eq, State.afterArming_eq, beBytes_two]
  rfl

/-- Settles O40: the records by kind of pass and record, and the arbiter's pick by the queue. -/
theorem armSweepArmsAndRuns : Obligations.ArmSweepArmsAndRuns := by
  refine ⟨fun s terms operating sweeping known => ⟨_, exec_armSweepCompletion operating sweeping known, ?_⟩,
    fun s terms operating sweeping known closing unclaimed => ⟨_, exec_armSweepCompletion operating sweeping known, ?_⟩⟩
  · intro lower upper arms
    have armsThese (r : MarkRecord) : terms.arms r = true ↔ arms r := by
      cases pass : terms.kind <;> cases record : r.kind <;> simp only [arms, pass, record]
      case measure.line l =>
        have needed := PassTerms.arms_line pass record
        rw [terms.spans_iff, l.count_eq, and_assoc] at needed
        exact needed
      case measure.keepout => rw [PassTerms.arms_keepout pass record, terms.spans_iff]
      case measure.datum => simp only [PassTerms.arms_measure_datum pass record, Bool.false_eq_true]
      case datum.datum => rw [PassTerms.arms_datum pass record]
      all_goals simp only [PassTerms.arms_other pass, record, reduceCtorEq, ne_eq, not_false_eq_true, implies_true, Bool.false_eq_true]
    refine ⟨armsThese, State.arbitrate_table _, ?_, ?_, ?_, ?_, State.arbitrate_occupancy _, State.arbitrate_groups _,
      State.arbitrate_channels _, State.arbitrate_events _⟩
    · intro measure
      rw [State.arbitrate_pass, ← PassTerms.armedTally_measure measure]
      rfl
    · rintro ⟨mark, datum⟩
      rw [State.arbitrate_pass, ← PassTerms.armedTally_datum datum s.table]
      rfl
    · rw [State.arbitrate_pass]
      rfl
    · rw [State.arbitrate_link, State.arbitrate_pass]
      rfl
  · have claimed : (s.armed terms).sweepClaim = some .close := if_pos closing
    refine ⟨fun empty => ?_, fun x rest queued => ?_⟩
    · have ⟨op, taken, _⟩ := State.arbitrate_closing_empty (s := s.armed terms) rfl claimed empty
      exact ⟨op, taken⟩
    · have ⟨op, kept, left⟩ := State.arbitrate_closing_queued (s := s.armed terms) rfl claimed queued
      exact ⟨op, left, kept⟩

end Sys2Proof.Machine
end

