-- ==== Sys2Proof/Proofs/EndSweeps.lean ====
section
/-! SUPPORT. The close sweep and the abort sweep: the table they leave, their one report to each group, and the end of the pass
(R110 to R113, R136, R137). -/

namespace Sys2Proof.Machine

/-! ### The table (R110, R111) -/

theorem mem_sweepTable {d : Direction} {resolve : MarkRecord → MarkRecord}
    (step : resolve ∈ [MarkRecord.resolveClose d, MarkRecord.resolveAbort]) (table : List MarkRecord) (r' : MarkRecord) :
    r' ∈ sweepTable resolve table ↔ ∃ r ∈ table, r.retiring = false ∧ r' = (r.amended resolve).restLine := by
  have kept (r : MarkRecord) : (!(r.amended resolve).retiring) = true ↔ r.retiring = false := by
    rw [r.amended_retiring step, Bool.not_eq_true']
  simp only [sweepTable, List.filter_map, List.map_map, List.mem_map, List.mem_filter, Function.comp_apply, kept, and_assoc,
    eq_comm (a := r')]

theorem MarkRecord.isMissed_line {r : MarkRecord} {l : LinePart} (line : r.kind = .line l) :
    r.isMissed = decide (r.state = .armed ∧ l.current = none) := by
  rw [MarkRecord.isMissed, line]
  cases part : l.current <;> simp [part]

/-! ### The one report to each group (R136, R137) -/

theorem State.setGroup_enables (s : State) (g : Fin 8) (c : GroupCounts) : (s.setGroup g c).events.enables = s.events.enables := by
  unfold State.setGroup
  split <;> rfl

theorem State.reportSweep_enables (s : State) (before after : List MarkRecord) :
    (s.reportSweep before after).events.enables = s.events.enables :=
  List.foldlRecOn _ _ (motive := fun t : State => t.events.enables = s.events.enables) rfl fun t kept g _ =>
    (t.setGroup_enables g _).trans kept

/-- The machine that a sweep reports from: the table and the claims swept, the groups not yet told. -/
def State.swept (s : State) (resolve : MarkRecord → MarkRecord) : State :=
  { s with
    table := sweepTable resolve s.table
    occupancy := sweepOccupancy s.config.shift resolve s.table s.occupancy }

theorem State.sweepRecords_eq (s : State) (resolve : MarkRecord → MarkRecord) :
    s.sweepRecords resolve = (s.swept resolve).reportSweep s.table (sweepTable resolve s.table) := rfl

/-! ### The end of the pass (R112, R113) -/

/-- With nothing claimed and nothing queued the arbiter leaves the table unit free. -/
theorem State.endPass_unclaimed {s : State} (unclaimed : s.sweepClaim = none) (empty : s.queue = []) (missed : Nat) :
    s.endPass missed =
      ({ s with pass := { s.pass with state := .idle, missed := missed }, tableOp := none } : State).raise .passEnd :=
  State.arbitrate_none _ rfl unclaimed empty

/-- What either sweep leaves: the table swept, the pass ended, the table unit free, and everything but the groups, the events and
the claims as it was. -/
structure State.SweepsInto (s : State) (resolve : MarkRecord → MarkRecord) (missed : Nat) (t : State) : Prop where
  free : t.tableOp = none
  pass : t.pass = { s.pass with state := .idle, missed := missed }
  table : t.table = sweepTable resolve s.table
  groups : t.groups = (s.sweepRecords resolve).groups
  events : t.events = (s.sweepRecords resolve).events.raise .passEnd
  rest : t.channels = s.channels ∧ t.link = s.link ∧ t.config = s.config ∧ t.protection = s.protection

theorem State.sweepsInto {s : State} (unclaimed : s.sweepClaim = none) (empty : s.queue = []) (resolve : MarkRecord → MarkRecord)
    (missed : Nat) : s.SweepsInto resolve missed ((s.sweepRecords resolve).endPass missed) := by
  have rest := sweepRecords_rest s resolve
  rw [State.endPass_unclaimed (by rw [rest]; exact unclaimed) (by rw [rest]; exact empty)]
  exact ⟨rfl, by rw [rest]; rfl, by rw [rest]; rfl, rfl, rfl, by rw [rest]; exact ⟨rfl, rfl, rfl, rfl⟩⟩

section
variable {s t : State} {resolve : MarkRecord → MarkRecord} {missed : Nat} (h : s.SweepsInto resolve missed t)
include h

theorem State.SweepsInto.group_eq (g : Fin 8) : t.group g = (s.sweepRecords resolve).group g := by
  rw [State.group, h.groups]
  rfl

theorem State.SweepsInto.group (g : Fin 8) : t.group g =
    ⟨(s.group g).members + (t.table.map (MarkRecord.memberOf · g)).sum - (s.table.map (MarkRecord.memberOf · g)).sum,
      (s.group g).settled + (t.table.map (MarkRecord.settledOf · g)).sum - (s.table.map (MarkRecord.settledOf · g)).sum⟩ := by
  obtain ⟨counts, -, -⟩ := State.reportSweep_spec (s.swept resolve) s.table (sweepTable resolve s.table)
  rw [h.group_eq, State.sweepRecords_eq, counts, groupCounts_eq, groupCounts_eq, h.table]
  rfl

theorem State.SweepsInto.completes : s.events.Completes
    (fun g => (s.group g).complete = false ∧ (t.group g).complete = true) (s.sweepRecords resolve).events := by
  obtain ⟨-, -, completes⟩ := State.reportSweep_spec (s.swept resolve) s.table (sweepTable resolve s.table)
  exact completes.congr fun g => by rw [h.group_eq]; rfl

theorem State.SweepsInto.notice (enabled : s.events.enabled .passEnd = true) : t.events.noticePending = true := by
  have kept : (s.sweepRecords resolve).events.enabled .passEnd = true := by
    rw [EventUnit.enabled, State.sweepRecords_eq, State.reportSweep_enables]
    exact enabled
  rw [h.events, EventUnit.raise, kept, Bool.or_true]

theorem State.SweepsInto.passEnd : t.events.has .passEnd = true := by
  rw [h.events, EventUnit.has_raise, decide_eq_true rfl, Bool.or_true]

end

theorem exec_closeSweepCompletion {s : State} {t : PassTerms} (operating : s.operating = true)
    (sweeping : s.tableOp = some .closeSweep) (terms : s.pass.terms = some t) :
    exec .closeSweepCompletion s =
      .next ((s.sweepRecords (MarkRecord.resolveClose t.direction)).endPass (s.table.countP MarkRecord.isMissed)) := by
  rw [exec, execCloseSweepCompletion, s.whileOperating_of_operating _ operating, if_pos sweeping, State.finishCloseSweep,
    PassRecord.direction, terms]

theorem exec_abortSweepCompletion {s : State} (operating : s.operating = true) (sweeping : s.tableOp = some .abortSweep) :
    exec .abortSweepCompletion s = .next ((s.sweepRecords MarkRecord.resolveAbort).endPass s.pass.missed) := by
  rw [exec, execAbortSweepCompletion, s.whileOperating_of_operating _ operating, if_pos sweeping, State.finishAbortSweep]

/-- Settles O41: what either sweep leaves, with the missed tally of the close sweep and the discarded parts of the abort sweep. -/
theorem sweepsEndPass : Obligations.SweepsEndPass := by
  unfold Obligations.SweepsEndPass
  intro count complete groupsFollow
  have follow {s t : State} {resolve missed} (h : s.SweepsInto resolve missed t) : groupsFollow s t := by
    have completes : s.events.Completes (fun g => ¬complete (s.group g) ∧ complete (t.group g)) (s.sweepRecords resolve).events :=
      h.completes.congr fun g => by rw [← Bool.not_eq_true, GroupCounts.complete_iff, GroupCounts.complete_iff]
    refine ⟨h.group, fun g => ?_, ?_, fun f notGroup notEnd => ?_⟩
    · rw [h.events]
      exact completes.mask g
    · rw [h.events, EventUnit.has_raise, decide_eq_false (by decide), Bool.or_false]
      exact completes.flag
    · rw [h.events, EventUnit.has_raise, decide_eq_false (Ne.symm notEnd), Bool.or_false]
      exact completes.others f notGroup
  refine ⟨fun s terms operating sweeping known unclaimed empty => ?_, fun s operating sweeping unclaimed empty => ?_⟩
  · have swept := State.sweepsInto unclaimed empty (MarkRecord.resolveClose terms.direction) (s.table.countP MarkRecord.isMissed)
    refine ⟨_, exec_closeSweepCompletion operating sweeping known, swept.free, ?_, swept.passEnd, swept.notice, fun r' => ?_,
      follow swept, swept.rest⟩
    · rw [swept.pass, List.countP_eq_length_filter]
      refine congrArg (fun p => { s.pass with state := .idle, missed := (s.table.filter p).length }) (funext fun r => ?_)
      cases record : r.kind with
      | line l => exact MarkRecord.isMissed_line record
      | datum d => rw [MarkRecord.isMissed, record]
      | keepout k => rw [MarkRecord.isMissed, record]
    · rw [swept.table]
      exact mem_sweepTable (List.mem_cons_self ..) s.table r'
  · have swept := State.sweepsInto unclaimed empty MarkRecord.resolveAbort s.pass.missed
    refine ⟨_, exec_abortSweepCompletion operating sweeping, swept.free, swept.pass, swept.passEnd, fun r' => ?_, follow swept,
      fun r l line armed => ?_, swept.rest⟩
    · rw [swept.table]
      exact mem_sweepTable (d := .forward) (by simp) s.table r'
    · refine ⟨{ l with current := none, plan := r.stagedPlan l }, ?_, rfl, fun unstaged => ?_⟩
      · rw [MarkRecord.amended, r.resolveAbort_line armed line, MarkRecord.applyStaged_line rfl]
        rfl
      · rw [MarkRecord.stagedPlan, unstaged]
        rfl

end Sys2Proof.Machine
end

