-- ==== Sys2Proof/Proofs/Enrol.lean ====
section
/-! SUPPORT. ENROL from its request to its completion: the operation that its checks decide on, and the record that its completion
inserts (R52, R61, R66, R118, R119, R135). -/

namespace Sys2Proof.Machine

/-! ### The checks of a new record (R118) -/

/-- Each check fails first only where those before it pass, so one code at most fails first. -/
theorem State.failsFirst_unique {s : State} {f : EnrolFields} {mark : Nat} {nominal : Int} {code code' : RejectCode}
    (h : s.failsFirst f mark nominal code) (h' : s.failsFirst f mark nominal code') : code = code' := by
  unfold State.failsFirst at h'
  obtain ⟨rfl, beyond⟩ | ⟨rfl, within, known⟩ | ⟨rfl, fresh, full⟩ | ⟨rfl, fresh, room, out⟩
    | ⟨rfl, fresh, room, fits, meets⟩ := h
  all_goals grind

section
variable {s : State} {f : EnrolFields} {mark : Nat} {nominal : Int} (within : mark < 4096)
include within

theorem judgeRecord_fails {code : RejectCode} (fails : s.failsFirst f mark nominal code) :
    s.judgeRecord f mark nominal = .inl code := by
  obtain ⟨refused, made⟩ := judgeRecord_spec s f mark nominal within
  cases judged : s.judgeRecord f mark nominal with
  | inl answer => rw [State.failsFirst_unique (refused answer judged) fails]
  | inr r => exact absurd fails ((made r judged).1 code)

theorem judgeRecord_passes (passes : ∀ code, ¬s.failsFirst f mark nominal code) :
    ∃ r, s.judgeRecord f mark nominal = .inr r ∧ f.Makes mark (BitVec.ofInt 48 nominal) r := by
  obtain ⟨refused, made⟩ := judgeRecord_spec s f mark nominal within
  cases judged : s.judgeRecord f mark nominal with
  | inl answer => exact absurd (refused answer judged) (passes answer)
  | inr r => exact ⟨r, rfl, (made r judged).2⟩

end

/-! ### What the checks of ENROL decide (R117, R118) -/

section
variable {s : State} {f : EnrolFields} {mark : Nat} {nominal : Int}

theorem judgeEnrol_beyond (beyond : 4096 ≤ mark) : s.judgeEnrol mark nominal f = .start (.refuse .range) := by
  rw [State.judgeEnrol, Config.markLimit, if_pos beyond]

variable (within : mark < 4096) (bare : s.protection.covers mark = false)
include within bare

theorem judgeEnrol_refused {code : RejectCode} (judged : s.judgeRecord f mark nominal = .inl code) :
    s.judgeEnrol mark nominal f = .start (.refuse code) := by
  simp [State.judgeEnrol, Config.markLimit, Nat.not_le.mpr within, bare, judged]

theorem judgeEnrol_made {r : MarkRecord} (judged : s.judgeRecord f mark nominal = .inr r) :
    s.judgeEnrol mark nominal f = .start (.enrol r) := by
  simp [State.judgeEnrol, Config.markLimit, Nat.not_le.mpr within, bare, judged]

end

theorem enrol_starts {s : State} (received : s.receives) (free : s.tableFree = true) {params : List Byte}
    (sized : params.length = 19) {op : HostOp}
    (judged : s.judgeEnrol (field params 0 2) (positionField params 3).toInt (enrolFields params) = .start op) :
    s.Starts (.enrol params) op :=
  congrArg Host.Outcome.next (request_hostTableGuarded_free received sized free judged _)

/-- Settles O32: each refusal is the code of the check that fails first, and fields that pass them all make the record. -/
theorem enrolJudgesItsRecord : Obligations.EnrolJudgesItsRecord := by
  intro s params received free sized starts mark f nominal inRange overlapped
  have begins {op : HostOp} (judged : s.judgeEnrol mark nominal.toInt f = .start op) : starts op :=
    enrol_starts received free sized judged
  refine ⟨fun beyond => begins (judgeEnrol_beyond beyond), fun within bare => ?_⟩
  have refuses {code : RejectCode} (fails : s.failsFirst f mark nominal.toInt code) : starts (.refuse code) :=
    begins (judgeEnrol_refused within bare (judgeRecord_fails within fails))
  refine ⟨fun known => refuses (.inr (.inl ⟨rfl, within, known⟩)),
    fun fresh full => refuses (.inr (.inr (.inl ⟨rfl, ⟨within, fresh⟩, full⟩))),
    fun fresh room out => refuses (.inr (.inr (.inr (.inl ⟨rfl, ⟨within, fresh⟩, room, out⟩)))),
    fun fresh room fits meets => refuses (.inr (.inr (.inr (.inr ⟨rfl, ⟨within, fresh⟩, room, fits, meets⟩)))),
    fun fresh room fits clear => ?_⟩
  have passes (code : RejectCode) : ¬s.failsFirst f mark nominal.toInt code := by
    rintro (⟨-, beyond⟩ | ⟨-, -, x, mem, same⟩ | ⟨-, -, full⟩ | ⟨-, -, -, out⟩ | ⟨-, -, -, -, meets⟩)
    · exact absurd within (Nat.not_lt.mpr beyond)
    · exact fresh x mem same
    · exact room full
    · exact out fits
    · exact clear meets
  obtain ⟨r, judged, makes⟩ := judgeRecord_passes within passes
  rw [BitVec.ofInt_toInt] at makes
  exact ⟨r, begins (judgeEnrol_made within bare judged), makes⟩

/-! ### The insertion (R119, R135, R150) -/

/-- The record in its place with its claims made, its group and the event unit not yet told. -/
def State.placed (s : State) (r : MarkRecord) : State :=
  { s with
    table := insertRecord r s.table
    occupancy := addClaims s.occupancy (r.slots s.config.shift) }

/-- A new record reports itself to its group, if it has one (R135). -/
def State.joined (s : State) (r : MarkRecord) : State :=
  match r.kind with
  | .line l => s.groupReport l.plan.group 1 0
  | .datum _ => s
  | .keepout _ => s

theorem insertNew_eq (s : State) (r : MarkRecord) :
    s.insertNew r =
      if ((s.placed r).joined r).tableFull then ((s.placed r).joined r).raise .tableFull else (s.placed r).joined r := rfl

theorem State.group_joined (s : State) (r : MarkRecord) (g : Fin 8) :
    (s.joined r).group g = ⟨(s.group g).members + r.memberOf g, (s.group g).settled⟩ := by
  unfold State.joined
  split
  next l line =>
    rw [s.group_groupReport, MarkRecord.memberOf_line line]
    split <;> simp
  next d datum => simp [r.memberOf_other (by simp [datum])]
  next k keepout => simp [r.memberOf_other (by simp [keepout])]

theorem group_insertNew (s : State) (r : MarkRecord) (g : Fin 8) :
    (s.insertNew r).group g = ⟨(s.group g).members + r.memberOf g, (s.group g).settled⟩ := by
  have joined : ((s.placed r).joined r).group g = ⟨(s.group g).members + r.memberOf g, (s.group g).settled⟩ :=
    State.group_joined _ r g
  rw [insertNew_eq]
  split <;> exact joined

/-- An insertion that fills the table raises TABLE_FULL (R119, R150). -/
theorem insertNew_fills {s : State} {r : MarkRecord} (full : (s.insertNew r).tableFull = true) :
    (s.insertNew r).events.has .tableFull = true := by
  rw [insertNew_eq] at full ⊢
  split
  · simp [EventUnit.has_raise]
  next notFull => rw [if_neg notFull] at full; exact absurd full notFull

/-- Settles O34: what the insertion makes of the table, the claims, the groups and the flags, behind the hand-over and the arbiter,
which change none of them. -/
theorem enrolCompletionInserts : Obligations.EnrolCompletionInserts := by
  intro s r operating running ordered
  have rest := insertNew_rest s r
  have count : (s.insertNew r).table.length = s.table.length + 1 := by rw [insertNew_table, length_insertRecord]
  refine ⟨_, exec_completes operating running rfl (insertNew_link s r), ?_, fun k => ?_, fun g => ?_, fun filled => ?_, ?_, ?_, ?_,
    ?_, ?_⟩
  · rw [State.arbitrate_table, insertNew_table]
    exact insertRecord_split r s.table ordered
  · simp only [State.slot, State.arbitrate_occupancy, insertNew_occupancy]
    exact getElem_addClaims _ s.occupancy k
  · have group := group_insertNew s r g
    simp only [State.group, State.arbitrate_groups] at group ⊢
    rw [group]
    exact ⟨rfl, rfl⟩
  · rw [State.arbitrate_events]
    refine insertNew_fills ?_
    rw [State.tableFull, count, filled]
    rfl
  · rw [State.arbitrate_link, count, beBytes_two]
    rfl
  · rw [State.arbitrate_channels, rest]
  · rw [State.arbitrate_pass, rest]
  · rw [State.arbitrate_config, rest]
  · rw [State.arbitrate_protection, rest]

end Sys2Proof.Machine
end

