-- ==== Sys2Proof/Proofs/Membership.lean ====
section
/-! SUPPORT. One report to a group (R135, R137), and what the tally groups see of the records of a table: how their counts follow a
record that comes, changes or goes (R134, R135). -/

namespace Sys2Proof.Machine

/-! ### One report (R135, R137) -/

/-- Settles O43: the report is judged by the counts before and after it. -/
theorem groupCompletesOnce : Obligations.GroupCompletesOnce := by
  intro s g members settled t before after complete
  have isComplete (c : GroupCounts) : complete c ↔ c.complete = true := c.complete_iff.symm
  have judged : t.events = if !before.complete && after.complete then s.events.groupCompletes g else s.events :=
    s.setGroup_events g after
  simp only [isComplete, judged]
  refine ⟨s.setGroup_groups g after, fun incomplete completed => ?_, fun uncompleted => ?_⟩
  · rw [if_pos (by simp [incomplete, completed])]
    exact ⟨rfl, (EventUnit.Completes.one s.events g).flag.mpr (.inr ⟨g, rfl⟩)⟩
  · refine if_neg fun completes => ?_
    simp only [Bool.and_eq_true, Bool.not_eq_true'] at completes
    obtain ⟨incomplete, completed⟩ := completes
    obtain already | unfinished := uncompleted
    · rw [incomplete] at already
      cases already
    · exact unfinished completed

/-! ### One record -/

/-- What the tally groups see of a LINE record: its group, whether it is SETTLED, and whether it is measured as often as it asks. -/
structure Membership where
  group : Fin 8
  settled : Bool
  complete : Bool

/-- DATUM and KEEPOUT records belong to no group. -/
def MarkRecord.membership (r : MarkRecord) : Option Membership :=
  match r.kind with
  | .line l => some ⟨l.plan.group, r.isSettled, l.complete⟩
  | .datum _ => none
  | .keepout _ => none

/-- A SETTLED LINE record is complete (R44). -/
def MarkRecord.SettledComplete (r : MarkRecord) : Prop := ∀ l, r.kind = .line l → r.state = .settled → l.complete = true

section
variable (r : MarkRecord)

theorem MarkRecord.membership_line {r : MarkRecord} {l : LinePart} (line : r.kind = .line l) :
    r.membership = some ⟨l.plan.group, r.isSettled, l.complete⟩ := by
  rw [MarkRecord.membership, line]

theorem MarkRecord.membership_other {r : MarkRecord} (other : ∀ l, r.kind ≠ .line l) : r.membership = none := by
  unfold MarkRecord.membership
  split
  next l line => exact absurd line (other l)
  all_goals rfl

theorem MarkRecord.inGroup_eq (g : Fin 8) : r.inGroup g = r.membership.any fun m => decide (m.group = g) := by
  unfold MarkRecord.inGroup MarkRecord.membership
  cases r.kind <;> rfl

theorem MarkRecord.settledIn_eq (g : Fin 8) :
    (r.inGroup g && r.isSettled) = r.membership.any fun m => decide (m.group = g) && m.settled := by
  unfold MarkRecord.inGroup MarkRecord.membership
  cases r.kind <;> rfl

theorem MarkRecord.settledComplete_iff :
    r.SettledComplete ↔ ∀ m, r.membership = some m → m.settled = true → m.complete = true := by
  refine ⟨fun h m member settled => ?_, fun h l line settled => ?_⟩
  · by_cases line : ∃ l, r.kind = .line l
    · obtain ⟨l, line⟩ := line
      rw [MarkRecord.membership_line line] at member
      cases member
      exact h l line (of_decide_eq_true settled)
    · rw [MarkRecord.membership_other (not_exists.mp line)] at member
      cases member
  · exact h _ (MarkRecord.membership_line line) (decide_eq_true settled)

theorem MarkRecord.settledComplete_of_ne {r : MarkRecord} (unsettled : r.state ≠ .settled) : r.SettledComplete :=
  fun _ _ settled => absurd settled unsettled

/-- The state that a sweep or an amendment decides afresh is SETTLED only for a complete record (R111, R125). -/
theorem MarkRecord.settledComplete_restLine : r.restLine.SettledComplete := by
  intro l line settled
  by_cases own : ∃ l', r.kind = .line l'
  · obtain ⟨l', own⟩ := own
    rw [MarkRecord.restLine_line own] at line settled
    obtain rfl : l' = l := KindPart.line.inj (own.symm.trans line)
    by_contra incomplete
    rw [LinePart.restState, if_neg incomplete] at settled
    cases settled
  · rw [MarkRecord.restLine_other (not_exists.mp own)] at line
    exact absurd ⟨l, line⟩ own

end

/-! ### What a MATCH and the arm sweep change in a record -/

/-- A width fault, a flaw, a duplicate, a take and a datum take change neither group nor counts of a record (R135, R136). -/
theorem MarkRecord.membership_withKind {r : MarkRecord} {kind : KindPart}
    (h : (∃ x o, kind = r.kind.after x o) ∨ kind = r.kind.widthFault ∨ ∃ n, kind = r.kind.datumTake n) :
    ({ r with kind := kind } : MarkRecord).membership = r.membership := by
  obtain ⟨_, _, _, part, _, _, _⟩ := r
  obtain ⟨x, o, rfl⟩ | rfl | ⟨n, rfl⟩ := h
  · cases part <;> cases o <;> rfl
  · cases part <;> rfl
  · cases part <;> rfl

/-- The arm sweep arms no SETTLED LINE record: one that is measured as often as it asks is not short of passes (R97). -/
theorem MarkRecord.membership_armed {t : PassTerms} {r : MarkRecord} (arms : t.arms r = true) (h : r.SettledComplete) :
    ({ r with state := .armed } : MarkRecord).membership = r.membership := by
  by_cases line : ∃ l, r.kind = .line l
  · obtain ⟨l, line⟩ := line
    have short : l.count t.direction < l.plan.passes := by
      cases kind : t.kind with
      | measure => exact ((PassTerms.arms_line kind line).mp arms).2
      | datum mark => rw [PassTerms.arms_other kind (by simp [line])] at arms; cases arms
    have unsettled : r.state ≠ .settled := fun settled => by
      obtain ⟨forward, reverse⟩ : l.forwardCount = l.plan.passes ∧ l.reverseCount = l.plan.passes := by
        simpa [LinePart.complete] using h l line settled
      rw [LinePart.count_eq] at short
      split at short <;> omega
    rw [MarkRecord.membership_line line, MarkRecord.membership_line (r := { r with state := .armed }) line,
      MarkRecord.isSettled, MarkRecord.isSettled, decide_eq_false unsettled]
    rfl
  · have other := not_exists.mp line
    rw [MarkRecord.membership_other other, MarkRecord.membership_other (r := { r with state := .armed }) other]

/-! ### A table -/

/-- The counts of the groups are decided by what the groups see of the records. -/
theorem groupCounts_congr {before after : List MarkRecord}
    (same : after.map MarkRecord.membership = before.map MarkRecord.membership) (g : Fin 8) :
    groupCounts after g = groupCounts before g := by
  have seen (table : List MarkRecord) : groupCounts table g =
      ⟨(table.map MarkRecord.membership).countP (·.any fun m => decide (m.group = g)),
        (table.map MarkRecord.membership).countP (·.any fun m => decide (m.group = g) && m.settled)⟩ := by
    simp only [groupCounts, MarkRecord.settledIn_eq]
    simp only [List.countP_map, MarkRecord.inGroup_eq, Function.comp_def]
  rw [seen, seen, same]

theorem settledComplete_congr {before after : List MarkRecord}
    (same : after.map MarkRecord.membership = before.map MarkRecord.membership)
    (h : ∀ r ∈ before, r.SettledComplete) : ∀ r ∈ after, r.SettledComplete := by
  have seen (table : List MarkRecord) : (∀ r ∈ table, r.SettledComplete) ↔
      ∀ seen ∈ table.map MarkRecord.membership, ∀ m, seen = some m → m.settled = true → m.complete = true := by
    simp only [List.forall_mem_map, MarkRecord.settledComplete_iff]
  rw [seen] at h ⊢
  rwa [same]

/-- A change of single records that the groups do not see. -/
theorem map_membership_updateMark {table : List MarkRecord} {mark : Nat} {f : MarkRecord → MarkRecord}
    (unseen : ∀ r : MarkRecord, (f r).membership = r.membership) :
    (updateMark table mark f).map MarkRecord.membership = table.map MarkRecord.membership := by
  rw [updateMark, List.map_map]
  refine List.map_congr_left fun r _ => ?_
  simp only [Function.comp]
  split
  · exact unseen r
  · rfl

theorem groupCounts_perm {before after : List MarkRecord} (same : after.Perm before) (g : Fin 8) :
    groupCounts after g = groupCounts before g := by
  rw [groupCounts, groupCounts, same.countP_eq, same.countP_eq]

theorem groupCounts_cons (r : MarkRecord) (rest : List MarkRecord) (g : Fin 8) :
    groupCounts (r :: rest) g
      = ⟨(groupCounts rest g).members + r.memberOf g, (groupCounts rest g).settled + r.settledOf g⟩ := by
  simp only [groupCounts_eq, List.map_cons, List.sum_cons, Nat.add_comm]

theorem groupCounts_insertRecord (r : MarkRecord) (table : List MarkRecord) (g : Fin 8) :
    groupCounts (insertRecord r table) g
      = ⟨(groupCounts table g).members + r.memberOf g, (groupCounts table g).settled + r.settledOf g⟩ :=
  (groupCounts_perm (insertRecord_perm r table) g).trans (groupCounts_cons r table g)

section
variable {s : State} {r : MarkRecord} (w : s.TableLaw) (hr : r ∈ s.table) (g : Fin 8)
include w hr

/-- The removal of a record takes it from the counts of its group (R128, R135). -/
theorem groupCounts_removeMark : groupCounts (removeMark s.table r.mark) g = (groupCounts s.table g).without r g := by
  obtain ⟨low, high, split, removed, -⟩ := w.split_at hr
  rw [removed, split, groupCounts_perm List.perm_middle, groupCounts_cons]
  simp only [GroupCounts.without, Nat.add_sub_cancel]

/-- A record that gives way to another exchanges its part in the counts for the other's (R125, R135). -/
theorem groupCounts_updateMark (f : MarkRecord → MarkRecord) :
    groupCounts (updateMark s.table r.mark f) g = (groupCounts s.table g).exchange r (f r) g := by
  obtain ⟨low, high, split, -, updated⟩ := w.split_at hr
  rw [updated, split, groupCounts_perm List.perm_middle, groupCounts_perm List.perm_middle, groupCounts_cons, groupCounts_cons]
  simp only [GroupCounts.exchange, Nat.add_right_comm _ _ ((f r).memberOf g), Nat.add_right_comm _ _ ((f r).settledOf g),
    Nat.add_sub_cancel]

end

theorem settledComplete_updateMark {table : List MarkRecord} {mark : Nat} {f : MarkRecord → MarkRecord}
    (h : ∀ r ∈ table, r.SettledComplete) (changed : ∀ r, (f r).SettledComplete) :
    ∀ r ∈ updateMark table mark f, r.SettledComplete := by
  intro r' hr'
  obtain ⟨r, hr, rfl⟩ := List.mem_map.mp hr'
  split
  · exact changed r
  · exact h r hr

end Sys2Proof.Machine
end

