-- ==== Sys2Proof/Proofs/GroupFrame.lean ====
section
/-! SUPPORT. The operations that make no report to the tally groups: they leave the counts alone, and of the records all that the groups
see (R135, R136). -/

namespace Sys2Proof.Machine

/-! ### The groups under signals, requests and the link -/

namespace State

section
variable (s : State)

theorem settleEvent_groups (first : MeetOrder) {ends : State → State} (h : ∀ v : State, (ends v).groups = v.groups) :
    (s.settleEvent first ends).groups = s.groups := by
  cases first <;> simp [State.settleEvent, h]

@[simp] theorem sampleChannel_groups (k : ChannelIx) (increment : Int) (amplitude : Nat) (first : MeetOrder) :
    (s.sampleChannel k increment amplitude first).groups = s.groups :=
  (settleEvent_groups _ first fun v => v.passSees_groups _ _ _).trans (by simp)

@[simp] theorem linesLoseReference_groups (tracked : State) : (s.linesLoseReference tracked).groups = s.groups :=
  List.foldlRecOn _ _ (motive := fun t : State => t.groups = s.groups) rfl fun t kept _ _ => (t.linesSee_groups _ _ _ _ _).trans kept

theorem abortWhere_groups (p : Prop) [Decidable p] (cause : AbortCause) :
    (if p then s.abortLivePass cause else s).groups = s.groups := by
  split
  · exact s.abortLivePass_groups cause
  · rfl

@[simp] theorem referenceLost_groups (first : MeetOrder) : (s.referenceLost first).groups = s.groups := by
  have lost : ((List.finRange 6).foldl State.loseReference { s with monitor := .absent, period := none }).groups = s.groups := by
    obtain ⟨-, rest, -⟩ := State.loseReferences_spec { s with monitor := .absent, period := none }
    rw [rest]
  exact (settleEvent_groups _ first fun v => v.abortWhere_groups _ _).trans ((linesLoseReference_groups _ s).trans lost)

@[simp] theorem leadingEdge_groups (i : LineId) (phase : Nat) : (s.leadingEdge i phase).groups = s.groups := by
  unfold State.leadingEdge
  simp only
  repeat' split
  all_goals simp

@[simp] theorem trailingEdge_groups (i : LineId) (phase : Nat) : (s.trailingEdge i phase).groups = s.groups := by
  unfold State.trailingEdge State.closeLine
  simp only
  repeat' split
  all_goals simp

@[simp] theorem configureAxis_groups (k : ChannelIx) (f : SetAxisFields) (first : MeetOrder) :
    (s.configureAxis k f first).groups = s.groups := by
  unfold State.configureAxis
  simp only
  split
  · rfl
  · exact (settleEvent_groups _ first fun v => v.abortWhere_groups _ _).trans (by simp)

@[simp] theorem setAxisRequest_groups (f : SetAxisFields) (first : MeetOrder) : (s.setAxisRequest f first).groups = s.groups := by
  unfold State.setAxisRequest
  repeat' split
  all_goals simp

@[simp] theorem trackRequest_groups (channel : Nat) : (s.trackRequest channel).groups = s.groups := by
  unfold State.trackRequest
  simp only
  repeat' split
  all_goals simp

@[simp] theorem restartRequest_groups (channel : Nat) : (s.restartRequest channel).groups = s.groups := by
  unfold State.restartRequest
  simp only
  repeat' split
  all_goals simp

@[simp] theorem zeroRequest_groups (channel : Nat) (value : Position) : (s.zeroRequest channel value).groups = s.groups := by
  unfold State.zeroRequest
  simp only
  repeat' split
  all_goals simp

@[simp] theorem setLineRequest_groups (f : SetLineFields) : (s.setLineRequest f).groups = s.groups := by
  unfold State.setLineRequest
  repeat' split
  all_goals simp

@[simp] theorem abortPassRequest_groups (number : Nat) : (s.abortPassRequest number).groups = s.groups := by
  unfold State.abortPassRequest
  repeat' split
  all_goals simp

@[simp] theorem readEventsRequest_groups (option : Nat) : (s.readEventsRequest option).groups = s.groups := by
  unfold State.readEventsRequest
  split <;> rfl

@[simp] theorem clearEventsRequest_groups (word : Nat) : (s.clearEventsRequest word).groups = s.groups := by
  unfold State.clearEventsRequest
  split <;> rfl

@[simp] theorem setNoticeRequest_groups (setting word : Nat) : (s.setNoticeRequest setting word).groups = s.groups := by
  unfold State.setNoticeRequest
  split <;> rfl

@[simp] theorem unprotectRequest_groups (set : BitVec 32) : (s.unprotectRequest set).groups = s.groups := by
  unfold State.unprotectRequest
  split <;> rfl

@[simp] theorem resetRequest_groups (scope : Nat) : (s.resetRequest scope).groups = s.groups := by
  unfold State.resetRequest
  split <;> rfl

@[simp] theorem meetRival_groups (rival : Byte) : (s.meetRival rival).groups = s.groups := by
  unfold State.meetRival State.judgeAddress
  repeat' split
  all_goals rfl

@[simp] theorem linkStart_groups (address : Option Byte) : (s.linkStart address).groups = s.groups := by
  unfold State.linkStart State.judgeAddress
  repeat' split
  all_goals simp

@[simp] theorem addressedForRead_groups (extent : ReadExtent) : (s.addressedForRead extent).groups = s.groups := by
  unfold State.addressedForRead State.readResponse
  repeat' split
  all_goals rfl

@[simp] theorem startNotice_groups (rival : Option Byte) : (s.startNotice rival).groups = s.groups := by
  unfold State.startNotice
  split <;> simp

@[simp] theorem interfaceReset_groups : s.interfaceReset.groups = s.groups := by
  simp [State.interfaceReset]

@[simp] theorem reportOutcome_groups (o : MatchOutcome) : (s.reportOutcome o).groups = s.groups := by
  cases o <;> rfl

theorem claimClosing_groups : s.claimClosing.groups = s.groups := by
  unfold State.claimClosing
  split
  · exact s.closeLivePass_groups
  · rfl

@[simp] theorem finishClaim_groups (report : ClaimReport) : (s.finishClaim report).groups = s.groups := by
  cases report with
  | refused => rfl
  | applied => exact State.claimClosing_groups _

end

end State

/-! ### Commands without a report -/

/-- What the groups see of the records stands, and so do their counts, and no operation of the host's has begun. -/
structure State.KeepsMembers (s t : State) : Prop where
  members : t.table.map MarkRecord.membership = s.table.map MarkRecord.membership
  groups : t.groups = s.groups
  host : ∀ op, t.tableOp = some (.host op) → s.tableOp = some (.host op)

namespace State.KeepsMembers

theorem of_undisturbed {s t : State} (h : s.Undisturbed t) (groups : t.groups = s.groups) : s.KeepsMembers t :=
  ⟨by rw [h.table], groups, h.host⟩

theorem of_same {s t : State} (table : t.table = s.table) (groups : t.groups = s.groups) (op : t.tableOp = s.tableOp) :
    s.KeepsMembers t := ⟨by rw [table], groups, fun _ h => op.symm.trans h⟩

theorem refl (s : State) : s.KeepsMembers s := of_same rfl rfl rfl

theorem trans {s t u : State} (h : s.KeepsMembers t) (k : t.KeepsMembers u) : s.KeepsMembers u :=
  ⟨k.members.trans h.members, k.groups.trans h.groups, fun op hu => h.host op (k.host op hu)⟩

theorem ite {s t u : State} {p : Prop} [Decidable p] (ht : s.KeepsMembers t) (hu : s.KeepsMembers u) :
    s.KeepsMembers (if p then t else u) := by
  split
  · exact ht
  · exact hu

theorem answer (s : State) (status : Status) (bytes : List Byte) : s.KeepsMembers (s.answer status bytes) := of_same rfl rfl rfl

theorem reject (s : State) (code : RejectCode) : s.KeepsMembers (s.reject code) := of_same rfl rfl rfl

theorem count (s : State) (k : Counter) (n : Nat) : s.KeepsMembers (s.count k n) := of_same rfl rfl rfl

theorem arbitrate (s : State) : s.KeepsMembers s.arbitrate := of_undisturbed (.arbitrate s) (by simp)

/-- The operation in progress is over. -/
theorem free (s : State) : s.KeepsMembers { s with tableOp := none } := ⟨rfl, rfl, by simp⟩

theorem beginPassRequest (s : State) (f : BeginPassFields) : s.KeepsMembers (s.beginPassRequest f) := by
  unfold State.beginPassRequest
  refine ite (reject s _) (ite (reject s _) ?_)
  split
  · exact reject s _
  · split
    · exact reject s _
    · exact ⟨rfl, rfl, fun op h => (nomatch h)⟩

/-- A change of records that the groups do not see. -/
theorem update (s : State) (mark : Nat) {f : MarkRecord → MarkRecord}
    (unseen : ∀ r : MarkRecord, (f r).membership = r.membership) :
    s.KeepsMembers { s with table := updateMark s.table mark f } := ⟨map_membership_updateMark unseen, rfl, fun _ h => h⟩

/-! ### Matching -/

theorem updateKind (s : State) (mark : Nat) {f : KindPart → KindPart}
    (unseen : ∀ r : MarkRecord, ({ r with kind := f r.kind } : MarkRecord).membership = r.membership) :
    s.KeepsMembers (s.updateKind mark f) := update s mark unseen

theorem makeClaim (s : State) (m : MatchUnderWay) (r : MarkRecord) : s.KeepsMembers (s.makeClaim m r) := by
  have claimed (c : Channel) (m' : MatchUnderWay) : s.KeepsMembers
      { s with channels := s.channels.set s.config.axis c, tableOp := some (.sightingMatch m') } := ⟨rfl, rfl, fun _ h => (nomatch h)⟩
  unfold State.makeClaim
  simp only
  split
  · exact (claimed _ _).trans (updateKind _ _ fun r => MarkRecord.membership_withKind (.inr (.inr ⟨_, rfl⟩)))
  · exact claimed _ _

theorem finishClaim (s : State) (report : ClaimReport) : s.KeepsMembers (s.finishClaim report) :=
  of_undisturbed (.finishClaim s report) (by simp)

theorem matchSighting (s : State) (m : MatchUnderWay) : s.KeepsMembers (s.matchSighting m) := by
  have reported (v : State) (o : MatchOutcome) : v.KeepsMembers (v.reportOutcome o) :=
    of_undisturbed (.reportOutcome v o) (by simp)
  have measured (x : Sighting) : s.KeepsMembers (s.matchMeasure x) := by
    unfold State.matchMeasure
    split
    · exact reported s _
    · exact (updateKind s _ fun r => MarkRecord.membership_withKind (.inl ⟨x, _, rfl⟩)).trans (reported _ _)
  have datum (mark : Nat) : s.KeepsMembers (s.matchDatum mark m) := by
    unfold State.matchDatum
    split
    · exact finishClaim s _
    · exact refl s
    · split
      · exact count s _ _
      · exact (updateKind s mark fun r => MarkRecord.membership_withKind (.inr (.inl rfl))).trans (count _ _ _)
      · exact (makeClaim s m _).trans (finishClaim _ _)
      all_goals exact refl s
  unfold State.matchSighting
  split
  · exact measured _
  · exact datum _
  · exact refl s

/-! ### The arm sweep -/

theorem finishArmSweep {s : State} (h : ∀ r ∈ s.table, r.SettledComplete) : s.KeepsMembers s.finishArmSweep := by
  have armed : s.KeepsMembers s.armRecords := by
    unfold State.armRecords
    split
    · exact refl s
    next terms _ =>
      refine ⟨?_, rfl, fun _ h => h⟩
      rw [List.map_map]
      refine List.map_congr_left fun r hr => ?_
      simp only [Function.comp]
      split
      next arms => exact MarkRecord.membership_armed arms (h r hr)
      next => rfl
  have arrives (v : State) : v.KeepsMembers v.afterArming := by
    rw [State.afterArming_eq]
    exact of_same rfl rfl rfl
  have handed (v : State) (bytes : List Byte) : v.KeepsMembers (v.handOver .done bytes) :=
    of_undisturbed (.handOver v _ _) (by simp)
  exact (((armed.trans (handed _ _)).trans (arrives _)).trans (free _)).trans (arbitrate _)

end State.KeepsMembers

end Sys2Proof.Machine
end

