-- ==== Sys2Proof/Proofs/GroupLaw.lean ====
section
/-! SUPPORT. Every command keeps the tally groups in agreement with the table, and the proof of GroupLawIsKept (R134 to R136). -/

namespace Sys2Proof.Machine

/-! ### The law between two states -/

/-- The groups agree with the table, and SETTLED LINE records are complete, whatever operation is in progress (R44, R134). -/
structure State.Tallied (s : State) : Prop where
  counts : ∀ g : Fin 8, s.group g = groupCounts s.table g
  settled : ∀ r ∈ s.table, r.SettledComplete

/-- The law of the groups is kept, where mark numbers are unique. -/
def State.KeepsGroupLaw (s t : State) : Prop := s.TableLaw → s.GroupLaw → t.GroupLaw

theorem State.GroupLaw.tallied {s : State} (h : s.GroupLaw) : s.Tallied := ⟨h.counts, h.settled⟩

/-- Agreement is all that the law asks for while no ENROL is in progress. -/
theorem State.Tallied.law {s : State} (h : s.Tallied) (noEnrol : ∀ r, s.tableOp ≠ some (.host (.enrol r))) : s.GroupLaw :=
  ⟨h.counts, h.settled, fun r e => absurd e (noEnrol r)⟩

theorem State.Tallied.congr {s t : State} (h : s.Tallied) (table : t.table = s.table) (groups : t.groups = s.groups) : t.Tallied := by
  refine ⟨fun g => ?_, table ▸ h.settled⟩
  rw [State.group, groups, table]
  exact h.counts g

theorem State.Tallied.of_members {s t : State} (h : s.Tallied) (k : s.KeepsMembers t) : t.Tallied := by
  refine ⟨fun g => ?_, settledComplete_congr k.members h.settled⟩
  rw [groupCounts_congr k.members, State.group, k.groups]
  exact h.counts g

theorem State.GroupLaw.of_members {s t : State} (w : s.GroupLaw) (h : s.KeepsMembers t) : t.GroupLaw :=
  have ⟨counts, settled⟩ := w.tallied.of_members h
  ⟨counts, settled, fun r e => w.enrolling r (h.host _ e)⟩

/-! ### The checks of an ENROL (R119) -/

/-- The record whose ENROL the operation is, if it is one, is ENROLLED. -/
def HostOp.EnrolsEnrolled (op : HostOp) : Prop := ∀ r, op = .enrol r → r.state = .enrolled

theorem judgeRunRecord_enrolled {s : State} {run : RunRequest} {i : Nat} {r : MarkRecord} (h : s.judgeRunRecord run i = .inr r) :
    r.state = .enrolled :=
  have ⟨_, makes⟩ := (judgeRunRecord_spec s run i).2 r h
  makes.state

theorem judgeEnrol_enrolled {s : State} {mark : Nat} {nominal : Int} {f : EnrolFields} {op : HostOp}
    (h : s.judgeEnrol mark nominal f = .start op) : op.EnrolsEnrolled := by
  rintro r rfl
  unfold State.judgeEnrol at h
  split at h
  · cases h
  next within =>
    split at h
    · cases h
    · split at h
      · cases h
      next judged =>
        cases h
        obtain ⟨-, makes⟩ := (judgeRecord_spec s f mark nominal (Nat.lt_of_not_le within)).2 r judged
        exact makes.state

theorem judgeRun_enrolled {s : State} {run : RunRequest} {op : HostOp} (h : s.judgeRun run = .start op) : op.EnrolsEnrolled := by
  rintro r rfl
  unfold State.judgeRun at h
  repeat' split at h
  all_goals cases h

theorem judgeAmend_enrolled {s : State} {f : AmendFields} {op : HostOp} (h : s.judgeAmend f = .start op) : op.EnrolsEnrolled := by
  rintro r rfl
  unfold State.judgeAmend at h
  repeat' split at h
  all_goals cases h

theorem judgeRetire_enrolled {s : State} {mark : Nat} {op : HostOp} (h : s.judgeRetire mark = .start op) : op.EnrolsEnrolled := by
  rintro r rfl
  unfold State.judgeRetire at h
  repeat' split at h
  all_goals cases h

theorem judgeReopen_enrolled (s : State) (mark : Nat) : (s.judgeReopen mark).EnrolsEnrolled := by
  intro r h
  unfold State.judgeReopen at h
  repeat' split at h
  all_goals cases h

theorem judgeLookup_enrolled (s : State) (mark : Nat) : (s.judgeLookup mark).EnrolsEnrolled := by
  intro r h
  unfold State.judgeLookup at h
  repeat' split at h
  all_goals cases h

/-! ### The start of an operation of the host's -/

namespace State.KeepsGroupLaw

theorem of_members {s t : State} (h : s.KeepsMembers t) : s.KeepsGroupLaw t := fun _ w => w.of_members h

theorem refl (s : State) : s.KeepsGroupLaw s := fun _ w => w

theorem trans_members {s t u : State} (h : s.KeepsGroupLaw t) (k : t.KeepsMembers u) : s.KeepsGroupLaw u :=
  fun w g => (h w g).of_members k

/-- Nothing that the laws speak of has changed yet. -/
theorem of_same {s t u : State} (table : s.SameTable t) (groups : t.groups = s.groups) (k : t.KeepsGroupLaw u) :
    s.KeepsGroupLaw u :=
  fun w g => k (w.of_same table) (g.of_members (.of_same table.table groups table.tableOp))

theorem startHostOp {s : State} {op : HostOp} (h : op.EnrolsEnrolled) : s.KeepsGroupLaw (s.startHostOp op) :=
  fun _ w => ⟨w.counts, w.settled, fun r e => h r (by simpa [State.startHostOp] using e)⟩

theorem hostTable {s : State} {judge : State → HostOp} (h : (judge s).EnrolsEnrolled) : s.KeepsGroupLaw (s.hostTable judge) := by
  unfold State.hostTable
  split
  · exact startHostOp h
  · exact of_members (.reject s _)

theorem hostTableGuarded {s : State} {judge : State → Verdict} {shielded : State → State}
    (h : ∀ op, judge s = .start op → op.EnrolsEnrolled) (hs : ∀ u : State, u.KeepsMembers (shielded u)) :
    s.KeepsGroupLaw (s.hostTableGuarded judge shielded) := by
  unfold State.hostTableGuarded
  split
  · split
    next op e => exact startHostOp (h op e)
    next mark _ =>
      have fault : s.KeepsMembers (s.protectionFault mark) := .of_same rfl rfl rfl
      exact of_members (fault.trans (hs _))
  · exact of_members (.reject s _)

theorem setMatchRequest (s : State) (f : SetMatchFields) : s.KeepsGroupLaw (s.setMatchRequest f) := by
  unfold State.setMatchRequest
  split
  · exact of_members (.reject s _)
  · split
    · exact of_members (.reject s _)
    · split
      · exact of_members (.of_same rfl rfl rfl)
      · split
        · exact of_members (.reject s _)
        · split <;> exact startHostOp fun _ enrol => (nomatch enrol)

end State.KeepsGroupLaw

/-! ### The effects of the operations of the host (Table 8-1) -/

namespace State.Tallied

theorem insertNew {s : State} (h : s.Tallied) {r : MarkRecord} (enrolled : r.state = .enrolled) : (s.insertNew r).Tallied := by
  have unsettled (g : Fin 8) : r.settledOf g = 0 := by simp [MarkRecord.settledOf, enrolled]
  refine ⟨fun g => ?_, fun x hx => ?_⟩
  · rw [group_insertNew, insertNew_table, groupCounts_insertRecord, h.counts, unsettled]
    rfl
  · rw [insertNew_table] at hx
    obtain rfl | hx := mem_insertRecord.mp hx
    · exact MarkRecord.settledComplete_of_ne (by simp [enrolled])
    · exact h.settled x hx

/-- One report per record that a run enrols (R135). -/
theorem runFrom {s : State} (h : s.Tallied) (run : RunRequest) (left i : Nat) : (State.runFrom run left i s).1.Tallied :=
  State.runFrom_of (P := State.Tallied) (fun _ _ _ hv judged => hv.insertNew (judgeRunRecord_enrolled judged)) left i s h

section
variable {s : State} (h : s.Tallied) (w : s.TableLaw) {r : MarkRecord} (hr : r ∈ s.table)
include h w hr

theorem applyAmend (a : Amendment) : (s.applyAmend r a).Tallied := by
  have table : (s.applyAmend r a).table = updateMark s.table r.mark fun _ => r.amendedAtOnce a := by
    rw [State.applyAmend_eq, reportAmended_table]
    rfl
  refine ⟨fun g => ?_, ?_⟩
  · rw [State.group_applyAmend, table, groupCounts_updateMark w hr, h.counts]
  · rw [table]
    exact settledComplete_updateMark h.settled fun _ => MarkRecord.settledComplete_restLine _

theorem removeRecord : (s.removeRecord r).Tallied := by
  have table : (s.removeRecord r).table = removeMark s.table r.mark := by
    rw [State.removeRecord_rest]
    rfl
  refine ⟨fun g => ?_, fun x hx => ?_⟩
  · rw [State.group_removeRecord, table, groupCounts_removeMark w hr, h.counts]
  · rw [table] at hx
    exact h.settled x (List.mem_of_mem_filter hx)

/-- A reopened record stays in its group, and gives back its settledness (R130, R135). -/
theorem reopenRecord {l : LinePart} (line : r.kind = .line l) : (s.reopenRecord r l).Tallied := by
  refine ⟨fun g => ?_, settledComplete_updateMark h.settled fun _ => MarkRecord.settledComplete_of_ne (by simp)⟩
  have member : ({ r with kind := .line l.reopened, state := .enrolled } : MarkRecord).memberOf g = r.memberOf g := by
    rw [MarkRecord.memberOf_line line, MarkRecord.memberOf_line rfl]
    rfl
  have unsettled : ({ r with kind := .line l.reopened, state := .enrolled } : MarkRecord).settledOf g = 0 := by
    simp [MarkRecord.settledOf]
  rw [State.reopenRecord, State.group_groupReport_settled _ r line, State.groupReport_table, groupCounts_updateMark w hr,
    GroupCounts.exchange, member, unsettled, ← h.counts g, Nat.add_sub_cancel]
  rfl

end

theorem completeHostOp {s : State} (w : s.TableLaw) (g : s.GroupLaw) {op : HostOp} (ho : s.tableOp = some (.host op)) :
    (s.completeHostOp op).1.Tallied := by
  have h := g.tallied
  cases op
  case enrol r => exact h.insertNew (g.enrolling r ho)
  case enrolRun run => exact h.runFrom run _ _
  case amend mark a =>
    simp only [State.completeHostOp]
    split
    · exact h
    next found =>
      split
      · exact h.applyAmend w (findMark_mem found).1 a
      · exact h.of_members (.update s mark fun _ => rfl)
  case retire mark =>
    simp only [State.completeHostOp]
    split
    · exact h
    next found =>
      split
      · exact h.removeRecord w (findMark_mem found).1
      · exact h.of_members (.update s mark fun _ => rfl)
  case reopen mark =>
    simp only [State.completeHostOp]
    split
    · exact h
    next found =>
      split
      next line => exact h.reopenRecord w (findMark_mem found).1 line
      · exact h
      · exact h
  case lookup mark =>
    simp only [State.completeHostOp]
    split <;> exact h
  case setMatch m => exact h.congr rfl rfl
  all_goals exact h

/-! ### The one report of a sweep (R136) -/

/-- The net change between two tables leads counts that agree with the one to counts that agree with the other. -/
theorem sweepRecords {s : State} (h : s.Tallied) (resolve : MarkRecord → MarkRecord) : (s.sweepRecords resolve).Tallied := by
  have table : (s.sweepRecords resolve).table = sweepTable resolve s.table := by
    rw [sweepRecords_rest]
  refine ⟨fun g => ?_, fun r' hr' => ?_⟩
  · obtain ⟨counts, -, -⟩ := State.reportSweep_spec (s.swept resolve) s.table (sweepTable resolve s.table)
    have before : (s.swept resolve).group g = groupCounts s.table g := h.counts g
    rw [table, State.sweepRecords_eq, counts g, before, Nat.add_sub_cancel_left, Nat.add_sub_cancel_left]
  · rw [table] at hr'
    obtain ⟨r, -, rfl⟩ := List.mem_map.mp hr'
    exact r.settledComplete_restLine

end State.Tallied

/-! ### The completions -/

namespace State.KeepsGroupLaw

theorem finishHostOp {s : State} {op : HostOp} (ho : s.tableOp = some (.host op)) : s.KeepsGroupLaw (s.finishHostOp op) := by
  have freed (status : Status) (bytes : List Byte) : s.KeepsGroupLaw
      { (s.completeHostOp op).1.handOver status bytes with tableOp := none } := fun w g =>
    State.Tallied.law ((State.Tallied.completeHostOp w g ho).congr (by simp) (by simp)) (by simp)
  exact (freed _ _).trans_members (.arbitrate _)

theorem finishMatch (s : State) (m : MatchUnderWay) :
    s.KeepsGroupLaw ({ s.matchSighting m with tableOp := none } : State).arbitrate :=
  of_members (((State.KeepsMembers.matchSighting s m).trans (.free _)).trans (.arbitrate _))

/-- The sweep that ends a pass (R108 to R113). -/
theorem finishSweep (s : State) (resolve : MarkRecord → MarkRecord) (missed : Nat) :
    s.KeepsGroupLaw ((s.sweepRecords resolve).endPass missed) := by
  have ended : s.KeepsGroupLaw (({ s.sweepRecords resolve with
      pass := { (s.sweepRecords resolve).pass with state := .idle, missed := missed }
      tableOp := none } : State).raise .passEnd) := fun _ g =>
    State.Tallied.law ((g.tallied.sweepRecords resolve).congr rfl rfl) (by simp)
  exact ended.trans_members (.arbitrate _)

/-! ### Every command -/

/-- After a reset the table is empty, every count is 0, and the table unit is free (R62, R140). -/
theorem of_reset (s : State) {t : State} (table : t.table = []) (groups : t.groups = Vector.replicate 8 {})
    (op : t.tableOp = none) : s.KeepsGroupLaw t := fun _ _ =>
  State.Tallied.law ⟨fun g => by simp [State.group, table, groups, groupCounts], by simp [table]⟩ (by simp [op])

/-- A request keeps the law where its owner's execution does. -/
theorem request {s : State} {len : Nat} {params : List Byte} {owner : State → State} (h : ∀ u : State, u.KeepsGroupLaw (owner u)) :
    s.KeepsGroupLaw (s.request len params owner) := by
  have taken : s.KeepsMembers (s.addressedForWrite .taken) := .of_same rfl rfl rfl
  exact s.request_of len params owner (refl s) (of_members (taken.trans (.reject _ _)))
    (of_same (.addressedForWrite s .taken) rfl (h _))

/-- A request whose owner's execution reports nothing to the groups. -/
theorem plainRequest {s : State} {len : Nat} {params : List Byte} {owner : State → State}
    (h : ∀ u : State, u.KeepsMembers (owner u)) : s.KeepsGroupLaw (s.request len params owner) := request fun u => of_members (h u)

/-- A request whose owner's execution leaves the records alone. -/
theorem undisturbedRequest {s : State} {len : Nat} {params : List Byte} {owner : State → State}
    (h : ∀ u : State, u.Undisturbed (owner u)) (groups : ∀ u : State, (owner u).groups = u.groups) :
    s.KeepsGroupLaw (s.request len params owner) := plainRequest fun u => .of_undisturbed (h u) (groups u)

theorem whileOperating {s : State} {f : State → State} (h : s.KeepsGroupLaw (f s)) : s.KeepsGroupLaw (s.whileOperating f) :=
  s.whileOperating_of f (refl s) h

/-- A command that reports nothing to the groups where it is carried out. -/
theorem plainOperating {s : State} {f : State → State} (h : s.KeepsMembers (f s)) : s.KeepsGroupLaw (s.whileOperating f) :=
  whileOperating (of_members h)

/-- A command that leaves the records alone where it is carried out. -/
theorem undisturbedOperating {s : State} {f : State → State} (h : s.Undisturbed (f s)) (groups : (f s).groups = s.groups) :
    s.KeepsGroupLaw (s.whileOperating f) := plainOperating (.of_undisturbed h groups)

end State.KeepsGroupLaw

open State.KeepsGroupLaw in
/-- Every command keeps the groups in agreement with the table. -/
theorem exec_keepsGroupLaw (c : Instr) (s t : State) (h : exec c s = .next t) : s.KeepsGroupLaw t := by
  have same := State.KeepsMembers.refl s
  cases c <;> obtain rfl := Host.Outcome.next.inj h
  case sampleEvent k increment amplitude first =>
    exact plainOperating (.ite same (.of_undisturbed (.sampleChannel s _ _ _ _) (s.sampleChannel_groups _ _ _ _)))
  case referenceAbsenceTimeout first =>
    exact plainOperating (.ite (.of_undisturbed (.referenceLost s first) (s.referenceLost_groups first)) same)
  case referenceEdge => exact plainOperating (.of_same rfl rfl rfl)
  case leadingEdge i phase => exact undisturbedOperating (.leadingEdge s i _) (s.leadingEdge_groups i _)
  case trailingEdge i phase => exact undisturbedOperating (.trailingEdge s i _) (s.trailingEdge_groups i _)
  case matchCompletion =>
    refine whileOperating ?_
    split
    · exact finishMatch s _
    all_goals exact refl s
  case datumOffsetClaim =>
    refine plainOperating ?_
    split
    · split
      · exact .makeClaim s _ _
      · exact same
    all_goals exact same
  case armSweepCompletion =>
    refine whileOperating ?_
    split
    · exact fun _ w => w.of_members (.finishArmSweep w.settled)
    · exact refl s
  case closeSweepCompletion =>
    refine whileOperating ?_
    split
    · exact finishSweep s _ _
    · exact refl s
  case abortSweepCompletion =>
    refine whileOperating ?_
    split
    · exact finishSweep s _ _
    · exact refl s
  case tableOperationCompletion =>
    refine whileOperating ?_
    split
    next ho => exact finishHostOp ho
    all_goals exact refl s
  case passTimerExpiry =>
    have stopped : s.Undisturbed { s with passTimer := false } := .of_same rfl rfl rfl rfl
    have aborted := (stopped.trans (.abortLivePass _ .timeout)).trans (.arbitrate _)
    exact plainOperating (.ite (.of_undisturbed aborted (by simp)) same)
  case setAxis params first => exact undisturbedRequest (.setAxisRequest · _ _) (·.setAxisRequest_groups _ _)
  case trackAxis params => exact undisturbedRequest (.trackRequest · _) (·.trackRequest_groups _)
  case restartAxis params => exact undisturbedRequest (.restartRequest · _) (·.restartRequest_groups _)
  case zeroAxis params => exact undisturbedRequest (.zeroRequest · _ _) (·.zeroRequest_groups _ _)
  case readAxes params => exact plainRequest fun u => .answer u _ _
  case setMatch params => exact request fun u => setMatchRequest u _
  case setLine params => exact undisturbedRequest (.setLineRequest · _) (·.setLineRequest_groups _)
  case readLines params => exact plainRequest fun u => .answer u _ _
  case enrol params => exact request fun u => hostTableGuarded (fun _ h => judgeEnrol_enrolled h) fun v => .reject v _
  case enrolRun params => exact request fun u => hostTableGuarded (fun _ h => judgeRun_enrolled h) fun v => .answer v _ _
  case amend params => exact request fun u => hostTableGuarded (fun _ h => judgeAmend_enrolled h) fun v => .reject v _
  case retire params => exact request fun u => hostTableGuarded (fun _ h => judgeRetire_enrolled h) fun v => .reject v _
  case reopen params => exact request fun u => hostTable (judgeReopen_enrolled u _)
  case lookup params => exact request fun u => hostTable (judgeLookup_enrolled u _)
  case readRange params => exact request fun u => hostTable fun _ enrol => (nomatch enrol)
  case beginPass params => exact plainRequest fun u => .beginPassRequest u _
  case abortPass params => exact undisturbedRequest (.abortPassRequest · _) (·.abortPassRequest_groups _)
  case readPass params => exact plainRequest fun u => .answer u _ _
  case readGroups params => exact request fun u => hostTable fun _ enrol => (nomatch enrol)
  case protect params => exact plainRequest fun u => .of_same rfl rfl rfl
  case unprotect params => exact undisturbedRequest (.unprotectRequest · _) (·.unprotectRequest_groups _)
  case readProtect params => exact plainRequest fun u => .answer u _ _
  case readEvents params => exact undisturbedRequest (.readEventsRequest · _) (·.readEventsRequest_groups _)
  case clearEvents params => exact undisturbedRequest (.clearEventsRequest · _) (·.clearEventsRequest_groups _)
  case setNotice params => exact undisturbedRequest (.setNoticeRequest · _ _) (·.setNoticeRequest_groups _ _)
  case identify params => exact plainRequest fun u => .of_same rfl rfl rfl
  case reset params => exact undisturbedRequest (.resetRequest · _) (·.resetRequest_groups _)
  case unknownRequest code params => exact plainRequest fun u => .reject u _
  case linkFault cause => exact of_members (.ite same (.of_same rfl rfl rfl))
  case linkStart address => exact undisturbedOperating (.linkStart s _) (s.linkStart_groups _)
  case linkStop straps =>
    have stopped : s.KeepsMembers s.stopExchange := .of_same rfl rfl rfl
    have reset (v : State) : v.KeepsMembers v.interfaceReset := .of_undisturbed (.interfaceReset v) v.interfaceReset_groups
    refine whileOperating ?_
    unfold State.linkStop
    split
    · exact of_reset s rfl rfl rfl
    · exact of_members (.ite (stopped.trans (reset _)) stopped)
  case responseRead extent => exact undisturbedOperating (.addressedForRead s _) (s.addressedForRead_groups _)
  case poll extent => exact undisturbedOperating (.addressedForRead s _) (s.addressedForRead_groups _)
  case noticeStart rival => exact plainOperating (.ite (.of_undisturbed (.startNotice s _) (s.startNotice_groups _)) same)
  case noticeWithdraw => exact plainOperating (.ite (.of_same rfl rfl rfl) same)
  case powerOnReset => exact of_reset s rfl rfl rfl
  case powerOnHoldEnd straps => exact of_members (.ite (.of_same rfl rfl rfl) same)
  case pinResetAssert =>
    split
    · exact of_members (.of_same rfl rfl rfl)
    · exact of_reset s rfl rfl rfl
  case pinResetRelease straps => exact of_members (.ite same (.ite (.of_same rfl rfl rfl) (.of_same rfl rfl rfl)))
  case supplyFailure => exact of_members (.of_same rfl rfl rfl)

/-- Settles O57: a step carries out the front command on the state with the queue's rest, or idles. -/
theorem groupLawIsKept : Obligations.GroupLawIsKept := by
  intro s t w g h
  unfold step at h
  split at h
  · obtain rfl := Host.Outcome.next.inj h
    exact g
  next c rest _ =>
    have shorter : s.KeepsGroupLaw t :=
      .of_same (t := { s with pending := rest }) ⟨rfl, rfl, rfl⟩ rfl (exec_keepsGroupLaw c _ t h)
    exact shorter w g

end Sys2Proof.Machine
end

