-- ==== Sys2Proof/Proofs/ProtectionRequests.lean ====
section
/-! SUPPORT. PROTECT, UNPROTECT and READ PROTECT (R144, R145, R148), and the table requests that a protected segment refuses
(R146, R147). -/

namespace Sys2Proof.Machine

/-! ### PROTECT, UNPROTECT and READ PROTECT (R144, R145, R148) -/

theorem segmentSet_fourBytes (set : BitVec 32) : segmentSet (fourBytes set) = set := by
  have four : ((fourBytes set).drop 0).take 4 = fourBytes set := rfl
  rw [segmentSet, field, four, beNat_four, BitVec.ofNat_toNat, BitVec.setWidth_eq]

/-- The new map is stored, and answered as a request that changed nothing else is. -/
theorem State.setMap_responding (s : State) (map : BitVec 32) :
    (s.responding .empty).setMap map
      = { s with protection := { s.protection with map := map } }.answered (fourBytes map) := by
  rw [← beBytes_four]
  rfl

/-- The bytes of the last protection fault (Table 12-3): its code, and its mark number where it has one. -/
def ProtectionFault.bytes : ProtectionFault → List Byte
  | .none => [0, 0xFF, 0xFF]
  | .request mark => 1 :: twoBytes (BitVec.ofNat 16 mark)
  | .unprotectRefused => [2, 0xFF, 0xFF]

theorem Protection.report_eq (p : Protection) :
    p.report = fourBytes p.map ++ [if p.cal = .tied then 1 else 0] ++ p.fault.bytes := by
  obtain ⟨map, cal, fault⟩ := p
  have strap : oneByte (match cal with | .tied => 1 | .untied => 0) = [if cal = .tied then 1 else 0] := by
    cases cal <;> rfl
  have last : oneByte fault.code
      ++ beBytes 2 (match fault with | .request mark => mark | .none => 0xFFFF | .unprotectRefused => 0xFFFF)
      = fault.bytes := by
    cases fault with
    | request mark => rw [beBytes_two, oneByte_eq]; rfl
    | none | unprotectRefused => rfl
  rw [← beBytes_four, ← strap, ← last, ← List.append_assoc]
  rfl

section
variable {s : State} (h : s.receives)
include h

theorem exec_readProtect : exec (.readProtect []) s = .next (s.answered s.protection.report) := by
  simp only [exec, execReadProtect, h.request_eq (len := 0) (params := []) rfl]
  rfl

theorem exec_protect (set : BitVec 32) :
    exec (.protect (fourBytes set)) s = .next ((s.responding .empty).setMap (s.protection.map ||| set)) := by
  simp only [exec, execProtect, h.request_eq (len := 4) (params := fourBytes set) rfl, segmentSet_fourBytes]
  rfl

theorem exec_unprotect (set : BitVec 32) :
    exec (.unprotect (fourBytes set)) s = .next ((s.responding .empty).unprotectRequest set) := by
  simp only [exec, execUnprotect, h.request_eq (len := 4) (params := fourBytes set) rfl, segmentSet_fourBytes]

end

theorem State.unprotectRequest_tied {s : State} (tied : s.protection.cal = .tied) (set : BitVec 32) :
    s.unprotectRequest set = s.setMap (s.protection.map &&& ~~~set) := by
  rw [State.unprotectRequest, tied]

theorem State.unprotectRequest_untied {s : State} (untied : s.protection.cal = .untied) (set : BitVec 32) :
    s.unprotectRequest set = s.refuseUnprotect := by
  rw [State.unprotectRequest, untied]

/-- Settles O23: the sampled CAL state alone decides on an UNPROTECT. -/
theorem protectionRequestsJudgedByCal : Obligations.ProtectionRequestsJudgedByCal := by
  refine ⟨fun s set h => ?_, fun s set h => ⟨fun tied => ?_, fun untied => ?_⟩, fun s h => ?_⟩
  · rw [exec_protect h, s.setMap_responding]
  · have held : (s.responding .empty).protection.cal = .tied := tied
    rw [exec_unprotect h, State.unprotectRequest_tied held, s.setMap_responding]
    rfl
  · have held : (s.responding .empty).protection.cal = .untied := untied
    rw [exec_unprotect h, State.unprotectRequest_untied held]
    rfl
  · rw [exec_readProtect h, s.protection.report_eq]
    rfl

/-! ### Requests for a protected segment (R146, R147) -/

section
variable {s : State} {mark : Nat} (within : mark < 4096) (covered : s.protection.covers mark = true)
include within covered

theorem judgeEnrol_covered (nominal : Int) (f : EnrolFields) : s.judgeEnrol mark nominal f = .shielded mark := by
  rw [State.judgeEnrol, Config.markLimit, if_neg (Nat.not_le.mpr within), if_pos covered]

theorem judgeRetire_covered : s.judgeRetire mark = .shielded mark := by
  rw [State.judgeRetire, Config.markLimit, if_neg (Nat.not_le.mpr within), if_pos covered]

end

theorem judgeAmend_covered {s : State} {f : AmendFields} (within : f.mark < 4096) (covered : s.protection.covers f.mark = true) :
    s.judgeAmend f = .shielded f.mark := by
  rw [State.judgeAmend, Config.markLimit, if_neg (Nat.not_le.mpr within), if_pos covered]

theorem judgeRun_covered {s : State} {run : RunRequest} (within : run.firstMark < 4096)
    (covered : s.protection.covers run.firstMark = true) (least : 1 ≤ run.count) (most : run.count ≤ 16)
    (pitch : run.pitch ≠ 0) : s.judgeRun run = .shielded run.firstMark := by
  have wellFormed : ¬(run.count < 1 ∨ 16 < run.count ∨ run.pitch = 0) := by omega
  rw [State.judgeRun, if_neg wellFormed, covered, Config.markLimit, decide_eq_true within, Bool.and_self, if_pos rfl]

/-- A request that a protected segment refuses, sent to a free table unit, records the mark number, raises PROTECT_FAULT and is
answered at once (R146, R147, log 12). -/
theorem request_hostTableGuarded_shielded {s : State} (received : s.receives) (free : s.tableFree = true) {len : Nat}
    {params : List Byte} (sized : params.length = len) {judge : State → Verdict} {mark : Nat}
    (judged : judge (s.responding .empty) = .shielded mark) (status : Status) (bytes : List Byte) :
    s.request len params (fun u => u.hostTableGuarded judge fun v => v.answer status bytes)
      = { s with
          protection := { s.protection with fault := .request mark }
          events := { s.events with notice := none }.raise .protectFault }.responding (.ready status bytes) := by
  have ready : (s.responding .empty).tableFree = true := free
  rw [received.request_eq sized, State.hostTableGuarded, ready, if_pos rfl, judged]
  rfl

/-- Settles O24: past the arbiter, the checks of each of the four requests end at the protected segment. -/
theorem protectedSegmentRefusesChanges : Obligations.ProtectedSegmentRefusesChanges := by
  intro s params received free mark shielded within barred
  have covered : (s.responding .empty).protection.covers mark = true := barred
  refine ⟨fun sized => ?_, fun sized => ?_, fun sized => ?_, fun sized least most pitch => ?_⟩
  · exact congrArg Host.Outcome.next
      (request_hostTableGuarded_shielded received free sized (judgeEnrol_covered within covered _ _) _ _)
  · exact congrArg Host.Outcome.next
      (request_hostTableGuarded_shielded received free sized (judgeAmend_covered within covered) _ _)
  · exact congrArg Host.Outcome.next
      (request_hostTableGuarded_shielded received free sized (judgeRetire_covered within covered) _ _)
  · exact congrArg Host.Outcome.next
      (request_hostTableGuarded_shielded received free sized (judgeRun_covered within covered least most pitch) _ _)

end Sys2Proof.Machine
end

