-- ==== Sys2Proof/Proofs/ProtectionBits.lean ====
section
/-! SUPPORT. Which operations leave the protection block alone, and which commands can clear a protection bit (R142, R143). -/

namespace Sys2Proof.Machine

namespace State

section
variable (s : State)

/-! ### Signals -/

theorem settleEvent_protection (first : MeetOrder) {ends : State → State}
    (h : ∀ v : State, (ends v).protection = v.protection) : (s.settleEvent first ends).protection = s.protection := by
  cases first <;> simp [State.settleEvent, h]

theorem abortWhere_protection (p : Prop) [Decidable p] (cause : AbortCause) :
    (if p then s.abortLivePass cause else s).protection = s.protection := by
  split
  · exact s.abortLivePass_protection cause
  · rfl

theorem sampleChannel_protection (k : ChannelIx) (increment : Int) (amplitude : Nat) (first : MeetOrder) :
    (s.sampleChannel k increment amplitude first).protection = s.protection :=
  (settleEvent_protection _ first fun v => v.passSees_protection _ _ _).trans (by simp)

theorem linesLoseReference_protection (tracked : State) : (s.linesLoseReference tracked).protection = s.protection :=
  List.foldlRecOn _ _ (motive := fun t : State => t.protection = s.protection) rfl
    fun t kept _ _ => (t.linesSee_protection _ _ _ _ _).trans kept

theorem referenceLost_protection (first : MeetOrder) : (s.referenceLost first).protection = s.protection := by
  have lost : ((List.finRange 6).foldl State.loseReference { s with monitor := .absent, period := none }).protection
      = s.protection := by
    obtain ⟨-, rest, -⟩ := State.loseReferences_spec { s with monitor := .absent, period := none }
    rw [rest]
  exact (settleEvent_protection _ first fun v => v.abortWhere_protection _ _).trans
    ((linesLoseReference_protection _ s).trans lost)

theorem leadingEdge_protection (i : LineId) (phase : Nat) : (s.leadingEdge i phase).protection = s.protection := by
  unfold State.leadingEdge
  simp only
  repeat' split
  all_goals simp

theorem trailingEdge_protection (i : LineId) (phase : Nat) : (s.trailingEdge i phase).protection = s.protection := by
  unfold State.trailingEdge State.closeLine
  simp only
  repeat' split
  all_goals simp

/-! ### Requests -/

theorem configureAxis_protection (k : ChannelIx) (f : SetAxisFields) (first : MeetOrder) :
    (s.configureAxis k f first).protection = s.protection := by
  unfold State.configureAxis
  simp only
  split
  · rfl
  · exact (settleEvent_protection _ first fun v => v.abortWhere_protection _ _).trans (by simp)

theorem setAxisRequest_protection (f : SetAxisFields) (first : MeetOrder) :
    (s.setAxisRequest f first).protection = s.protection := by
  unfold State.setAxisRequest
  repeat' split
  all_goals simp [s.configureAxis_protection]

theorem trackRequest_protection (channel : Nat) : (s.trackRequest channel).protection = s.protection := by
  unfold State.trackRequest
  simp only
  repeat' split
  all_goals rfl

theorem restartRequest_protection (channel : Nat) : (s.restartRequest channel).protection = s.protection := by
  unfold State.restartRequest
  simp only
  repeat' split
  all_goals rfl

theorem zeroRequest_protection (channel : Nat) (value : Position) : (s.zeroRequest channel value).protection = s.protection := by
  unfold State.zeroRequest
  simp only
  repeat' split
  all_goals rfl

theorem setMatchRequest_protection (f : SetMatchFields) : (s.setMatchRequest f).protection = s.protection := by
  unfold State.setMatchRequest
  repeat' split
  all_goals rfl

theorem setLineRequest_protection (f : SetLineFields) : (s.setLineRequest f).protection = s.protection := by
  unfold State.setLineRequest
  repeat' split
  all_goals simp

theorem hostTable_protection (judge : State → HostOp) : (s.hostTable judge).protection = s.protection := by
  unfold State.hostTable
  split <;> rfl

theorem beginPassRequest_protection (f : BeginPassFields) : (s.beginPassRequest f).protection = s.protection := by
  unfold State.beginPassRequest
  repeat' split
  all_goals rfl

theorem abortPassRequest_protection (number : Nat) : (s.abortPassRequest number).protection = s.protection := by
  unfold State.abortPassRequest
  repeat' split
  all_goals simp

theorem readEventsRequest_protection (option : Nat) : (s.readEventsRequest option).protection = s.protection := by
  unfold State.readEventsRequest
  split <;> rfl

theorem clearEventsRequest_protection (word : Nat) : (s.clearEventsRequest word).protection = s.protection := by
  unfold State.clearEventsRequest
  split <;> rfl

theorem setNoticeRequest_protection (setting word : Nat) : (s.setNoticeRequest setting word).protection = s.protection := by
  unfold State.setNoticeRequest
  split <;> rfl

theorem resetRequest_protection (scope : Nat) : (s.resetRequest scope).protection = s.protection := by
  unfold State.resetRequest
  split <;> rfl

/-! ### The link -/

theorem meetRival_protection (rival : Byte) : (s.meetRival rival).protection = s.protection := by
  unfold State.meetRival State.judgeAddress
  repeat' split
  all_goals rfl

theorem linkStart_protection (address : Option Byte) : (s.linkStart address).protection = s.protection := by
  unfold State.linkStart State.judgeAddress
  repeat' split
  all_goals simp [s.meetRival_protection]

theorem addressedForRead_protection (extent : ReadExtent) : (s.addressedForRead extent).protection = s.protection := by
  unfold State.addressedForRead State.readResponse
  repeat' split
  all_goals rfl

theorem startNotice_protection (rival : Option Byte) : (s.startNotice rival).protection = s.protection := by
  unfold State.startNotice
  split
  · rfl
  · exact meetRival_protection _ _

theorem interfaceReset_protection : s.interfaceReset.protection = s.protection := by
  simp [State.interfaceReset]

/-! ### Matching and the sweeps -/

theorem reportOutcome_protection (o : MatchOutcome) : (s.reportOutcome o).protection = s.protection := by
  cases o <;> rfl

theorem claimClosing_protection : s.claimClosing.protection = s.protection := by
  unfold State.claimClosing
  split
  · exact s.closeLivePass_protection
  · rfl

theorem finishClaim_protection (report : ClaimReport) : (s.finishClaim report).protection = s.protection := by
  cases report with
  | refused => rfl
  | applied => exact claimClosing_protection _

theorem makeClaim_protection (m : MatchUnderWay) (r : MarkRecord) : (s.makeClaim m r).protection = s.protection := by
  unfold State.makeClaim
  simp only
  split <;> rfl

theorem matchMeasure_protection (x : Sighting) : (s.matchMeasure x).protection = s.protection := by
  unfold State.matchMeasure
  split <;> exact reportOutcome_protection _ _

theorem matchDatum_protection (mark : Nat) (m : MatchUnderWay) : (s.matchDatum mark m).protection = s.protection := by
  unfold State.matchDatum
  split
  · exact s.finishClaim_protection _
  · rfl
  · split
    case h_3 => exact (finishClaim_protection _ _).trans (s.makeClaim_protection _ _)
    all_goals rfl

theorem matchSighting_protection (m : MatchUnderWay) : (s.matchSighting m).protection = s.protection := by
  unfold State.matchSighting
  split
  · exact s.matchMeasure_protection _
  · exact s.matchDatum_protection _ _
  · rfl

theorem armRecords_protection : s.armRecords.protection = s.protection := by
  unfold State.armRecords
  split <;> rfl

theorem finishArmSweep_protection : s.finishArmSweep.protection = s.protection := by
  simp [State.finishArmSweep, State.afterArming_eq, s.armRecords_protection]

/-- The sweep that ends a pass, whatever its first step. -/
theorem finishSweep_protection (resolve : MarkRecord → MarkRecord) (missed : Nat) :
    ((s.sweepRecords resolve).endPass missed).protection = s.protection := by
  rw [State.endPass, State.arbitrate_protection, sweepRecords_rest]
  rfl

/-! ### The operations of the host -/

theorem insertNew_protection (r : MarkRecord) : (s.insertNew r).protection = s.protection := by
  rw [insertNew_rest]

theorem reportAmended_protection (before after : MarkRecord) : (s.reportAmended before after).protection = s.protection := by
  rw [reportAmended_rest]

theorem completeHostOp_protection (op : HostOp) : (s.completeHostOp op).1.protection = s.protection := by
  cases op
  case enrol r => exact s.insertNew_protection r
  case enrolRun run =>
    exact State.runFrom_of (P := fun v => v.protection = s.protection)
      (fun v _ r kept _ => (v.insertNew_protection r).trans kept) _ _ s rfl
  case amend mark a =>
    simp only [State.completeHostOp]
    split
    · rfl
    · split
      · exact reportAmended_protection _ _ _
      · rfl
  case retire mark =>
    simp only [State.completeHostOp]
    split
    · rfl
    · split
      · rw [State.removeRecord_rest]
        rfl
      · rfl
  case reopen mark =>
    simp only [State.completeHostOp]
    repeat' split
    all_goals rfl
  case lookup mark =>
    simp only [State.completeHostOp]
    split <;> rfl
  all_goals rfl

theorem finishHostOp_protection (op : HostOp) : (s.finishHostOp op).protection = s.protection := by
  simp [State.finishHostOp, s.completeHostOp_protection]

end

end State

/-! ### Protection bits that stand -/

/-- Every protection bit that is set in the one state is set in the other (R142). -/
def State.KeepsBits (s t : State) : Prop :=
  ∀ k : Fin 32, s.protection.map.getLsbD k.val = true → t.protection.map.getLsbD k.val = true

namespace State.KeepsBits

theorem of_map {s t : State} (map : t.protection.map = s.protection.map) : s.KeepsBits t := fun _ => by
  rw [map]
  exact id

theorem of_same {s t : State} (same : t.protection = s.protection) : s.KeepsBits t := of_map (by rw [same])

theorem refl (s : State) : s.KeepsBits s := of_same rfl

theorem ite {s t u : State} {p : Prop} [Decidable p] (ht : s.KeepsBits t) (hu : s.KeepsBits u) :
    s.KeepsBits (if p then t else u) := by
  split
  · exact ht
  · exact hu

/-- PROTECT sets bits and clears none (R144). -/
theorem setMap_or (s : State) (set : BitVec 32) : s.KeepsBits (s.setMap (s.protection.map ||| set)) := fun k held => by
  rw [State.setMap_protection, BitVec.getLsbD_or, held, Bool.true_or]

/-- A refused UNPROTECT clears nothing (R145). -/
theorem unprotectRequest {s : State} (untied : s.protection.cal ≠ .tied) (set : BitVec 32) :
    s.KeepsBits (s.unprotectRequest set) := by
  unfold State.unprotectRequest
  split
  next tied => exact absurd tied untied
  next => exact of_map rfl

/-- A table request with a protection check records at most a fault (R146, R147). -/
theorem hostTableGuarded (s : State) (judge : State → Verdict) {shielded : State → State}
    (h : ∀ u : State, (shielded u).protection = u.protection) : s.KeepsBits (s.hostTableGuarded judge shielded) := by
  unfold State.hostTableGuarded
  split
  · split
    · exact of_map rfl
    · exact of_map (by rw [h]; rfl)
  · exact of_map rfl

/-! ### Every command -/

/-- A request keeps the bits where its owner's execution in TAKEN does. -/
theorem request {s : State} {len : Nat} {params : List Byte} {owner : State → State}
    (h : s.KeepsBits (owner (s.addressedForWrite .taken))) : s.KeepsBits (s.request len params owner) :=
  s.request_of len params owner (refl s) (of_map rfl) h

/-- A request whose owner's execution leaves the protection block alone. -/
theorem plainRequest {s : State} {len : Nat} {params : List Byte} {owner : State → State}
    (h : ∀ u : State, (owner u).protection = u.protection) : s.KeepsBits (s.request len params owner) :=
  request (of_same (h _))

theorem whileOperating {s : State} {f : State → State} (h : s.KeepsBits (f s)) : s.KeepsBits (s.whileOperating f) :=
  s.whileOperating_of f (refl s) h

/-- A command that leaves the protection block alone where it is carried out. -/
theorem plainOperating {s : State} {f : State → State} (h : (f s).protection = s.protection) :
    s.KeepsBits (s.whileOperating f) := whileOperating (of_same h)

end State.KeepsBits

/-- The commands that may clear a protection bit: a power-on reset, and UNPROTECT with the CAL state TIED (R142). -/
def State.AllowsClearing (s : State) (c : Instr) : Prop :=
  c = .powerOnReset ∨ (∃ params, c = .unprotect params) ∧ s.protection.cal = .tied

open State.KeepsBits in
/-- Every other command keeps every protection bit; the resets other than the power-on reset keep the map (R143). -/
theorem exec_keepsBits {c : Instr} {s t : State} (h : exec c s = .next t) (other : ¬s.AllowsClearing c) : s.KeepsBits t := by
  cases c <;> obtain rfl := Host.Outcome.next.inj h
  case sampleEvent k increment amplitude first =>
    exact whileOperating (ite (refl s) (of_same (s.sampleChannel_protection _ _ _ _)))
  case referenceAbsenceTimeout first => exact whileOperating (ite (of_same (s.referenceLost_protection _)) (refl s))
  case referenceEdge => exact plainOperating rfl
  case leadingEdge i phase => exact plainOperating (s.leadingEdge_protection _ _)
  case trailingEdge i phase => exact plainOperating (s.trailingEdge_protection _ _)
  case matchCompletion =>
    refine plainOperating ?_
    split
    · exact (State.arbitrate_protection _).trans (s.matchSighting_protection _)
    all_goals rfl
  case datumOffsetClaim =>
    refine plainOperating ?_
    split
    · split
      · exact s.makeClaim_protection _ _
      · rfl
    all_goals rfl
  case armSweepCompletion => exact whileOperating (ite (of_same s.finishArmSweep_protection) (refl s))
  case closeSweepCompletion => exact whileOperating (ite (of_same (s.finishSweep_protection _ _)) (refl s))
  case abortSweepCompletion => exact whileOperating (ite (of_same (s.finishSweep_protection _ _)) (refl s))
  case tableOperationCompletion =>
    refine plainOperating ?_
    split
    · exact s.finishHostOp_protection _
    all_goals rfl
  case passTimerExpiry => exact whileOperating (ite (of_same (by simp)) (refl s))
  case setAxis params first => exact plainRequest (·.setAxisRequest_protection _ _)
  case trackAxis params => exact plainRequest (·.trackRequest_protection _)
  case restartAxis params => exact plainRequest (·.restartRequest_protection _)
  case zeroAxis params => exact plainRequest (·.zeroRequest_protection _ _)
  case readAxes params => exact plainRequest fun _ => rfl
  case setMatch params => exact plainRequest (·.setMatchRequest_protection _)
  case setLine params => exact plainRequest (·.setLineRequest_protection _)
  case readLines params => exact plainRequest fun _ => rfl
  case enrol params => exact request (hostTableGuarded (s.addressedForWrite .taken) _ fun _ => rfl)
  case enrolRun params => exact request (hostTableGuarded (s.addressedForWrite .taken) _ fun _ => rfl)
  case amend params => exact request (hostTableGuarded (s.addressedForWrite .taken) _ fun _ => rfl)
  case retire params => exact request (hostTableGuarded (s.addressedForWrite .taken) _ fun _ => rfl)
  case reopen params => exact plainRequest (·.hostTable_protection _)
  case lookup params => exact plainRequest (·.hostTable_protection _)
  case readRange params => exact plainRequest (·.hostTable_protection _)
  case beginPass params => exact plainRequest (·.beginPassRequest_protection _)
  case abortPass params => exact plainRequest (·.abortPassRequest_protection _)
  case readPass params => exact plainRequest fun _ => rfl
  case readGroups params => exact plainRequest (·.hostTable_protection _)
  case protect params => exact request (setMap_or (s.addressedForWrite .taken) _)
  case unprotect params =>
    have untied : (s.addressedForWrite .taken).protection.cal ≠ .tied := fun tied => other (.inr ⟨⟨params, rfl⟩, tied⟩)
    exact request (unprotectRequest untied _)
  case readProtect params => exact plainRequest fun _ => rfl
  case readEvents params => exact plainRequest (·.readEventsRequest_protection _)
  case clearEvents params => exact plainRequest (·.clearEventsRequest_protection _)
  case setNotice params => exact plainRequest (·.setNoticeRequest_protection _ _)
  case identify params => exact plainRequest fun _ => rfl
  case reset params => exact plainRequest (·.resetRequest_protection _)
  case unknownRequest code params => exact plainRequest fun _ => rfl
  case linkFault cause => exact ite (refl s) (of_map rfl)
  case linkStart address => exact plainOperating (s.linkStart_protection _)
  case linkStop straps =>
    exact whileOperating (ite (of_map rfl) (ite (of_same s.stopExchange.interfaceReset_protection) (of_map rfl)))
  case responseRead extent => exact plainOperating (s.addressedForRead_protection _)
  case poll extent => exact plainOperating (s.addressedForRead_protection _)
  case noticeStart rival => exact whileOperating (ite (of_same (s.startNotice_protection _)) (refl s))
  case noticeWithdraw => exact whileOperating (ite (of_map rfl) (refl s))
  case powerOnReset => exact absurd (.inl rfl) other
  case powerOnHoldEnd straps => exact ite (of_map rfl) (refl s)
  case pinResetAssert => exact ite (of_map rfl) (of_map rfl)
  case pinResetRelease straps => exact ite (refl s) (ite (of_map rfl) (of_map rfl))
  case supplyFailure => exact of_map rfl

/-- Settles O22: a command that may not unprotect would keep the bit. -/
theorem protectionBitsPersist : Obligations.ProtectionBitsPersist := by
  intro c s t k h held cleared
  by_contra other
  exact Bool.false_ne_true (cleared.symm.trans (exec_keepsBits h other k held))

end Sys2Proof.Machine
end

section
/-! SUPPORT. The requests CLEAR EVENTS and SET NOTICE, and the reports to flags and counters (R149, R152, R154, R157, R158). -/

namespace Sys2Proof.Machine

/-! ### Words of event flags (section 12.1, R172) -/

theorem EventFlag.bit_lt (f : EventFlag) : f.bit < 9 := by cases f <;> decide

theorem flagWord_defined {w : BitVec 16} (h : w.toNat < 512) : flagWord w.toNat = some (w.setWidth 9) := by
  rw [flagWord, if_pos h, BitVec.ofNat_toNat]

theorem flagWord_undefined {n : Nat} (h : 512 ≤ n) : flagWord n = none := if_neg (Nat.not_lt.mpr h)

theorem getLsbD_flagWord (w : BitVec 16) {i : Nat} (h : i < 9) : (w.setWidth 9).getLsbD i = w.getLsbD i := by
  rw [BitVec.getLsbD_setWidth, decide_eq_true h, Bool.true_and]

/-! ### The conditions that hold (R150) -/

theorem State.tableFull_iff (s : State) : s.tableFull = true ↔ s.table.length = 2048 := by
  simp [State.tableFull, Config.tableCapacity]

section
variable (e : EventUnit) (down : BitVec 6) (full : Bool)

theorem EventUnit.has_raiseConditions (f : EventFlag) : (e.raiseConditions down full).has f = true ↔
    e.has f = true ∨ (f = .axisDown ∧ down ≠ 0) ∨ (f = .tableFull ∧ full = true) := by
  rw [EventUnit.raiseConditions_eq, EventUnit.has_raiseWhere, EventUnit.has_raiseWhere]
  simp only [Bool.or_eq_true, Bool.and_eq_true, decide_eq_true_eq, or_assoc, eq_comm (b := f)]
  rfl

theorem EventUnit.noticePending_raiseConditions : (e.raiseConditions down full).noticePending = true ↔
    e.noticePending = true ∨ (down ≠ 0 ∧ e.enabled .axisDown = true) ∨ (full = true ∧ e.enabled .tableFull = true) := by
  rw [EventUnit.raiseConditions_eq, EventUnit.raiseWhere_noticePending, EventUnit.raiseWhere_noticePending,
    EventUnit.raiseWhere_enabled]
  simp only [Bool.or_eq_true, Bool.and_eq_true, decide_eq_true_eq, or_assoc, and_comm (b := e.enabled _ = true)]
  rfl

theorem EventUnit.axisMask_raiseConditions : (e.raiseConditions down full).axisMask = e.axisMask ||| down := by
  simp [EventUnit.raiseConditions_eq]

end

/-- A request that changes only the event unit, answered DONE. -/
theorem State.answer_responding (s : State) {e : EventUnit} (idle : e.notice = none) (bytes : List Byte) :
    ({ s.responding .empty with events := e } : State).answer .done bytes = { s with events := e }.answered bytes := by
  cases e
  cases idle
  rfl

/-! ### CLEAR EVENTS (R157) -/

/-- Steps 1 and 2: the named flags cleared, and with GROUP_DONE and AXIS_DOWN their masks. -/
def EventUnit.clearNamed (e : EventUnit) (set : BitVec 9) : EventUnit :=
  { e with
    flags := e.flags &&& ~~~set
    groupMask := if set.getLsbD 1 then 0 else e.groupMask
    axisMask := if set.getLsbD 7 then 0 else e.axisMask }

/-- Step 4: the notice pending flag falls where no enabled flag is set. -/
def EventUnit.settlePending (e : EventUnit) : EventUnit :=
  if e.flags &&& e.enables = 0 then { e with noticePending := false } else e

theorem EventUnit.settlePending_eq (e : EventUnit) :
    e.settlePending = { e with noticePending := e.noticePending && decide (e.flags &&& e.enables ≠ 0) } := by
  unfold EventUnit.settlePending
  split
  next unset => rw [decide_eq_false (not_not.mpr unset), Bool.and_false]
  next standing => rw [decide_eq_true standing, Bool.and_true]

section
variable (e : EventUnit) (set : BitVec 9) (down : BitVec 6) (full : Bool)

/-- The four steps, of which the third raises the named conditions again where they hold. -/
theorem EventUnit.clear_eq : e.clear set down full =
    ((e.clearNamed set).raiseConditions (if set.getLsbD 7 then down else 0) (set.getLsbD 8 && full)).settlePending := rfl

theorem EventUnit.has_clearNamed (f : EventFlag) : (e.clearNamed set).has f = (e.has f && !set.getLsbD f.bit) := by
  rw [EventUnit.has, EventUnit.has, EventUnit.clearNamed, BitVec.getLsbD_and, BitVec.getLsbD_not, decide_eq_true f.bit_lt,
    Bool.true_and]

/-- Everything that CLEAR EVENTS of `set` leaves of the event unit, `down` and `full` being the two conditions as they hold. -/
structure EventUnit.ClearsTo (t : EventUnit) : Prop where
  flags : ∀ f, t.has f = true ↔ (e.has f = true ∧ set.getLsbD f.bit = false)
    ∨ (f = .axisDown ∧ set.getLsbD 7 = true ∧ down ≠ 0) ∨ (f = .tableFull ∧ set.getLsbD 8 = true ∧ full = true)
  groupMask : t.groupMask = if set.getLsbD 1 then 0 else e.groupMask
  axisMask : t.axisMask = if set.getLsbD 7 then down else e.axisMask
  pending : t.noticePending = true ↔ t.flags &&& t.enables ≠ 0
    ∧ (e.noticePending = true ∨ ((set.getLsbD 7 = true ∧ down ≠ 0) ∧ e.enabled .axisDown = true)
      ∨ ((set.getLsbD 8 = true ∧ full = true) ∧ e.enabled .tableFull = true))
  enables : t.enables = e.enables
  noticeOn : t.noticeOn = e.noticeOn
  counters : t.counters = e.counters
  lastLinkFault : t.lastLinkFault = e.lastLinkFault
  idle : e.notice = none → t.notice = none

theorem EventUnit.clearsTo_clear : e.ClearsTo set down full (e.clear set down full) := by
  have axis : (if set.getLsbD 7 then down else 0) ≠ 0 ↔ set.getLsbD 7 = true ∧ down ≠ 0 := by
    cases set.getLsbD 7 <;> simp
  rw [e.clear_eq, EventUnit.settlePending_eq]
  refine ⟨fun f => ?_, ?_, ?_, ?_, ?_, ?_, ?_, ?_, fun idle => ?_⟩
  · exact (EventUnit.has_raiseConditions _ _ _ f).trans (by
      rw [e.has_clearNamed, axis, Bool.and_eq_true, Bool.and_eq_true, Bool.not_eq_true'])
  · simp [EventUnit.raiseConditions_eq, EventUnit.clearNamed]
  · rw [EventUnit.axisMask_raiseConditions, EventUnit.clearNamed]
    cases set.getLsbD 7 <;> simp
  · rw [Bool.and_eq_true, decide_eq_true_eq, and_comm, EventUnit.noticePending_raiseConditions, axis, Bool.and_eq_true]
    rfl
  · simp [EventUnit.raiseConditions_eq, EventUnit.clearNamed]
  · simp [EventUnit.raiseConditions_eq, EventUnit.clearNamed]
  · simp [EventUnit.clearNamed]
  · simp [EventUnit.raiseConditions_eq, EventUnit.clearNamed]
  · rw [EventUnit.raiseConditions_eq]
    exact EventUnit.raiseWhere_notice _ _ _ (EventUnit.raiseWhere_notice _ _ _ idle)

end

theorem exec_clearEvents {s : State} (h : s.receives) (set : BitVec 16) :
    exec (.clearEvents (twoBytes set)) s = .next ((s.responding .empty).clearEventsRequest set.toNat) := by
  have word : field (twoBytes set) 0 2 = set.toNat := beNat_two set
  rw [exec, execClearEvents, h.request_eq (len := 2) (params := twoBytes set) rfl, word]

/-- The answer carries the flags as they then stand. -/
theorem State.clearEventsRequest_defined (s : State) {set : BitVec 16} (h : set.toNat < 512) :
    s.clearEventsRequest set.toNat =
      let events := s.events.clear (set.setWidth 9) s.downMask s.tableFull
      { s with events := events }.answer .done (twoBytes (events.flags.zeroExtend 16)) := by
  simp only [← beBytes_two_word, State.clearEventsRequest, flagWord_defined h]

theorem State.clearEventsRequest_undefined (s : State) {n : Nat} (h : 512 ≤ n) :
    s.clearEventsRequest n = s.reject .range := by
  rw [State.clearEventsRequest, flagWord_undefined h]

/-- Settles O25: the four steps on the event unit, and nothing else but the answer. -/
theorem clearEventsInFourSteps : Obligations.ClearEventsInFourSteps := by
  intro s set received
  refine ⟨fun undefined => ?_, fun defined => ?_⟩
  · rw [exec_clearEvents received, State.clearEventsRequest_undefined _ undefined]
    rfl
  · have clears := (s.responding .empty).events.clearsTo_clear (set.setWidth 9) s.downMask s.tableFull
    have bit {i : Nat} (h : i < 9) := getLsbD_flagWord set h
    have done := (exec_clearEvents received set).trans
      (congrArg Host.Outcome.next ((s.responding .empty).clearEventsRequest_defined defined))
    refine ⟨_, done, ?_, fun f => ?_, ?_, fun k => ?_, ?_, clears.enables, clears.noticeOn, clears.counters, clears.lastLinkFault⟩
    · exact s.answer_responding (clears.idle rfl) _
    · refine (clears.flags f).trans ?_
      rw [bit f.bit_lt, bit (by decide), bit (by decide), s.downMask_ne_zero, s.tableFull_iff]
      rfl
    · refine clears.groupMask.trans ?_
      rw [bit (by decide)]
      rfl
    · refine (congrArg (BitVec.getLsbD · k.val) clears.axisMask).trans ?_
      rw [bit (by decide), apply_ite (BitVec.getLsbD · k.val), s.getLsbD_downMask]
      refine ite_congr rfl (fun _ => ?_) fun _ => rfl
      rw [Bool.eq_iff_iff, ChannelState.down_iff, decide_eq_true_iff]
    · refine clears.pending.trans ?_
      rw [bit (by decide), bit (by decide), s.downMask_ne_zero, s.tableFull_iff]
      rfl

/-! ### SET NOTICE (R158) -/

theorem noticeSetting_defined {setting : Byte} (h : setting.toNat ≤ 1) : noticeSetting setting.toNat = some (setting == 1) := by
  obtain zero | one : setting = 0 ∨ setting = 1 := by bv_omega
  · subst zero
    rfl
  · subst one
    rfl

theorem noticeSetting_undefined {n : Nat} (h : 1 < n) : noticeSetting n = none := by
  unfold noticeSetting
  split
  · omega
  · omega
  · rfl

theorem exec_setNotice {s : State} (h : s.receives) (setting : Byte) (enables : BitVec 16) :
    exec (.setNotice (setting :: twoBytes enables)) s
      = .next ((s.responding .empty).setNoticeRequest setting.toNat enables.toNat) := by
  have word : field (setting :: twoBytes enables) 1 2 = enables.toNat := beNat_two enables
  rw [exec, execSetNotice, h.request_eq (len := 3) (params := setting :: twoBytes enables) rfl, word, byteField_head]

theorem State.setNoticeRequest_defined (s : State) {setting : Byte} {enables : BitVec 16} (on : setting.toNat ≤ 1)
    (h : enables.toNat < 512) : s.setNoticeRequest setting.toNat enables.toNat =
      { s with events := s.events.setNotice (setting == 1) (enables.setWidth 9) }.answer .done [] := by
  simp only [State.setNoticeRequest, noticeSetting_defined on, flagWord_defined h]

theorem State.setNoticeRequest_undefined (s : State) {setting word : Nat} (h : 1 < setting ∨ 512 ≤ word) :
    s.setNoticeRequest setting word = s.reject .range := by
  unfold State.setNoticeRequest
  split
  next on enables known defined =>
    obtain unknown | undefined := h
    · rw [noticeSetting_undefined unknown] at known
      cases known
    · rw [flagWord_undefined undefined] at defined
      cases defined
  next => rfl

/-- A set flag whose enable goes from off to on, as the words show it. -/
theorem newlyEnabled_iff (flags old : BitVec 9) (enables : BitVec 16) : flags &&& enables.setWidth 9 &&& ~~~old ≠ 0 ↔
    ∃ i : Fin 9, flags.getLsbD i.val = true ∧ old.getLsbD i.val = false ∧ enables.getLsbD i.val = true := by
  have bit (i : Fin 9) : (flags &&& enables.setWidth 9 &&& ~~~old).getLsbD i.val
      = (flags.getLsbD i.val && enables.getLsbD i.val && !old.getLsbD i.val) := by
    rw [BitVec.getLsbD_and, BitVec.getLsbD_and, BitVec.getLsbD_not, getLsbD_flagWord enables i.isLt, decide_eq_true i.isLt,
      Bool.true_and]
  rw [ne_eq, BitVec.ofNat_eq_ofNat, BitVec.zero_iff_eq_false, not_forall]
  constructor
  · rintro ⟨i, held⟩
    have within : i < 9 := lt_of_not_ge fun h => held (BitVec.getLsbD_of_ge _ _ h)
    rw [bit ⟨i, within⟩, Bool.not_eq_false, Bool.and_eq_true, Bool.and_eq_true, Bool.not_eq_true'] at held
    obtain ⟨⟨flag, on⟩, off⟩ := held
    exact ⟨⟨i, within⟩, flag, off, on⟩
  · rintro ⟨i, flag, off, on⟩
    refine ⟨i.val, ?_⟩
    rw [bit, flag, off, on]
    decide

theorem EventUnit.setNotice_eq (e : EventUnit) (on : Bool) (enables : BitVec 16) :
    e.setNotice on (enables.setWidth 9) = { e with
      noticeOn := on
      enables := enables.setWidth 9
      noticePending := e.noticePending || decide (∃ i : Fin 9, e.flags.getLsbD i.val = true
        ∧ e.enables.getLsbD i.val = false ∧ enables.getLsbD i.val = true) } := by
  rw [EventUnit.setNotice, decide_eq_decide.mpr (newlyEnabled_iff e.flags e.enables enables)]

/-- Settles O26: the reports by their definitions, SET NOTICE by whether its setting and its word are defined. -/
theorem setNoticeStoresEnables : Obligations.SetNoticeStoresEnables := by
  refine ⟨fun s f => ⟨_, _, rfl, fun g => ?_⟩, fun s k n => ?_, fun s setting enables received =>
    ⟨fun undefined => ?_, fun on defined => ?_⟩⟩
  · rw [State.raise_events, EventUnit.has_raise, Bool.or_comm]
    simp only [eq_comm]
  · cases k <;> rfl
  · rw [exec_setNotice received, State.setNoticeRequest_undefined _ undefined]
    rfl
  · rw [exec_setNotice received, State.setNoticeRequest_defined _ on defined]
    refine congrArg Host.Outcome.next ((s.answer_responding rfl []).trans ?_)
    rw [EventUnit.setNotice_eq]
    rfl

end Sys2Proof.Machine
end

section
/-! SUPPORT. Polls and the notice in progress: the payload as it is sent, and what marks a snapshot as overtaken (R149, R155,
R167). -/

namespace Sys2Proof.Machine

/-! ### The later raise marker (R155) -/

/-- Of the notice in progress at most the later raise marker differs, which may have come to be set. -/
def EventUnit.OnlyMarks (a b : EventUnit) : Prop :=
  ∃ mark, b.notice = a.notice.map fun n => { n with laterRaise := n.laterRaise || mark }

namespace EventUnit.OnlyMarks

theorem of_notice {a b : EventUnit} (h : b.notice = a.notice) : a.OnlyMarks b := ⟨false, by simp [h]⟩

theorem refl (a : EventUnit) : a.OnlyMarks a := of_notice rfl

theorem trans {a b c : EventUnit} (h : a.OnlyMarks b) (k : b.OnlyMarks c) : a.OnlyMarks c := by
  obtain ⟨first, h⟩ := h
  obtain ⟨second, k⟩ := k
  refine ⟨first || second, ?_⟩
  rw [k, h, Option.map_map]
  simp only [Function.comp_def, Bool.or_assoc]

theorem raise (a : EventUnit) (f : EventFlag) : a.OnlyMarks (a.raise f) := ⟨a.enabled f, rfl⟩

theorem groupCompletes (a : EventUnit) (g : Fin 8) : a.OnlyMarks (a.groupCompletes g) := ⟨a.enabled .groupDone, rfl⟩

theorem downOnset (a : EventUnit) (k : ChannelIx) : a.OnlyMarks (a.downOnset k) := ⟨a.enabled .axisDown, rfl⟩

/-- A marker that is set stays set. -/
theorem marked {a b : EventUnit} (h : a.OnlyMarks b) {n : NoticeInProgress}
    (set : a.notice = some { n with laterRaise := true }) : b.notice = some { n with laterRaise := true } := by
  obtain ⟨mark, h⟩ := h
  rw [h, set, Option.map_some, Bool.true_or]

/-- The raise of an enabled flag sets the marker, whatever has been reported since the snapshot. -/
theorem marked_raise {a b : EventUnit} (h : a.OnlyMarks b) {n : NoticeInProgress} (taken : a.notice = some n) {f : EventFlag}
    (enabled : b.enabled f = true) : (b.raise f).notice = some { n with laterRaise := true } := by
  obtain ⟨mark, h⟩ := h
  simp [EventUnit.raise, h, taken, enabled]

end EventUnit.OnlyMarks

/-! ### The sweeps that end a pass (R112, R113) -/

theorem State.setGroup_onlyMarks (s : State) (g : Fin 8) (c : GroupCounts) : s.events.OnlyMarks (s.setGroup g c).events := by
  rw [State.setGroup_events]
  split
  · exact .groupCompletes _ g
  · exact .refl _

theorem State.sweepRecords_onlyMarks (s : State) (resolve : MarkRecord → MarkRecord) :
    s.events.OnlyMarks (s.sweepRecords resolve).events :=
  List.foldlRecOn _ _ (motive := fun t : State => s.events.OnlyMarks t.events) (.refl _) fun t kept g _ =>
    kept.trans (t.setGroup_onlyMarks g _)

theorem State.sweepRecords_enables (s : State) (resolve : MarkRecord → MarkRecord) :
    (s.sweepRecords resolve).events.enables = s.events.enables :=
  State.reportSweep_enables _ _ _

/-- Either sweep raises PASS_END at its completion, after its reports to the groups. -/
theorem State.sweep_marks {s : State} {n : NoticeInProgress} (taken : s.events.notice = some n)
    (enabled : s.events.enabled .passEnd = true) (resolve : MarkRecord → MarkRecord) (missed : Nat) :
    ((s.sweepRecords resolve).endPass missed).events.notice = some { n with laterRaise := true } := by
  have still : (s.sweepRecords resolve).events.enabled .passEnd = true := by
    rw [EventUnit.enabled, s.sweepRecords_enables]
    exact enabled
  rw [State.endPass, State.arbitrate_events]
  exact (s.sweepRecords_onlyMarks resolve).marked_raise taken still

theorem exec_closeSweepCompletion_finish {s : State} (operating : s.operating = true) (sweeping : s.tableOp = some .closeSweep) :
    exec .closeSweepCompletion s = .next s.finishCloseSweep := by
  rw [exec, execCloseSweepCompletion, s.whileOperating_of_operating _ operating, if_pos sweeping]

/-! ### The loss of a channel (R11, R14) -/

theorem EventUnit.transition_tracking_lost (e : EventUnit) (k : ChannelIx) :
    e.transition k .tracking .lost = (e.raise .lockChange).downOnset k := rfl

section
variable (s : State)

theorem State.enqueue_onlyMarks (x : Sighting) : s.events.OnlyMarks (s.enqueue x).events := by
  unfold State.enqueue
  split
  · exact .refl _
  · exact .raise (s.count .overrun 1).events _

theorem State.tagSighting_onlyMarks (i : LineId) (centre : Position) (width : Nat) (abbe : Option Position) :
    s.events.OnlyMarks (s.tagSighting i centre width abbe).events := by
  have prefilter (x : Sighting) : s.events.OnlyMarks (s.prefilter x).events := by
    unfold State.prefilter
    split
    · exact .of_notice rfl
    · exact s.enqueue_onlyMarks x
  unfold State.tagSighting
  split
  · simp only
    split
    · exact prefilter _
    · exact s.enqueue_onlyMarks _
    · exact .of_notice rfl
  · exact .of_notice rfl

theorem State.formLine_onlyMarks (i : LineId) : s.events.OnlyMarks (s.formLine i).events := by
  have removed (l : LineInput) : s.events.OnlyMarks (s.setLine i l).events := .of_notice (by rw [State.setLine_events])
  unfold State.formLine
  split
  · exact .refl _
  · split
    · exact .refl _
    · exact removed _
    · exact (removed _).trans (State.tagSighting_onlyMarks _ _ _ _ _)

theorem State.linesSee_notice (k : ChannelIx) (edge : Nat → Position) (st : ChannelState) (left : Bool)
    (sampled : Option Position) : (s.linesSee k edge st left sampled).events.notice = s.events.notice := by
  have guarded (v : State) (i : LineId) (g : LineInput × Bool) : (v.putGuarded i g).events.notice = v.events.notice := by
    unfold State.putGuarded
    simp only
    split <;> simp [EventUnit.count]
  exact (guarded _ _ _).trans (guarded _ _ _)

theorem State.abortLivePass_notice (cause : AbortCause) : (s.abortLivePass cause).events.notice = s.events.notice := by
  unfold State.abortLivePass
  split
  · rw [State.emptyQueue_events]
    split <;> rfl
  · rfl

theorem State.passSees_notice (k : ChannelIx) (left : Bool) (p : Position) :
    (s.passSees k left p).events.notice = s.events.notice := by
  have crossing : (s.testCrossing p).events.notice = s.events.notice := by
    unfold State.testCrossing
    split
    · rfl
    · split
      · split
        · rw [State.closeLivePass_events]
        · exact s.abortLivePass_notice _
      · rfl
  unfold State.passSees
  split
  · split
    · exact s.abortLivePass_notice _
    · exact crossing
  · rfl

/-- The end of an event keeps the snapshot where the pass controller does. -/
theorem State.settleEvent_onlyMarks (first : MeetOrder) {ends : State → State}
    (h : ∀ v : State, v.events.OnlyMarks (ends v).events) : s.events.OnlyMarks (s.settleEvent first ends).events := by
  have forms (v : State) : v.events.OnlyMarks v.formSightings.events :=
    (v.formLine_onlyMarks _).trans (State.formLine_onlyMarks _ _)
  cases first <;> simp only [State.settleEvent, State.arbitrate_events]
  case formationFirst => exact (forms s).trans (h _)
  case passFirst => exact (h s).trans (forms _)
  case passBetween => exact ((s.formLine_onlyMarks _).trans (h _)).trans (State.formLine_onlyMarks _ _)

/-- After the report of the channel's change of state, a sample event at most marks the snapshot. -/
theorem State.sampleChannel_onlyMarks (k : ChannelIx) (increment : Int) (amplitude : Nat) (first : MeetOrder) :
    (s.events.transition k (s.channel k).state ((s.channel k).sample increment amplitude).1.state).OnlyMarks
      (s.sampleChannel k increment amplitude first).events := by
  have seen := ((s.enterPeriod k).putChannel k ((s.channel k).sample increment amplitude).1).linesSee_notice k
  exact EventUnit.OnlyMarks.trans (.of_notice (seen _ _ _ _))
    (State.settleEvent_onlyMarks _ first fun v => .of_notice (v.passSees_notice _ _ _))

end

/-- A sample event that loses a tracking channel reports a lock change. -/
theorem State.sampleChannel_marks {s : State} {k : ChannelIx} {amplitude : Nat} {n : NoticeInProgress}
    (tracking : (s.channel k).state = .tracking) (fades : amplitude < (s.channel k).loseLevel)
    (taken : s.events.notice = some n) (enabled : s.events.enabled .lockChange = true) (increment : Int) (first : MeetOrder) :
    (s.sampleChannel k increment amplitude first).events.notice = some { n with laterRaise := true } := by
  have lost : ((s.channel k).sample increment amplitude).1.state = .lost := by
    rw [Channel.sample_loses tracking (.inl fades)]
    rfl
  have after := s.sampleChannel_onlyMarks k increment amplitude first
  rw [tracking, lost, EventUnit.transition_tracking_lost] at after
  exact ((EventUnit.OnlyMarks.downOnset _ k).trans after).marked ((EventUnit.OnlyMarks.refl _).marked_raise taken enabled)

/-! ### The payload (R165, R167, Table 12-7) -/

theorem EventUnit.payload_eq (e : EventUnit) :
    e.payload = twoBytes (e.flags.zeroExtend 16) ++ [e.groupMask, e.axisMask.zeroExtend 8] := by
  have mask : e.groupMask.zeroExtend 8 = e.groupMask := BitVec.setWidth_eq _
  rw [EventUnit.payload, beBytes_two_word, oneByte_word, oneByte_word, mask, List.append_assoc]
  rfl

theorem State.framed_eq (s : State) (bytes : List Byte) :
    s.framed bytes = bytes.map (fun b => (⟨b, true⟩ : SentByte))
      ++ [⟨crc8 (((0x48#7 + s.link.strap.zeroExtend 7) ++ 1#1 : Byte) :: bytes), false⟩] := rfl

section
variable (e : EventUnit) {len n : Nat}

theorem bytesTaken_declined (within : n < len) : bytesTaken (.declinedAt n) len = n + 1 := Nat.min_eq_left within

theorem bytesTaken_paused (within : n < len) : bytesTaken (.pausedAfter n) len = n := Nat.min_eq_left within.le

/-- Only the notice in progress is any concern of the sending of a payload. -/
theorem EventUnit.notify_eq (len : Nat) (extent : ReadExtent) :
    e.notify len extent = { e with notice := (e.notify len extent).notice } := by
  unfold EventUnit.notify
  repeat' split
  all_goals rfl

theorem EventUnit.notify_complete (sends : len ≠ 0) : e.notify len .complete = e.takeSnapshot true := if_neg sends

theorem EventUnit.notify_declined (within : n < len) : e.notify len (.declinedAt n) = e.endNotice := by
  have short : acknowledgesAll (.declinedAt n) len = false := decide_eq_false (Nat.not_le.mpr within)
  simp only [EventUnit.notify, bytesTaken_declined within, if_neg n.succ_ne_zero, short, Bool.false_eq_true, if_false]

theorem EventUnit.notify_paused (within : n < len) :
    e.notify len (.pausedAfter n) = if n = 0 then e else e.takeSnapshot false := by
  have short : acknowledgesAll (.pausedAfter n) len = false := decide_eq_false (Nat.not_le.mpr within)
  simp only [EventUnit.notify, bytesTaken_paused within, short, Bool.false_eq_true, if_false]

end

/-- A poll starts an exchange, sends of its five bytes what the host takes, and leaves the notice that comes of it. -/
theorem State.sendPayload_eq (s : State) (extent : ReadExtent) :
    s.sendPayload extent = { s with
      link := { s.link with
        exchange := exchangeAfter extent 5
        idleTimer := false
        sent := (s.framed s.events.payload).take (bytesTaken extent 5) }
      events := s.events.endNotice.notify 5 extent } := rfl

theorem exec_poll {s : State} (received : s.receives) (fresh : s.link.exchange.fresh = true) (extent : ReadExtent) :
    exec (.poll extent) s = .next (s.sendPayload extent) := by
  obtain ⟨operating, sound⟩ := received
  rw [exec, execPoll, s.whileOperating_of_operating _ operating, State.addressedForRead, if_neg sound, if_pos fresh]

/-- Settles O47: every later raise marks the snapshot that a poll took, and a poll itself by how far the host reads. -/
theorem pollSendsNoticePayload : Obligations.PollSendsNoticePayload := by
  refine ⟨fun e f n taken => ?_, fun s n operating taken enabled => ⟨fun sweeping => ?_, fun sweeping => ?_⟩,
    fun s k increment amplitude first n operating present tracking fades taken enabled => ?_,
    fun s extent received fresh => ?_⟩
  · rw [EventUnit.raise, taken, Option.map_some]
  · exact ⟨_, exec_closeSweepCompletion_finish operating sweeping, State.sweep_marks taken enabled _ _⟩
  · exact ⟨_, exec_abortSweepCompletion operating sweeping, State.sweep_marks taken enabled _ _⟩
  · exact ⟨_, exec_sampleEvent s k increment amplitude first operating present (by simp [tracking]),
      State.sampleChannel_marks tracking fades taken enabled increment first⟩
  · intro payload check frame snapshot
    have framed : s.framed s.events.payload = frame := by rw [s.framed_eq, EventUnit.payload_eq]
    refine ⟨_, exec_poll received fresh extent, ?_, ?_, ?_, ?_⟩ <;> rw [s.sendPayload_eq, framed]
    · rw [EventUnit.notify_eq]
      rfl
    · rintro rfl
      exact ⟨rfl, rfl, rfl⟩
    · rintro n within rfl
      refine ⟨congrArg frame.take (bytesTaken_declined within), rfl, ?_⟩
      rw [EventUnit.notify_declined _ within]
      rfl
    · rintro n within rfl
      refine ⟨congrArg frame.take (bytesTaken_paused within), if_neg (Nat.not_le.mpr within), ?_⟩
      rw [EventUnit.notify_paused _ within, apply_ite EventUnit.notice]
      rfl

end Sys2Proof.Machine
end

section
/-! SUPPORT. What happens off the link, what a command on the link makes of the exchange, and the proofs of LinkLawIsKept and
EveryCommandHasNextState (R93, R161, R163, R171). -/

namespace Sys2Proof.Machine

/-! ### What happens off the link -/

/-- What the laws of the link and of the pass number speak of, the response buffer apart, and the waiting commands. -/
def State.linkView (s : State) : List Instr × Supply × Bool × ExchangeState × Bool × Nat × Option PassTerms :=
  (s.pending, s.supply, s.resetPinLow, s.link.exchange, s.link.idleTimer, s.pass.number, s.pass.terms)

/-- Something happens off the link: the exchange, the open pass's number and terms, and the waiting commands stand, and a response
buffer that is EMPTY stays so. -/
structure State.OffLink (s t : State) : Prop where
  view : t.linkView = s.linkView
  empty : s.link.response = .empty → t.link.response = .empty

namespace State.OffLink

theorem of_link {s t : State} (view : t.linkView = s.linkView) (link : t.link = s.link) : s.OffLink t :=
  ⟨view, by rw [link]; exact id⟩

theorem refl (s : State) : s.OffLink s := ⟨rfl, id⟩

theorem trans {s t u : State} (h : s.OffLink t) (k : t.OffLink u) : s.OffLink u := ⟨k.view.trans h.view, k.empty ∘ h.empty⟩

theorem ite {s t u : State} {p : Prop} [Decidable p] (ht : s.OffLink t) (hu : s.OffLink u) : s.OffLink (if p then t else u) := by
  split
  · exact ht
  · exact hu

/-! ### The shared operations -/

theorem setLine (s : State) (i : LineId) (l : LineInput) : s.OffLink (s.setLine i l) :=
  of_link (by simp [State.linkView]) (by simp)

theorem putGuarded (s : State) (i : LineId) (g : LineInput × Bool) : s.OffLink (s.putGuarded i g) :=
  of_link (by simp [State.linkView]) (by simp)

theorem formLine (s : State) (i : LineId) : s.OffLink (s.formLine i) := of_link (by simp [State.linkView]) (by simp)

theorem formSightings (s : State) : s.OffLink s.formSightings := (formLine s _).trans (formLine _ _)

theorem arbitrate (s : State) : s.OffLink s.arbitrate := of_link (by simp [State.linkView]) (by simp)

/-- A response that is handed over is formed only where one is awaited (R61). -/
theorem handOver (s : State) (status : Status) (bytes : List Byte) : s.OffLink (s.handOver status bytes) := by
  unfold State.handOver
  split
  next awaited => exact ⟨rfl, fun empty => nomatch awaited.symm.trans empty⟩
  next => exact refl s

theorem abortLivePass (s : State) (cause : AbortCause) : s.OffLink (s.abortLivePass cause) := by
  unfold State.abortLivePass
  exact ite (of_link rfl rfl) (refl s)

theorem closeLivePass (s : State) : s.OffLink s.closeLivePass := by
  unfold State.closeLivePass
  exact ite (of_link rfl rfl) (refl s)

theorem passSees (s : State) (k : ChannelIx) (left : Bool) (p : Position) : s.OffLink (s.passSees k left p) := by
  have crosses : s.OffLink (s.testCrossing p) := by
    unfold State.testCrossing
    split
    · exact refl s
    · refine ite ?_ (refl s)
      split
      · exact closeLivePass s
      · exact abortLivePass s _
  exact ite (ite (abortLivePass s _) crosses) (refl s)

theorem settleEvent (s : State) (first : MeetOrder) {ends : State → State} (h : ∀ v : State, v.OffLink (ends v)) :
    s.OffLink (s.settleEvent first ends) := by
  cases first
  case formationFirst => exact ((formSightings s).trans (h _)).trans (arbitrate _)
  case passFirst => exact ((h s).trans (formSightings _)).trans (arbitrate _)
  case passBetween => exact (((formLine s _).trans (h _)).trans (formLine _ _)).trans (arbitrate _)

/-! ### Signals -/

/-- News told to the line inputs. -/
theorem tellsLines {s u : State} {news : LineNews} (h : s.TellsLines news u) : s.OffLink u := by
  rw [h.rest]
  exact of_link rfl rfl

theorem sampleChannel (s : State) (k : ChannelIx) (increment : Int) (amplitude : Nat) (first : MeetOrder) :
    s.OffLink (s.sampleChannel k increment amplitude first) := by
  obtain ⟨u, tells, -, -, settles⟩ := s.sampleChannel_eq k increment amplitude first
  rw [settles]
  exact (tellsLines tells).trans (settleEvent u first fun v => passSees v _ _ _)

theorem referenceLost (s : State) (first : MeetOrder) : s.OffLink (s.referenceLost first) := by
  obtain ⟨u, tells, -, -, -, -, settles⟩ := s.referenceLost_eq first
  rw [settles]
  exact (tellsLines tells).trans (settleEvent u first fun v => ite (abortLivePass v _) (refl v))

theorem configureAxis (s : State) (k : ChannelIx) (f : SetAxisFields) (first : MeetOrder) :
    s.OffLink (s.configureAxis k f first) := by
  cases enable : f.enable with
  | true =>
    rw [s.configureAxis_enable k enable first]
    exact of_link rfl rfl
  | false =>
    obtain ⟨u, tells, -, -, -, -, settles⟩ := s.configureAxis_disable k enable first
    rw [settles]
    exact (tellsLines tells).trans (settleEvent u first fun v => ite (abortLivePass v _) (refl v))

theorem leadingEdge (s : State) (i : LineId) (phase : Nat) : s.OffLink (s.leadingEdge i phase) := by
  unfold State.leadingEdge
  simp only
  split
  · exact refl s
  · exact refl s
  · exact ite (putGuarded s _ _) (setLine s _ _)

theorem trailingEdge (s : State) (i : LineId) (phase : Nat) : s.OffLink (s.trailingEdge i phase) := by
  have closes (first : LineId) (l : LineInput) :
      s.OffLink ({ s with earlierClosing := first }.setLine i l).formSightings.arbitrate :=
    (of_link (by simp [State.linkView]) (by simp)).trans (arbitrate _)
  have narrow (l : LineInput) : s.OffLink ((s.setLine i l).count .smear 1) := (setLine s i l).trans (of_link rfl rfl)
  unfold State.trailingEdge
  simp only
  split
  · exact setLine s _ _
  · exact setLine s _ _
  · exact ite (narrow _) (closes _ _)

/-! ### Matching -/

theorem reportOutcome (s : State) (o : MatchOutcome) : s.OffLink (s.reportOutcome o) := by
  cases o <;> exact of_link rfl rfl

theorem finishClaim (s : State) (report : ClaimReport) : s.OffLink (s.finishClaim report) := by
  cases report with
  | refused => exact of_link rfl rfl
  | applied =>
    have taken : s.OffLink (({ s with pass := { s.pass with taken := s.pass.taken + 1 } } : State).emptyQueue true) :=
      of_link rfl rfl
    exact taken.trans (ite (closeLivePass _) (refl _))

theorem makeClaim (s : State) (m : MatchUnderWay) (r : MarkRecord) : s.OffLink (s.makeClaim m r) := by
  unfold State.makeClaim
  simp only
  split <;> exact of_link rfl rfl

theorem matchSighting (s : State) (m : MatchUnderWay) : s.OffLink (s.matchSighting m) := by
  have updated (mark : Nat) (f : KindPart → KindPart) : s.OffLink (s.updateKind mark f) := of_link rfl rfl
  unfold State.matchSighting
  split
  · unfold State.matchMeasure
    split
    · exact reportOutcome s _
    · exact (updated _ _).trans (reportOutcome _ _)
  · unfold State.matchDatum
    split
    · exact finishClaim s _
    · exact refl s
    · split
      case h_3 => exact (makeClaim s m _).trans (finishClaim _ _)
      all_goals exact of_link rfl rfl
  · exact refl s

/-! ### The sweeps and the operations of the host -/

/-- The operation in progress is over, and the arbiter picks the next. -/
theorem freed (s : State) : s.OffLink ({ s with tableOp := none } : State).arbitrate := by
  have free : s.OffLink { s with tableOp := none } := of_link rfl rfl
  exact free.trans (arbitrate _)

theorem finishArmSweep (s : State) : s.OffLink s.finishArmSweep := by
  have armed : s.OffLink s.armRecords := by
    unfold State.armRecords
    split <;> exact of_link rfl rfl
  have runs (v : State) : v.OffLink v.afterArming := by
    rw [v.afterArming_eq]
    exact of_link rfl rfl
  exact ((armed.trans (handOver _ _ _)).trans (runs _)).trans (freed _)

/-- The sweep that ends a pass. -/
theorem finishSweep (s : State) (resolve : MarkRecord → MarkRecord) (missed : Nat) :
    s.OffLink ((s.sweepRecords resolve).endPass missed) := by
  have swept : s.OffLink (s.sweepRecords resolve) := by
    rw [sweepRecords_rest]
    exact of_link rfl rfl
  have ended (v : State) : v.OffLink
      (({ v with pass := { v.pass with state := .idle, missed := missed }, tableOp := none } : State).raise .passEnd) :=
    of_link rfl rfl
  exact (swept.trans (ended _)).trans (arbitrate _)

theorem insertNew (s : State) (r : MarkRecord) : s.OffLink (s.insertNew r) := by
  rw [insertNew_rest]
  exact of_link rfl rfl

theorem completeHostOp (s : State) (op : HostOp) : s.OffLink (s.completeHostOp op).1 := by
  cases op
  case enrol r => exact insertNew s r
  case enrolRun run => exact State.runFrom_of (P := s.OffLink) (fun v _ r hv _ => hv.trans (insertNew v r)) _ _ s (refl s)
  case amend mark a =>
    have applied (r : MarkRecord) : s.OffLink (s.applyAmend r a) := by
      rw [State.applyAmend, reportAmended_rest]
      exact of_link rfl rfl
    simp only [State.completeHostOp]
    split
    · exact refl s
    · split
      · exact applied _
      · exact of_link rfl rfl
  case retire mark =>
    have removed (r : MarkRecord) : s.OffLink (s.removeRecord r) := by
      rw [State.removeRecord_rest]
      exact of_link rfl rfl
    simp only [State.completeHostOp]
    split
    · exact refl s
    · split
      · exact removed _
      · exact of_link rfl rfl
  case reopen mark =>
    simp only [State.completeHostOp]
    repeat' split
    all_goals exact of_link rfl rfl
  case lookup mark =>
    simp only [State.completeHostOp]
    split <;> exact refl s
  all_goals exact of_link rfl rfl

theorem finishHostOp (s : State) (op : HostOp) : s.OffLink (s.finishHostOp op) :=
  ((completeHostOp s op).trans (handOver _ _ _)).trans (freed _)

/-- An interface reset ends the pass, but not its number (R63, R159). -/
theorem interfaceReset (s : State) : s.OffLink s.interfaceReset := by
  have cleared (v : State) : v.OffLink { v with
      queue := []
      line1 := v.line1.dropLines
      line2 := v.line2.dropLines
      events := v.events.interfaceReset v.downMask v.tableFull } := of_link rfl rfl
  exact ((abortLivePass s .reset).trans (cleared _)).trans (arbitrate _)

end State.OffLink

/-! ### What the owner of a request does in TAKEN -/

section
variable (s : State)

theorem State.setAxisRequest_linkView (f : SetAxisFields) (first : MeetOrder) :
    (s.setAxisRequest f first).linkView = s.linkView := by
  unfold State.setAxisRequest
  split
  · rfl
  · split
    · rfl
    · split
      · rfl
      · exact (OffLink.configureAxis s _ f first).view

theorem State.trackRequest_linkView (channel : Nat) : (s.trackRequest channel).linkView = s.linkView := by
  unfold State.trackRequest
  simp only
  repeat' split
  all_goals rfl

theorem State.restartRequest_linkView (channel : Nat) : (s.restartRequest channel).linkView = s.linkView := by
  unfold State.restartRequest
  simp only
  repeat' split
  all_goals rfl

theorem State.zeroRequest_linkView (channel : Nat) (value : Position) : (s.zeroRequest channel value).linkView = s.linkView := by
  unfold State.zeroRequest
  simp only
  repeat' split
  all_goals rfl

theorem State.setMatchRequest_linkView (f : SetMatchFields) : (s.setMatchRequest f).linkView = s.linkView := by
  unfold State.setMatchRequest
  repeat' split
  all_goals rfl

theorem State.setLineRequest_linkView (f : SetLineFields) : (s.setLineRequest f).linkView = s.linkView := by
  unfold State.setLineRequest
  split
  · rfl
  · split
    · rfl
    · exact (OffLink.setLine s _ _).view

theorem State.hostTable_linkView (judge : State → HostOp) : (s.hostTable judge).linkView = s.linkView := by
  unfold State.hostTable
  split <;> rfl

theorem State.hostTableGuarded_linkView (judge : State → Verdict) {shielded : State → State}
    (h : ∀ u : State, (shielded u).linkView = u.linkView) : (s.hostTableGuarded judge shielded).linkView = s.linkView := by
  unfold State.hostTableGuarded
  split
  · split
    · rfl
    · exact (h _).trans rfl
  · rfl

theorem State.abortPassRequest_linkView (number : Nat) : (s.abortPassRequest number).linkView = s.linkView := by
  unfold State.abortPassRequest
  split
  · rfl
  · split
    · rfl
    · exact ((OffLink.abortLivePass s _).trans (.arbitrate _)).view

theorem State.readEventsRequest_linkView (option : Nat) : (s.readEventsRequest option).linkView = s.linkView := by
  unfold State.readEventsRequest
  split <;> rfl

theorem State.clearEventsRequest_linkView (word : Nat) : (s.clearEventsRequest word).linkView = s.linkView := by
  unfold State.clearEventsRequest
  split <;> rfl

theorem State.setNoticeRequest_linkView (setting word : Nat) : (s.setNoticeRequest setting word).linkView = s.linkView := by
  unfold State.setNoticeRequest
  split <;> rfl

theorem State.unprotectRequest_linkView (set : BitVec 32) : (s.unprotectRequest set).linkView = s.linkView := by
  unfold State.unprotectRequest
  split <;> rfl

theorem State.resetRequest_linkView (scope : Nat) : (s.resetRequest scope).linkView = s.linkView := by
  unfold State.resetRequest
  split <;> rfl

/-- A pass that BEGIN PASS opens has terms, and a number from 1 on (R93, R96). -/
theorem State.PassNumberLaw.openPass {s : State} (law : s.PassNumberLaw) (t : PassTerms) : (s.openPass t).PassNumberLaw := by
  have bound := law.bound
  have next : (s.openPass t).pass.number = if s.pass.number = 65535 then 1 else s.pass.number + 1 := rfl
  refine ⟨iff_of_false ?_ nofun, ?_⟩ <;> rw [next] <;> split <;> omega

/-- BEGIN PASS is refused, or opens a pass (R94 to R96). -/
theorem State.beginPassRequest_cases (f : BeginPassFields) :
    (∃ code, s.beginPassRequest f = s.reject code) ∨ ∃ t, s.beginPassRequest f = s.openPass t := by
  unfold State.beginPassRequest
  split
  · exact .inl ⟨_, rfl⟩
  · split
    · exact .inl ⟨_, rfl⟩
    · split
      · exact .inl ⟨_, rfl⟩
      · split
        · exact .inl ⟨_, rfl⟩
        · exact .inr ⟨_, rfl⟩

end

/-! ### Commands on the link -/

theorem exchangeAfter_ne_idle (extent : ReadExtent) (len : Nat) : exchangeAfter extent len ≠ .idle := by
  cases extent with
  | complete | declinedAt => nofun
  | pausedAfter n =>
    rw [exchangeAfter]
    split <;> nofun

/-- The part is in an exchange, its idle timer stopped, whatever it did before; supply, RSTn and the waiting commands stand. -/
structure State.Engages (s t : State) : Prop where
  pending : t.pending = s.pending
  supply : t.supply = s.supply
  resetPinLow : t.resetPinLow = s.resetPinLow
  engaged : t.link.exchange ≠ .idle
  stopped : t.link.idleTimer = false
  number : s.PassNumberLaw → t.PassNumberLaw

namespace State.Engages

theorem trans {s t u : State} (h : s.Engages t) (k : t.Engages u) : s.Engages u :=
  ⟨k.pending.trans h.pending, k.supply.trans h.supply, k.resetPinLow.trans h.resetPinLow, k.engaged, k.stopped, k.number ∘ h.number⟩

theorem startExchange (s : State) {x : ExchangeState} (h : x ≠ .idle) : s.Engages (s.startExchange x) :=
  ⟨rfl, rfl, rfl, h, rfl, fun law => ⟨law.none, law.bound⟩⟩

theorem addressedForWrite (s : State) {x : ExchangeState} (h : x ≠ .idle) : s.Engages (s.addressedForWrite x) :=
  ⟨rfl, rfl, rfl, h, rfl, fun law => ⟨law.none, law.bound⟩⟩

/-- What the law of the link and the law of the pass number speak of stands, once the part is in an exchange. -/
theorem then_linkView {s t u : State} (h : s.Engages t) (same : u.linkView = t.linkView) : s.Engages u := by
  simp only [State.linkView, Prod.mk.injEq] at same
  obtain ⟨pending, supply, pin, exchange, timer, number, terms⟩ := same
  refine ⟨pending.trans h.pending, supply.trans h.supply, pin.trans h.resetPinLow, ?_, timer.trans h.stopped, fun law => ?_⟩
  · rw [exchange]
    exact h.engaged
  · obtain ⟨none, bound⟩ := h.number law
    exact ⟨by rw [number, terms]; exact none, by rw [number]; exact bound⟩

theorem judgeAddress (s : State) (address : Byte) : s.Engages (s.judgeAddress address) := by
  unfold State.judgeAddress
  split
  · exact addressedForWrite s nofun
  · exact startExchange s nofun

theorem startNotice (s : State) (rival : Option Byte) : s.Engages (s.startNotice rival) := by
  have started : s.Engages (s.startExchange .starting) := startExchange s nofun
  unfold State.startNotice State.meetRival
  simp only
  split
  · exact started
  · split
    · exact started.trans (judgeAddress _ _)
    · exact started

theorem send (s : State) (bytes : List Byte) (extent : ReadExtent) : s.Engages (s.send bytes extent) :=
  (startExchange s (exchangeAfter_ne_idle extent (s.framed bytes).length)).then_linkView rfl

theorem readResponse (s : State) (extent : ReadExtent) : s.Engages (s.readResponse extent) := by
  unfold State.readResponse
  split
  · exact (startExchange s (x := .elsewhere) nofun).then_linkView rfl
  · exact send s _ extent
  · exact send s _ extent

end State.Engages

/-! ### The laws from one state to another -/

theorem State.LinkLaw.of_engaged {t : State} (operating : t.operating = true) (engaged : t.link.exchange ≠ .idle)
    (stopped : t.link.idleTimer = false) : t.LinkLaw :=
  ⟨fun held => (nomatch operating.symm.trans held), by simp [stopped, engaged], fun idle => absurd idle engaged⟩

theorem State.LinkLaw.of_idle {t : State} (idle : t.link.exchange = .idle) (empty : t.link.response = .empty)
    (timer : t.link.idleTimer = t.operating) : t.LinkLaw := ⟨fun _ => idle, by simp [timer, idle], fun _ => empty⟩

theorem State.PassNumberLaw.of_noPass {t : State} (pass : t.pass = {}) : t.PassNumberLaw :=
  ⟨by simp [pass], by simp [pass]⟩

/-- The waiting commands stand, and the law of the link and the law of the pass number are kept. -/
structure State.KeepsLinkLaws (s t : State) : Prop where
  pending : t.pending = s.pending
  link : s.LinkLaw → t.LinkLaw
  number : s.PassNumberLaw → t.PassNumberLaw

namespace State.KeepsLinkLaws

theorem refl (s : State) : s.KeepsLinkLaws s := ⟨rfl, id, id⟩

theorem trans {s t u : State} (h : s.KeepsLinkLaws t) (k : t.KeepsLinkLaws u) : s.KeepsLinkLaws u :=
  ⟨k.pending.trans h.pending, k.link ∘ h.link, k.number ∘ h.number⟩

theorem ite {s t u : State} {p : Prop} [Decidable p] (ht : s.KeepsLinkLaws t) (hu : s.KeepsLinkLaws u) :
    s.KeepsLinkLaws (if p then t else u) := by
  split
  · exact ht
  · exact hu

theorem offLink {s t : State} (h : s.OffLink t) : s.KeepsLinkLaws t := by
  have same := h.view
  simp only [State.linkView, Prod.mk.injEq] at same
  obtain ⟨pending, supply, pin, exchange, timer, number, terms⟩ := same
  have operating : t.operating = s.operating := by rw [State.operating, supply, pin, State.operating]
  refine ⟨pending, fun law => ⟨fun held => ?_, ?_, fun idle => ?_⟩, fun law => ⟨?_, ?_⟩⟩
  · rw [exchange]
    exact law.held (operating ▸ held)
  · rw [timer, operating, exchange]
    exact law.timer
  · exact h.empty (law.empty (exchange ▸ idle))
  · rw [number, terms]
    exact law.none
  · rw [number]
    exact law.bound

/-- An operating part is engaged in an exchange. -/
theorem engages {s t : State} (operating : s.operating = true) (h : s.Engages t) : s.KeepsLinkLaws t := by
  have still : t.operating = true := by rw [State.operating, h.supply, h.resetPinLow]; exact operating
  exact ⟨h.pending, fun _ => .of_engaged still h.engaged h.stopped, h.number⟩

/-- A part held in reset or without supply is in IDLE with an EMPTY buffer, and its idle timer runs where it operates again
(R171). -/
theorem of_held {s t : State} (held : s.operating = false) (pending : t.pending = s.pending)
    (exchange : t.link.exchange = s.link.exchange) (response : t.link.response = s.link.response)
    (timer : s.link.idleTimer = false → t.link.idleTimer = t.operating) (pass : t.pass = s.pass) : s.KeepsLinkLaws t := by
  refine ⟨pending, fun law => ?_, fun law => ⟨by rw [pass]; exact law.none, by rw [pass]; exact law.bound⟩⟩
  have idle := law.held held
  have stopped : s.link.idleTimer = false := by rw [law.timer, held, Bool.false_and]
  exact .of_idle (exchange.trans idle) (response.trans (law.empty idle)) (timer stopped)

/-- A part whose blocks are held in their reset state (R171). -/
theorem heldReset {s u : State} (held : u.operating = false) (pending : u.pending = s.pending) : s.KeepsLinkLaws u.heldReset :=
  ⟨pending, fun _ => .of_idle rfl rfl held.symm, fun _ => .of_noPass rfl⟩

/-! ### Commands that an operating part carries out -/

theorem whileOperating {s : State} {f : State → State} (h : s.operating = true → s.KeepsLinkLaws (f s)) :
    s.KeepsLinkLaws (s.whileOperating f) := by
  by_cases operating : s.operating = true
  · rw [s.whileOperating_of_operating f operating]
    exact h operating
  · rw [s.whileOperating_held f (by simpa using operating)]
    exact refl s

/-- A command that happens off the link. -/
theorem signal {s : State} {f : State → State} (h : s.OffLink (f s)) : s.KeepsLinkLaws (s.whileOperating f) :=
  whileOperating fun _ => offLink h

/-- A request engages the part, refused or executed. -/
theorem request {s : State} {len : Nat} {params : List Byte} {owner : State → State}
    (h : ∀ u : State, s.Engages u → s.Engages (owner u)) : s.KeepsLinkLaws (s.request len params owner) := by
  have taken : s.Engages (s.addressedForWrite .taken) := .addressedForWrite s nofun
  by_cases received : s.operating = true ∧ s.link.exchange ≠ .poisoned
  · obtain ⟨operating, sound⟩ := received
    refine engages operating ?_
    by_cases sized : params.length = len
    · rw [s.request_accepted len params owner operating sound sized]
      exact h _ taken
    · rw [s.request_wrong_length len params owner operating sound sized]
      exact taken.then_linkView rfl
  · rw [s.request_not_received len params owner (by simpa [or_iff_not_imp_left] using received)]
    exact refl s

/-- A request whose owner leaves alone what the laws speak of. -/
theorem plainRequest {s : State} {len : Nat} {params : List Byte} {owner : State → State}
    (h : ∀ u : State, (owner u).linkView = u.linkView) : s.KeepsLinkLaws (s.request len params owner) :=
  request fun u engaged => engaged.then_linkView (h u)

theorem beginPass (s : State) (len : Nat) (params : List Byte) (f : BeginPassFields) :
    s.KeepsLinkLaws (s.request len params fun u => u.beginPassRequest f) := by
  refine request fun u engaged => ?_
  obtain ⟨code, refused⟩ | ⟨t, opened⟩ := u.beginPassRequest_cases f
  · rw [refused]
    exact engaged.then_linkView rfl
  · rw [opened]
    exact { engaged with number := fun law => (engaged.number law).openPass t }

theorem linkStart {s : State} (operating : s.operating = true) (address : Option Byte) : s.KeepsLinkLaws (s.linkStart address) := by
  have judged (b : Byte) : s.KeepsLinkLaws (s.judgeAddress b) := engages operating (.judgeAddress s b)
  have addressing (fresh : Bool) : s.KeepsLinkLaws (s.startExchange (.addressing fresh)) :=
    engages operating (.startExchange s nofun)
  unfold State.linkStart
  split
  · exact refl s
  · exact refl s
  · exact ite (judged _) (refl s)
  · exact addressing _
  · exact ite (addressing _) (judged _)

theorem addressedForRead {s : State} (operating : s.operating = true) (extent : ReadExtent) :
    s.KeepsLinkLaws (s.addressedForRead extent) := by
  have declined : s.OffLink { s with link := { s.link with sent := [] } } := ⟨rfl, id⟩
  have payload : s.Engages (s.sendPayload extent) := (State.Engages.send s s.events.payload extent).then_linkView rfl
  exact ite (offLink declined) (ite (engages operating payload) (engages operating (.readResponse s extent)))

/-- A STOP leaves an operating part in IDLE with its idle timer running (R161), an armed reset included (R170). -/
theorem of_stopped {s t : State} (operating : s.operating = true) (pending : t.pending = s.pending) (supply : t.supply = s.supply)
    (pin : t.resetPinLow = s.resetPinLow) (stopped : t.Stopped) (number : s.PassNumberLaw → t.PassNumberLaw) :
    s.KeepsLinkLaws t := by
  have still : t.operating = true := by rw [State.operating, supply, pin]; exact operating
  exact ⟨pending, fun _ => .of_idle stopped.exchange stopped.response (stopped.idleTimer.trans still.symm), number⟩

theorem stopExchange {s : State} (operating : s.operating = true) : s.KeepsLinkLaws s.stopExchange :=
  of_stopped operating rfl rfl rfl s.stopExchange_stopped fun law => ⟨law.none, law.bound⟩

theorem linkStop {s : State} (operating : s.operating = true) (straps : Straps) : s.KeepsLinkLaws (s.linkStop straps) := by
  have part : s.KeepsLinkLaws (s.stopExchange.partReset straps) :=
    of_stopped operating rfl rfl rfl (State.partReset_stopped _ straps) fun _ => .of_noPass rfl
  exact ite part (ite ((stopExchange operating).trans (offLink (.interfaceReset _))) (stopExchange operating))

/-! ### The resets and the supply (R171) -/

theorem powerOnHoldEnd (s : State) (straps : Straps) :
    s.KeepsLinkLaws (if s.supply = .hold then
      ((({ s with supply := .on } : State).sampleStraps straps).setCauses { power := true }).startIdleTimer else s) := by
  split
  next hold => exact of_held (by simp [State.operating, hold]) rfl rfl rfl (fun _ => rfl) rfl
  next => exact refl s

theorem pinResetAssert (s : State) :
    s.KeepsLinkLaws (if s.supply = .failed then { s with resetPinLow := true }
      else ({ s with resetPinLow := true } : State).heldReset) := by
  have low : ({ s with resetPinLow := true } : State).operating = false := by simp [State.operating]
  split
  next failed => exact of_held (by simp [State.operating, failed]) rfl rfl rfl (fun stopped => stopped.trans low.symm) rfl
  next => exact heldReset low rfl

theorem pinResetRelease (s : State) (straps : Straps) :
    s.KeepsLinkLaws (if !s.resetPinLow then s
      else if s.supply = .failed then { s with resetPinLow := false }
      else ((({ s with resetPinLow := false } : State).sampleStraps straps).setCauses
        { s.link.causes with pin := true }).startIdleTimer) := by
  split
  · exact refl s
  next low =>
    have held : s.operating = false := by simpa [State.operating] using fun _ => low
    split
    next failed =>
      have unsupplied : ({ s with resetPinLow := false } : State).operating = false := by simp [State.operating, failed]
      exact of_held held rfl rfl rfl (fun stopped => stopped.trans unsupplied.symm) rfl
    next => exact of_held held rfl rfl rfl (fun _ => rfl) rfl

end State.KeepsLinkLaws

open State.KeepsLinkLaws in
/-- Every command leaves the waiting commands alone, and keeps the law of the link and the law of the pass number. -/
theorem exec_keepsLinkLaws (c : Instr) (s t : State) (h : exec c s = .next t) : s.KeepsLinkLaws t := by
  have same := State.OffLink.refl s
  cases c <;> obtain rfl := Host.Outcome.next.inj h
  case sampleEvent k increment amplitude first => exact signal (.ite same (.sampleChannel s _ _ _ _))
  case referenceAbsenceTimeout first => exact signal (.ite (.referenceLost s _) same)
  case referenceEdge => exact signal (.of_link rfl rfl)
  case leadingEdge i phase => exact signal (.leadingEdge s _ _)
  case trailingEdge i phase => exact signal (.trailingEdge s _ _)
  case matchCompletion =>
    refine signal ?_
    split
    · exact (State.OffLink.matchSighting s _).trans (.freed _)
    all_goals exact same
  case datumOffsetClaim =>
    refine signal ?_
    split
    · split
      · exact .makeClaim s _ _
      · exact same
    all_goals exact same
  case armSweepCompletion => exact signal (.ite (.finishArmSweep s) same)
  case closeSweepCompletion => exact signal (.ite (.finishSweep s _ _) same)
  case abortSweepCompletion => exact signal (.ite (.finishSweep s _ _) same)
  case tableOperationCompletion =>
    refine signal ?_
    split
    · exact .finishHostOp s _
    all_goals exact same
  case passTimerExpiry =>
    have expired : s.OffLink { s with passTimer := false } := .of_link rfl rfl
    exact signal (.ite ((expired.trans (.abortLivePass _ _)).trans (.arbitrate _)) same)
  case setAxis params first => exact plainRequest (·.setAxisRequest_linkView _ _)
  case trackAxis params => exact plainRequest (·.trackRequest_linkView _)
  case restartAxis params => exact plainRequest (·.restartRequest_linkView _)
  case zeroAxis params => exact plainRequest (·.zeroRequest_linkView _ _)
  case setMatch params => exact plainRequest (·.setMatchRequest_linkView _)
  case setLine params => exact plainRequest (·.setLineRequest_linkView _)
  case enrol | enrolRun | amend | retire => exact plainRequest (·.hostTableGuarded_linkView _ fun _ => rfl)
  case reopen | lookup | readRange | readGroups => exact plainRequest (·.hostTable_linkView _)
  case beginPass params => exact beginPass s _ _ _
  case abortPass params => exact plainRequest (·.abortPassRequest_linkView _)
  case unprotect params => exact plainRequest (·.unprotectRequest_linkView _)
  case readEvents params => exact plainRequest (·.readEventsRequest_linkView _)
  case clearEvents params => exact plainRequest (·.clearEventsRequest_linkView _)
  case setNotice params => exact plainRequest (·.setNoticeRequest_linkView _ _)
  case reset params => exact plainRequest (·.resetRequest_linkView _)
  case readAxes | readLines | readPass | protect | readProtect | identify | unknownRequest => exact plainRequest fun _ => rfl
  case linkFault cause =>
    by_cases operating : s.operating = true
    · have poisoned : s.Engages (s.addressedForWrite .poisoned) := .addressedForWrite s nofun
      exact ite (refl s) (engages operating (poisoned.then_linkView rfl))
    · rw [if_pos (by simp [operating])]
      exact refl s
  case linkStart address => exact whileOperating fun operating => linkStart operating address
  case linkStop straps => exact whileOperating fun operating => linkStop operating straps
  case responseRead extent => exact whileOperating fun operating => addressedForRead operating extent
  case poll extent => exact whileOperating fun operating => addressedForRead operating extent
  case noticeStart rival => exact whileOperating fun operating => ite (engages operating (.startNotice s rival)) (refl s)
  case noticeWithdraw => exact whileOperating fun operating => ite (stopExchange operating) (refl s)
  case powerOnReset => exact heldReset (by simp [State.operating]) rfl
  case powerOnHoldEnd straps => exact powerOnHoldEnd s straps
  case pinResetAssert => exact pinResetAssert s
  case pinResetRelease straps => exact pinResetRelease s straps
  case supplyFailure =>
    refine ⟨rfl, fun _ => .of_idle rfl rfl ?_, fun law => ⟨law.none, law.bound⟩⟩
    simp [State.operating]

/-- Settles O51: a step carries out the front command on the state with the queue's rest, or idles. -/
theorem linkLawIsKept : Obligations.LinkLawIsKept := by
  intro s t link number h
  unfold step at h
  split at h
  · obtain rfl := Host.Outcome.next.inj h
    exact ⟨link, number⟩
  next c rest _ =>
    obtain ⟨-, keepsLink, keepsNumber⟩ := exec_keepsLinkLaws c _ t h
    exact ⟨keepsLink ⟨link.held, link.timer, link.empty⟩, keepsNumber ⟨number.none, number.bound⟩⟩

/-! ### A part held in reset -/

/-- A part held in reset, or without its supply, takes notice of the supply and of RSTn alone (R171, log 19, log 21). -/
theorem exec_held {c : Instr} {s : State} (held : s.operating = false) (powerOnReset : c ≠ .powerOnReset)
    (powerOnHoldEnd : ∀ straps, c ≠ .powerOnHoldEnd straps) (pinResetAssert : c ≠ .pinResetAssert)
    (pinResetRelease : ∀ straps, c ≠ .pinResetRelease straps) (supplyFailure : c ≠ .supplyFailure) : exec c s = .next s := by
  have request (len : Nat) (params : List Byte) (owner : State → State) :
      (.next (s.request len params owner) : Host.Outcome State Fault Refusal) = .next s :=
    congrArg _ (s.request_not_received len params owner (.inl held))
  have operation (f : State → State) : (.next (s.whileOperating f) : Host.Outcome State Fault Refusal) = .next s :=
    congrArg _ (s.whileOperating_held f held)
  cases c
  case powerOnReset => exact absurd rfl powerOnReset
  case powerOnHoldEnd straps => exact absurd rfl (powerOnHoldEnd straps)
  case pinResetAssert => exact absurd rfl pinResetAssert
  case pinResetRelease straps => exact absurd rfl (pinResetRelease straps)
  case supplyFailure => exact absurd rfl supplyFailure
  case linkFault cause => exact congrArg Host.Outcome.next (if_pos (by simp [held]))
  case sampleEvent | referenceAbsenceTimeout | referenceEdge | leadingEdge | trailingEdge | matchCompletion | datumOffsetClaim
      | armSweepCompletion | closeSweepCompletion | abortSweepCompletion | tableOperationCompletion | passTimerExpiry | linkStart
      | linkStop | responseRead | poll | noticeStart | noticeWithdraw => exact operation _
  all_goals exact request _ _ _

/-- Settles O2: each meaning answers a next state; what it leaves alone is said above. -/
theorem everyCommandHasNextState : Obligations.EveryCommandHasNextState := by
  refine ⟨fun c s => ?_, fun c s => exec_held⟩
  obtain ⟨t, h⟩ : ∃ t, exec c s = .next t := by cases c <;> exact ⟨_, rfl⟩
  exact ⟨t, h, (exec_keepsLinkLaws c s t h).pending⟩

end Sys2Proof.Machine
end

section
/-! SUPPORT. Requests as they are framed and received (R162, R163, R165), and a request that the link refuses by its code or its
length (R163). -/

namespace Sys2Proof

/-! ### Parity (R162) -/

theorem foldl_bne (p : Nat → Bool) (l : List Nat) (acc : Bool) :
    l.foldl (fun acc i => acc != p i) acc = (acc != decide (l.countP p % 2 = 1)) := by
  induction l generalizing acc with
  | nil => simp
  | cons i l ih =>
    rw [List.foldl_cons, ih, List.countP_cons]
    obtain even | odd : l.countP p % 2 = 0 ∨ l.countP p % 2 = 1 := by omega
    · cases p i <;> simp [Nat.add_mod, even]
    · cases p i <;> simp [Nat.add_mod, odd]

theorem oddOnes_eq (b : Byte) : oddOnes b = decide ((List.range 8).countP (fun n => b.getLsbD n) % 2 = 1) :=
  (foldl_bne b.getLsbD _ _).trans (Bool.false_bne _)

theorem foldl_bne_bne (p q : Nat → Bool) (l : List Nat) (a b : Bool) :
    l.foldl (fun acc i => acc != (p i != q i)) (a != b)
      = (l.foldl (fun acc i => acc != p i) a != l.foldl (fun acc i => acc != q i) b) := by
  have swap : ∀ a b c d : Bool, ((a != b) != (c != d)) = ((a != c) != (b != d)) := by decide
  induction l generalizing a b with
  | nil => rfl
  | cons i l ih => rw [List.foldl_cons, swap, ih, List.foldl_cons, List.foldl_cons]

theorem oddOnes_xor (a b : Byte) : oddOnes (a ^^^ b) = (oddOnes a != oddOnes b) := by
  simp only [oddOnes, BitVec.getLsbD_xor]
  exact foldl_bne_bne a.getLsbD b.getLsbD _ false false

/-- One wrong bit makes the number of ones even where it was odd, and odd where it was even. -/
theorem oddOnes_flip (b : Byte) (bit : Nat) (h : bit < 8) : oddOnes (b ^^^ 1#8 <<< bit) = !oddOnes b := by
  have one : ∀ k : Fin 8, oddOnes (1#8 <<< k.val) = true := by decide
  rw [oddOnes_xor, one ⟨bit, h⟩, Bool.bne_true]

theorem ParityByte.sound_of (b : Byte) : (ParityByte.of b).sound = true := by
  simp [ParityByte.sound, ParityByte.of]

/-- The byte with one of its nine bits wrong. -/
def ParityByte.flip (w : ParityByte) (bit : Fin 9) : ParityByte :=
  if bit.val < 8 then { w with data := w.data ^^^ (1#8 <<< bit.val) } else { w with parity := !w.parity }

theorem ParityByte.sound_flip (w : ParityByte) (bit : Fin 9) : (w.flip bit).sound = !w.sound := by
  unfold ParityByte.flip
  split
  next h => simp [ParityByte.sound, oddOnes_flip w.data bit.val h]
  next => simp [ParityByte.sound]

/-! ### Receiving a request (R162) -/

theorem receiveFrame_sound (address code len : Byte) (body : List ParityByte) :
    receiveFrame address (.of code :: .of len :: body) = receiveBody address code len body := by
  simp only [receiveFrame, ParityByte.sound_of, Bool.not_true, Bool.false_eq_true, if_false]
  rfl

theorem receiveBody_unsound {address code len : Byte} {body : List ParityByte} (due : body.length = len.toNat + 1)
    {w : ParityByte} (mem : w ∈ body) (unsound : w.sound = false) : receiveBody address code len body = .parityError := by
  have wrong : body.any (fun w => !w.sound) = true := List.any_eq_true.mpr ⟨w, mem, by simp [unsound]⟩
  simp only [receiveBody, ← due, List.take_length, wrong, if_true]

/-- The bytes of a request under some check byte, each with its parity bit. -/
def framedWith (code : Byte) (params : List Byte) (check : Byte) : List ParityByte :=
  .of code :: .of (BitVec.ofNat 8 params.length) :: (params ++ [check]).map ParityByte.of

theorem sendFrame_eq (address code : Byte) (params : List Byte) :
    sendFrame address code params
      = framedWith code params (crc8 (address :: code :: BitVec.ofNat 8 params.length :: params)) := rfl

section
variable {params : List Byte} (short : params.length ≤ 255)
include short

theorem toNat_lengthByte : (BitVec.ofNat 8 params.length).toNat = params.length :=
  (BitVec.toNat_ofNat _ _).trans (Nat.mod_eq_of_lt (by omega))

/-- With every parity right, the check byte alone decides. -/
theorem receiveFrame_framedWith (address code check : Byte) :
    receiveFrame address (framedWith code params check)
      = if crc8 (address :: code :: BitVec.ofNat 8 params.length :: params) = check then .request code params
        else .checkError := by
  have due : ((params ++ [check]).map ParityByte.of).take (params.length + 1) = (params ++ [check]).map ParityByte.of :=
    List.take_of_length_le (by simp)
  have sound : ((params ++ [check]).map ParityByte.of).any (fun w => !w.sound) = false := by
    simp [ParityByte.sound_of]
  have data : ((params ++ [check]).map ParityByte.of).map ParityByte.data = params ++ [check] := by
    simp [Function.comp_def, ParityByte.of]
  rw [framedWith, receiveFrame_sound, receiveBody, toNat_lengthByte short]
  simp only [due, sound, data, Bool.false_eq_true, if_false, List.take_left, List.drop_left]

theorem receiveFrame_sendFrame (address code : Byte) :
    receiveFrame address (sendFrame address code params) = .request code params := by
  rw [sendFrame_eq, receiveFrame_framedWith short, if_pos rfl]

/-- One unsound byte makes the request a parity error, wherever it stands. -/
theorem receiveFrame_set_unsound (address code check : Byte) {n : Nat} (within : n < (framedWith code params check).length)
    {w : ParityByte} (unsound : w.sound = false) :
    receiveFrame address ((framedWith code params check).set n w) = .parityError := by
  match n with
  | 0 => simp [framedWith, receiveFrame, unsound]
  | 1 => simp [framedWith, receiveFrame, unsound, ParityByte.sound_of]
  | n + 2 =>
    have placed : n < ((params ++ [check]).map ParityByte.of).length := by
      simpa [framedWith] using within
    rw [framedWith, List.set_cons_succ, List.set_cons_succ, receiveFrame_sound]
    exact receiveBody_unsound (by simp [toNat_lengthByte short]) (List.mem_set placed w) unsound

end

/-- Settles O4: the wrong bit makes its byte unsound, and every byte of a request is checked. -/
theorem singleBitErrorIsParityError : Obligations.SingleBitErrorIsParityError := by
  intro address code params n w bit short sent
  obtain ⟨within, at_n⟩ := List.getElem?_eq_some_iff.mp sent
  have sound : w.sound = true := by
    rw [← at_n]
    simp only [sendFrame, List.getElem_map]
    exact ParityByte.sound_of _
  have unsound : (w.flip bit).sound = false := by rw [w.sound_flip, sound, Bool.not_true]
  exact receiveFrame_set_unsound short address code _ within unsound

/-! ### The request a command is (R162, R163) -/

theorem Instr.params_short {c : Instr} {code : Byte} {params : List Byte} (request : c.request? = some (code, params))
    (wellFormed : c.wellFormed = true) : params.length ≤ 255 := by
  cases c <;> cases request <;> exact of_decide_eq_true wellFormed

/-- A command that is a request is what its own code and parameters decode to (Table 12-3). -/
theorem Instr.decodes (c : Instr) : Laws.Catalogue.Statement c := by
  cases c
  case setAxis params first => exact Laws.Catalogue.setAxis params first
  case trackAxis params => exact Laws.Catalogue.trackAxis params
  case restartAxis params => exact Laws.Catalogue.restartAxis params
  case zeroAxis params => exact Laws.Catalogue.zeroAxis params
  case readAxes params => exact Laws.Catalogue.readAxes params
  case setMatch params => exact Laws.Catalogue.setMatch params
  case setLine params => exact Laws.Catalogue.setLine params
  case readLines params => exact Laws.Catalogue.readLines params
  case enrol params => exact Laws.Catalogue.enrol params
  case enrolRun params => exact Laws.Catalogue.enrolRun params
  case amend params => exact Laws.Catalogue.amend params
  case retire params => exact Laws.Catalogue.retire params
  case reopen params => exact Laws.Catalogue.reopen params
  case lookup params => exact Laws.Catalogue.lookup params
  case readRange params => exact Laws.Catalogue.readRange params
  case beginPass params => exact Laws.Catalogue.beginPass params
  case abortPass params => exact Laws.Catalogue.abortPass params
  case readPass params => exact Laws.Catalogue.readPass params
  case readGroups params => exact Laws.Catalogue.readGroups params
  case protect params => exact Laws.Catalogue.protect params
  case unprotect params => exact Laws.Catalogue.unprotect params
  case readProtect params => exact Laws.Catalogue.readProtect params
  case readEvents params => exact Laws.Catalogue.readEvents params
  case clearEvents params => exact Laws.Catalogue.clearEvents params
  case setNotice params => exact Laws.Catalogue.setNotice params
  case identify params => exact Laws.Catalogue.identify params
  case reset params => exact Laws.Catalogue.reset params
  case unknownRequest code params => exact Laws.Catalogue.unknownRequest code params
  all_goals exact fun _ _ request => nomatch request

/-- Settles O3: the receiver takes the frame apart as the sender put it together, and the check value enters byte by byte. -/
theorem framedRequestDecodes : Obligations.FramedRequestDecodes := by
  refine ⟨fun c code params address request wellFormed => ?_, fun address code check params short => ⟨rfl, fun other => ?_⟩,
    fun b => ⟨rfl, ?_⟩, rfl, Machine.crc8_snoc⟩
  · have received := receiveFrame_sendFrame (Instr.params_short request wellFormed) address code
    obtain ⟨first, decoded⟩ := c.decodes code params request
    exact ⟨received, first, by rw [decodeFrame, received]; exact decoded⟩
  · have wrong : receiveFrame address (framedWith code params check) = .checkError := by
      rw [receiveFrame_framedWith short, if_neg (Ne.symm other)]
    refine ⟨wrong, fun first => ?_⟩
    change decodeFrame first address (framedWith code params check) = _
    rw [decodeFrame, wrong]
  · have parity : (ParityByte.of b).parity = !oddOnes b := rfl
    rw [parity, oddOnes_eq]
    obtain even | odd := Nat.mod_two_eq_zero_or_one ((List.range 8).countP fun n => b.getLsbD n)
    · simp [Nat.add_mod, even]
    · simp [odd]

end Sys2Proof
end

section
/-! SUPPORT. Requests that the link refuses by their code or their length (R163), faulty requests and the POISONED part (R153,
R162), and the link's own requests IDENTIFY and RESET (R169, R170). -/

namespace Sys2Proof.Machine

/-! ### Code, then length (R163) -/

theorem requestLength_unlisted : ∀ b : Byte, requestCodes.contains b = false → requestLength b = none := by
  decide +kernel

/-- Every request goes through the link, which compares its length with the one that Table 12-3 gives for its code, if any. -/
theorem exec_request {c : Instr} {code : Byte} {params : List Byte} (request : c.request? = some (code, params)) (s : State) :
    ∃ len owner, exec c s = .next (s.request len params owner) ∧ ∀ n, requestLength code = some n → n = len := by
  cases c <;> cases request
  case unknownRequest unknown =>
    exact ⟨_, _, rfl, fun n listed => nomatch listed.symm.trans (requestLength_unlisted unknown.code unknown.unlisted)⟩
  all_goals exact ⟨_, _, rfl, fun n listed => (Option.some.inj listed).symm⟩

/-- Settles O5: the link judges the length of a listed request, and an unlisted code before its length. -/
theorem linkChecksCodeThenLength : Obligations.LinkChecksCodeThenLength := by
  refine ⟨fun c code params s len received request listed other => ?_, fun code params s received => ?_⟩
  · obtain ⟨len', owner, run, length⟩ := exec_request request s
    rw [run, received.request_short (length len listed ▸ other)]
  · rw [exec, execUnknownRequest, received.request_eq rfl]
    rfl

/-! ### Faulty requests (R153, R162) -/

theorem exec_linkFault {s : State} (received : s.receives) (cause : LinkFaultCause) :
    exec (.linkFault cause) s = .next { s.addressedForWrite .poisoned with
      events := (s.addressedForWrite .poisoned).events.linkFaultReport cause } := by
  obtain ⟨operating, sound⟩ := received
  exact congrArg Host.Outcome.next (if_neg (by simp [operating, sound]))

/-- A POISONED part declines an address byte with R (R162). -/
theorem State.addressedForRead_poisoned {s : State} (poisoned : s.link.exchange = .poisoned) (extent : ReadExtent) :
    s.addressedForRead extent = { s with link := { s.link with sent := [] } } := if_pos poisoned

theorem State.linkStart_poisoned {s : State} (poisoned : s.link.exchange = .poisoned) (address : Option Byte) :
    s.linkStart address = s := by
  simp only [State.linkStart, poisoned]

/-- Settles O7: the fault poisons the exchange, and a POISONED part waits for the STOP. -/
theorem poisonedUntilStop : Obligations.PoisonedUntilStop := by
  refine ⟨fun cause s received => ⟨_, exec_linkFault received cause, rfl, rfl, ⟨rfl, rfl, rfl⟩, rfl, rfl, rfl, rfl⟩,
    fun s operating poisoned => ⟨fun c request => ?_, fun address => ?_, fun cause => ?_, fun extent => ?_, fun extent => ?_,
      fun straps => ⟨_, exec_linkStop straps operating, (s.linkStop_stopped straps).exchange⟩⟩⟩
  · obtain ⟨⟨code, params⟩, request⟩ := Option.ne_none_iff_exists'.mp request
    obtain ⟨len, owner, run, -⟩ := exec_request request s
    rw [run, s.request_not_received len params owner (.inr poisoned)]
  · rw [exec, execLinkStart, s.whileOperating_of_operating _ operating, State.linkStart_poisoned poisoned]
  · exact congrArg Host.Outcome.next (if_pos (by simp [poisoned]))
  · rw [exec, execResponseRead, s.whileOperating_of_operating _ operating, State.addressedForRead_poisoned poisoned]
  · rw [exec, execPoll, s.whileOperating_of_operating _ operating, State.addressedForRead_poisoned poisoned]

/-! ### IDENTIFY and RESET (R169, R170, Table 12-3) -/

theorem strapByte_tied : ∀ strap : BitVec 3, BitVec.ofNat 8 (strap.toNat + 128) = strap.zeroExtend 8 ||| 0x80#8 := by decide

theorem strapByte_untied : ∀ strap : BitVec 3, BitVec.ofNat 8 (strap.toNat + 0) = strap.zeroExtend 8 ||| 0#8 := by decide

theorem causesByte_eq (causes : ResetCauses) :
    BitVec.ofNat 8 (flagByte causes.power 1 + flagByte causes.pin 2 + flagByte causes.part 4)
      = (if causes.power then 1#8 else 0) ||| (if causes.pin then 2#8 else 0) ||| (if causes.part then 4#8 else 0) := by
  obtain ⟨power, pin, part⟩ := causes
  revert power pin part
  decide

theorem State.identityBytes_eq (s : State) :
    s.identityBytes = [0xDC, 0x06, 0x01, s.link.strap.zeroExtend 8 ||| (if s.protection.cal = .tied then 0x80#8 else 0),
      (if s.link.causes.power then 1#8 else 0) ||| (if s.link.causes.pin then 2#8 else 0)
        ||| (if s.link.causes.part then 4#8 else 0)] := by
  have family : beBytes 2 Config.familyCode ++ oneByte Config.revision = [0xDC, 0x06, 0x01] := by decide
  rw [State.identityBytes, family, oneByte_eq, oneByte_eq, causesByte_eq]
  cases s.protection.cal with
  | tied => exact congrArg (fun b => [0xDC, 0x06, 0x01, b, _]) (strapByte_tied _)
  | untied => exact congrArg (fun b => [0xDC, 0x06, 0x01, b, _]) (strapByte_untied _)

section
variable {s : State} (received : s.receives)
include received

theorem exec_identify : exec (.identify []) s = .next (s.responding .empty).identifyRequest := by
  rw [exec, execIdentify, received.request_eq (len := 0) (params := []) rfl]

theorem exec_reset (scope : Byte) : exec (.reset [scope]) s = .next ((s.responding .empty).resetRequest scope.toNat) := by
  simp only [exec, execReset, received.request_eq (len := 1) (params := [scope]) rfl, byteField_head]

end

theorem State.resetRequest_undefined (s : State) {scope : Byte} (part : scope ≠ 1) (interface : scope ≠ 2) :
    s.resetRequest scope.toNat = s.reject .range := by
  unfold State.resetRequest
  split
  next is => exact absurd (BitVec.eq_of_toNat_eq is) part
  next is => exact absurd (BitVec.eq_of_toNat_eq is) interface
  next => rfl

/-- Settles O27: the bytes of the identity, and RESET by its scope. -/
theorem identifyAndResetRequests : Obligations.IdentifyAndResetRequests := by
  refine ⟨fun s received => ?_, fun s scope received => ⟨?_, ?_, fun part interface => ?_⟩⟩
  · rw [exec_identify received]
    exact congrArg (fun bytes =>
      Host.Outcome.next (({ s with link := { s.link with causes := {} } } : State).answered bytes)) s.identityBytes_eq
  · rintro rfl
    rw [exec_reset received]
    rfl
  · rintro rfl
    rw [exec_reset received]
    rfl
  · rw [exec_reset received, State.resetRequest_undefined _ part interface]
    rfl

end Sys2Proof.Machine
end

section
/-! SUPPORT. The exchange: the part's own address and another's (R160, R161, R168), response reads (R164, R165), the part's own
notices (R166), and what the resets begin and end with (R143, R169, R171). -/

namespace Sys2Proof.Machine

/-! ### The address byte (R160) -/

theorem toNat_append_one (a : BitVec 7) (x : BitVec 1) : (a ++ x : Byte).toNat = 2 * a.toNat + x.toNat := by
  rw [BitVec.toNat_append, ← Nat.shiftLeft_add_eq_or_of_lt x.isLt, Nat.shiftLeft_eq, Nat.mul_comm]

theorem extractLsb'_append_one (a : BitVec 7) (x : BitVec 1) : (a ++ x : Byte).extractLsb' 1 7 = a := by
  have low := x.isLt
  have high := a.isLt
  apply BitVec.eq_of_toNat_eq
  rw [BitVec.extractLsb'_toNat, toNat_append_one, Nat.shiftRight_eq_div_pow]
  omega

section
variable (s : State)

/-- The address byte with R follows the one with W. -/
theorem State.addressByte_succ : (s.addressByte true).toNat = (s.addressByte false).toNat + 1 :=
  (toNat_append_one s.address 1#1).trans (congrArg (· + 1) (toNat_append_one s.address 0#1).symm)

theorem State.addressByte_ne : s.addressByte false ≠ s.addressByte true := fun same => by
  have := s.addressByte_succ
  rw [same] at this
  omega

/-- Another party's address byte is the part's own neither with R nor with W. -/
theorem State.addressByte_other {b : Byte} (other : b.extractLsb' 1 7 ≠ 0x48#7 + s.link.strap.zeroExtend 7) (read : Bool) :
    b ≠ s.addressByte read := by
  rintro rfl
  exact other (extractLsb'_append_one _ _)

/-! ### START (R160, R161, R168) -/

theorem State.judgeAddress_own : s.judgeAddress (s.addressByte false) = s.addressedForWrite .receiving := if_pos rfl

theorem State.judgeAddress_other {b : Byte} (other : b ≠ s.addressByte false) : s.judgeAddress b = s.startExchange .elsewhere :=
  if_neg other

theorem State.meetRival_higher {b : Byte} (higher : (s.addressByte true).toNat ≤ b.toNat) : s.meetRival b = s :=
  if_neg (Nat.not_lt.mpr higher)

theorem State.meetRival_own : s.meetRival (s.addressByte false) = s.addressedForWrite .receiving := by
  rw [State.meetRival, if_pos (by rw [s.addressByte_succ]; omega), s.judgeAddress_own]

theorem State.meetRival_lower {b : Byte} (lower : b.toNat < (s.addressByte false).toNat) :
    s.meetRival b = s.startExchange .elsewhere := by
  have other : b ≠ s.addressByte false := fun same => by rw [same] at lower; omega
  rw [State.meetRival, if_pos (by rw [s.addressByte_succ]; omega), s.judgeAddress_other other]

variable {s}

theorem State.linkStart_starting_none (starting : s.link.exchange = .starting) : s.linkStart none = s := by
  simp only [State.linkStart, starting]

theorem State.linkStart_starting_some (starting : s.link.exchange = .starting) (b : Byte) :
    s.linkStart (some b) = s.meetRival b := by
  simp only [State.linkStart, starting]

variable (received : s.receives) (other : s.link.exchange ≠ .starting)
include received other

theorem State.linkStart_none : s.linkStart none = s.startExchange (.addressing (decide (s.link.exchange = .idle))) := by
  obtain ⟨-, sound⟩ := received
  cases exchange : s.link.exchange
  case poisoned => exact absurd exchange sound
  case starting => exact absurd exchange other
  all_goals simp only [State.linkStart, exchange]

theorem State.linkStart_some (b : Byte) :
    s.linkStart (some b)
      = if b = s.addressByte true then s.startExchange (.addressing (decide (s.link.exchange = .idle))) else s.judgeAddress b := by
  obtain ⟨-, sound⟩ := received
  cases exchange : s.link.exchange
  case poisoned => exact absurd exchange sound
  case starting => exact absurd exchange other
  all_goals simp only [State.linkStart, exchange]

end

theorem exec_linkStart {s : State} (operating : s.operating = true) (address : Option Byte) :
    exec (.linkStart address) s = .next (s.linkStart address) := by
  rw [exec, execLinkStart, s.whileOperating_of_operating _ operating]

/-- Settles O44: in STARTING the START is a rival's, and elsewhere its address byte is judged, where it has one. -/
theorem startIsJudgedByAddress : Obligations.StartIsJudgedByAddress := by
  refine ⟨fun s received starting => ?_, fun s address received other => ?_⟩
  · intro own runs yielding
    have rival (b : Byte) : exec (.linkStart (some b)) s = .next (s.meetRival b) := by
      rw [exec_linkStart received.1, State.linkStart_starting_some starting]
    refine ⟨?_, fun b higher => ?_, ?_, fun b lower => ?_⟩
    · rw [exec_linkStart received.1, State.linkStart_starting_none starting]
    · exact (rival b).trans (congrArg _ (s.meetRival_higher higher))
    · exact (rival _).trans (congrArg _ s.meetRival_own)
    · exact (rival b).trans (congrArg _ (s.meetRival_lower lower))
  · intro own
    refine ⟨_, exec_linkStart received.1 address, ?_⟩
    cases address with
    | none =>
      rw [State.linkStart_none received other]
      exact ⟨rfl, fun _ => ⟨rfl, rfl⟩, nofun⟩
    | some b =>
      rw [State.linkStart_some received other]
      by_cases read : b = s.addressByte true
      · rw [if_pos read]
        refine ⟨rfl, nofun, ?_⟩
        rintro _ ⟨⟩
        exact ⟨fun _ => ⟨rfl, rfl⟩, fun write => absurd (write.symm.trans read) s.addressByte_ne,
          fun another => absurd read (s.addressByte_other another true)⟩
      · rw [if_neg read]
        by_cases write : b = s.addressByte false
        · rw [write, s.judgeAddress_own]
          refine ⟨rfl, nofun, ?_⟩
          rintro _ ⟨⟩
          exact ⟨fun same => absurd same s.addressByte_ne, fun _ => ⟨rfl, rfl⟩,
            fun another => absurd rfl (s.addressByte_other another false)⟩
        · rw [s.judgeAddress_other write]
          refine ⟨rfl, nofun, ?_⟩
          rintro _ ⟨⟩
          exact ⟨fun same => absurd same read, fun same => absurd same write, fun _ => ⟨rfl, rfl⟩⟩

/-! ### Response reads (R164, R165) -/

/-- What the part answers to a response read, where its buffer is not EMPTY: NOT READY, or the status byte, and after DONE the
response bytes (R164). -/
def LinkInterface.Reads (link : LinkInterface) (bytes : List Byte) : Prop :=
  (link.response = .pending ∧ bytes = [0x01#8])
    ∨ (∃ body, link.response = .ready .done body ∧ bytes = 0x00#8 :: body)
    ∨ ∃ code body, link.response = .ready (.rejected code) body ∧ bytes = [BitVec.ofNat 8 code.code]

theorem exchangeAfter_ended {extent : ReadExtent} (ended : ∀ n, extent ≠ .pausedAfter n) (len : Nat) :
    exchangeAfter extent len = .elsewhere := by
  cases extent with
  | complete | declinedAt => rfl
  | pausedAfter n => exact absurd rfl (ended n)

theorem exchangeAfter_paused {n len : Nat} (within : n < len) : exchangeAfter (.pausedAfter n) len = .sending :=
  if_neg (Nat.not_le.mpr within)

theorem take_bytesTaken_declined (frame : List SentByte) (n : Nat) :
    frame.take (bytesTaken (.declinedAt n) frame.length) = frame.take (n + 1) := List.take_eq_take_iff.mpr (by simp [bytesTaken])

theorem take_bytesTaken_paused (frame : List SentByte) (n : Nat) :
    frame.take (bytesTaken (.pausedAfter n) frame.length) = frame.take n := List.take_eq_take_iff.mpr (by simp [bytesTaken])

section
variable (s : State) (extent : ReadExtent)

/-- A response read starts an exchange, and sends of the answer what the host takes. -/
theorem State.send_eq (bytes : List Byte) :
    s.send bytes extent = { s with
      link := { s.link with
        exchange := exchangeAfter extent (s.framed bytes).length
        idleTimer := false
        sent := (s.framed bytes).take (bytesTaken extent (s.framed bytes).length) }
      events := { s.events with notice := none } } := rfl

variable {s}

theorem State.readResponse_empty (empty : s.link.response = .empty) : s.readResponse extent = s.declineRead := by
  simp only [State.readResponse, empty]

theorem State.readResponse_sends {bytes : List Byte} (reads : s.link.Reads bytes) :
    s.readResponse extent = s.send bytes extent := by
  obtain ⟨response, rfl⟩ | ⟨body, response, rfl⟩ | ⟨code, body, response, rfl⟩ := reads <;>
    simp only [State.readResponse, response]
  all_goals rfl

variable (s)

/-- Only the exchange, its timer, the bytes sent and the notice in progress are any concern of a response read: the buffer stays. -/
theorem State.readResponse_eq :
    s.readResponse extent = { s with
      link := { s.link with
        exchange := (s.readResponse extent).link.exchange
        idleTimer := false
        sent := (s.readResponse extent).link.sent }
      events := { s.events with notice := none } } := by
  unfold State.readResponse
  split <;> rfl

variable {extent}

theorem State.readResponse_ended (ended : ∀ n, extent ≠ .pausedAfter n) :
    (s.readResponse extent).link.exchange = .elsewhere := by
  unfold State.readResponse
  split
  · rfl
  · exact exchangeAfter_ended ended _
  · exact exchangeAfter_ended ended _

variable {s} (extent)

theorem exec_responseRead (received : s.receives) (repeated : s.link.exchange.fresh = false) :
    exec (.responseRead extent) s = .next (s.readResponse extent) := by
  obtain ⟨operating, sound⟩ := received
  rw [exec, execResponseRead, s.whileOperating_of_operating _ operating, State.addressedForRead, if_neg sound,
    if_neg (by simp [repeated])]

end

/-- Settles O46: with the buffer EMPTY the read is declined, and otherwise the buffer decides on the bytes and the host on how far
they go. -/
theorem responseReadAnswers : Obligations.ResponseReadAnswers := by
  intro s extent received repeated
  refine ⟨_, exec_responseRead extent received repeated, s.readResponse_eq extent, s.readResponse_ended, fun empty => ?_,
    fun bytes (reads : s.link.Reads bytes) => ?_⟩
  · rw [State.readResponse_empty extent empty]
    exact ⟨rfl, rfl⟩
  · intro check frame
    have framed : s.framed bytes = frame := s.framed_eq bytes
    rw [State.readResponse_sends extent reads, s.send_eq extent bytes, framed]
    refine ⟨?_, ?_, ?_⟩
    · rintro rfl
      exact List.take_length
    · rintro n rfl
      exact take_bytesTaken_declined frame n
    · rintro n rfl
      exact ⟨take_bytesTaken_paused frame n, exchangeAfter_paused⟩

/-! ### The part's own notices (R166, R168) -/

theorem State.mayStartNotice_iff (s : State) :
    s.mayStartNotice = true ↔ s.link.exchange = .idle ∧ s.link.idleTimer = true ∧ s.events.noticeOn = true
      ∧ s.events.noticePending = true := by
  simp [State.mayStartNotice, and_assoc]

/-- Only the exchange, its timer, the buffer and the notice in progress are any concern of a notice's START. -/
theorem State.startNotice_eq (s : State) (rival : Option Byte) :
    s.startNotice rival = { s with
      link := { s.link with
        exchange := (s.startNotice rival).link.exchange
        idleTimer := false
        response := (s.startNotice rival).link.response }
      events := { s.events with notice := none } } := by
  unfold State.startNotice State.meetRival State.judgeAddress
  simp only
  repeat' split
  all_goals rfl

theorem exec_noticeStart {s : State} (operating : s.operating = true) (rival : Option Byte) :
    exec (.noticeStart rival) s = .next (if s.mayStartNotice then s.startNotice rival else s) := by
  rw [exec, execNoticeStart, s.whileOperating_of_operating _ operating]

theorem exec_noticeWithdraw {s : State} (operating : s.operating = true) (starting : s.link.exchange = .starting) :
    exec .noticeWithdraw s = .next s.stopExchange := by
  rw [exec, execNoticeWithdraw, s.whileOperating_of_operating _ operating, if_pos starting]

/-- Settles O48: the conditions of R166, the arbitration by the rival's address byte, and the STOP that withdraws a START. -/
theorem noticeStartsUnderArbitration : Obligations.NoticeStartsUnderArbitration := by
  intro s rival operating own may
  have run := exec_noticeStart operating rival
  refine ⟨fun barred => ?_, fun allowed => ?_, fun starting => ?_⟩
  · rw [run, if_neg (mt s.mayStartNotice_iff.mp barred)]
  · rw [if_pos (s.mayStartNotice_iff.mpr allowed)] at run
    let u := s.startExchange .starting
    refine ⟨_, run, s.startNotice_eq rival, ?_, ?_, ?_, ?_⟩
    · rintro rfl
      rfl
    · rintro b rfl higher
      exact congrArg (·.link.exchange) (u.meetRival_higher higher)
    · rintro rfl
      have wins : s.startNotice (some (own ++ 0#1)) = u.addressedForWrite .receiving := u.meetRival_own
      rw [wins]
      exact ⟨rfl, rfl⟩
    · rintro b rfl lower
      exact congrArg (·.link.exchange) (u.meetRival_lower lower)
  · refine ⟨_, exec_noticeWithdraw operating starting, rfl, rfl, fun none => ?_, rfl, rfl⟩
    rw [State.stopExchange_events, EventUnit.stopNotice, none]

/-! ### The resets and the supply (R143, R169, R171) -/

/-- What the beginning of a power-on or pin reset clears: every block is held in its reset state, but for the levels at the detector
pins (R171, log 18). -/
structure State.ClearedFrom (s t : State) : Prop where
  table : t.table = []
  queue : t.queue = []
  tableOp : t.tableOp = none
  sweepClaim : t.sweepClaim = none
  pass : t.pass = {}
  passTimer : t.passTimer = false
  config : t.config = {}
  monitor : t.monitor = .absent
  channels : ∀ k : ChannelIx, t.channel k = {}
  slots : ∀ k : Fin 64, t.slot k = 0
  groups : ∀ g : Fin 8, t.group g = {}
  events : t.events = {}
  lines : ∀ i : LineId, t.line i = { level := (s.line i).level }
  exchange : t.link.exchange = .idle
  response : t.link.response = .empty
  idleTimer : t.link.idleTimer = false
  armedPart : t.link.armedPart = false
  armedInterface : t.link.armedInterface = false

theorem State.heldReset_cleared (s : State) : s.ClearedFrom s.heldReset := by
  refine ⟨rfl, rfl, rfl, rfl, rfl, rfl, rfl, rfl, State.reset_channel, fun k => ?_, fun g => ?_, rfl, fun i => ?_, rfl, rfl, rfl, rfl,
    rfl⟩
  · simp [State.slot, State.heldReset, State.blockReset, State.reset]
  · simp [State.group, State.heldReset, State.blockReset, State.reset]
  · cases i <;> rfl

/-- Settles O49: the beginning of each reset by what it clears, its end by what it samples and records. -/
theorem resetsBeginAndEnd : Obligations.ResetsBeginAndEnd := by
  intro s straps cleared sampled
  have clears {u t : State} (lines : ∀ i, u.line i = s.line i) (h : u.ClearedFrom t) (held : t.operating = false) : cleared t :=
    ⟨h.table, h.queue, h.tableOp, h.sweepClaim, h.pass, h.passTimer, h.config, h.monitor, h.channels, h.slots, h.groups, h.events,
      fun i => lines i ▸ h.lines i, h.exchange, h.response, h.idleTimer, h.armedPart, h.armedInterface, held⟩
  refine ⟨?_, fun supplied => ?_, fun hold => ?_, fun low on => ?_, ?_⟩
  · refine ⟨_, rfl, clears (fun i => ?_) (State.heldReset_cleared _) ?_, rfl, rfl⟩
    · cases i <;> rfl
    · simp [State.operating, State.heldReset, State.blockReset]
  · have run : exec .pinResetAssert s = .next ({ s with resetPinLow := true } : State).heldReset :=
      congrArg Host.Outcome.next (if_neg supplied)
    refine ⟨_, run, clears (fun i => ?_) (State.heldReset_cleared _) ?_, rfl, rfl, rfl⟩
    · cases i <;> rfl
    · simp [State.operating, State.heldReset, State.blockReset]
  · exact ⟨_, congrArg Host.Outcome.next (if_pos hold), ⟨rfl, rfl⟩, rfl, rfl, rfl, rfl, rfl, rfl⟩
  · have high : (!s.resetPinLow) ≠ true := by simp [low]
    have supplied : s.supply ≠ .failed := by simp [on]
    have operates : ({ s with resetPinLow := false } : State).operating = true := by simp [State.operating, on]
    exact ⟨_, congrArg Host.Outcome.next ((if_neg high).trans (if_neg supplied)), ⟨rfl, rfl⟩, rfl, operates, operates, rfl, rfl, rfl⟩
  · exact ⟨_, rfl, by simp [State.operating], rfl, rfl, rfl, rfl⟩

end Sys2Proof.Machine
end

section
/-! SUPPORT. The equations of a step, one for each form of the queue of waiting commands (log 1). -/

namespace Sys2Proof.Machine

theorem step_of_pending_cons {c : Instr} {rest : List Instr} {s : State} (waiting : s.pending = c :: rest) :
    step s = exec c { s with pending := rest } := by
  simp only [step, waiting]

theorem step_of_pending_nil {s : State} (idle : s.pending = []) : step s = .next s := by
  simp only [step, idle]

/-- Settles O1: the equations of a step over the two forms of the queue, a command at its front and none. -/
theorem stepRunsFrontCommand : Obligations.StepRunsFrontCommand :=
  ⟨fun _ _ _ waiting => step_of_pending_cons waiting, fun _ idle => step_of_pending_nil idle⟩

end Sys2Proof.Machine
end
